-- ==== Sys2Proof/Word.lean ====
section
/-!
DEFINITION. The word of the two links and of a flash page, and saturating increments.
-/
namespace Sys2Proof

/-- One byte of a link or of a page (Chapter 11). -/
abbrev Byte := BitVec 8

/-- The counter after one more event, saturating at `top` (R5, R51). -/
def satInc (top n : Nat) : Nat := min (n + 1) top

/-- `v` brought to the nearer end of `lo..hi` (0.4, "clamp"). -/
def clampNat (lo hi v : Nat) : Nat := if v < lo then lo else if hi < v then hi else v

/-- `v` brought to the nearer end of `lo..hi`. -/
def clampInt (lo hi v : Int) : Int := if v < lo then lo else if hi < v then hi else v

end Sys2Proof
end

