-- ==== Sys2Proof/Syntax.lean ====
section
/-!
DEFINITION. The commands of the block: one constructor for each row of spec/opcode_table.json, with the operands
the row's event brings in from outside (log entries 2 to 5).
-/
namespace Sys2Proof

/-- An acquisition frame after its CRC check, without the kind (Table 11-3). -/
structure AcqFrame where
  flags   : Byte
  line    : Nat
  station : Nat
  time    : Nat
  payload : List Byte
  deriving DecidableEq, Repr

/-- A raw accelerometer triple in mg (R136). -/
structure Triple where
  x : Int
  y : Int
  z : Int
  deriving DecidableEq, Repr

/-- One answer of the battery front-end, before it is brought into range (R157). -/
structure PackRead where
  current : Int
  voltage : Int
  temp    : Int
  done    : Bool
  deriving DecidableEq, Repr

/-- The outcome of a flash read with the data the array returns (R85).
A list shorter than a page stands for a page whose further bytes are 0. -/
inductive ReadResult where
  | blank
  | clean (data : List Byte)
  | corrected (n : Nat) (data : List Byte)
  | uncorrectable
  deriving DecidableEq, Repr

/-- What the mount learns at one event: how many dies answer, or the end of one page read (R187, R190). -/
inductive MountAnswer where
  | detected (dies : Nat)
  | page (r : ReadResult)
  deriving DecidableEq, Repr

inductive Instr where
  /-- CONTROL_BYTE_RECEIVED -/
  | controlByteReceived (b : Byte)
  /-- LINK_ERROR_CRC: the kind and tag bytes as received. -/
  | linkErrorCrc (kind tag : Byte)
  /-- CONTROL_TIMEOUT -/
  | controlTimeout
  | identify (tag : Byte) (body : List Byte)
  | status (tag : Byte) (body : List Byte)
  | gaugeRead (tag : Byte) (body : List Byte)
  | motionRead (tag : Byte) (body : List Byte)
  | getSettings (tag : Byte) (body : List Byte)
  | putSettings (tag : Byte) (body : List Byte)
  | lineList (tag : Byte) (body : List Byte)
  | lineInfo (tag : Byte) (body : List Byte)
  /-- INTAKE_OPEN: the body is the action byte 1. -/
  | intakeOpen (tag : Byte)
  /-- INTAKE_CLOSE: the body is the action byte 2. -/
  | intakeClose (tag : Byte)
  | filterReset (tag : Byte) (body : List Byte)
  | ackResume (tag : Byte) (body : List Byte)
  | gaugeAnchor (tag : Byte) (body : List Byte)
  | cancel (tag : Byte) (body : List Byte)
  | reset (tag : Byte) (body : List Byte)
  /-- LINK_RESET: the last byte of the RESET reply has been sent. -/
  | linkReset
  | readRecords (tag : Byte) (body : List Byte)
  | lineClose (tag : Byte) (body : List Byte)
  | lineLock (tag : Byte) (body : List Byte)
  | lineUnlock (tag : Byte) (body : List Byte)
  | lineErase (tag : Byte) (body : List Byte)
  | permitLoad (tag : Byte) (body : List Byte)
  | saveSettings (tag : Byte) (body : List Byte)
  | format (tag : Byte) (body : List Byte)
  | closeout (tag : Byte) (body : List Byte)
  | pause (tag : Byte) (body : List Byte)
  | storeCommandAdvance
  | messageSent
  | finalReplyPlaced
  | heldMessageEntry
  /-- POWER_ON: the level of the rate strap, true for 3,000,000 bit/s. -/
  | powerOn (strap : Bool)
  /-- RESET_PIN: the level of the rate strap. -/
  | resetPin (strap : Bool)
  | acquisitionByteReceived (b : Byte)
  /-- HUNT_MARK: the discarded byte that brings the hunt counter to hunt_bytes. -/
  | huntMark (b : Byte)
  | acqCrcFailure
  | acqTimeout
  | malformedFrame (kind : Byte) (f : AcqFrame)
  | openLine (f : AcqFrame)
  | trace (f : AcqFrame)
  | mark (f : AcqFrame)
  | statusFrame (f : AcqFrame)
  | closeLine (f : AcqFrame)
  | linkIntervalEnd
  /-- MOTION_SAMPLE: an answered triple, or none for a missed read. -/
  | motionSample (r : Option Triple)
  | fallStart (r : Option Triple)
  | fallEnd (r : Option Triple)
  | impactEnd (r : Option Triple)
  | settle (r : Option Triple)
  | roughSettle (r : Option Triple)
  | sensorFault (r : Option Triple)
  | sensorRecovery (r : Option Triple)
  | handlingDecay
  /-- GAUGE_SAMPLE: an answered read, or none for a missed sample. -/
  | gaugeSample (r : Option PackRead)
  | reserveRaise (r : Option PackRead)
  | reserveClear (r : Option PackRead)
  | collapse (r : Option PackRead)
  | collapseRecovery (r : Option PackRead)
  | emptyAnchor (r : Option PackRead)
  | dieDispatch (die : Nat)
  | programComplete (die : Nat) (pass : Bool)
  | readbackComplete (die : Nat) (r : ReadResult)
  | retrievalReadComplete (die : Nat) (r : ReadResult)
  | relocationReadComplete (die : Nat) (r : ReadResult)
  | relocationRetry
  | indexReadComplete (die : Nat) (r : ReadResult)
  | reopenPoolLoad (line : Nat)
  | eraseComplete (die : Nat) (pass : Bool)
  | operationTimeout (die : Nat)
  | programCountCheckpoint
  | checkpointSnapshot
  | formatEvent
  | pauseQuiet
  | pauseEntry
  | closeoutRelease
  | lowHaltEntry
  | mountReadComplete (a : MountAnswer)
  deriving DecidableEq, Repr

end Sys2Proof
end

