-- ==== Sys2Proof/Config.lean ====
section
/-!
DEFINITION. The fixed numbers of Table 0-4 and what one part fixes when it is made.
-/
namespace Sys2Proof.Config

/-- "Unit serial: a 64-bit number fixed in each part when it is made" (R198).
A free value: no proof can see which number it is (log entry 23). -/
opaque unitSerial : BitVec 64

/-- The level of the rate strap at the `k`th reset that no row gives a level for (R23).
A free value: nothing constrains it (log entry 63). -/
opaque strapLevel (k : Nat) : Bool

def partCode : Nat := 7310
/-- Revision of the part the manual describes (R198). -/
def revision : Nat := 1
def blocksPerDie : Nat := 2048
def pagesPerBlock : Nat := 256
def pageBytes : Nat := 16384
/-- Record bytes of a page after its 64-byte header (R45). -/
def recordBytes : Nat := 16320
def stagingBuffers : Nat := 24
def openSlots : Nat := 4
def lineTableEntries : Nat := 2048
def poolEntries : Nat := 4096
def segmentEntries : Nat := 510
def rootReferences : Nat := 1020
/-- The root store's references of OPEN lines stop at this number (R104). -/
def rootStoreLimit : Nat := 4080
def pagesPerLine : Nat := 520200
def indexReserve : Nat := 8
def replyFifo : Nat := 32
def immediateLimit : Nat := 16
def retrievalLimit : Nat := 8
def waitingCommands : Nat := 4
def maxBody : Nat := 4096
def refreshQueue : Nat := 32
def impactLog : Nat := 32
def programCountLimit : Nat := 1024
def max8 : Nat := 255
def max16 : Nat := 65535
def max32 : Nat := 4294967295
/-- Run-clock ticks wrap here (R175). -/
def clockModulus : Nat := 4294967296
/-- 1 mAh is 14,400 q (section 8.2). -/
def qPerMah : Nat := 14400

end Sys2Proof.Config
end

