-- ==== Sys2Proof/Machine/State.lean ====
section
/-!
DEFINITION. The state of the 7310, block by block as Figure 0-1 lists them, and the state after a POWER-ON reset.
-/
namespace Sys2Proof.Machine

/-! ## Named values (Table 11-14 and the chapters that own them) -/

/-- Power state (R175, Table 9-1). -/
inductive PowerState where | run | light | deep | lowHalt
  deriving DecidableEq, Repr

/-- Store state (Figure 9-1). -/
inductive StoreState where | mounting | blank | ready | closingOut | closedOut | mediaFault
  deriving DecidableEq, Repr

/-- Reset cause (R176). -/
inductive ResetCause where | powerOn | resetPin | linkReset | lowRecovery
  deriving DecidableEq, Repr

/-- Wake cause (R179). -/
inductive WakeCause where | none | control | acquisition | chargeDone | reserve | collapse | impact
  deriving DecidableEq, Repr

/-- Closeout cause (Chapter 9). -/
inductive CloseoutCause where | command | reserve | collapse
  deriving DecidableEq, Repr

/-- Intake state (R32). -/
inductive IntakeState where | closed | opened | suspended
  deriving DecidableEq, Repr

/-- Link state of the acquisition link (R49). -/
inductive LinkState where | good | degraded | lost
  deriving DecidableEq, Repr

/-- Line state (Figure 5-1). -/
inductive LineState where | opened | closing | closed | locked
  deriving DecidableEq, Repr

/-- Motion state (Figure 7-1). -/
inductive MotionState where | calm | falling | impact | settling | fault
  deriving DecidableEq, Repr

/-- Confidence of the gauge (Table 8-4). -/
inductive Confidence where | estimated | counting | anchored
  deriving DecidableEq, Repr

/-- State of a slot's status filter (R41). -/
inductive FilterState where | fresh | once | twice
  deriving DecidableEq, Repr

/-- Impact class (Table 7-2). -/
inductive ImpactClass where | none | slight | minor | moderate | severe | extreme
  deriving DecidableEq, Repr

inductive Axis where | x | y | z
  deriving DecidableEq, Repr

/-- Block state (section 4.2). -/
inductive BlockState where | anchor | free | active | full | reclaimPending | retired
  deriving DecidableEq, Repr

/-- Staging buffer state; FREE is the absence of a buffer record (R53). -/
inductive BufState where | filling | queued | programming | verifying | retained
  deriving DecidableEq, Repr

/-- Who built an image (Table 3-1). -/
inductive Origin where | intake | index | checkpoint | relocation
  deriving DecidableEq, Repr

/-- Page kinds (Table 11-6). -/
inductive PageKind where | data | segment | root | checkpoint | settings
  deriving DecidableEq, Repr

/-- Stored record kinds (Table 11-4). -/
inductive RecordKind where | header | trace | mark | status | handling | gap
  deriving DecidableEq, Repr

/-- Outcome codes, in the order of Table 1-3. -/
inductive Code where
  | ok | partialDone | busy | badTag | tagInUse | unknownKind | badLength | badArgument | noSuchLine | lineLocked
  | lineOpen | lineBusy | storeFull | notReady | closing | resumePending | cancelled | notCancellable | mediaFault
  deriving DecidableEq, Repr

/-- Command kinds, in the order of Table 11-2. -/
inductive CmdKind where
  | identify | status | gaugeRead | motionRead | getSettings | putSettings | lineList | lineInfo | intake
  | filterReset | ackResume | gaugeAnchor | cancel | reset
  | readRecords | lineClose | lineLock | lineUnlock | lineErase | permitLoad | saveSettings | format | closeout | pause
  deriving DecidableEq, Repr

/-- Notice kinds, in the order of Table 1-4. -/
inductive NoticeKind where
  | mounted | resumed | fall | impact | settled | careful | handlingAlarm | battery | reserve | collapse | link
  | intakeRefused | lineClosed | media | space | closeout
  deriving DecidableEq, Repr

/-- INTAKE-REFUSED reasons (Table 11-14). -/
inductive RefuseReason where | permit | locked | busy | tableFull | overrun
  deriving DecidableEq, Repr

/-- LINE-CLOSED reasons (Table 11-14). -/
inductive CloseReason where | slots | instrument | command | limit | closeout | mount
  deriving DecidableEq, Repr

/-- MEDIA events (Table 11-14). -/
inductive MediaEvent where | worn | eraseFail | programFail | timeout | uncorrectable | sequence
  deriving DecidableEq, Repr

/-- Settle types (R144). -/
inductive SettleType where | settled | rough | sensor
  deriving DecidableEq, Repr

/-! ## Flash addresses, records and pages -/

structure Addr where
  die   : Nat
  block : Nat
  page  : Nat
  deriving DecidableEq, Repr

structure Blk where
  die   : Nat
  block : Nat
  deriving DecidableEq, Repr

def Addr.blk (a : Addr) : Blk := { die := a.die, block := a.block }

/-- A stored record (R44, Table 11-4). -/
structure Rec where
  kind       : RecordKind
  degraded   : Bool
  short      : Bool
  suppressed : Bool
  iflags     : Byte
  station    : Nat
  time       : Nat
  arrival    : Nat
  clock      : Nat
  supCount   : Nat
  payload    : List Byte
  deriving DecidableEq, Repr

/-- A page entry (Table 5-4); a LOST entry is one whose location is absent. -/
structure PageEntry where
  loc       : Option Addr
  wseq      : Nat
  first     : Nat
  count     : Nat
  smin      : Nat
  smax      : Nat
  handled   : Bool
  degraded  : Bool
  verified  : Bool
  relocated : Bool
  deriving DecidableEq, Repr

/-- A segment reference (R101); a lost reference has no location. -/
structure SegRef where
  loc   : Option Addr
  wseq  : Nat
  first : Nat
  last  : Nat
  deriving DecidableEq, Repr

/-- A location together with the write sequence found there. -/
structure Loc where
  addr : Addr
  wseq : Nat
  deriving DecidableEq, Repr

/-- The fields of a page header (Table 11-6); 0 in a sequence field means absent. -/
structure PageHdr where
  kind      : PageKind
  handled   : Bool
  degraded  : Bool
  verified  : Bool
  relocated : Bool
  line      : Nat
  wseq      : Nat
  sup       : Nat
  orig      : Nat
  first     : Nat
  count     : Nat
  number    : Nat
  smin      : Nat
  smax      : Nat
  cpSeq     : Nat
  deriving DecidableEq, Repr

/-- What follows a page header (section 11.3). -/
inductive Body where
  | records (rs : List Rec)
  | entries (es : List PageEntry)
  | refs (rs : List SegRef)
  | raw (bs : List Byte)
  deriving DecidableEq, Repr

/-- Which work of the part an image belongs to. -/
inductive Job where
  | intake
  | flush (line seg : Nat)
  /-- `old` is the write sequence of the copy that was read, so that an image of a removed line is told apart. -/
  | segRewrite (line seg old : Nat)
  | closeRoot (line : Nat)
  | rootRewrite (line old : Nat)
  /-- A page copied as it is (R115). -/
  | reloc
  /-- A SEGMENT page found live by relocation, copied as a rewrite of its segment (R105). -/
  | relocRewrite
  | checkpoint (page : Nat)
  | settings
  deriving DecidableEq, Repr

/-- A request of the image wait list: it names the image to be built, which takes its contents when a buffer is handed to it
(R56). A SETTINGS image is built from the copy that SAVE-SETTINGS took when it started (R197), given here as the page's
body. -/
inductive ImageReq where
  | flush (line : Nat)
  | segRewrite (line seg : Nat)
  | closeRoot (line : Nat)
  | rootRewrite (line : Nat)
  | checkpoint (page : Nat)
  | settings (body : List Byte)
  deriving DecidableEq, Repr

/-- A page image as it is built in a staging buffer (R56). -/
structure Image where
  origin : Origin
  hdr    : PageHdr
  body   : Body
  job    : Job
  deriving DecidableEq, Repr

/-- A staging buffer that is not FREE (Table 3-1).
`handed` says that the page as programmed last has been handed to its owner; `reported` is the reported mark. -/
structure Buf where
  st       : BufState
  origin   : Origin
  slot     : Option Nat
  fill     : Nat
  hdr      : PageHdr
  body     : Body
  target   : Option Addr
  exposed  : Bool
  reported : Bool
  handed   : Bool
  job      : Job
  deriving DecidableEq, Repr

/-- The staging buffers and the program queue (Chapter 3). -/
structure Staging where
  /-- The 24 buffers by number; none is FREE (R53). -/
  bufs      : List (Option Buf)
  /-- The program queue, head first (R57). -/
  queue     : List Nat
  /-- The VERIFYING buffers in the order they became VERIFYING (R76); those with the exposed mark are the
  exposed list (R79). -/
  verifying : List Nat
  /-- The image wait list, its first 24, and behind them the held requests (R56). -/
  requests  : List ImageReq
  deriving DecidableEq, Repr

/-! ## The control link unit (Chapter 1) -/

/-- States of the receive parser (Figure 1-1). -/
inductive CtlState where | idle | header | body | check
  deriving DecidableEq, Repr

structure CtlParser where
  st    : CtlState
  half  : Bool
  /-- Bytes of the present state received so far. -/
  count : Nat
  len   : Nat
  kind  : Byte
  tag   : Byte
  body  : List Byte
  /-- The running CRC-16. -/
  crc   : BitVec 16
  /-- The first CRC byte received. -/
  crcLo : Byte
  deriving DecidableEq, Repr

structure StoreCmd where
  kind      : CmdKind
  tag       : Byte
  body      : List Byte
  cancelled : Bool
  deriving DecidableEq, Repr

/-- A final reply that is built and not yet placed (R17). -/
structure Final where
  code    : Code
  content : List Byte
  deriving DecidableEq, Repr

/-- The running position (section 1.4): the command, whether it has been handed to its owner, and its final reply
while that waits for room. -/
structure Running where
  cmd    : StoreCmd
  handed : Bool
  final  : Option Final
  deriving DecidableEq, Repr

/-- Message classes (section 1.6); notices are drawn from their own queue. -/
inductive MsgClass where | immediate | retrieval | final | notice
  deriving DecidableEq, Repr

structure Message where
  cls  : MsgClass
  kind : Byte
  tag  : Byte
  body : List Byte
  deriving DecidableEq, Repr

/-- An entry of the notice queue (section 1.7). -/
structure NoticeEntry where
  kind   : NoticeKind
  detail : List Byte
  count  : Nat
  first  : Nat
  deriving DecidableEq, Repr

structure LinkUnit where
  parser   : CtlParser
  /-- The receiver discards every byte (R11). -/
  discard  : Bool
  running  : Option Running
  waiting  : List StoreCmd
  /-- Commands removed at LOW-HALT whose NOT-READY reply has not entered yet (R14). -/
  removed  : List StoreCmd
  fifo     : List Message
  sending  : Option Message
  notices  : List NoticeEntry
  errCrc   : Nat
  errLen   : Nat
  errTime  : Nat
  dropped  : Nat
  /-- The level of the rate strap, true for 3,000,000 bit/s. -/
  strap    : Bool
  /-- The rate as the strap was sampled at the last reset (R23, R198). -/
  rate3M   : Bool
  deriving DecidableEq, Repr

/-! ## The intake unit (Chapter 2) -/

/-- States of the acquisition parser (Figure 2-1). -/
inductive AcqState where | hunt | header | payload | check
  deriving DecidableEq, Repr

structure AcqParser where
  st      : AcqState
  half    : Bool
  /-- Header bytes received so far, in order. -/
  hdr     : List Byte
  payload : List Byte
  /-- The running CRC-32 register. -/
  crc     : BitVec 32
  /-- CRC bytes received so far. -/
  got     : List Byte
  deriving DecidableEq, Repr

/-- A slot in use (section 2.5); its FILLING buffer is the buffer that names the slot. -/
structure Slot where
  line       : Nat
  ordinal    : Nat
  station    : Nat
  time       : Nat
  filter     : FilterState
  reference  : Option (Nat × List Byte)
  suppressed : Nat
  deriving DecidableEq, Repr

/-- The counters of Table 2-6. -/
structure IntakeCounters where
  frames       : Nat
  stored       : Nat
  crc          : Nat
  overlong     : Nat
  timeouts     : Nat
  huntMarks    : Nat
  malformed    : Nat
  short        : Nat
  closed       : Nat
  suspended    : Nat
  permit       : Nat
  locked       : Nat
  busy         : Nat
  tableFull    : Nat
  orphan       : Nat
  suppressed   : Nat
  overrun      : Nat
  limit        : Nat
  handlingLost : Nat
  gapLost      : Nat
  deriving DecidableEq, Repr

structure Intake where
  parser      : AcqParser
  hunt        : Nat
  /-- Slots 0 to 3; none is a free slot. -/
  slots       : List (Option Slot)
  appends     : Nat
  openReq     : Bool
  /-- The wait line, true for ASSERTED (R34). -/
  wait        : Bool
  lq          : Nat
  linkState   : LinkState
  /-- Elapsed ms of the present link interval (R48). -/
  elapsed     : Nat
  /-- interval_ms as it stood when the present interval began (R48); none after a reset, until an interval has ended or
  interval_ms has changed in the first one: the setting in force is the length till then. -/
  intervalLen : Option Nat
  errored     : Bool
  lostClock   : Option Nat
  counters    : IntakeCounters
  deriving DecidableEq, Repr

/-! ## The flash controller (Chapter 4) -/

/-- What a relocation read or an index read is for (R99, R105, R109, R111, R113, R114). -/
inductive Purpose where
  | walk
  | judgeRoot | judgeSegment
  | searchRoot | searchSegment
  | locate (line : Nat)
  | rewriteSegment (line seg : Nat)
  | rewriteRoot (line : Nat)
  | loadRoot (line : Nat)
  | loadSegment (line : Nat)
  | eraseRoot | eraseSegment
  /-- The root that a root found by the mount replaces: what that new root names, with the entries of each (R191). -/
  | mountRoot (line : Nat) (new : List (SegRef × List PageEntry))
  /-- The segment copy that a copy found by the mount replaces, with the entries of that copy. `pool` where it may be the
  open segment, whose replaced entries were dropped at once (R98, R191). -/
  | mountSegment (line seg : Nat) (new : List PageEntry) (pool : Bool)
  deriving DecidableEq, Repr

structure ReadReq where
  addr    : Addr
  purpose : Purpose
  deriving DecidableEq, Repr

/-- The operation in flight on a die (R69). -/
inductive OpKind where
  | program (buf : Nat) (at_ : Addr)
  | readback (buf : Nat) (at_ : Addr)
  | retrieval (at_ : Addr)
  | relocation (r : ReadReq)
  | erase (block : Nat)
  deriving DecidableEq, Repr

structure Op where
  kind  : OpKind
  start : Nat
  deriving DecidableEq, Repr

structure Active where
  block  : Nat
  erased : Bool
  next   : Nat
  deriving DecidableEq, Repr

/-- A die table entry (R69), with the erases due on the die in the order they became due (R76). -/
structure Die where
  ready  : Bool
  op     : Option Op
  active : Option Active
  due    : List Nat
  deriving DecidableEq, Repr

/-- A block table record (section 4.2); the refresh mark is membership of the refresh queue. -/
structure BlockRec where
  id     : Blk
  st     : BlockState
  erases : Nat
  live   : Nat
  seq    : Nat
  deriving DecidableEq, Repr

structure Flash where
  dies       : List Die
  blocks     : List BlockRec
  freeList   : List Blk
  /-- The last free sequence number given (section 4.3). -/
  freeCtr    : Nat
  pendingRec : List Blk
  refresh    : List Blk
  /-- The die that last started a data program (R77). -/
  lastDie    : Option Nat
  /-- The next settings position, past page 254 when it is above 254 (R90). -/
  setPos     : Nat
  erase0     : Bool
  ringBlock  : Nat
  ringPos    : Nat
  /-- The current ring block waits for its erase (R91). -/
  ringDue    : Bool
  ringFails  : Nat
  /-- The store-full and low conditions as last reported (R75). -/
  fullSeen   : Bool
  lowSeen    : Bool
  /-- Relocation and index reads requested, oldest first (R76, R99). -/
  reads      : List ReadReq
  deriving DecidableEq, Repr

/-! ## The line store (Chapter 5) -/

structure LineFlags where
  handled  : Bool
  degraded : Bool
  cut      : Bool
  loss     : Bool
  damaged  : Bool
  reopened : Bool
  limit    : Bool
  deriving DecidableEq, Repr

/-- A pool entry: loose unless it belongs to the open segment; `out` while a flush image carries it (R102). `moved` says that the
entry was replaced since the segment copy handed last was built, `again` since the image that carries it was (R117). -/
structure PoolEnt where
  e     : PageEntry
  inSeg : Bool
  out   : Bool
  moved : Bool := false
  again : Bool := false
  deriving DecidableEq, Repr

/-- The load of a reopened line's index (R109). -/
inductive Load where
  | none
  | waitRewrites
  | readRoot
  | readSegment
  | waitPool (es : List PageEntry)
  deriving DecidableEq, Repr

/-- The flush image of a line that is asked for and not yet handed (R102, R103): `built` once it has a buffer. -/
structure FlushOut where
  built    : Bool
  stale    : Bool
  pressure : Bool
  deriving DecidableEq, Repr

/-- A line entry (Table 5-2) with its share of the pool and of the root store. -/
structure Line where
  num     : Nat
  st      : LineState
  flags   : LineFlags
  records : Nat
  pages   : Nat
  range   : Option (Nat × Nat)
  next    : Nat
  tFirst  : Option Nat
  tLast   : Option Nat
  /-- The segment count of a line whose references stand in its root page. -/
  segs    : Nat
  root    : Option Loc
  pool    : List PoolEnt
  refs    : List SegRef
  /-- The open segment is marked for rewrite (R103). -/
  rewrite : Bool
  flush   : Option FlushOut
  /-- The ROOT image of the close is built and not yet handed (R107). -/
  rootOut : Bool
  load    : Load
  /-- The segments whose load read failed at a reopen: full ones that retrieval alone reads (R109). -/
  unread  : List Nat
  /-- The data copies that segment copies brought in since the ROOT image of the close was built, each with its segment (R107). -/
  late    : List (Nat × Addr) := []
  deriving DecidableEq, Repr

/-- A pending replacement (R98); `new` is none where the entry becomes LOST (R114). -/
structure Repl where
  line      : Nat
  arrival   : Nat
  old       : Nat
  new       : Option Loc
  verified  : Bool
  relocated : Bool
  /-- The mount found the new copy below the snapshot sequence: it makes no report for it (R191). -/
  prior     : Bool
  deriving DecidableEq, Repr

/-- A segment copy handed for a CLOSED line and not yet named by a root (R105): where it is, the write sequence that
the reference must still name where the copy came by relocation (R115), the old copy's location once a root image carries
the change, the new data copies it holds and the old data copies it replaces. A lost segment has no location. `settled`
marks a copy whose entries are the counted ones: they were replaced in the pool while the ROOT image of the close was out, or
before. `gone` marks one that the root store named already: what the root still names was dropped then. `applied` holds the replacements
that its image carries. -/
structure SegDone where
  line  : Nat
  seg   : Nat
  loc   : Option Addr
  wseq  : Nat
  check : Option Nat
  old   : Option Addr
  news  : List Addr
  drops : List Addr
  settled : Bool
  gone : Bool
  applied : List Repl := []
  deriving DecidableEq, Repr

/-- How far a rewrite has come: it reads the page it replaces, it holds what it read until a buffer takes its image, or its
image is built (R105, R56). -/
inductive RwPhase (α : Type) where
  | reading
  | read (xs : List α)
  | built
  deriving DecidableEq, Repr

/-- A segment rewrite in flight (R105): the data copies that it brings in, the copies those replace, and the replacements that its
image carries. One made from the pool of a line that has since become CLOSED (`pool`) has its entries counted already, all of them
in `whole`. `flush` is the flush that was out as the line became CLOSED and that this rewrite stands for; `again` holds the entries
of the further rewrite that its image, where that was stale, calls for (R103). -/
structure SegRewrite where
  line  : Nat
  seg   : Nat
  ref   : SegRef
  phase : RwPhase PageEntry
  pool  : Bool
  news  : List Addr
  drops : List Addr
  applied : List Repl
  whole : List Addr := []
  flush : Option FlushOut := none
  again : List PageEntry := []
  deriving DecidableEq, Repr

/-- A root rewrite in flight (R105); `old` is the write sequence of the root it replaces. -/
structure RootRewrite where
  line    : Nat
  old     : Nat
  phase   : RwPhase SegRef
  carried : List SegDone
  deriving DecidableEq, Repr

/-- Where the relocation walk stands with the page in hand (R113, R114). -/
inductive WalkPhase where
  | reading
  | judging (hdr : PageHdr) (data : List Byte)
  | retry
  | search (lines : List Nat) (refs : List SegRef) (line : Nat) (seg : Nat)
  deriving DecidableEq, Repr

/-- The relocation walk (R113), with the last root and segment it read (R114). `stopped` marks one whose block ceased to be the head
of the refresh queue while the page in hand was not settled. -/
structure Walk where
  blk     : Blk
  page    : Nat
  phase   : WalkPhase
  heldRoot : Option (Nat × Nat × List SegRef)
  heldSeg  : Option (Nat × Nat × List PageEntry)
  stopped  : Bool := false
  deriving DecidableEq, Repr

/-- One line that a running LINE-ERASE has removed (R111): its root, the segments that no index read reads (R109), the
copies counted for its work under way, the segment copies that stand for those its root names, the entries of a segment that its
pool held last, which stand for those of the copy named, and the replacements pending whose copies the mount did not report. -/
structure ErasedLine where
  root  : Option Loc
  unread : List Nat
  extra : List Addr
  stead : List SegDone
  whole : List Addr := []
  priors : List Repl := []
  deriving DecidableEq, Repr

/-- The LINE-ERASE that is running (R111): its range, the number removed, the lines still to be dropped, and the
references of the first of them still to be read, each with its segment number (none before its root is read). -/
structure EraseJob where
  lo    : Nat
  hi    : Nat
  count : Nat
  lines : List ErasedLine
  refs  : Option (List (Nat × SegRef))
  deriving DecidableEq, Repr

/-- An impact record (R147). -/
structure ImpactRec where
  clock   : Nat
  fall    : Nat
  fallMs  : Nat
  height  : Nat
  peak    : Nat
  axis    : Axis
  cls     : ImpactClass
  exposed : Nat
  deriving DecidableEq, Repr

/-- The permit map (section 2.4); the bits are packed as PERMIT-LOAD carries them. -/
structure Permit where
  base : Nat
  len  : Nat
  bits : List Byte
  deriving DecidableEq, Repr

/-- A checkpoint snapshot (R117, Table 5-5) and how far its pages have come. -/
structure Snapshot where
  seq     : Nat
  nextW   : Nat
  clock   : Nat
  pages   : Nat
  roots   : Nat
  lines   : List Line
  blocks  : List BlockRec
  refs    : List SegRef
  refresh : List Blk
  freeCtr : Nat
  score   : Nat
  log     : List ImpactRec
  fcc     : Nat
  res     : Nat
  permit  : Permit
  /-- Pages handed so far, and the ring blocks that hold them. -/
  handed  : Nat
  used    : List Nat
  deriving DecidableEq, Repr

/-- A checkpoint in progress (R117): its flush step, then its snapshot. -/
inductive Ckpt where
  | flushing (todo wait : List Nat)
  | writing (snap : Snapshot)
  deriving DecidableEq, Repr

/-- Who waits for a checkpoint (R116); a command is the running one. -/
inductive Waiter where | command | closeout | mount
  deriving DecidableEq, Repr

structure LineStore where
  /-- The line table in ascending line number. -/
  lines    : List Line
  /-- The next write sequence value (R119). -/
  wseq     : Nat
  pendings : List Repl
  segRw    : List SegRewrite
  segDone  : List SegDone
  rootRw   : List RootRewrite
  walk     : Option Walk
  erase    : Option EraseJob
  /-- Number of the last checkpoint snapshot. -/
  ckptSeq  : Nat
  progCount : Nat
  ckpt     : Option Ckpt
  /-- The pending mark (R116). -/
  ckptPend : Bool
  /-- Waiters, each with the lowest checkpoint sequence that satisfies it. -/
  waiters  : List (Waiter × Nat)
  /-- Ring blocks that hold the newest complete checkpoint (R91). -/
  ckptBlocks : List Nat
  deriving DecidableEq, Repr

/-! ## The retrieval unit (Chapter 6) -/

/-- What the outstanding retrieval read is for (Table 6-1). -/
inductive RetrPurpose where
  | root
  | segment (seg : Nat) (ref : SegRef)
  | data (e : PageEntry)
  deriving DecidableEq, Repr

structure RetrRead where
  addr    : Addr
  purpose : RetrPurpose
  /-- The die has started it. -/
  started : Bool
  /-- An invalidation of the segment being read was taken since (R132). -/
  stale   : Bool
  deriving DecidableEq, Repr

/-- A message of a retrieval that waits for room: a RECORD, or a DAMAGED with its range (R127). -/
inductive HeldMsg where
  | record (r : Rec)
  | damaged (first last : Nat)
  deriving DecidableEq, Repr

inductive StopReq where | none | cancel | lowHalt | mediaFault
  deriving DecidableEq, Repr

/-- The retrieval context (Table 6-1); the tag is that of the running command. -/
structure RetrCtx where
  line   : Nat
  lo     : Nat
  hi     : Nat
  mask   : Nat
  max    : Nat
  sent   : Nat
  bound  : Nat
  cursor : Nat
  /-- The view is HELD. -/
  held   : Bool
  root   : Option (List SegRef)
  noFill : Bool
  read   : Option RetrRead
  msg    : Option HeldMsg
  /-- Records of the page in hand still to be taken (R125). -/
  todo   : List Rec
  stop   : StopReq
  /-- The final reply has been built. -/
  ended  : Bool
  deriving DecidableEq, Repr

structure Way where
  line    : Nat
  seg     : Nat
  wseq    : Nat
  loc     : Addr
  first   : Nat
  last    : Nat
  entries : List PageEntry
  deriving DecidableEq, Repr

structure CacheSet where
  half  : Bool
  left  : Bool
  right : Bool
  ways  : List (Option Way)
  deriving DecidableEq, Repr

structure Retrieval where
  ctx   : Option RetrCtx
  cache : List CacheSet
  deriving DecidableEq, Repr

/-! ## The motion monitor (Chapter 7) -/

structure Motion where
  lastRaw  : Option Triple
  repeats  : Nat
  missed   : Nat
  st       : MotionState
  lowRun   : Nat
  midRun   : Nat
  quietRun : Nat
  bandRun  : Nat
  recovery : Nat
  fall     : Nat
  pending  : Nat
  start    : Nat
  peak     : Nat
  axis     : Option Axis
  exposed  : Nat
  log      : List ImpactRec
  score    : Nat
  decay    : Nat
  /-- The decay timer counts only after the mount has ended (R151, R155). -/
  decayOn  : Bool
  latch    : Bool
  falls    : Nat
  impacts  : Nat
  noImpact : Nat
  abandoned : Nat
  faults   : Nat
  deriving DecidableEq, Repr

/-! ## The charge gauge (Chapter 8) -/

/-- The last answered sample as brought into range (R157). -/
structure PackSample where
  i    : Int
  v    : Nat
  t    : Int
  sat  : Bool
  done : Bool
  deriving DecidableEq, Repr

/-- An open discharge run (R166). -/
structure Discharge where
  start : Nat
  drawn : Nat
  warm  : Bool
  deriving DecidableEq, Repr

structure Gauge where
  last     : Option PackSample
  /-- The sample before is available for resistance learning (R159, R162). -/
  prevOk   : Bool
  /-- The gauge takes samples (R173). -/
  sampling : Bool
  /-- The voltage estimate has been made (R169). -/
  estimated : Bool
  rc       : Nat
  fcc      : Nat
  res      : Nat
  ring     : List Int
  locked   : Nat
  soc      : Nat
  tte      : Nat
  avg      : Int
  headroom : Int
  conf     : Confidence
  run      : Option Discharge
  reserve  : Bool
  lowRun   : Nat
  clearRun : Nat
  collapse : Bool
  collRun  : Nat
  recRun   : Nat
  emptyRun : Nat
  armed    : Bool
  decade   : Nat
  lastDone : Bool
  answered : Nat
  missed   : Nat
  resUpd   : Nat
  learns   : Nat
  fulls    : Nat
  empties  : Nat
  deriving DecidableEq, Repr

/-! ## The power manager (Chapter 9) -/

/-- An orderly closeout waits for its lines (R182 step 1) or for its checkpoint (step 3), `stuck` when no die could
take a program; or an emergency closeout (R185). -/
inductive CloseoutKind where
  | orderly (released stuck : Bool)
  | emergency
  deriving DecidableEq, Repr

structure Closeout where
  kind  : CloseoutKind
  cause : CloseoutCause
  deriving DecidableEq, Repr

/-- How far a running PAUSE has come (R177). -/
inductive PauseStage where | none | quiet | checkpoint | checkpointed
  deriving DecidableEq, Repr

/-- How far a running FORMAT has come (R112). -/
inductive FormatStage where | none | waiting | checkpoint
  deriving DecidableEq, Repr

/-- A page that the mount has read: its address, its header, and the first 1,244 or more bytes as read. -/
structure ReadPage where
  addr : Addr
  hdr  : PageHdr
  data : List Byte
  deriving DecidableEq, Repr

/-- The scan of the mount (R190): the blocks still to be read in full, the free-list blocks still to be probed of the
die in hand and the count of passed-over blocks in a row, and the dies still to be followed. -/
inductive MountPhase where
  | detect
  | settings (pos : Nat) (best : Option ReadPage)
  | ring (block pos : Nat) (pages : List ReadPage) (blanks : List (Nat × Nat))
  | scan (block : Blk) (page : Nat) (todo : List Blk)
  | probe (block : Blk) (todo : List Blk) (passed : Nat) (dies : List Nat)
  | taken (block : Blk) (page : Nat) (todo : List Blk) (dies : List Nat)
  /-- The pages read are applied in order of write sequence; a page of a line whose load runs waits for it (R191). -/
  | applying (todo : List ReadPage)
  | closing
  | checkpoint
  deriving DecidableEq, Repr

/-- The mount in progress (R187 to R192). -/
structure Mount where
  phase   : MountPhase
  /-- Snapshot sequence of the checkpoint restored (R189). -/
  snapSeq : Nat
  /-- Highest write sequence read anywhere in the mount (R192). -/
  topSeq  : Nat
  /-- A page with an unreadable header was found by the scan (R191). -/
  badPage : Bool
  pages   : List ReadPage
  /-- The blocks recorded ACTIVE, and those of the free list that the scan found taken (R190, R192). -/
  takenBlks : List Blk
  /-- A valid settings page was found (R187). -/
  setFound : Bool
  /-- The lines that the scan created (R191). -/
  made : List Nat
  deriving DecidableEq, Repr

structure Power where
  st        : PowerState
  store     : StoreState
  closeout  : Option Closeout
  /-- The cause of the last orderly closeout while the store is CLOSED-OUT (section 9). -/
  lastCause : Option CloseoutCause
  resetCause : ResetCause
  wake      : WakeCause
  resume    : Bool
  /-- The pause-entry mark, with the power state that the PAUSE reply named (R177). -/
  pauseMark : Option PowerState
  clock     : Nat
  pause     : PauseStage
  fmt       : FormatStage
  mount     : Option Mount
  /-- The store-full condition, the free list and the active blocks as a running PAUSE last judged its buffers by them (R177). -/
  pauseSeen : Option (Bool × List Blk × List (Option Active)) := none
  deriving DecidableEq, Repr

/-! ## The settings store (Chapter 10) -/

structure Settings where
  /-- Items 0 to 41 of the working copy (Table 10-1). -/
  items  : List Nat
  permit : Permit
  /-- Location of the newest saved settings page (R197). -/
  saved  : Option Addr
  deriving DecidableEq, Repr

/-! ## The machine -/

structure State where
  pending  : List Instr
  /-- How many resets have sampled a strap level that no row gives: the model's own counter, which picks the free value
  (R23, log entry 63). -/
  straps   : Nat
  link     : LinkUnit
  intake   : Intake
  staging  : Staging
  flash    : Flash
  store    : LineStore
  retr     : Retrieval
  motion   : Motion
  gauge    : Gauge
  power    : Power
  settings : Settings
  deriving DecidableEq, Repr

/-- The manual stops the part nowhere: every event of the table has an effect in every state, so there is no fault.
The type has no constructor and no meaning answers one; that is safe. -/
inductive Fault where
  deriving DecidableEq, Repr

/-- Why the model gives a command no meaning. -/
inductive Refusal where
  /-- Raised by exec's refused arms alone, for a row that has no meaning yet; safe, for nothing is claimed of it. -/
  | notModelled (mnemonic : String)
  deriving DecidableEq, Repr

/-! ## Reset values -/

/-- The parser in IDLE with the half-sync mark clear (R23). -/
def CtlParser.reset : CtlParser :=
  { st := .idle, half := false, count := 0, len := 0, kind := 0, tag := 0, body := [], crc := 0, crcLo := 0 }

/-- The parser in HUNT with the half-sync mark clear (R52). -/
def AcqParser.reset : AcqParser :=
  { st := .hunt, half := false, hdr := [], payload := [], crc := 0, got := [] }

/-- The control link unit after every reset (R23). -/
def LinkUnit.reset (strap : Bool) : LinkUnit :=
  { parser := .reset, discard := false, running := none, waiting := [], removed := [], fifo := [], sending := none,
    notices := [], errCrc := 0, errLen := 0, errTime := 0, dropped := 0, strap := strap, rate3M := strap }

def IntakeCounters.zero : IntakeCounters :=
  { frames := 0, stored := 0, crc := 0, overlong := 0, timeouts := 0, huntMarks := 0, malformed := 0, short := 0,
    closed := 0, suspended := 0, permit := 0, locked := 0, busy := 0, tableFull := 0, orphan := 0, suppressed := 0,
    overrun := 0, limit := 0, handlingLost := 0, gapLost := 0 }

/-- The intake unit after every reset (R52). -/
def Intake.reset : Intake :=
  { parser := .reset, hunt := 0, slots := [none, none, none, none], appends := 0, openReq := false, wait := true,
    lq := 0, linkState := .good, elapsed := 0, intervalLen := none, errored := false, lostClock := none,
    counters := .zero }

/-- Staging after every reset (R68). -/
def Staging.reset : Staging :=
  { bufs := List.replicate Config.stagingBuffers none, queue := [], verifying := [], requests := [] }

/-- The flash controller after every reset: its state lost, no die detected yet (R93, R198).
The anchor positions are those the mount sets where it finds nothing (R188). -/
def Flash.reset : Flash :=
  { dies := [], blocks := [], freeList := [], freeCtr := 0, pendingRec := [], refresh := [], lastDie := none,
    setPos := 256, erase0 := false, ringBlock := 4, ringPos := 256, ringDue := false, ringFails := 0,
    fullSeen := false, lowSeen := false, reads := [] }

/-- The line store after every reset (R120). The two sequences are the model's choice until the mount sets them (log entry 96). -/
def LineStore.reset : LineStore :=
  { lines := [], wseq := 1, pendings := [], segRw := [], segDone := [], rootRw := [], walk := none, erase := none,
    ckptSeq := 0, progCount := 0, ckpt := none, ckptPend := false, waiters := [], ckptBlocks := [] }

def CacheSet.reset : CacheSet :=
  { half := false, left := false, right := false, ways := [none, none, none, none] }

/-- No context, every way empty and every mark 0 (R133). -/
def Retrieval.reset : Retrieval := { ctx := none, cache := List.replicate 8 .reset }

/-- The motion monitor after every reset (R155). -/
def Motion.reset : Motion :=
  { lastRaw := none, repeats := 0, missed := 0, st := .calm, lowRun := 0, midRun := 0, quietRun := 0, bandRun := 0,
    recovery := 0, fall := 0, pending := 0, start := 0, peak := 0, axis := none, exposed := 0, log := [], score := 0,
    decay := 0, decayOn := false, latch := false, falls := 0, impacts := 0, noImpact := 0, abandoned := 0,
    faults := 0 }

/-- The gauge after a POWER-ON reset (R173). -/
def Gauge.reset : Gauge :=
  { last := none, prevOk := false, sampling := false, estimated := false, rc := 0, fcc := 97920000, res := 120,
    ring := List.replicate 16 0, locked := 0, soc := 0, tte := 65535, avg := 0, headroom := 0, conf := .estimated,
    run := none, reserve := false, lowRun := 0, clearRun := 0, collapse := false, collRun := 0, recRun := 0,
    emptyRun := 0, armed := true, decade := 0, lastDone := false, answered := 0, missed := 0, resUpd := 0,
    learns := 0, fulls := 0, empties := 0 }

/-- The mount at its first step (R187). -/
def Mount.reset : Mount :=
  { phase := .detect, snapSeq := 0, topSeq := 0, badPage := false, pages := [], takenBlks := [], setFound := false,
    made := [] }

/-- The default of every item of Table 10-1. -/
def Settings.defaults : List Nat :=
  [2048, 1, 0, 1, 255, 255, 255, 255, 255, 255, 255, 255, 100, 8, 1, 48, 160, 512, 4, 8, 30, 0, 350, 8, 3000, 800, 1200,
   40, 800, 0, 32, 16, 128, 6800, 2, 6000, 120, 1500, 150, 10, 1, 20]

/-- The default permit map: base 1, length 4,096, every bit 1 (R194). -/
def Permit.default : Permit := { base := 1, len := 4096, bits := List.replicate 512 0xFF#8 }

/-- The settings store after a POWER-ON reset (R194); the saved page is set by the mount (R197). -/
def Settings.reset : Settings := { items := Settings.defaults, permit := .default, saved := none }

/-- The power manager after a reset that finds the collapse mark clear (R176). -/
def Power.reset (cause : ResetCause) (clock : Nat) : Power :=
  { st := .run, store := .mounting, closeout := none, lastCause := none, resetCause := cause, wake := .none,
    resume := false, pauseMark := none, clock := clock, pause := .none, fmt := .none, mount := some .reset }

/-- The machine right after a POWER-ON reset with the rate strap low: the mount has not detected the dies yet. -/
def State.reset : State :=
  { pending := [], straps := 0, link := .reset false, intake := .reset, staging := .reset, flash := .reset, store := .reset,
    retr := .reset, motion := .reset, gauge := .reset, power := .reset .powerOn 0, settings := .reset }

end Sys2Proof.Machine
end

