-- ==== Sys2Proof/Machine/Formats.lean ====
section
/-!
DEFINITION. Chapter 11: byte order, the two CRCs, the codes of named values, and the byte layouts of records, pages,
frames and checkpoint pages, written and read.
-/
namespace Sys2Proof.Machine

/-! ## Byte order (R199) -/

def byteOf (n : Nat) : Byte := BitVec.ofNat 8 n

/-- `n` in `w` bytes, least significant byte first (R199). -/
def le : Nat → Nat → List Byte
  | 0, _ => []
  | w + 1, n => byteOf n :: le w (n / 256)

def le1 (n : Nat) : List Byte := le 1 n
def le2 (n : Nat) : List Byte := le 2 n
def le4 (n : Nat) : List Byte := le 4 n
def le8 (n : Nat) : List Byte := le 8 n

/-- A value that may be negative, in two's complement of `w` bytes (R201). -/
def leInt (w : Nat) (i : Int) : List Byte := le w ((i % (256 ^ w : Nat)).toNat)

/-- A flag, mark or level in one byte (R201). -/
def leBool (b : Bool) : List Byte := [if b then 1 else 0]

/-- The value of bytes, least significant first. -/
def ofLe : List Byte → Nat
  | [] => 0
  | b :: bs => b.toNat + 256 * ofLe bs

/-- Byte `i` of a page or a body; a byte past its end reads 0. -/
def byteAt (bs : List Byte) (i : Nat) : Byte := bs.getD i 0

/-- The field of `w` bytes at offset `off`. -/
def field : Nat → List Byte → Nat → Nat
  | 0, _, _ => 0
  | w + 1, bs, off => (byteAt bs off).toNat + 256 * field w bs (off + 1)

/-- `n` bytes from offset `off`, zero-filled past the end. -/
def slice (bs : List Byte) (off n : Nat) : List Byte :=
  let got := (bs.drop off).take n
  got ++ List.replicate (n - got.length) 0

def bit (b : Byte) (i : Nat) : Bool := b.getLsbD i

def bits4 (a b c d : Bool) : Nat :=
  (if a then 1 else 0) + (if b then 2 else 0) + (if c then 4 else 0) + (if d then 8 else 0)

/-! ## The check codes (R200) -/

def crc16Shift (c : BitVec 16) : BitVec 16 :=
  if c.getLsbD 15 then (c <<< 1) ^^^ 0x1021#16 else c <<< 1

/-- One byte into the CRC-16 register: XORed into its upper 8 bits, then eight left shifts. -/
def crc16Byte (c : BitVec 16) (b : Byte) : BitVec 16 :=
  let c := c ^^^ ((b.zeroExtend 16) <<< 8)
  crc16Shift (crc16Shift (crc16Shift (crc16Shift (crc16Shift (crc16Shift (crc16Shift (crc16Shift c)))))))

def crc16 (bs : List Byte) : BitVec 16 := bs.foldl crc16Byte 0xFFFF#16

def crc32Shift (c : BitVec 32) : BitVec 32 :=
  if c.getLsbD 0 then (c >>> 1) ^^^ 0x82F63B78#32 else c >>> 1

/-- One byte into the CRC-32 register: XORed into its lower 8 bits, then eight right shifts. -/
def crc32Byte (c : BitVec 32) (b : Byte) : BitVec 32 :=
  let c := c ^^^ (b.zeroExtend 32)
  crc32Shift (crc32Shift (crc32Shift (crc32Shift (crc32Shift (crc32Shift (crc32Shift (crc32Shift c)))))))

def crc32Init : BitVec 32 := 0xFFFFFFFF#32
def crc32Final (c : BitVec 32) : BitVec 32 := c ^^^ 0xFFFFFFFF#32
def crc32 (bs : List Byte) : BitVec 32 := crc32Final (bs.foldl crc32Byte crc32Init)

/-! ## Codes of named values (Table 11-14, section 11.1)

What a code that is in no table is read as, by the four `ofCode` that a checkpoint body goes through, is the model's choice
(log entry 115).
-/

def PowerState.code : PowerState → Nat | .run => 0 | .light => 1 | .deep => 2 | .lowHalt => 3
def StoreState.code : StoreState → Nat
  | .mounting => 0 | .blank => 1 | .ready => 2 | .closingOut => 3 | .closedOut => 4 | .mediaFault => 5
def ResetCause.code : ResetCause → Nat | .powerOn => 0 | .resetPin => 1 | .linkReset => 2 | .lowRecovery => 3
def WakeCause.code : WakeCause → Nat
  | .none => 0 | .control => 1 | .acquisition => 2 | .chargeDone => 3 | .reserve => 4 | .collapse => 5 | .impact => 6
def CloseoutCause.code : CloseoutCause → Nat | .command => 0 | .reserve => 1 | .collapse => 2
def IntakeState.code : IntakeState → Nat | .closed => 0 | .opened => 1 | .suspended => 2
def LinkState.code : LinkState → Nat | .good => 0 | .degraded => 1 | .lost => 2
def LineState.code : LineState → Nat | .opened => 0 | .closing => 1 | .closed => 2 | .locked => 3
def LineState.ofCode : Nat → LineState | 0 => .opened | 1 => .closing | 2 => .closed | _ => .locked
def MotionState.code : MotionState → Nat | .calm => 0 | .falling => 1 | .impact => 2 | .settling => 3 | .fault => 4
def SettleType.code : SettleType → Nat | .settled => 0 | .rough => 1 | .sensor => 2
def Confidence.code : Confidence → Nat | .estimated => 0 | .counting => 1 | .anchored => 2
def RefuseReason.code : RefuseReason → Nat
  | .permit => 0 | .locked => 1 | .busy => 2 | .tableFull => 3 | .overrun => 4
def CloseReason.code : CloseReason → Nat
  | .slots => 0 | .instrument => 1 | .command => 2 | .limit => 3 | .closeout => 4 | .mount => 5
def MediaEvent.code : MediaEvent → Nat
  | .worn => 0 | .eraseFail => 1 | .programFail => 2 | .timeout => 3 | .uncorrectable => 4 | .sequence => 5
def Axis.code : Axis → Nat | .x => 0 | .y => 1 | .z => 2
def Axis.ofCode : Nat → Axis | 0 => .x | 1 => .y | _ => .z
def ImpactClass.code : ImpactClass → Nat
  | .none => 0 | .slight => 1 | .minor => 2 | .moderate => 3 | .severe => 4 | .extreme => 5
def ImpactClass.ofCode : Nat → ImpactClass
  | 0 => .none | 1 => .slight | 2 => .minor | 3 => .moderate | 4 => .severe | _ => .extreme
def BlockState.code : BlockState → Nat
  | .anchor => 1 | .free => 2 | .active => 3 | .full => 4 | .reclaimPending => 5 | .retired => 6
def BlockState.ofCode : Nat → Option BlockState
  | 1 => some .anchor | 2 => some .free | 3 => some .active | 4 => some .full | 5 => some .reclaimPending
  | 6 => some .retired | _ => none
def PageKind.code : PageKind → Nat | .data => 1 | .segment => 2 | .root => 3 | .checkpoint => 4 | .settings => 5
def PageKind.ofCode : Nat → Option PageKind
  | 1 => some .data | 2 => some .segment | 3 => some .root | 4 => some .checkpoint | 5 => some .settings | _ => none
def RecordKind.code : RecordKind → Nat
  | .header => 1 | .trace => 2 | .mark => 3 | .status => 4 | .handling => 5 | .gap => 6
def RecordKind.ofCode : Nat → Option RecordKind
  | 1 => some .header | 2 => some .trace | 3 => some .mark | 4 => some .status | 5 => some .handling | 6 => some .gap
  | _ => none
/-- "The outcome codes take the values 0 to 18 in the order of Table 1-3." -/
def Code.code : Code → Nat
  | .ok => 0 | .partialDone => 1 | .busy => 2 | .badTag => 3 | .tagInUse => 4 | .unknownKind => 5 | .badLength => 6
  | .badArgument => 7 | .noSuchLine => 8 | .lineLocked => 9 | .lineOpen => 10 | .lineBusy => 11 | .storeFull => 12
  | .notReady => 13 | .closing => 14 | .resumePending => 15 | .cancelled => 16 | .notCancellable => 17
  | .mediaFault => 18
/-- "The notice kinds take the values 0 to 15 in the order of Table 1-4." -/
def NoticeKind.code : NoticeKind → Nat
  | .mounted => 0 | .resumed => 1 | .fall => 2 | .impact => 3 | .settled => 4 | .careful => 5 | .handlingAlarm => 6
  | .battery => 7 | .reserve => 8 | .collapse => 9 | .link => 10 | .intakeRefused => 11 | .lineClosed => 12
  | .media => 13 | .space => 14 | .closeout => 15
/-- Table 11-2. -/
def CmdKind.code : CmdKind → Byte
  | .identify => 0x01 | .status => 0x02 | .gaugeRead => 0x03 | .motionRead => 0x04 | .getSettings => 0x05
  | .putSettings => 0x06 | .lineList => 0x07 | .lineInfo => 0x08 | .intake => 0x09 | .filterReset => 0x0A
  | .ackResume => 0x0B | .gaugeAnchor => 0x0C | .cancel => 0x0D | .reset => 0x0E | .readRecords => 0x20
  | .lineClose => 0x21 | .lineLock => 0x22 | .lineUnlock => 0x23 | .lineErase => 0x24 | .permitLoad => 0x25
  | .saveSettings => 0x26 | .format => 0x27 | .closeout => 0x28 | .pause => 0x29
def CmdKind.ofCode (b : Byte) : Option CmdKind :=
  match b.toNat with
  | 0x01 => some .identify | 0x02 => some .status | 0x03 => some .gaugeRead | 0x04 => some .motionRead
  | 0x05 => some .getSettings | 0x06 => some .putSettings | 0x07 => some .lineList | 0x08 => some .lineInfo
  | 0x09 => some .intake | 0x0A => some .filterReset | 0x0B => some .ackResume | 0x0C => some .gaugeAnchor
  | 0x0D => some .cancel | 0x0E => some .reset | 0x20 => some .readRecords | 0x21 => some .lineClose
  | 0x22 => some .lineLock | 0x23 => some .lineUnlock | 0x24 => some .lineErase | 0x25 => some .permitLoad
  | 0x26 => some .saveSettings | 0x27 => some .format | 0x28 => some .closeout | 0x29 => some .pause
  | _ => none
/-- Store commands stand in the second half of Table 1-1. -/
def CmdKind.isStore : CmdKind → Bool
  | .readRecords | .lineClose | .lineLock | .lineUnlock | .lineErase | .permitLoad | .saveSettings | .format
  | .closeout | .pause => true
  | .identify | .status | .gaugeRead | .motionRead | .getSettings | .putSettings | .lineList | .lineInfo | .intake
  | .filterReset | .ackResume | .gaugeAnchor | .cancel | .reset => false

def kindRecord : Byte := 0x40
def kindDamaged : Byte := 0x41
def kindLinkError : Byte := 0x42
def kindNotice : Byte := 0x43

/-- The parser states that a TIMEOUT names (Table 11-14). -/
def CtlState.code : CtlState → Nat | .idle => 0 | .header => 1 | .body => 2 | .check => 3

/-! ## Records (Tables 11-4, 11-5, 11-9) -/

/-- Bytes a record of payload length `p` occupies (R44). -/
def recordSize (p : Nat) : Nat := 32 + 4 * ((p + 3) / 4)

def Rec.size (r : Rec) : Nat := recordSize r.payload.length

def Rec.bytes (r : Rec) : List Byte :=
  le1 r.kind.code ++ le1 (bits4 r.degraded r.short r.suppressed false) ++ [r.iflags, 0] ++ le4 r.station ++
    le8 r.time ++ le4 r.arrival ++ le4 r.clock ++ le2 r.supCount ++ le2 r.payload.length ++ le4 0 ++ r.payload ++
    List.replicate (4 * ((r.payload.length + 3) / 4) - r.payload.length) 0

/-- The payload of a record read: the zero-filled positions of a HANDLING and of a GAP payload are ignored (Tables 11-5 and
11-9, R199). -/
def readPayload (k : RecordKind) (bs : List Byte) : List Byte :=
  match k with
  | .handling => bs.mapIdx fun i b => if 17 ≤ i ∧ i ≤ 19 then 0 else b
  | .gap => bs.mapIdx fun i b => if i = 3 then 0 else b
  | .header | .trace | .mark | .status => bs

/-- The record at offset `off`; none where the kind is none of Table 11-4. -/
def parseRec (bs : List Byte) (off : Nat) : Option Rec :=
  match RecordKind.ofCode (byteAt bs off).toNat with
  | none => none
  | some k =>
    let fl := byteAt bs (off + 1)
    some { kind := k, degraded := bit fl 0, short := bit fl 1, suppressed := bit fl 2, iflags := byteAt bs (off + 2),
           station := field 4 bs (off + 4), time := field 8 bs (off + 8), arrival := field 4 bs (off + 16),
           clock := field 4 bs (off + 20), supCount := field 2 bs (off + 24),
           payload := readPayload k (slice bs (off + 32) (field 2 bs (off + 26))) }

/-- The records of a DATA page, as many as its header counts (R125). One of a kind that Table 11-4 does not have ends them
(log entry 86). -/
def parseRecs : Nat → List Byte → Nat → List Rec
  | 0, _, _ => []
  | n + 1, bs, off =>
    match parseRec bs off with
    | none => []
    | some r => r :: parseRecs n bs (off + r.size)

def ImpactRec.bytes (r : ImpactRec) : List Byte :=
  le4 r.clock ++ le2 r.fall ++ le2 r.fallMs ++ le4 r.height ++ le2 r.peak ++ le1 r.axis.code ++ le1 r.cls.code ++
    le1 r.exposed ++ [0, 0, 0]

def parseImpact (bs : List Byte) (off : Nat) : ImpactRec :=
  { clock := field 4 bs off, fall := field 2 bs (off + 4), fallMs := field 2 bs (off + 6),
    height := field 4 bs (off + 8), peak := field 2 bs (off + 12), axis := .ofCode (field 1 bs (off + 14)),
    cls := .ofCode (field 1 bs (off + 15)), exposed := field 1 bs (off + 16) }

/-- The GAP payload (Table 11-9). -/
def gapPayload (phaseEnd : Bool) (st : LinkState) (lq len : Nat) : List Byte :=
  leBool phaseEnd ++ le1 st.code ++ le1 lq ++ [0] ++ le4 len

/-! ## Pages and the index (Tables 11-6 to 11-8) -/

def pageMarker : List Byte := [0x5A, 0xC3, 0x71, 0x2E]
def trailerMarker : List Byte := [0x3C, 0x96, 0xE1, 0x0D]

/-- Bytes 0 to 59 of the page header. -/
def PageHdr.bytes60 (h : PageHdr) : List Byte :=
  pageMarker ++ le1 h.kind.code ++ le1 (bits4 h.handled h.degraded h.verified h.relocated) ++ le2 h.line ++
    le4 h.wseq ++ le4 h.sup ++ le4 h.orig ++ le4 h.first ++ le2 h.count ++ le2 h.number ++ le4 h.smin ++ le4 h.smax ++
    le4 h.cpSeq ++ List.replicate 20 0

def PageHdr.bytes (h : PageHdr) : List Byte := h.bytes60 ++ le4 (crc32 h.bytes60).toNat

/-- A page header as read; none where the marker or the header CRC fails, or the kind is none of Table 11-6: the model takes such a
page as one whose header CRC fails (log entry 119). -/
def parseHdr (bs : List Byte) : Option PageHdr :=
  let head := slice bs 0 60
  if head.take 4 ≠ pageMarker ∨ field 4 bs 60 ≠ (crc32 head).toNat then none
  else
    match PageKind.ofCode (byteAt bs 4).toNat with
    | none => none
    | some k =>
      let fl := byteAt bs 5
      some { kind := k, handled := bit fl 0, degraded := bit fl 1, verified := bit fl 2, relocated := bit fl 3,
             line := field 2 bs 6, wseq := field 4 bs 8, sup := field 4 bs 12, orig := field 4 bs 16,
             first := field 4 bs 20, count := field 2 bs 24, number := field 2 bs 26, smin := field 4 bs 28,
             smax := field 4 bs 32, cpSeq := field 4 bs 36 }

/-- Die, page and block as the first 4 bytes of a page entry (Table 11-7, R201); an absent location is 0. -/
def locBytes : Option Addr → List Byte
  | none => le4 0
  | some a => le1 a.die ++ le1 a.page ++ le2 a.block

def parseAddr (bs : List Byte) (off : Nat) : Addr :=
  { die := field 1 bs off, page := field 1 bs (off + 1), block := field 2 bs (off + 2) }

def PageEntry.bytes (e : PageEntry) : List Byte :=
  locBytes e.loc ++ le4 e.wseq ++ le4 e.first ++ le2 e.count ++
    le1 (bits4 e.handled e.degraded e.verified e.relocated + (if e.loc.isNone then 16 else 0)) ++ [0] ++ le4 e.smin ++
    le4 e.smax ++ le8 0

def parseEntry (bs : List Byte) (off : Nat) : PageEntry :=
  let fl := byteAt bs (off + 14)
  { loc := if bit fl 4 then none else some (parseAddr bs off), wseq := field 4 bs (off + 4),
    first := field 4 bs (off + 8), count := field 2 bs (off + 12), smin := field 4 bs (off + 16),
    smax := field 4 bs (off + 20), handled := bit fl 0, degraded := bit fl 1, verified := bit fl 2,
    relocated := bit fl 3 }

def SegRef.bytes (r : SegRef) : List Byte :=
  match r.loc with
  | none => le4 0 ++ le4 0 ++ le4 r.first ++ le4 r.last
  | some a => locBytes (some a) ++ le4 r.wseq ++ le4 r.first ++ le4 r.last

/-- A reference of write sequence 0 is a lost reference with no location (Table 11-8, R199). -/
def parseRef (bs : List Byte) (off : Nat) : SegRef :=
  let w := field 4 bs (off + 4)
  { loc := if w = 0 then none else some (parseAddr bs off), wseq := w, first := field 4 bs (off + 8),
    last := field 4 bs (off + 12) }

/-- `n` items of `w` bytes from offset `off`. -/
def parseMany {α : Type} (f : List Byte → Nat → α) (w : Nat) : Nat → List Byte → Nat → List α
  | 0, _, _ => []
  | n + 1, bs, off => f bs off :: parseMany f w n bs (off + w)

def Body.bytes : Body → List Byte
  | .records rs => (rs.map Rec.bytes).flatten
  | .entries es => (es.map PageEntry.bytes).flatten
  | .refs rs => (rs.map SegRef.bytes).flatten
  | .raw bs => bs

/-- The page image of a header and a body, zero-filled behind (section 11.3). -/
def imageBytes (h : PageHdr) (b : Body) : List Byte := h.bytes ++ b.bytes

def pageEntries (h : PageHdr) (data : List Byte) : List PageEntry := parseMany parseEntry 32 h.count data 64
def pageRefs (h : PageHdr) (data : List Byte) : List SegRef := parseMany parseRef 16 h.count data 64
def pageRecs (h : PageHdr) (data : List Byte) : List Rec := parseRecs h.count data 64

/-- The data of a read that was CLEAN or CORRECTED (R85). -/
def readData : ReadResult → Option (List Byte)
  | .blank => none
  | .clean d => some d
  | .corrected _ d => some d
  | .uncorrectable => none

/-- Header and data of a read whose header holds. -/
def readPage (r : ReadResult) : Option (PageHdr × List Byte) :=
  match readData r with
  | none => none
  | some d => (parseHdr d).map fun h => (h, d)

/-! ## Settings page and permit map -/

/-- The permit bits with the bits past `len - 1` and the bytes past the last one as 0 (R199). -/
def permitBits (len : Nat) : List Byte → List Byte
  | [] => []
  | b :: bs => if len = 0 then [] else if len < 8 then [b &&& byteOf (2 ^ len - 1)] else b :: permitBits (len - 8) bs

/-- The map of a PERMIT-LOAD body (Table 11-2). -/
def parsePermit (bs : List Byte) (off : Nat) : Permit :=
  let len := field 2 bs (off + 2)
  { base := field 2 bs off, len := len, bits := permitBits len (slice bs (off + 4) ((len + 7) / 8)) }

def Permit.bytes (p : Permit) : List Byte := le2 p.base ++ le2 p.len ++ p.bits

/-- A permit map is well formed: base 1..65,535, length at most 4,096, base plus length at most 65,536 (R194). -/
def Permit.ok (p : Permit) : Bool := decide (1 ≤ p.base) && decide (p.len ≤ 4096) && decide (p.base + p.len ≤ 65536)

/-- Line `n` is permitted (section 2.4). -/
def Permit.allows (p : Permit) (n : Nat) : Bool :=
  decide (p.base ≤ n) && decide (n < p.base + p.len) && bit (byteAt p.bits ((n - p.base) / 8)) ((n - p.base) % 8)

/-- The body of a SETTINGS page: items 0 to 41, then the permit map. -/
def settingsBody (items : List Nat) (p : Permit) : List Byte := (items.map le2).flatten ++ p.bytes

/-! ## Checkpoint pages (section 11.5) -/

def LineFlags.code (f : LineFlags) : Nat :=
  bits4 f.handled f.degraded f.cut f.loss +
    16 * ((if f.damaged then 1 else 0) + (if f.reopened then 2 else 0) + (if f.limit then 4 else 0))

def LineFlags.ofByte (b : Byte) : LineFlags :=
  { handled := bit b 0, degraded := bit b 1, cut := bit b 2, loss := bit b 3, damaged := bit b 4, reopened := bit b 5,
    limit := bit b 6 }

/-- The references of a line stand in its root page (Table 5-1), or still wait to be loaded from there (R109). -/
def Line.indexInRoot (l : Line) : Bool :=
  match l.st with
  | .closed | .locked => true
  | .opened | .closing =>
    match l.load with
    | .waitRewrites | .readRoot => true
    | .none | .readSegment | .waitPool _ => false

def Line.segCount (l : Line) : Nat := if l.indexInRoot then l.segs else l.refs.length

/-- The references that the root section of a checkpoint holds for the line, or those of its root page (R117). -/
def Line.stored (l : Line) : Nat :=
  match l.st with
  | .closed | .locked => l.segs
  | .opened | .closing => l.refs.length

/-- Table 11-11. -/
def Line.bytes (l : Line) : List Byte :=
  le2 l.num ++ le1 l.st.code ++ le1 l.flags.code ++ le4 l.records ++ le4 l.pages ++ le4 ((l.range.map Prod.fst).getD 0) ++
    le4 ((l.range.map Prod.snd).getD 0) ++ le4 l.next ++ le8 (l.tFirst.getD 0) ++ le8 (l.tLast.getD 0) ++
    le2 l.stored ++ le2 0 ++ locBytes (l.root.map Loc.addr) ++ le4 ((l.root.map Loc.wseq).getD 0) ++ le4 0

/-- The line of a line record; none at a position past the last entry. -/
def parseLine (bs : List Byte) (off : Nat) : Option Line :=
  if field 2 bs off = 0 then none
  else
    let pages := field 4 bs (off + 8)
    let w := field 4 bs (off + 48)
    let t1 := field 8 bs (off + 24)
    let t2 := field 8 bs (off + 32)
    some { num := field 2 bs off, st := .ofCode (field 1 bs (off + 2)), flags := .ofByte (byteAt bs (off + 3)),
           records := field 4 bs (off + 4), pages := pages,
           range := if pages = 0 then none else some (field 4 bs (off + 12), field 4 bs (off + 16)),
           next := field 4 bs (off + 20), tFirst := if t1 = 0 then none else some t1,
           tLast := if t2 = 0 then none else some t2, segs := field 2 bs (off + 40),
           root := if w = 0 then none else some { addr := parseAddr bs (off + 44), wseq := w },
           pool := [], refs := [], rewrite := false, flush := none, rootOut := false, load := .none,
           unread := [] }

/-- Table 11-12, the refresh mark given. -/
def BlockRec.bytes (marked : Bool) (b : BlockRec) : List Byte :=
  le1 b.st.code ++ leBool marked ++ le2 b.live ++ le4 b.erases ++ le4 b.seq

def parseBlock (die block : Nat) (bs : List Byte) (off : Nat) : Option BlockRec :=
  (BlockState.ofCode (field 1 bs off)).map fun st =>
    { id := { die := die, block := block }, st := st, live := field 2 bs (off + 2), erases := field 4 bs (off + 4),
      seq := field 4 bs (off + 8) }

def blkBytes (b : Blk) : List Byte := le1 b.die ++ [0] ++ le2 b.block

/-- The body of checkpoint page 0 (Table 11-10). -/
def ckptHeaderBody (s : Snapshot) : List Byte :=
  le4 s.nextW ++ le4 s.clock ++ le1 s.pages ++ le1 s.roots ++ le2 0 ++ le4 s.freeCtr ++ le1 s.refresh.length ++
    [0, 0, 0] ++ (s.refresh.map blkBytes).flatten

/-- Block `b` of die `d` in the recorded table, zero-filled where there is none. -/
def ckptBlockBytes (s : Snapshot) (d b : Nat) : List Byte :=
  match s.blocks.find? fun r => r.id.die == d && r.id.block == b with
  | none => List.replicate 12 0
  | some r => r.bytes (s.refresh.contains r.id)

/-- The body of the trailer page (Table 11-13). -/
def ckptTrailerBody (s : Snapshot) : List Byte :=
  le2 s.score ++ le1 s.log.length ++ [0] ++
    slice (s.log.map ImpactRec.bytes).flatten 0 640 ++ le4 s.fcc ++ le2 s.res ++ le2 0 ++
    slice s.permit.bytes 0 516 ++ trailerMarker ++ le4 s.seq ++ le1 s.pages ++ [0, 0, 0]

/-- The body of checkpoint page `i` (section 11.5). -/
def ckptBody (s : Snapshot) (i : Nat) : List Byte :=
  if i = 0 then ckptHeaderBody s
  else if i ≤ 8 then (((s.lines.drop (256 * (i - 1))).take 256).map Line.bytes).flatten
  else if i ≤ 24 then
    let d := (i - 9) / 2
    if s.blocks.any fun r => r.id.die == d then
      if (i - 9) % 2 = 0 then ((List.range 1360).map fun b => ckptBlockBytes s d b).flatten
      else ((List.range 688).map fun b => ckptBlockBytes s d (1360 + b)).flatten
    else []
  else if i < s.pages - 1 then
    (((s.refs.drop (1020 * (i - 25))).take 1020).map SegRef.bytes).flatten
  else ckptTrailerBody s

def blankHdr (k : PageKind) : PageHdr :=
  { kind := k, handled := false, degraded := false, verified := false, relocated := false, line := 0, wseq := 0,
    sup := 0, orig := 0, first := 0, count := 0, number := 0, smin := 0, smax := 0, cpSeq := 0 }

/-- The image of checkpoint page `i` (R118). -/
def ckptImage (s : Snapshot) (i : Nat) : Image :=
  { origin := .checkpoint,
    hdr := { blankHdr .checkpoint with count := s.pages, number := i, cpSeq := s.seq },
    body := .raw (ckptBody s i), job := .checkpoint i }

/-! ## What a page read is compared by (R80, R199)

A mask has 1 where a bit of the image counts and 0 in a zero-filled position; what lies behind its end is zero-filled too. -/

def maskOn (n : Nat) : List Byte := List.replicate n 0xFF
def maskOff (n : Nat) : List Byte := List.replicate n 0

/-- Two byte strings agree wherever the mask has a 1; a byte past an end reads 0. -/
def agreeUnder : List Byte → List Byte → List Byte → Bool
  | [], _, _ => true
  | m :: ms, as, bs => (as.headD 0 &&& m == bs.headD 0 &&& m) && agreeUnder ms as.tail bs.tail

/-- Table 11-6. The header CRC is left to `agreesWith`, which checks it over the header as read. -/
def PageHdr.mask : List Byte := maskOn 5 ++ [0x0F] ++ maskOn 34 ++ maskOff 24

/-- Table 11-5. -/
def ImpactRec.mask : List Byte := maskOn 17 ++ maskOff 3

/-- The payload of a record (Tables 11-5 and 11-9). -/
def payloadMask (k : RecordKind) (p : Nat) : List Byte :=
  match k with
  | .handling => (ImpactRec.mask ++ maskOn p).take p
  | .gap => (maskOn 3 ++ maskOff 1 ++ maskOn p).take p
  | .header | .trace | .mark | .status => maskOn p

/-- Table 11-4, with the payload and its padding. -/
def Rec.mask (r : Rec) : List Byte :=
  let p := r.payload.length
  maskOn 1 ++ [0x07] ++ maskOn 1 ++ maskOff 1 ++ maskOn 24 ++ maskOff 4 ++ payloadMask r.kind p ++
    maskOff (4 * ((p + 3) / 4) - p)

/-- Table 11-7. -/
def PageEntry.mask : List Byte := maskOn 14 ++ [0x1F] ++ maskOff 1 ++ maskOn 8 ++ maskOff 8

/-- Table 11-11. The line number stands for itself where it is 0: it marks a position past the last entry (log entry 114). -/
def lineMask (bs : List Byte) (j : Nat) : List Byte :=
  if field 2 bs (56 * j) = 0 then maskOn 2 ++ maskOff 54
  else maskOn 3 ++ [0x7F] ++ maskOn 38 ++ maskOff 2 ++ maskOn 8 ++ maskOff 4

/-- Table 11-12. The state stands for itself where it is 0: it names no block (log entry 114). -/
def blockMask (bs : List Byte) (j : Nat) : List Byte := if byteAt bs (12 * j) = 0 then maskOn 1 ++ maskOff 11 else maskOn 12

/-- A permit map of `len` bits (R194). -/
def permitMask (len : Nat) : List Byte := maskOn 4 ++ permitBits len (maskOn ((len + 7) / 8))

/-- Table 11-10. -/
def ckptHeaderMask (bs : List Byte) : List Byte :=
  maskOn 10 ++ maskOff 2 ++ maskOn 5 ++ maskOff 3 ++
    (List.replicate (field 1 bs 16) (maskOn 1 ++ maskOff 1 ++ maskOn 2)).flatten

/-- Table 11-13. -/
def ckptTrailerMask (bs : List Byte) : List Byte :=
  let log := (List.replicate (field 1 bs 2) ImpactRec.mask).flatten
  maskOn 3 ++ maskOff 1 ++ slice log 0 640 ++ maskOn 6 ++ maskOff 2 ++ slice (permitMask (field 2 bs 654)) 0 516 ++ maskOn 9

/-- The body of checkpoint page `i` of `n` (section 11.5). -/
def ckptMask (n i : Nat) (bs : List Byte) : List Byte :=
  if i = 0 then ckptHeaderMask bs
  else if i ≤ 8 then ((List.range 256).map (lineMask bs)).flatten
  else if i ≤ 24 then ((List.range (if (i - 9) % 2 = 0 then 1360 else 688)).map (blockMask bs)).flatten
  else if i + 1 < n then maskOn bs.length
  else ckptTrailerMask bs

/-- The body of an image. -/
def bodyMask (h : PageHdr) : Body → List Byte
  | .records rs => (rs.map Rec.mask).flatten
  | .entries es => (es.map fun _ => PageEntry.mask).flatten
  | .refs rs => (rs.map fun _ => maskOn 16).flatten
  | .raw bs =>
    match h.kind with
    | .checkpoint => ckptMask h.count h.number bs
    | .settings => maskOn 84 ++ permitMask (field 2 bs 86)
    | .data | .segment | .root => maskOn bs.length

/-- The data read equal the image of a page but for its zero-filled positions; a non-zero byte in one of the header has to agree
with the header CRC read (R80, R199). -/
def agreesWith (h : PageHdr) (b : Body) (d : List Byte) : Bool :=
  agreeUnder (PageHdr.mask ++ bodyMask h b) d (imageBytes h b) && field 4 d 60 == (crc32 (slice d 0 60)).toNat

/-! ## Control link frames (Table 11-1) -/

def frameBytes (kind tag : Byte) (body : List Byte) : List Byte :=
  let covered := le2 body.length ++ [kind, tag] ++ body
  [0xE5, 0x1B] ++ covered ++ le2 (crc16 covered).toNat

def Message.bytes (m : Message) : List Byte := frameBytes m.kind m.tag m.body

/-- The body of a reply: outcome, zero, content (section 11.1). -/
def replyBody (c : Code) (content : List Byte) : List Byte := le1 c.code ++ [0] ++ content

def NoticeEntry.message (n : NoticeEntry) : Message :=
  { cls := .notice, kind := kindNotice, tag := 0,
    body := le1 n.kind.code ++ le1 n.count ++ le2 0 ++ le4 n.first ++ n.detail }

end Sys2Proof.Machine
end

