-- ==== Sys2Proof/Machine/Flags.lean ====
section
/-!
DEFINITION. Conditions that follow from the state and are held nowhere else: the settings by name, the intake state,
the careful flag, the write gate, the store-full condition, eligibility, and what is still in staging.
-/
namespace Sys2Proof.Machine

/-! ## Settings items by name (Table 10-1) -/

def Settings.item (c : Settings) (i : Nat) : Nat := c.items.getD i 0

def State.item (s : State) (i : Nat) : Nat := s.settings.item i

def State.maxPayload (s : State) : Nat := s.item 0
def State.discardShort (s : State) : Bool := s.item 1 == 1
def State.overrunErrors (s : State) : Bool := s.item 2 == 1
def State.filterEnable (s : State) : Bool := s.item 3 == 1
def State.filterMask (s : State) (i : Nat) : Byte := byteOf (s.item (4 + i))
def State.intervalMs (s : State) : Nat := s.item 12
def State.lqUp (s : State) : Nat := s.item 13
def State.lqDown (s : State) : Nat := s.item 14
def State.lqDegraded (s : State) : Nat := s.item 15
def State.lqLost (s : State) : Nat := s.item 16
def State.huntBytes (s : State) : Nat := s.item 17
def State.waitMark (s : State) : Nat := s.item 18
def State.goMark (s : State) : Nat := s.item 19
def State.refreshBits (s : State) : Nat := s.item 20
def State.verifyAlways (s : State) : Bool := s.item 21 == 1
def State.ffMg (s : State) : Nat := s.item 22
def State.ffCount (s : State) : Nat := s.item 23
def State.impactMg (s : State) : Nat := s.item 24
def State.bandLo (s : State) : Nat := s.item 25
def State.bandHi (s : State) : Nat := s.item 26
def State.settleCount (s : State) : Nat := s.item 27
def State.settleMax (s : State) : Nat := s.item 28
def State.watchInPause (s : State) : Bool := s.item 29 == 1
def State.carefulOn (s : State) : Nat := s.item 30
def State.carefulOff (s : State) : Nat := s.item 31
def State.alarm (s : State) : Nat := s.item 32
def State.designMah (s : State) : Nat := s.item 33
def State.cells (s : State) : Nat := s.item 34
def State.cutoffMv (s : State) : Nat := s.item 35
def State.r0Mohm (s : State) : Nat := s.item 36
def State.closeoutPeak (s : State) : Nat := s.item 37
def State.marginMv (s : State) : Nat := s.item 38
def State.floorPermille (s : State) : Nat := s.item 39
def State.reserveAction (s : State) : Bool := s.item 40 == 1
def State.lowPermille (s : State) : Nat := s.item 41

/-- The design capacity in q (section 8.2). -/
def State.design (s : State) : Nat := s.designMah * Config.qPerMah

/-! ## Command queue -/

/-- The store command of kind `k` is in the running position and has been handed to its owner (R13). -/
def State.isRunning (s : State) (k : CmdKind) : Bool :=
  match s.link.running with
  | some r => r.handed && r.cmd.kind == k
  | none => false

/-- A tag is in use from admission until the final reply is placed (R8). -/
def State.tagInUse (s : State) (tag : Byte) : Bool :=
  (match s.link.running with
   | some r => r.cmd.tag == tag
   | none => false) || s.link.waiting.any (fun c => c.tag == tag) || s.link.removed.any (fun c => c.tag == tag)

/-! ## Power and intake -/

/-- LIGHT PAUSE or DEEP PAUSE: the transmitter is stopped and the array powered down (Table 9-1). -/
def PowerState.paused : PowerState → Bool
  | .light | .deep => true
  | .run | .lowHalt => false

def State.paused (s : State) : Bool := s.power.st.paused

def State.orderly (s : State) : Bool :=
  match s.power.closeout with
  | some c => match c.kind with | .orderly _ _ => true | .emergency => false
  | none => false

def State.emergency (s : State) : Bool :=
  match s.power.closeout with
  | some c => match c.kind with | .orderly _ _ => false | .emergency => true
  | none => false

/-- A hold condition of R32 stands. -/
def State.held (s : State) : Bool :=
  s.power.st != .run || s.power.store != .ready || s.power.closeout.isSome || s.isRunning .pause ||
    s.power.pauseMark.isSome || s.isRunning .format || s.power.resume

/-- The intake state, derived from the open request, the hold conditions and the link state (R32). -/
def State.intakeState (s : State) : IntakeState :=
  if !s.intake.openReq || s.held then .closed
  else if s.intake.linkState = .lost then .suspended else .opened

/-- The interval timer runs while the intake state is OPEN or SUSPENDED (R48). -/
def State.timerRuns (s : State) : Bool := s.intakeState != .closed

/-- The intake unit may store records (R45, first paragraph). -/
def State.mayStore (s : State) : Bool :=
  s.power.store == .ready && s.power.closeout.isNone && !s.power.resume && s.power.st == .run

/-! ## Motion -/

/-- The careful flag (R153). -/
def State.careful (s : State) : Bool := s.motion.latch || s.motion.st == .fault

/-- Motion closes the write gate (R78). -/
def MotionState.closesGate : MotionState → Bool
  | .falling | .impact | .settling => true
  | .calm | .fault => false

/-! ## Staging -/

def State.buf (s : State) (b : Nat) : Option Buf := (s.staging.bufs.getD b none)

/-- The number of FREE buffers (R53). -/
def State.freeBuffers (s : State) : Nat := s.staging.bufs.countP Option.isNone

/-- The lowest-numbered FREE buffer (log entry 11). -/
def State.freeBuffer (s : State) : Option Nat := s.staging.bufs.findIdx? Option.isNone

/-- The exposed list: the VERIFYING buffers with the exposed mark, in the order they joined (R63, R79). -/
def State.exposedList (s : State) : List Nat :=
  s.staging.verifying.filter fun b => ((s.buf b).map Buf.exposed).getD false

/-- The FILLING buffer of slot `i` (R53). -/
def State.fillingOf (s : State) (i : Nat) : Option Nat :=
  s.staging.bufs.findIdx? fun x => match x with
    | some b => b.st == .filling && b.slot == some i
    | none => false

/-- The buffers of origin INTAKE bound to line `n` whose reported mark is clear: still in staging (R67). -/
def State.stagedBufs (s : State) (n : Nat) : List Buf :=
  (s.staging.bufs.filterMap id).filter fun b => b.origin == .intake && b.hdr.line == n && !b.reported

def State.unprogrammed (s : State) (n : Nat) : Bool := !(s.stagedBufs n).isEmpty

/-- The line's count of records still in staging (R67). -/
def State.stagedRecords (s : State) (n : Nat) : Nat := ((s.stagedBufs n).map fun b => b.hdr.count).sum

/-- The buffer that holds a page targeted at `a` in state `st`. -/
def State.bufAt (s : State) (st : BufState) (a : Addr) : Option Nat :=
  s.staging.bufs.findIdx? fun x => match x with
    | some b => b.st == st && b.target == some a
    | none => false

def isAnchorKind : PageKind → Bool
  | .checkpoint | .settings => true
  | .data | .segment | .root => false

/-! ## Flash -/

def State.die (s : State) (d : Nat) : Option Die := s.flash.dies[d]?

def State.dieReady (s : State) (d : Nat) : Bool := ((s.die d).map Die.ready).getD false

def State.dieIdle (s : State) (d : Nat) : Bool := ((s.die d).map fun x => x.ready && x.op.isNone).getD false

def State.block (s : State) (b : Blk) : Option BlockRec := s.flash.blocks.find? fun r => r.id == b

/-- Blocks 0 to 4 of die 0 are the anchor area (section 4.1). -/
def isAnchor (a : Blk) : Bool := a.die == 0 && decide (a.block < 5)

/-- The number of free-list blocks on READY dies (R75). -/
def State.freeReady (s : State) : Nat := s.flash.freeList.countP fun b => s.dieReady b.die

/-- The store is full while the free list holds 8 or fewer blocks on READY dies (R75). -/
def State.storeFull (s : State) : Bool := decide (s.freeReady ≤ Config.indexReserve)

/-- Data blocks on READY dies that are not RETIRED (R75). -/
def State.usable (s : State) : Nat :=
  s.flash.blocks.countP fun r => r.st != .anchor && r.st != .retired && s.dieReady r.id.die

def State.lowMark (s : State) : Nat := s.usable * s.lowPermille / 1000

def State.spaceLow (s : State) : Bool := decide (s.freeReady ≤ s.lowMark)

/-- A READ-RECORDS is running (R88). -/
def State.retrieving (s : State) : Bool := s.retr.ctx.isSome

/-- A pause state, or the pause-entry mark: wake sources act (R178, R179). -/
def State.pausing (s : State) : Bool := s.paused || s.power.pauseMark.isSome

/-- The OK reply of the running PAUSE is built and waits for room (R17, R177). -/
def State.pauseBuilt (s : State) : Bool :=
  match s.link.running with
  | some r => r.cmd.kind == .pause && ((r.final.map Final.code) == some .ok)
  | none => false

/-- No operation starts at all: the array is powered down, the pause-entry mark is set, or the PAUSE reply that sets it is
built (R78, R178, log entry 80). -/
def State.arrayStopped (s : State) : Bool := s.pausing || s.pauseBuilt

/-- An erase may start (R78). -/
def State.eraseGate (s : State) : Bool :=
  !s.motion.st.closesGate && s.power.st != .lowHalt && !s.arrayStopped

/-- A program may start: as an erase, with the exposed list empty (R78) and a write sequence left (R119). -/
def State.programGate (s : State) : Bool :=
  s.eraseGate && s.exposedList.isEmpty && decide (s.store.wseq ≤ Config.max32)

/-- A QUEUED buffer may be programmed now, on whatever die (R58, R90, R91). -/
def State.eligible (s : State) (b : Buf) : Bool :=
  match b.origin with
  | .intake => s.emergency || s.orderly || !(s.power.store == .ready && s.storeFull)
  | .index | .relocation => !s.emergency &&
      (b.hdr.kind != .settings || (!s.flash.erase0 && decide (s.flash.setPos ≤ 254)))
  | .checkpoint => !s.emergency && !s.flash.ringDue && decide (s.flash.ringPos ≤ 254)

/-- The die has an active block with its erased mark set at a next page that may be programmed (R77, R62). -/
def State.dataReady (s : State) (d : Nat) : Bool :=
  match (s.die d).bind Die.active with
  | none => false
  | some a => a.erased && decide (a.next ≤ 255) &&
      (a.next % 2 == 0 || (s.bufAt .retained { die := d, block := a.block, page := a.next - 1 }).isSome)

/-- The die can take this buffer (R77). -/
def State.canTake (s : State) (d : Nat) (b : Buf) : Bool :=
  s.eligible b && (if isAnchorKind b.hdr.kind then d == 0 else s.dataReady d)

/-- Some READY die has an active block with a page left, or the free list a block of a READY die (R177, R182, R185). -/
def State.dataRoom (s : State) : Bool :=
  (s.flash.dies.any fun d => d.ready && ((d.active.map fun a => decide (a.next ≤ 255)).getD false)) ||
    s.flash.freeList.any fun b => s.dieReady b.die

def OpKind.isProgram : OpKind → Bool
  | .program _ _ => true
  | .readback _ _ | .retrieval _ | .relocation _ | .erase _ => false

/-- A program is in flight on some die. -/
def State.programming (s : State) : Bool :=
  s.flash.dies.any fun d => match d.op with
    | some o => o.kind.isProgram
    | none => false

/-- The conditions under which an emergency closeout enters LOW-HALT (R185). -/
def State.lowHaltDue (s : State) : Bool :=
  let intakeIn (st : BufState) := s.staging.bufs.any fun x => match x with
    | some b => b.origin == .intake && b.st == st
    | none => false
  s.emergency && s.power.st != .lowHalt && !s.programming &&
    ((!intakeIn .queued && !intakeIn .verifying) || !s.programGate || (!intakeIn .verifying && !s.dataRoom))

/-- The store is quiet (R177 step 1). -/
def State.quiet (s : State) : Bool :=
  s.staging.queue.isEmpty && s.staging.requests.isEmpty &&
    !(s.staging.bufs.any fun x => match x with
      | some b => b.st == .programming || b.st == .verifying
      | none => false) &&
    s.flash.dies.all fun d => d.op.isNone && d.due.isEmpty

/-- A buffer in the program queue can be taken by no die (R177). -/
def State.queueStuck (s : State) : Bool :=
  s.staging.queue.any fun n => match s.buf n with
    | some b => (b.origin == .intake && !s.eligible b) || (!isAnchorKind b.hdr.kind && !s.dataRoom)
    | none => false

/-! ## Lines -/

def State.line (s : State) (n : Nat) : Option Line := s.store.lines.find? fun l => l.num == n

def Line.open? (l : Line) : Bool := l.st == .opened
def Line.indexing (l : Line) : Bool := l.st == .opened || l.st == .closing

/-- The line store is loading the line's index after a reopen (R109, R134). -/
def Line.loading (l : Line) : Bool := l.load != .none

/-- The slot that holds line `n`. -/
def State.slotOf (s : State) (n : Nat) : Option Nat :=
  s.intake.slots.findIdx? fun x => match x with
    | some t => t.line == n
    | none => false

def State.poolUsed (s : State) : Nat := (s.store.lines.map fun l => l.pool.length).sum
def State.poolFree (s : State) : Nat := Config.poolEntries - s.poolUsed
/-- References in the root store (R104). -/
def State.rootUsed (s : State) : Nat := (s.store.lines.map fun l => l.refs.length).sum

/-- The line lies in the range of a running LINE-ERASE (R36, R111). -/
def State.erasing (s : State) (n : Nat) : Bool :=
  match s.store.erase with
  | some e => decide (e.lo ≤ n) && decide (n ≤ e.hi)
  | none => false

/-- A loose entry that no flush image carries and whose arrival index is below every record still in staging is
flushable (R102). -/
def State.flushable (s : State) (l : Line) : List PoolEnt :=
  let firsts := (s.stagedBufs l.num).filterMap fun b => if b.hdr.count = 0 then none else some b.hdr.first
  l.pool.filter fun p => !p.inSeg && !p.out && firsts.all fun f => decide (p.e.first < f)

/-- The line has something a flush would write (R102, R117). -/
def State.flushNeeded (s : State) (l : Line) : Bool := l.rewrite || !(s.flushable l).isEmpty

def Line.hasOpenSeg (l : Line) : Bool := l.pool.any PoolEnt.inSeg

/-- The references of the flushed segments that are not the open segment (R98, R105). -/
def Line.flushedRefs (l : Line) : List SegRef := if l.hasOpenSeg then l.refs.dropLast else l.refs

/-- The mount applies the pages that its scan has read (R191). -/
def State.scanning (s : State) : Bool :=
  match s.power.mount.map Mount.phase with
  | some (.applying _) => true
  | _ => false

end Sys2Proof.Machine
end

