-- ==== Sys2Proof/Machine/Operands.lean ====
section
/-!
DEFINITION. The fields of command bodies (Table 11-2), their lengths (R7 check 3) and the arguments that are judged on
their own terms (R7 check 6).
-/
namespace Sys2Proof.Machine

/-- The body length that the layout gives, or the lengths it allows for commands with a list (R6, R7, section 11.1). -/
def lengthOk (k : CmdKind) (body : List Byte) : Bool :=
  match k with
  | .identify | .status | .gaugeRead | .motionRead | .filterReset | .ackResume | .reset | .saveSettings | .format
  | .closeout | .pause => body.length == 0
  | .getSettings => body.length == 2 && decide (1 ≤ field 1 body 1) && decide (field 1 body 1 ≤ 64)
  | .putSettings => decide (4 ≤ body.length) && decide (body.length ≤ 130) && body.length % 2 == 0
  | .lineList | .lineInfo | .lineClose | .lineLock | .lineUnlock => body.length == 2
  | .intake | .gaugeAnchor | .cancel => body.length == 1
  | .readRecords => body.length == 16
  | .lineErase => body.length == 4
  | .permitLoad => decide (4 ≤ body.length) && body.length == 4 + (field 2 body 2 + 7) / 8

/-! READ-RECORDS (Table 11-2) -/
def rrLine (body : List Byte) : Nat := field 2 body 0
/-- Bits 6 and 7 of the kind mask are zero-filled positions and are ignored (R199). -/
def rrMask (body : List Byte) : Nat := field 1 body 2 % 64
def rrLo (body : List Byte) : Nat := field 4 body 4
def rrHi (body : List Byte) : Nat := field 4 body 8
def rrMax (body : List Byte) : Nat := field 2 body 12

/-- "In the kind mask, bit k − 1 selects record kind code k." -/
def maskHas (mask : Nat) (k : RecordKind) : Bool := mask.testBit (k.code - 1)

/-- The line number of a body that begins with one. -/
def lineArg (body : List Byte) : Nat := field 2 body 0
def eraseLo (body : List Byte) : Nat := field 2 body 0
def eraseHi (body : List Byte) : Nat := field 2 body 2
def permitBase (body : List Byte) : Nat := field 2 body 0
def permitLen (body : List Byte) : Nat := field 2 body 2

/-- The values of a PUT-SETTINGS, behind the index and the zero byte. -/
def putValues (body : List Byte) : List Nat :=
  parseMany (fun bs off => field 2 bs off) 2 ((body.length - 2) / 2) body 2

/-- An argument is out of range on its own terms (R7 check 6). -/
def argumentBad (k : CmdKind) (body : List Byte) (s : State) : Bool :=
  match k with
  | .lineInfo | .lineClose | .lineLock | .lineUnlock => lineArg body == 0
  | .readRecords => rrLine body == 0 || decide (rrHi body < rrLo body) || rrMask body == 0 || rrMax body == 0
  | .lineErase => eraseLo body == 0 || decide (eraseHi body < eraseLo body)
  | .permitLoad => permitBase body == 0 || decide (4096 < permitLen body) ||
      decide (65536 < permitBase body + permitLen body)
  | .putSettings => decide (41 < field 1 body 0)
  | .intake => !(field 1 body 0 == 1 || field 1 body 0 == 2)
  | .gaugeAnchor => field 1 body 0 != 1
  | .cancel => byteAt body 0 == 0 ||
      !((match s.link.running with
         | some r => r.cmd.tag == byteAt body 0
         | none => false) || s.link.waiting.any fun c => c.tag == byteAt body 0)
  | .identify | .status | .gaugeRead | .motionRead | .getSettings | .lineList | .filterReset | .ackResume | .reset
  | .saveSettings | .format | .closeout | .pause => false

/-- Served in LOW-HALT (Table 1-2). -/
def servedInLowHalt : CmdKind → Bool
  | .identify | .status | .gaugeRead => true
  | .motionRead | .getSettings | .putSettings | .lineList | .lineInfo | .intake | .filterReset | .ackResume
  | .gaugeAnchor | .cancel | .reset | .readRecords | .lineClose | .lineLock | .lineUnlock | .lineErase | .permitLoad
  | .saveSettings | .format | .closeout | .pause => false

/-- Served in MOUNTING (Table 1-2). -/
def servedInMounting : CmdKind → Bool
  | .identify | .status | .gaugeRead | .motionRead | .getSettings | .putSettings => true
  | .lineList | .lineInfo | .intake | .filterReset | .ackResume | .gaugeAnchor | .cancel | .reset | .readRecords
  | .lineClose | .lineLock | .lineUnlock | .lineErase | .permitLoad | .saveSettings | .format | .closeout
  | .pause => false

/-- Acceptance by power state and store state (R9, Table 1-2): none accepts. -/
def refusedBy (k : CmdKind) (p : PowerState) (st : StoreState) : Option Code :=
  if p = .lowHalt then (if servedInLowHalt k then none else some .notReady)
  else match st with
    | .mounting => if servedInMounting k then none else some .notReady
    | .blank => if k.isStore && k != .format then some .notReady else none
    | .ready => none
    | .closingOut => if k.isStore && k != .readRecords then some .closing else none
    | .closedOut => if k = .pause then some .notReady else none
    | .mediaFault => if k.isStore then some .mediaFault else none

/-- The checks of R7, in the order listed; none is a command that passes them all. -/
def checkCommand (k : CmdKind) (tag : Byte) (body : List Byte) (s : State) : Option Code :=
  if tag = 0 then some .badTag
  else if !lengthOk k body then some .badLength
  else if s.tagInUse tag then some .tagInUse
  else match refusedBy k s.power.st s.power.store with
    | some c => some c
    | none =>
      if argumentBad k body s then some .badArgument
      else if k.isStore && s.link.waiting.length == Config.waitingCommands then some .busy
      else none

end Sys2Proof.Machine
end

