-- ==== Sys2Proof/Machine/Images.lean ====
section
/-!
DEFINITION. The images of the line store and of the settings store, and what a request of the image wait list becomes at the
moment a staging buffer is handed to it (R56): each image is built from the store as it stands then.
-/
namespace Sys2Proof.Machine

/-- A list with one element replaced where the test holds. -/
def mapIf {α : Type} (p : α → Bool) (f : α → α) (l : List α) : List α := l.map fun x => if p x then f x else x

/-! ## Layouts -/

/-- A SEGMENT image of a line. -/
def segmentImage (n seg sup : Nat) (es : List PageEntry) (j : Job) : Image :=
  { origin := .index,
    hdr := { blankHdr .segment with line := n, sup := sup, first := (es.head?.map PageEntry.first).getD 0,
                                    count := es.length, number := seg },
    body := .entries es, job := j }

/-- A ROOT image of a line (R107, R105). -/
def rootImage (n sup : Nat) (rs : List SegRef) (j : Job) : Image :=
  { origin := .index, hdr := { blankHdr .root with line := n, sup := sup, count := rs.length }, body := .refs rs, job := j }

/-- A SETTINGS image of the copy that SAVE-SETTINGS took (R197). -/
def settingsImage (body : List Byte) : Image :=
  { origin := .index, hdr := blankHdr .settings, body := .raw body, job := .settings }

/-! ## Entries and replacements (R98, R105) -/

def PageEntry.last (e : PageEntry) : Nat := e.first + e.count - 1

def SegRef.covers (r : SegRef) (i : Nat) : Bool := decide (r.first ≤ i) && decide (i ≤ r.last)

/-- The entry names the copy of write sequence `old`. -/
def PageEntry.names (e : PageEntry) (arrival old : Nat) : Bool := e.first == arrival && e.wseq == old && e.loc.isSome

/-- The entry after a replacement: its location, write sequence, VERIFIED and RELOCATED are the new copy's; LOST where
there is no new copy (R98, R114). -/
def PageEntry.replaced (p : Repl) (e : PageEntry) : PageEntry :=
  match p.new with
  | some l => { e with loc := some l.addr, wseq := l.wseq, verified := p.verified, relocated := p.relocated }
  | none => { e with loc := none }

/-- The pending replacements of the segment of line `n` that this reference names. -/
def LineStore.pendingOf (t : LineStore) (n : Nat) (r : SegRef) : List Repl :=
  t.pendings.filter fun p => p.line == n && r.covers p.arrival

/-- The entry names the new copy of the replacement already, as one that the mount finds may. -/
def Repl.entered (p : Repl) (e : PageEntry) : Bool :=
  e.first == p.arrival && p.new == e.loc.map fun a => ⟨a, e.wseq⟩

/-- Pending replacements applied to the entries of their segment (R105 step 2): the entries, the new copies they now hold,
the old copies replaced, and the replacements that no entry names. An entry that names the new copy already stays as it
is. -/
structure Applied where
  es    : List PageEntry
  news  : List Addr
  drops : List Addr
  idle  : List Repl

def applyRepl (acc : Applied) (p : Repl) : Applied :=
  match acc.es.find? fun e => e.names p.arrival p.old with
  | none =>
    if acc.es.any p.entered then acc
    else { acc with idle := acc.idle ++ [p] }
  | some e =>
    { acc with
      es := mapIf (fun e => e.names p.arrival p.old) (PageEntry.replaced p) acc.es,
      news := acc.news ++ (p.new.map Loc.addr).toList, drops := acc.drops ++ e.loc.toList }

def applyRepls (ps : List Repl) (es : List PageEntry) : Applied :=
  ps.foldl applyRepl { es := es, news := [], drops := [], idle := [] }

/-! ## Segment copies that wait for a root to name them (R105, R115) -/

/-- The reference names the copy of write sequence `q`. -/
def SegRef.names (r : SegRef) (q : Nat) : Bool := r.wseq == q && r.loc.isSome

/-- A segment copy takes the reference `r`, unless that no longer names the copy it was relocated from (R115). -/
def SegDone.follows (d : SegDone) (r : SegRef) : Bool := (d.check.map r.names).getD true

/-- The reference once the copy has taken it. -/
def SegDone.take (d : SegDone) (r : SegRef) : SegRef := { r with loc := d.loc, wseq := d.wseq }

def SegDone.applies (d : SegDone) (refs : List SegRef) : Bool := ((refs[d.seg]?).map d.follows).getD false

def SegDone.put (d : SegDone) (refs : List SegRef) : List SegRef := refs.modify d.seg d.take

/-- The copy whose reference is dropped as this one takes its place. -/
def SegDone.replaces (d : SegDone) (refs : List SegRef) : Option Addr :=
  if d.gone then none else (refs[d.seg]?).bind SegRef.loc

/-- The reference of segment `k` after the copies of it handed since. -/
def trackRef (k : Nat) (ds : List SegDone) (r : SegRef) : SegRef :=
  ds.foldl (fun r d => if d.seg == k && d.follows r then d.take r else r) r

/-- The references of a root page with the copies handed since (R105). -/
def overlay (ds : List SegDone) (refs : List SegRef) : List SegRef :=
  ds.foldl (fun rs d => if d.applies rs then d.put rs else rs) refs

/-- A root with the segment copies handed since: its references, the copies it carries, each with the location it
replaces, and the copies that no reference takes. -/
structure Carried where
  refs    : List SegRef
  carried : List SegDone
  void    : List SegDone

def carryDone (acc : Carried) (d : SegDone) : Carried :=
  if d.applies acc.refs then
    { acc with refs := d.put acc.refs, carried := acc.carried ++ [{ d with old := d.replaces acc.refs }] }
  else { acc with void := acc.void ++ [d] }

def carryDones (ds : List SegDone) (refs : List SegRef) : Carried :=
  ds.foldl carryDone { refs := refs, carried := [], void := [] }

/-- The segment copies handed for a line and not yet named by its root, oldest first. -/
def State.doneOf (s : State) (n : Nat) : List SegDone :=
  ((s.store.rootRw.filter fun r => r.line == n).map RootRewrite.carried).flatten ++
    s.store.segDone.filter fun d => d.line == n

/-- The present reference of segment `k` as far as it is known on chip. -/
def State.curRef (s : State) (n k : Nat) (r : SegRef) : SegRef :=
  match s.line n with
  | none => r
  | some l =>
    if l.indexInRoot then trackRef k (s.doneOf n) r else l.refs.getD k r

/-! ## Flushes (R102) -/

/-- What a flush writes: the segment's number, its superseded sequence and its entries. -/
structure FlushPlan where
  seg : Nat
  sup : Nat
  es  : List PageEntry

/-- A flush of a line (R102): the open segment's entries, then the oldest flushable loose ones, up to 510. -/
def State.flushPlan (s : State) (l : Line) : FlushPlan :=
  let own := l.pool.filter PoolEnt.inSeg
  let loose := (s.flushable l).take (Config.segmentEntries - own.length)
  { seg := if own.isEmpty then l.refs.length else l.refs.length - 1,
    sup := if own.isEmpty then 0 else (l.refs.getLast?.map SegRef.wseq).getD 0,
    es := (own ++ loose).map PoolEnt.e }

/-- The line once its flush image is built: the entries taken are in flight (R102). -/
def Line.flushing (es : List PageEntry) (l : Line) : Line :=
  let firsts := es.map PageEntry.first
  { l with
    pool := l.pool.map fun p => if firsts.contains p.e.first then { p with out := true } else p,
    rewrite := false, flush := l.flush.map fun f => { f with built := true } }

/-! ## What a request becomes (R56) -/

/-- A flush that is asked for and not built takes what the line has to flush now (R102). -/
def buildFlush (n : Nat) (s : State) : Option (Image × LineStore) :=
  match s.line n with
  | none => none
  | some l =>
    if (l.flush.map FlushOut.built).getD true then none
    else
      let p := s.flushPlan l
      some (segmentImage n p.seg p.sup p.es (.flush n p.seg),
        { s.store with lines := mapIf (fun l => l.num == n) (Line.flushing p.es) s.store.lines })

/-- A segment rewrite applies every replacement that is pending by now (R105 steps 2 and 3); one that no entry names is
left for the rewrite that follows. -/
def buildSegRewrite (n k : Nat) (s : State) : Option (Image × LineStore) :=
  match s.store.segRw.find? fun w => w.line == n && w.seg == k with
  | none => none
  | some w =>
    match w.phase with
    | .reading | .built => none
    | .read es =>
      let cur := s.curRef n k w.ref
      let ref := if cur.loc.isSome then cur else w.ref
      let ps := s.store.pendingOf n w.ref
      let ap := applyRepls ps es
      some (segmentImage n k ref.wseq ap.es (.segRewrite n k ref.wseq),
        { s.store with
          pendings := s.store.pendings.filter fun p => !(p.line == n && w.ref.covers p.arrival) || ap.idle.contains p,
          segRw := mapIf (fun v => v == w) (fun v =>
            { v with ref := ref, phase := .built, news := v.news ++ ap.news, drops := ap.drops,
                     applied := ps.filter fun p => !ap.idle.contains p }) s.store.segRw })

/-- The ROOT image of a close holds the references as they stand now, and names the data copies brought in so far (R107). -/
def buildCloseRoot (n : Nat) (s : State) : Option (Image × LineStore) :=
  match s.line n with
  | none => none
  | some l => if l.rootOut then
      some (rootImage n 0 l.refs (.closeRoot n),
        { s.store with lines := mapIf (fun l => l.num == n) (fun l => { l with late := [] }) s.store.lines })
    else none

/-- A root rewrite carries every segment copy handed by now (R105). -/
def buildRootRewrite (n : Nat) (s : State) : Option (Image × LineStore) :=
  match s.store.rootRw.find? fun w => w.line == n, (s.line n).bind Line.root with
  | some w, some root =>
    match w.phase with
    | .reading | .built => none
    | .read refs =>
      let c := carryDones (s.store.segDone.filter fun d => d.line == n) refs
      some (rootImage n root.wseq c.refs (.rootRewrite n root.wseq),
        { s.store with
          segDone := s.store.segDone.filter fun d => d.line != n || c.void.contains d,
          rootRw := mapIf (fun v => v == w) (fun v => { v with phase := .built, old := root.wseq, carried := c.carried })
            s.store.rootRw })
  | _, _ => none

/-- A checkpoint page holds what the snapshot captured (R117, R118). -/
def buildCheckpoint (i : Nat) (s : State) : Option (Image × LineStore) :=
  match s.store.ckpt with
  | some (.writing snap) => if i < snap.pages then some (ckptImage snap i, s.store) else none
  | some (.flushing _ _) | none => none

/-- The image that a request names, built from the store as it stands (log entry 10), with what the line store notes of it;
none where its work has been withdrawn. -/
def buildRequest (q : ImageReq) (s : State) : Option (Image × LineStore) :=
  match q with
  | .flush n => buildFlush n s
  | .segRewrite n k => buildSegRewrite n k s
  | .closeRoot n => buildCloseRoot n s
  | .rootRewrite n => buildRootRewrite n s
  | .checkpoint i => buildCheckpoint i s
  | .settings body => some (settingsImage body, s.store)

/-- The request that follows once this one has taken a buffer: a checkpoint asks for its next page (R118). -/
def nextRequest (q : ImageReq) (s : State) : Option ImageReq :=
  match q, s.store.ckpt with
  | .checkpoint i, some (.writing snap) => if i + 1 < snap.pages then some (.checkpoint (i + 1)) else none
  | _, _ => none

def ImageReq.isCheckpoint : ImageReq → Bool
  | .checkpoint _ => true
  | .flush _ | .segRewrite _ _ | .closeRoot _ | .rootRewrite _ | .settings _ => false

def ImageReq.isSettings : ImageReq → Bool
  | .settings _ => true
  | .flush _ | .segRewrite _ _ | .closeRoot _ | .rootRewrite _ | .checkpoint _ => false

/-- The line whose work a request names. -/
def ImageReq.line : ImageReq → Option Nat
  | .flush n | .segRewrite n _ | .closeRoot n | .rootRewrite n => some n
  | .checkpoint _ | .settings _ => none

end Sys2Proof.Machine
end

