-- ==== Sys2Proof/Machine/Ops.lean ====
section
/-!
DEFINITION. The operations several blocks share: one block's state changed at a time, the transmitter and the notice
queue, the wait line, the block table and its references, the staging buffers and the image wait list.
-/
namespace Sys2Proof.Machine

/-! ## One block's state at a time -/

def State.modLink (f : LinkUnit → LinkUnit) (s : State) : State := { s with link := f s.link }
def State.modIntake (f : Intake → Intake) (s : State) : State := { s with intake := f s.intake }
def State.modStaging (f : Staging → Staging) (s : State) : State := { s with staging := f s.staging }
def State.modFlash (f : Flash → Flash) (s : State) : State := { s with flash := f s.flash }
def State.modStore (f : LineStore → LineStore) (s : State) : State := { s with store := f s.store }
def State.modRetr (f : Retrieval → Retrieval) (s : State) : State := { s with retr := f s.retr }
def State.modMotion (f : Motion → Motion) (s : State) : State := { s with motion := f s.motion }
def State.modGauge (f : Gauge → Gauge) (s : State) : State := { s with gauge := f s.gauge }
def State.modPower (f : Power → Power) (s : State) : State := { s with power := f s.power }
def State.modSettings (f : Settings → Settings) (s : State) : State := { s with settings := f s.settings }

/-- One event on an intake counter, saturating (R51). -/
def State.count (f : IntakeCounters → IntakeCounters) (s : State) : State :=
  s.modIntake fun i => { i with counters := f i.counters }

/-! ## The transmitter (R17, R18) -/

/-- The choice of the next message: the oldest of the reply FIFO, else the oldest notice (R18, R20).
Nothing is begun while a message is being sent or the transmitter is stopped. -/
def LinkUnit.choose (stopped : Bool) (l : LinkUnit) : LinkUnit :=
  if stopped || l.sending.isSome then l
  else match l.fifo with
    | m :: ms => { l with fifo := ms, sending := some m }
    | [] => match l.notices with
      | n :: ns => { l with notices := ns, sending := some n.message }
      | [] => l

/-- A message enters the reply FIFO at its tail (R17). -/
def LinkUnit.enter (stopped : Bool) (m : Message) (l : LinkUnit) : LinkUnit :=
  ({ l with fifo := l.fifo ++ [m] }).choose stopped

/-- An immediate-class message: it enters while fewer than 16 wait, and is otherwise dropped and counted (R17). -/
def LinkUnit.immediate (stopped : Bool) (m : Message) (l : LinkUnit) : LinkUnit :=
  if l.fifo.length < Config.immediateLimit then l.enter stopped m
  else { l with dropped := satInc Config.max16 l.dropped }

def State.kick (s : State) : State := s.modLink fun l => l.choose s.paused

def sendImmediate (m : Message) (s : State) : State := s.modLink fun l => l.immediate s.paused m

/-- The one reply of an immediate command, or a refusal of R7. -/
def reply (kind tag : Byte) (c : Code) (content : List Byte) (s : State) : State :=
  sendImmediate { cls := .immediate, kind := kind, tag := tag, body := replyBody c content } s

/-- A LINK-ERROR message with its reason code and contents (R5). -/
def linkError (reason : Nat) (content : List Byte) (s : State) : State :=
  sendImmediate { cls := .immediate, kind := kindLinkError, tag := 0, body := le1 reason ++ content } s

/-! ## The notice queue (R19) -/

/-- A raise on the queue: a pending kind keeps its place and its first-raise time. -/
def raiseIn (clock : Nat) (k : NoticeKind) (d : List Byte) (q : List NoticeEntry) : List NoticeEntry :=
  if q.any (fun e => e.kind == k) then
    mapIf (fun e => e.kind == k) (fun e => { e with detail := d, count := satInc Config.max8 e.count }) q
  else q ++ [{ kind := k, detail := d, count := 1, first := clock }]

def LinkUnit.raise (clock : Nat) (k : NoticeKind) (d : List Byte) (l : LinkUnit) : LinkUnit :=
  { l with notices := raiseIn clock k d l.notices }

/-- A block raises a notice (R19); an idle transmitter with an empty FIFO begins to send it at once (R18). -/
def raiseNotice (k : NoticeKind) (d : List Byte) (s : State) : State :=
  s.modLink fun l => (l.raise s.power.clock k d).choose s.paused

/-- MEDIA with the die, the block and the event (Table 1-4). -/
def raiseMedia (b : Blk) (e : MediaEvent) (s : State) : State :=
  raiseNotice .media (le1 b.die ++ le2 b.block ++ le1 e.code) s

/-- LINE-CLOSED with the line number and the reason (Table 1-4). -/
def raiseLineClosed (n : Nat) (r : CloseReason) (s : State) : State :=
  raiseNotice .lineClosed (le2 n ++ le1 r.code) s

/-- INTAKE-REFUSED with the reason and the line number (Table 1-4). -/
def raiseRefused (r : RefuseReason) (n : Nat) (s : State) : State :=
  raiseNotice .intakeRefused (le1 r.code ++ le2 n) s

/-! ## The wait line (R34) -/

def waitLevel (s : State) : Bool :=
  if s.intakeState != .opened || s.storeFull || decide (s.freeBuffers ≤ s.waitMark) then true
  else if s.goMark ≤ s.freeBuffers then false
  else s.intake.wait

/-- The wait line re-derived from its inputs (R34). -/
def updateWait (s : State) : State := s.modIntake fun i => { i with wait := waitLevel s }

/-! ## The block table, the free list and references -/

def State.modDie (d : Nat) (f : Die → Die) (s : State) : State :=
  s.modFlash fun fl => { fl with dies := fl.dies.modify d f }

def State.modBlock (b : Blk) (f : BlockRec → BlockRec) (s : State) : State :=
  s.modFlash fun fl => { fl with blocks := mapIf (fun r => r.id == b) f fl.blocks }

/-- SPACE with FULL or LOW and the free block count (Table 1-4). -/
def raiseSpace (low : Bool) (s : State) : State := raiseNotice .space (leBool low ++ le2 s.freeReady) s

/-- The store-full and low conditions re-derived, with a SPACE notice where one begins (R75).
Through a mount they are not judged; its end evaluates them. -/
def judgeSpace (s : State) : State :=
  if s.power.store = .mounting then s
  else
    let full := s.storeFull
    let low := s.spaceLow
    let s := if full && !s.flash.fullSeen then raiseSpace false s else s
    let s := if low && !s.flash.lowSeen then raiseSpace true s else s
    updateWait (s.modFlash fun fl => { fl with fullSeen := full, lowSeen := low })

/-- A block joins the free list at its tail with the next free sequence number (R73). The number after 4,294,967,295 is 0
(log entry 69). -/
def joinFree (b : Blk) (s : State) : State :=
  let n := (s.flash.freeCtr + 1) % Config.clockModulus
  judgeSpace ((s.modBlock b fun r => { r with st := .free, seq := n }).modFlash fun fl =>
    { fl with freeList := fl.freeList ++ [b], freeCtr := n })

/-- A block of another state than FREE and RECLAIM-PENDING: it is in the free list and in the pending order no more (R73, R89). -/
def takeOut (b : Blk) (st : BlockState) (s : State) : State :=
  (s.modBlock b fun r => { r with st := st }).modFlash fun fl => { fl with
    freeList := fl.freeList.filter (· != b), pendingRec := fl.pendingRec.filter (· != b) }

/-- The head of the refresh queue stands at `h`: the walk of another block stops after the page in hand (R113). -/
def Walk.headAt (h : Option Blk) (w : Walk) : Walk := { w with stopped := w.stopped || h != some w.blk }

/-- The refresh queue holds these blocks, and a walk of a block that is no longer the head stops (R87, R113). -/
def State.setRefresh (bs : List Blk) (s : State) : State :=
  (s.modFlash fun fl => { fl with refresh := bs }).modStore fun t => { t with walk := t.walk.map (Walk.headAt bs.head?) }

def leaveRefresh (b : Blk) (s : State) : State := s.setRefresh (s.flash.refresh.erase b)

/-- A FULL block of live count 0 is reclaimed, or waits for the running retrieval to end (R89). -/
def reclaim (b : Blk) (s : State) : State :=
  let s := leaveRefresh b s
  if s.retrieving then
    (s.modBlock b fun r => { r with st := .reclaimPending }).modFlash fun fl =>
      { fl with pendingRec := fl.pendingRec ++ [b] }
  else joinFree b s

/-- The end of a retrieval: the RECLAIM-PENDING blocks join the free list in the pending order (R89). -/
def releasePending (s : State) : State :=
  let bs := s.flash.pendingRec
  bs.foldl (fun s b => joinFree b s) (s.modFlash fun fl => { fl with pendingRec := [] })

/-- The line store records a reference to a page (R71, R100). -/
def refUp (a : Addr) (s : State) : State :=
  if isAnchor a.blk then s else s.modBlock a.blk fun r => { r with live := min (r.live + 1) 256 }

/-- A block that the scan of the mount covers is not reclaimed before all its pages have been applied: R192 step 2 reclaims it
(log entry 29). -/
def State.scanHeld (s : State) (b : Blk) : Bool :=
  match s.power.mount with
  | some m => match m.phase with
    | .scan _ _ _ | .probe _ _ _ _ | .taken _ _ _ _ | .applying _ => m.takenBlks.contains b
    | .detect | .settings _ _ | .ring _ _ _ _ | .closing | .checkpoint => false
  | none => false

/-- The line store drops a reference to a page (R71, R100); a FULL block is reclaimed when its last one falls. -/
def refDown (a : Addr) (s : State) : State :=
  match s.block a.blk with
  | none => s
  | some r =>
    if r.st = .anchor || r.live = 0 then s
    else
      let s := s.modBlock a.blk fun r => { r with live := r.live - 1 }
      if r.live = 1 then (if r.st = .full && !s.scanHeld a.blk then reclaim a.blk s else leaveRefresh a.blk s) else s

def refDownAll (as : List Addr) (s : State) : State := as.foldl (fun s a => refDown a s) s

/-! ## The end of a store command (R13, R16, R17) -/

def finalMessage (c : StoreCmd) (f : Final) : Message :=
  { cls := .final, kind := c.kind.code, tag := c.tag, body := replyBody f.code f.content }

/-- What the placing of a final reply brings about: the running position is empty and the tag free; a retrieval has
ended (R88, R89, R128); a PAUSE that ends with OK sets the pause-entry mark (R177). -/
def finalPlaced (c : StoreCmd) (f : Final) (s : State) : State :=
  let s := s.modLink fun l => { l with running := none }
  match c.kind with
  | .readRecords => if s.retrieving then releasePending (s.modRetr fun r => { r with ctx := none }) else s
  | .pause =>
    if f.code = .ok then
      s.modPower fun p => { p with pauseMark := some (if f.content = le1 PowerState.light.code then .light else .deep) }
    else updateWait s
  | .format => updateWait s
  | .identify | .status | .gaugeRead | .motionRead | .getSettings | .putSettings | .lineList | .lineInfo | .intake
  | .filterReset | .ackResume | .gaugeAnchor | .cancel | .reset | .lineClose | .lineLock | .lineUnlock | .lineErase
  | .permitLoad | .saveSettings | .closeout => s

/-- The running command ends: its final reply enters the FIFO while fewer than 32 wait, and else the command stays in
the running position until it can (R13, R17). -/
def endCommand (code : Code) (content : List Byte) (s : State) : State :=
  match s.link.running with
  | none => s
  | some r =>
    let s := s.modPower fun p => { p with pause := .none, fmt := .none }
    if s.link.fifo.length < Config.replyFifo then
      finalPlaced r.cmd ⟨code, content⟩ (s.modLink fun l => l.enter s.paused (finalMessage r.cmd ⟨code, content⟩))
    else s.modLink fun l => { l with running := some { r with final := some ⟨code, content⟩ } }

/-- The running command of kind `k`, where it is the one running and has not ended, ends. -/
def endIf (k : CmdKind) (code : Code) (content : List Byte) (s : State) : State :=
  match s.link.running with
  | some r => if r.handed && r.cmd.kind == k && r.final.isNone then endCommand code content s else s
  | none => s

/-! ## Staging buffers and the image wait list (R56) -/

def State.setBuf (b : Nat) (x : Option Buf) (s : State) : State :=
  s.modStaging fun t => { t with bufs := t.bufs.set b x }

def State.modBuf (b : Nat) (f : Buf → Buf) (s : State) : State :=
  s.modStaging fun t => { t with bufs := t.bufs.modify b (Option.map f) }

/-- The erase of anchor block 0 becomes due when a SETTINGS page finds no position (R90). -/
def settingsDue (s : State) : State :=
  if s.flash.setPos ≤ 254 && !s.flash.erase0 then s
  else
    let s := s.modFlash fun fl => { fl with erase0 := true }
    s.modDie 0 fun d =>
      if d.due.contains 0 || (match d.op with
        | some o => o.kind == .erase 0
        | none => false) then d
      else { d with due := d.due ++ [0] }

/-- The image is built in buffer `b` and queued at the tail in the same event (R56). -/
def putImage (b : Nat) (im : Image) (s : State) : State :=
  let x : Buf :=
    { st := .queued, origin := im.origin, slot := none, fill := 0, hdr := im.hdr, body := im.body, target := none,
      exposed := false, reported := false, handed := false, job := im.job }
  let s := (s.setBuf b (some x)).modStaging fun t => { t with queue := t.queue ++ [b] }
  let s := updateWait s
  if im.hdr.kind = .settings then settingsDue s else s

/-- A buffer is handed to a request: its image is built and queued (R56). -/
def giveBuffer (b : Nat) (im : Image) (t : LineStore) (s : State) : State := putImage b im (s.modStore fun _ => t)

/-- The image of the request is a SETTINGS image that die 0 cannot take: its buffer is returned FREE without being written (R83). -/
def State.unwritable (s : State) (q : ImageReq) : Bool := q.isSettings && !s.dieReady 0

/-- SAVE-SETTINGS is told that its image was not written (R83, R197). -/
def settingsUnwritten (s : State) : State := endIf .saveSettings .mediaFault [] s

/-- A request for a buffer: it takes the lowest FREE buffer where no request waits, and else joins the list (R56).
A checkpoint then asks for its next page; a checkpoint has at most 30 pages, so the fuel is never used up. -/
def addRequest : Nat → ImageReq → State → State
  | 0, q, s => s.modStaging fun t => { t with requests := t.requests ++ [q] }
  | fuel + 1, q, s =>
    match s.staging.requests, s.freeBuffer with
    | [], some b =>
      if s.unwritable q then settingsUnwritten s
      else match buildRequest q s with
      | none => s
      | some (im, t) =>
        let s := giveBuffer b im t s
        match nextRequest q s with
        | some q' => addRequest fuel q' s
        | none => s
    | _, _ => s.modStaging fun t => { t with requests := t.requests ++ [q] }

def requestImage (q : ImageReq) (s : State) : State := addRequest 32 q s

/-- The FREE buffer `b` is handed to the oldest request whose work still stands; with none it is FREE (R56, log entry 10). -/
def handOver (b : Nat) : List ImageReq → State → State
  | [], s => updateWait (s.modStaging fun t => { t with requests := [] })
  | q :: qs, s =>
    if s.unwritable q then settingsUnwritten (handOver b qs s)
    else match buildRequest q s with
    | none => handOver b qs s
    | some (im, t) =>
      let s := giveBuffer b im t (s.modStaging fun t => { t with requests := qs })
      match nextRequest q s with
      | some q' => requestImage q' s
      | none => s

/-- A buffer becomes FREE and is handed to the oldest image request in the same event (R56). One that is FREE stays so. -/
def freeBuf (b : Nat) (s : State) : State :=
  if (s.buf b).isNone then s else handOver b s.staging.requests ((s.setBuf b none).modStaging fun t =>
    { t with queue := t.queue.filter (· != b), verifying := t.verifying.filter (· != b) })

/-- The FILLING buffer is completed and appended at the tail of the program queue (R55). -/
def queueFilling (b : Nat) (s : State) : State :=
  (s.modBuf b fun x => { x with st := .queued, slot := none }).modStaging fun t => { t with queue := t.queue ++ [b] }

/-- The FILLING buffer of slot `i`, if it has one, is queued (R55). -/
def queueSlot (i : Nat) (s : State) : State :=
  match s.fillingOf i with
  | some b => queueFilling b s
  | none => s

/-- One buffer returns to the head of the program queue (R64, R65); while FORMAT waits it is returned FREE (R112),
as is an anchor page while die 0 is FAULTED (R83). -/
def requeueBuf (b : Nat) (s : State) : State :=
  match s.buf b with
  | none => s
  | some x =>
    if s.power.fmt = .waiting || (isAnchorKind x.hdr.kind && !s.dieReady 0) then freeBuf b s
    else
      let s := s.setBuf b (some { x with
        st := .queued, target := none, exposed := false, handed := false,
        hdr := { x.hdr with sup := x.hdr.wseq, wseq := 0 } })
      let s := s.modStaging fun t => { t with
        queue := b :: t.queue.filter (· != b), verifying := t.verifying.filter (· != b) }
      if x.hdr.kind = .settings then settingsDue s else s

/-- `b` before the first of `l` whose write sequence is not higher (used with the highest first). -/
def insertDesc (key : Nat → Nat) (b : Nat) : List Nat → List Nat
  | [] => [b]
  | c :: cs => if key c ≤ key b then b :: c :: cs else c :: insertDesc key b cs

def sortDesc (key : Nat → Nat) : List Nat → List Nat
  | [] => []
  | b :: bs => insertDesc key b (sortDesc key bs)

def State.bufSeq (s : State) (b : Nat) : Nat := ((s.buf b).map fun x => x.hdr.wseq).getD 0

/-- Several buffers re-queued by one event: the lowest write sequence ends nearest the head (R57). -/
def requeueMany (bs : List Nat) (s : State) : State :=
  (sortDesc s.bufSeq bs).foldl (fun s b => requeueBuf b s) s

/-- Buffer `b` is to be read back: VERIFYING, behind those that became so before it (R60, R76). -/
def State.setVerifying (b : Nat) (s : State) : State :=
  (s.modBuf b fun x => { x with st := .verifying }).modStaging fun t => { t with
    queue := t.queue.filter (· != b), verifying := t.verifying ++ [b] }

/-- Buffer `b` holds a lower page at its written point: RETAINED (R61). -/
def State.setRetained (b : Nat) (s : State) : State :=
  (s.modBuf b fun x => { x with st := .retained }).modStaging fun t => { t with
    queue := t.queue.filter (· != b), verifying := t.verifying.filter (· != b) }

/-! ## Block states that follow from programs and reads -/

/-- The RETAINED buffers of a block, less those whose upper page's buffer is VERIFYING (R70). -/
def State.retainedIn (s : State) (b : Blk) : List Nat :=
  (List.range s.staging.bufs.length).filter fun n => match s.buf n with
    | some x => x.st == .retained && (match x.target with
        | some a => a.blk == b && (s.bufAt .verifying { a with page := a.page + 1 }).isNone
        | none => false)
    | none => false

/-- The ACTIVE block becomes FULL: its die has it no more, nor an erase of it due, its RETAINED lower page is released, and it
is reclaimed if nothing references it (R70, R76, R89). -/
def blockFull (b : Blk) (s : State) : State :=
  match s.block b with
  | none => s
  | some r =>
    if r.st ≠ .active then s
    else
      let s := s.modBlock b fun r => { r with st := .full }
      let s := s.modDie b.die fun d => { d with
        active := d.active.filter fun t => t.block != b.block, due := d.due.filter (· != b.block) }
      let s := (s.retainedIn b).foldl (fun s n => freeBuf n s) s
      if r.live = 0 && !s.scanHeld b then reclaim b s else s

/-- The block is put in the refresh queue, if it can be queued; an ACTIVE one becomes FULL (R86). -/
def refreshAdd (b : Blk) (s : State) : State :=
  match s.block b with
  | none => s
  | some r =>
    if (r.st = .active ∨ r.st = .full ∨ r.st = .retired) ∧ !s.flash.refresh.contains b ∧
        s.flash.refresh.length < Config.refreshQueue then
      blockFull b (s.modFlash fun fl => { fl with refresh := fl.refresh ++ [b] })
    else s

/-- Every outcome of a read is judged for refresh (R86). -/
def judgeRefresh (a : Addr) (r : ReadResult) (s : State) : State :=
  match r with
  | .corrected n _ => if s.refreshBits ≤ n && !isAnchor a.blk then refreshAdd a.blk s else s
  | .blank | .clean _ | .uncorrectable => s

/-- A read handed to its caller: judged for refresh, and MEDIA raised where it is UNCORRECTABLE (R85, R86). -/
def noteRead (a : Addr) (r : ReadResult) (s : State) : State :=
  let s := judgeRefresh a r s
  if r = .uncorrectable then raiseMedia a.blk .uncorrectable s else s

/-! ## Lines -/

def State.modLine (n : Nat) (f : Line → Line) (s : State) : State :=
  s.modStore fun t => { t with lines := mapIf (fun l => l.num == n) f t.lines }

def insertLine (l : Line) : List Line → List Line
  | [] => [l]
  | m :: ms => if l.num < m.num then l :: m :: ms else m :: insertLine l ms

def State.flagLine (n : Nat) (f : LineFlags → LineFlags) (s : State) : State :=
  s.modLine n fun l => { l with flags := f l.flags }

def markDamaged (n : Nat) (s : State) : State := s.flagLine n fun f => { f with damaged := true }

def State.setSlot (i : Nat) (x : Option Slot) (s : State) : State :=
  s.modIntake fun t => { t with slots := t.slots.set i x }

def State.modSlot (i : Nat) (f : Slot → Slot) (s : State) : State :=
  s.modIntake fun t => { t with slots := t.slots.modify i (Option.map f) }

end Sys2Proof.Machine
end

