-- ==== Sys2Proof/Machine/Index.lean ====
section
/-!
DEFINITION. The line store's index (Chapter 5): cache invalidation, flushes, closes, page handings, replacements,
segment and root rewrites, and the load of a reopened line.
-/
namespace Sys2Proof.Machine

/-! ## Cache invalidation (R132, R133) -/

def CacheSet.drop (hit : Way → Bool) (c : CacheSet) : CacheSet :=
  { c with ways := c.ways.map fun w => match w with
      | some x => if hit x then none else some x
      | none => none }

/-- What an invalidation of segment `k` of line `n` does to a running retrieval: a read of that key fills no way, and a
HELD view of that line fills none any more (R132). The read counts from its request on (log entry 118). -/
def RetrCtx.invalidated (n : Nat) (k : Option Nat) (c : RetrCtx) : RetrCtx :=
  if c.line = n then
    { c with
      noFill := c.noFill || c.held,
      read := c.read.map fun r => match r.purpose with
        | .segment j _ => { r with stale := r.stale || k.isNone || k == some j }
        | .root => r
        | .data _ => r }
  else c

/-- A SEGMENT image of line `n`, number `k`, is handed: the way that holds it is emptied (R133). -/
def invalidateSeg (n k : Nat) (s : State) : State :=
  s.modRetr fun r => { r with
    cache := r.cache.map (CacheSet.drop fun w => w.line == n && w.seg == k),
    ctx := r.ctx.map (RetrCtx.invalidated n (some k)) }

/-- LINE-ERASE removes line `n`: every way that holds a segment of it is emptied (R133). -/
def invalidateLine (n : Nat) (s : State) : State :=
  s.modRetr fun r => { r with
    cache := r.cache.map (CacheSet.drop fun w => w.line == n),
    ctx := r.ctx.map (RetrCtx.invalidated n none) }

/-! ## Index reads (R99) -/

def requestRead (a : Addr) (p : Purpose) (s : State) : State :=
  s.modFlash fun fl => { fl with reads := fl.reads ++ [{ addr := a, purpose := p }] }

/-- A relocation or index read for this purpose is requested or in flight. -/
def State.reading (s : State) (p : Purpose) : Bool :=
  s.flash.reads.any (fun r => r.purpose == p) ||
    s.flash.dies.any fun d => match d.op with
      | some o => match o.kind with
        | .relocation r => r.purpose == p
        | .program _ _ | .readback _ _ | .retrieval _ | .erase _ => false
      | none => false

/-! ## Flushes and closes (R102 to R107) -/

/-- A flush of line `n` is asked for, where there is something to write and a segment number left (R102). A CLOSING line that
has none left is not flushed, and its close stands (log entry 97). -/
def requestFlush (n : Nat) (pressure : Bool) (s : State) : State :=
  match s.line n with
  | none => s
  | some l =>
    let p := s.flushPlan l
    if p.es.isEmpty || decide (Config.rootReferences ≤ p.seg) then s
    else
      requestImage (.flush n)
        (s.modLine n fun l => { l with flush := some { built := false, stale := false, pressure := pressure } })

/-- A segment rewrite of line `n` is in flight or a replacement waits for one (R107). -/
def State.rewriting (s : State) (n : Nat) : Bool :=
  s.store.segRw.any (fun r => r.line == n) || s.store.pendings.any (fun p => p.line == n)

/-- A CLOSING line's close goes on as far as it can (R107): its data written and its load ended, it is flushed until
nothing is left to flush, and its ROOT image is then asked for. -/
def closeAdvance (n : Nat) (s : State) : State :=
  match s.line n with
  | none => s
  | some l =>
    if l.st ≠ .closing ∨ l.loading ∨ s.unprogrammed n ∨ l.flush.isSome ∨ l.rootOut then s
    else if s.flushNeeded l then requestFlush n false s
    else if s.rewriting n then s
    else requestImage (.closeRoot n) (s.modLine n fun l => { l with rootOut := true })

/-- A close request moves an OPEN line to CLOSING (R106): its slot is released and its FILLING buffer queued (R40),
LINE-CLOSED is raised with the reason, and the first step is taken at once where no page of it is unprogrammed. -/
def requestClose (n : Nat) (r : CloseReason) (cut : Bool) (s : State) : State :=
  match s.line n with
  | none => s
  | some l =>
    if l.st ≠ .opened then s
    else
      let s := match s.slotOf n with
        | some i => (queueSlot i s).setSlot i none
        | none => s
      let s := s.modLine n fun l => { l with
        st := .closing, flags := { l.flags with limit := l.flags.limit || r == .limit, cut := l.flags.cut || cut } }
      closeAdvance n (raiseLineClosed n r s)

/-- The better of two lines by a measure; the lower line number takes it between equals. -/
def bestLine (key : Line → Nat) (best : Option Line) (l : Line) : Option Line :=
  match best with
  | none => some l
  | some m => if key m < key l then some l else some m

/-- The OPEN line that holds the most references (R104). -/
def State.mostRefs (s : State) : Option Line :=
  (s.store.lines.filter Line.open?).foldl (bestLine fun l => l.refs.length) none

/-- The root store cut (R104). -/
def rootCut (s : State) : State :=
  match s.mostRefs with
  | some l => requestClose l.num .limit false s
  | none => s

/-- A flush may be made of the line: it has something to write, no load is running and no flush image of it is out. With the ROOT
image of its close out it may be flushed too (R103, R117, log entry 32). -/
def State.canFlush (s : State) (l : Line) : Bool := l.indexing && !l.loading && l.flush.isNone && s.flushNeeded l

/-- A flush of line `n` under R102 to R104: an OPEN line at its segment limit is closed instead, and the root store cut
takes the place of a new reference beyond 4,080, judged here and not again when the image is built (log entry 98). -/
def flushLine (n : Nat) (pressure : Bool) (s : State) : State :=
  match s.line n with
  | none => s
  | some l =>
    if !s.canFlush l then s
    else if l.open? && !l.hasOpenSeg && decide (Config.rootReferences ≤ l.refs.length) then requestClose n .limit false s
    else if l.open? && !l.hasOpenSeg && decide (Config.rootStoreLimit ≤ s.rootUsed) then rootCut s
    else requestFlush n pressure s

/-- The image of a pressure flush is built and not yet handed (R103). -/
def FlushOut.pressing (f : Option FlushOut) : Bool := (f.map fun f => f.built && f.pressure).getD false

/-- Pool pressure (R103): below 510 free entries, with no pressure flush image built and unhanded, the line that holds the most pool
entries among those that can be flushed is flushed. -/
def judgePressure (s : State) : State :=
  if Config.segmentEntries ≤ s.poolFree ∨
      (s.store.lines.any fun l => FlushOut.pressing l.flush) ∨ (s.store.segRw.any fun w => FlushOut.pressing w.flush) then s
  else
    match (s.store.lines.filter s.canFlush).foldl (bestLine fun l => l.pool.length) none with
    | some l => flushLine l.num true s
    | none => s

/-! ## Replacements (R98) -/

def countNew (p : Repl) (s : State) : State :=
  match p.new with
  | some l => if p.prior then s else refUp l.addr s
  | none => s

def uncountNew (p : Repl) (s : State) : State :=
  match p.new with
  | some l => if p.prior then s else refDown l.addr s
  | none => s

def dropLoc (a : Option Addr) (s : State) : State :=
  match a with
  | some a => refDown a s
  | none => s

/-- The pool entry after a replacement (R98): no segment copy handed names it, nor does an image that carries it. -/
def PoolEnt.replaced (p : Repl) (y : PoolEnt) : PoolEnt := { y with e := y.e.replaced p, moved := true, again := y.out }

/-- A copy that is counted takes its pool entry; an image that carries the entry becomes stale, and the open segment that names
the old copy is marked for rewrite (R98, R102, R103). -/
def enterPool (p : Repl) (x : PoolEnt) (s : State) : State :=
  let s := s.modLine p.line fun l => { l with
    pool := mapIf (fun y => y.e.first == p.arrival) (PoolEnt.replaced p) l.pool,
    flush := if x.out then l.flush.map fun f => { f with stale := true } else l.flush,
    rewrite := l.rewrite || (x.inSeg && !x.out) }
  dropLoc x.e.loc s

/-- A pool entry is replaced at once: the new copy is counted as it takes the entry (R98). -/
def replacePool (p : Repl) (x : PoolEnt) (s : State) : State := enterPool p x (countNew p s)

/-- A segment rewrite is begun, where none of that segment is in flight (R105 step 1). -/
def startSegRewrite (n k : Nat) (r : SegRef) (s : State) : State :=
  match r.loc with
  | none => s
  | some a =>
    if s.store.segRw.any fun w => w.line == n && w.seg == k then s
    else
      requestRead a (.rewriteSegment n k) (s.modStore fun t => { t with
        segRw := t.segRw ++ [{ line := n, seg := k, ref := r, phase := .reading, pool := false, news := [],
                               drops := [], applied := [] }] })

def removePending (p : Repl) (s : State) : State := s.modStore fun t => { t with pendings := t.pendings.erase p }

/-- Segment `k` of line `n` is one that retrieval alone reads (R109). -/
def State.unread (s : State) (n k : Nat) : Bool := ((s.line n).map fun l => l.unread.contains k).getD false

/-- A pending replacement whose covering reference is looked for in `refs`: a rewrite of that segment is begun, or no
entry can name the superseded copy and the new copy is not counted (R98). One in a segment that no index read reads is
dropped as in a lost segment: its new copy stays counted (R105, R109). -/
def assignPending (refs : List SegRef) (p : Repl) (s : State) : State :=
  match refs.findIdx? fun r => r.covers p.arrival && r.loc.isSome with
  | some k =>
    if s.unread p.line k then removePending p s else startSegRewrite p.line k (refs.getD k ⟨none, 0, 0, 0⟩) s
  | none => uncountNew p (removePending p s)

/-- The line's last segment is about to come into the pool as the open segment: a load of the line runs, or the cut at the end
of the mount's scan loads it (R109, R192). A flush or a ROOT image that is out leaves it an ordinary segment. That its
replacements wait for the load is the model's reading (R105, log entry 105). -/
def State.lastWaits (s : State) (l : Line) : Bool :=
  l.loading || (s.scanning && !l.hasOpenSeg && l.flush.isNone && !l.rootOut)

/-- A pending replacement, whose new copy is counted, is served as the line stands: from the pool where the entry has come into
it, from the segment that covers it, or after its root has been read (R98, R100, R105, R109). One of the last segment waits
while that is about to be the open segment, which no segment rewrite is made of. -/
def servePending (p : Repl) (s : State) : State :=
  match s.line p.line with
  | none => uncountNew p (removePending p s)
  | some l =>
    if s.store.segRw.any fun w => w.line == p.line && w.ref.covers p.arrival then s
    else if l.indexInRoot then
      match l.load, l.root with
      | .readRoot, _ => s
      | _, none => uncountNew p (removePending p s)
      | _, some r => if s.reading (.locate p.line) then s else requestRead r.addr (.locate p.line) s
    else
      match l.pool.find? fun y => y.e.first == p.arrival with
      | some y =>
        let s := removePending p s
        if y.e.names p.arrival p.old then enterPool p y s
        else if p.entered y.e then s
        else uncountNew p s
      | none =>
        if s.lastWaits l && ((l.refs.getLast?.map fun r => r.covers p.arrival).getD false) then s
        else assignPending l.flushedRefs p s

def servePendings (n : Nat) (s : State) : State :=
  (s.store.pendings.filter fun p => p.line == n).foldl (fun s p => servePending p s) s

/-- A copy that supersedes `p.old` replaces the entry that names it (R98), or is not entered. -/
def replaceCopy (p : Repl) (s : State) : State :=
  match s.line p.line with
  | none => s
  | some l =>
    match l.pool.find? fun y => y.e.first == p.arrival with
    | some y => if y.e.names p.arrival p.old then replacePool p y s else s
    | none =>
      if !l.indexInRoot && !(l.flushedRefs.any fun r => r.covers p.arrival && r.loc.isSome) then s
      else servePending p ((countNew p s).modStore fun t => { t with pendings := t.pendings ++ [p] })

/-! ## New entries (R96, R97) -/

def insertPool (p : PoolEnt) : List PoolEnt → List PoolEnt
  | [] => [p]
  | q :: qs => if p.e.first < q.e.first then p :: q :: qs else q :: insertPool p qs

def widen (r : Option (Nat × Nat)) (lo hi : Nat) : Option (Nat × Nat) :=
  match r with
  | none => some (lo, hi)
  | some (a, b) => some (min a lo, max b hi)

/-- The page entry of a DATA page (R96). -/
def entryOf (h : PageHdr) (a : Addr) : PageEntry :=
  { loc := some a, wseq := h.wseq, first := h.first, count := h.count, smin := h.smin, smax := h.smax,
    handled := h.handled, degraded := h.degraded, verified := h.verified, relocated := h.relocated }

/-- The line with one more loose entry (R96). -/
def Line.addEntry (e : PageEntry) (l : Line) : Line :=
  { l with pool := insertPool { e := e, inSeg := false, out := false } l.pool, records := l.records + e.count,
           pages := l.pages + 1, range := widen l.range e.smin e.smax }

/-- A handed DATA page becomes a new entry, or the line gains LOSS where the pool is full (R96, R97). -/
def newEntry (h : PageHdr) (a : Addr) (s : State) : State :=
  if s.poolFree = 0 then s.flagLine h.line fun f => { f with loss := true }
  else refUp a (s.modLine h.line fun l => l.addEntry (entryOf h a))

/-- A DATA page is handed to the line store (R96). `copy` is the superseded sequence that a replacement names; none is
the first handing of a page of the intake. -/
def handData (h : PageHdr) (a : Addr) (copy : Option Nat) (s : State) : State :=
  match s.line h.line with
  | none => s
  | some l =>
    match copy with
    | some old =>
      replaceCopy { line := h.line, arrival := h.first, old := old, new := some { addr := a, wseq := h.wseq },
                    verified := h.verified, relocated := h.relocated, prior := false } s
    | none => if l.indexing then newEntry h a s else s

/-! ## The load of a reopened line (R109) -/

/-- Replacements that an image carried which was not entered are pending again, ahead of those that came after them (R98, R105). -/
def returnRepls (ps : List Repl) (s : State) : State := s.modStore fun t => { t with pendings := ps ++ t.pendings }

def setLoad (n : Nat) (ld : Load) (s : State) : State := s.modLine n fun l => { l with load := ld }

/-- A replacement or a rewrite of the line is under way (R109). -/
def State.lineBusy (s : State) (n : Nat) : Bool :=
  s.rewriting n || s.store.segDone.any (fun d => d.line == n) || s.store.rootRw.any (fun r => r.line == n)

/-- The load has ended: what waited for it goes on. -/
def loadEnd (n : Nat) (s : State) : State := closeAdvance n (servePendings n (setLoad n .none s))

/-- The older index is lost (R109): the segment count becomes 0, and the counts are those of the new entries. A replacement
pending for it names no entry any more, and its new copy is not counted (R98, log entry 83). -/
def loadRootLost (n : Nat) (s : State) : State :=
  loadEnd n (s.modLine n fun l => { l with
    flags := { l.flags with damaged := true }, segs := 0, refs := [], root := none, unread := [],
    records := (l.pool.map fun p => p.e.count).sum, pages := l.pool.length,
    range := l.pool.foldl (fun r p => widen r p.e.smin p.e.smax) none })

/-- Step 1 of the load: the prior root is read, or is lost already. -/
def startRootLoad (n : Nat) (s : State) : State :=
  match (s.line n).bind Line.root with
  | some r => requestRead r.addr (.loadRoot n) (setLoad n .readRoot s)
  | none => loadRootLost n s

/-- A reopened line's load begins, or waits for its rewrites and replacements (R109). -/
def beginLoad (n : Nat) (s : State) : State :=
  if s.lineBusy n then setLoad n .waitRewrites s else startRootLoad n s

/-- A load that waits for rewrites goes on once none is left. -/
def loadCheck (n : Nat) (s : State) : State :=
  match s.line n with
  | some l => if l.load = .waitRewrites ∧ !s.lineBusy n then startRootLoad n s else s
  | none => s

/-- Step 2 of the load: the last segment is read, unless its load has failed before. One that is lost already ends the load as
a failed read does (log entry 84). -/
def loadLast (n : Nat) (s : State) : State :=
  match s.line n with
  | none => s
  | some l =>
    match l.refs.getLast? with
    | none => loadEnd n s
    | some r =>
      if l.unread.contains (l.refs.length - 1) then loadEnd n s
      else
        match r.loc with
        | some a => requestRead a (.loadSegment n) (setLoad n .readSegment s)
        | none => loadEnd n (markDamaged n s)

/-- The segment copies handed while the prior root was read take their references in the root store; the replacements of one that
none takes go on (R105, R115). -/
def settleDone (n : Nat) (s : State) : State :=
  let ds := s.store.segDone.filter fun d => d.line == n
  ds.foldl (fun s d =>
    let refs := ((s.line n).map Line.refs).getD []
    if d.applies refs then
      refDownAll d.drops (dropLoc (d.replaces refs) (s.modLine n fun l => { l with refs := d.put l.refs }))
    else returnRepls d.applied (dropLoc d.loc s)) (s.modStore fun t => { t with segDone := t.segDone.filter fun d => d.line != n })

/-- The references of the prior root are placed in the root store, whose cut applies to them: one cut, once all are placed
(R104, R109, log entry 71). -/
def rootLoaded (n : Nat) (refs : List SegRef) (s : State) : State :=
  let s := loadLast n (settleDone n (s.modLine n fun l => { l with refs := refs, load := .readSegment }))
  servePendings n (if Config.rootStoreLimit < s.rootUsed then rootCut s else s)

/-- The open segment's entries are placed in the pool, where it has room for them. -/
def placeSegment (n : Nat) (es : List PageEntry) (s : State) : State :=
  if es.length ≤ s.poolFree then
    loadEnd n (s.modLine n fun l => { l with
      pool := es.foldr (fun e p => insertPool { e := e, inSeg := true, out := false } p) l.pool })
  else setLoad n (.waitPool es) s

/-- The last segment has been read (R109 step 2); a failed read leaves it in the root store as a full one that no index
read reads (log entry 74). -/
def segmentLoaded (n : Nat) (es : Option (List PageEntry)) (s : State) : State :=
  match es with
  | none => loadEnd n (markDamaged n (s.modLine n fun l => { l with unread := l.unread ++ [l.refs.length - 1] }))
  | some es => if Config.segmentEntries ≤ es.length then loadEnd n s else placeSegment n es s

/-! ## Root rewrites and losses (R105, R114) -/

/-- A root rewrite follows a segment copy handed for a CLOSED line; one of a line is made at a time. -/
def startRootRewrite (n : Nat) (s : State) : State :=
  if s.store.rootRw.any (fun r => r.line == n) || !(s.store.segDone.any fun d => d.line == n) then s
  else
    match (s.line n).bind Line.root with
    | some r =>
      requestRead r.addr (.rewriteRoot n) (s.modStore fun t => { t with
        rootRw := t.rootRw ++ [{ line := n, old := r.wseq, phase := .reading, carried := [] }] })
    | none => s.modStore fun t => { t with segDone := t.segDone.filter fun d => d.line != n }

/-- A segment copy of a CLOSED line waits for a root to name it; while a reopen reads the root, it waits for that. -/
def addDone (d : SegDone) (s : State) : State :=
  let s := s.modStore fun t => { t with segDone := t.segDone ++ [d] }
  if ((s.line d.line).map Line.load).getD .none = .readRoot then s else startRootRewrite d.line s

/-- The root location becomes absent and its reference is dropped (R114). Where the line's index stands in that root, what
waited to be named by it stays counted; replacements that the root store serves go on. -/
def loseRoot (n : Nat) (s : State) : State :=
  match s.line n with
  | none => s
  | some l =>
    let s := s.modLine n fun l => { l with root := none, flags := { l.flags with damaged := true } }
    let s :=
      if l.indexInRoot then
        s.modStore fun t => { t with
          pendings := t.pendings.filter fun p => p.line != n, segDone := t.segDone.filter fun d => d.line != n,
          rootRw := t.rootRw.filter fun r => r.line != n || r.phase == .built }
      else s
    loadCheck n (dropLoc (l.root.map Loc.addr) s)

/-- Reference `k` becomes a lost reference and its reference is dropped: at once in the root store, and through a root
rewrite for a CLOSED or LOCKED line (R114). -/
def loseSegment (n k wseq : Nat) (s : State) : State :=
  match s.line n with
  | none => s
  | some l =>
    let s := markDamaged n s
    if l.indexInRoot then
      addDone { line := n, seg := k, loc := none, wseq := 0, check := some wseq, old := none, news := [], drops := [],
                settled := false, gone := false } s
    else
      match l.refs[k]? with
      | none => s
      | some r =>
        if r.wseq = wseq then
          dropLoc r.loc (s.modLine n fun l => { l with
            refs := l.refs.modify k fun r => { r with loc := none, wseq := 0 } })
        else s

/-! ## Pages handed for the index (R103, R105, R107, R115) -/

/-- A pool entry once the flush image that carries it is handed: one of the open segment (R103). -/
def PoolEnt.handed (p : PoolEnt) : PoolEnt := { p with inSeg := true, out := false, moved := p.again, again := false }

/-- The pool after a flush image is handed: a full segment's entries leave it, any other's form the open segment (R103). -/
def Line.flushed (full stale : Bool) (l : Line) : List PoolEnt :=
  if full && !stale then l.pool.filter fun p => !p.out else l.pool.map fun p => if p.out then p.handed else p

/-- Segment `k` has a new copy that brings in the data copies `news` in place of `drops`: a ROOT image of the close that is out
names none of them (R107). -/
def Line.lateWith (k : Nat) (news drops : List Addr) (l : Line) : List (Nat × Addr) :=
  if l.st == .closing && l.rootOut then (l.late.filter fun x => !drops.contains x.2) ++ news.map fun a => (k, a) else l.late

/-- The data copies that the flush image out brings in. -/
def Line.flushNews (l : Line) : List Addr := (l.pool.filter fun p => p.out && p.moved && !p.again).filterMap fun p => p.e.loc

/-- In the root store the copy of segment `k` at `a` takes its reference: `news` and `drops` are the data copies that it brought in
and those it replaced (R105, R115). -/
def Line.withCopy (k : Nat) (a : Addr) (wseq : Nat) (news drops : List Addr) (l : Line) : Line :=
  { l with refs := l.refs.modify k fun r => { r with loc := some a, wseq := wseq }, late := l.lateWith k news drops }

/-- The pending replacements of a segment that come after a rewrite of it wait for a further one (R105). -/
def restartRewrite (n : Nat) (k : Nat) (r : SegRef) (s : State) : State :=
  if s.store.pendings.any fun p => p.line == n && r.covers p.arrival then startSegRewrite n k (s.curRef n k r) s else s

/-- The segment rewrite of line `n` and segment `k` whose image replaces the copy of write sequence `old`. -/
def State.builtRewrite (s : State) (n k old : Nat) : Option SegRewrite :=
  s.store.segRw.find? fun w => w.line == n && w.seg == k && w.phase == .built && w.ref.wseq == old

/-- A rewrite of segment `k` of a line that has become CLOSED is made of the entries that its pool held, all of them counted: `news`
are those that no segment copy named by a root names (R103, R105). -/
def startPoolRewrite (n k : Nat) (r : SegRef) (es : List PageEntry) (news : List Addr) (f : Option FlushOut) (s : State) : State :=
  requestImage (.segRewrite n k) (s.modStore fun t => { t with
    segRw := t.segRw ++ [{ line := n, seg := k, ref := r, phase := .read es, pool := true, news := news, drops := [], applied := [],
                           whole := es.filterMap PageEntry.loc, flush := f }] })

/-- A segment rewrite has been handed or has come to nothing: the replacements that came after it go on (R105). -/
def endSegRewrite (w : SegRewrite) (ref : SegRef) (s : State) : State :=
  loadCheck w.line (restartRewrite w.line w.seg ref (s.modStore fun t => { t with segRw := t.segRw.erase w }))

/-- The stale flush image of a line that has become CLOSED is handed: the segment is rewritten from the entries that its pool held
(R103). -/
def rewriteAgain (w : SegRewrite) (ref : SegRef) (s : State) : State :=
  startPoolRewrite w.line w.seg ref w.again w.news none (s.modStore fun t => { t with segRw := t.segRw.erase w })

/-- The image of the segment rewrite `w` of line `l` is handed (R105). -/
def handRewrite (l : Line) (w : SegRewrite) (x : Buf) (a : Addr) (s : State) : State :=
  let s := refUp a (invalidateSeg w.line w.seg s)
  let ref := { w.ref with loc := some a, wseq := x.hdr.wseq }
  if l.indexInRoot then
    let s := addDone { line := w.line, seg := w.seg, loc := some a, wseq := x.hdr.wseq, check := none, old := none, news := w.news,
                       drops := w.drops, settled := w.pool, gone := false, applied := w.applied } s
    if w.pool && !w.again.isEmpty then rewriteAgain w ref s else endSegRewrite w ref s
  else
    let s := s.modLine w.line (Line.withCopy w.seg a x.hdr.wseq w.news w.drops)
    endSegRewrite w ref (refDownAll w.drops (dropLoc ((l.refs[w.seg]?).bind SegRef.loc) s))

/-- A segment rewrite is handed (R105). -/
def handSegRewrite (n k old : Nat) (x : Buf) (a : Addr) (s : State) : State :=
  match s.line n, s.builtRewrite n k old with
  | some l, some w => handRewrite l w x a s
  | _, _ => s

/-- The segment rewrite whose image is that of a flush that was built as its line became CLOSED (log entry 32). -/
def State.flushRewrite (s : State) (n k : Nat) : Option SegRewrite :=
  s.store.segRw.find? fun w => w.line == n && w.seg == k && w.phase == .built && w.pool && w.flush.isSome

/-- The SEGMENT image of a flush is handed (R103). A new number leaves the former last segment an ordinary one, whose pending
replacements go on. Where the line has become CLOSED it is a segment rewrite (R105). -/
def handFlush (n seg : Nat) (x : Buf) (a : Addr) (s : State) : State :=
  match s.line n with
  | none => s
  | some l =>
    match l.flush with
    | none =>
      match s.flushRewrite n seg with
      | some w => handRewrite l w x a s
      | none => s
    | some f =>
      let es := match x.body with
        | .entries es => es
        | .records _ => []
        | .refs _ => []
        | .raw _ => []
      let r : SegRef := { loc := some a, wseq := x.hdr.wseq, first := x.hdr.first,
                          last := (es.getLast?.map PageEntry.last).getD 0 }
      let old := l.refs[seg]?
      let s := refUp a (invalidateSeg n seg s)
      let s := s.modLine n fun l => { l with
        refs := if seg < l.refs.length then l.refs.set seg r else l.refs ++ [r],
        pool := l.flushed (x.hdr.count == Config.segmentEntries) f.stale, rewrite := l.rewrite || f.stale, flush := none,
        late := l.lateWith seg l.flushNews [] }
      servePendings n (dropLoc (old.bind SegRef.loc) s)

/-- A root rewrite is handed (R105): the root location takes its location, and what it carried is dropped. -/
def handRootRewrite (n old : Nat) (x : Buf) (a : Addr) (s : State) : State :=
  match s.line n, s.store.rootRw.find? fun w => w.line == n && w.phase == .built && w.old == old with
  | some l, some w =>
    let s := refUp a s
    let s := s.modLine n fun l => { l with root := some { addr := a, wseq := x.hdr.wseq } }
    let s := s.modStore fun t => { t with rootRw := t.rootRw.erase w }
    let s := dropLoc (l.root.map Loc.addr) s
    let s := w.carried.foldl (fun s d => refDownAll d.drops (dropLoc d.old s)) s
    loadCheck n (startRootRewrite n s)
  | _, _ => s

/-- The data copies that the copies of segment `k` handed since the ROOT image of the close was built brought in, and that still
stand: those of the open segment in its pool (R107, R111). -/
def Line.lateNews (k : Nat) (l : Line) : List Addr :=
  ((l.late.filter fun x => x.1 == k).map Prod.snd).filter fun a =>
    !(l.hasOpenSeg && k + 1 == l.refs.length) || l.pool.any fun p => p.e.loc == some a

/-- The references of the line that the ROOT image of its close does not name as they now stand, each to be carried by a root
rewrite: the copies handed while the image was out (R105). -/
def rootChanges (named : List SegRef) (l : Line) : List SegDone :=
  (List.range l.refs.length).filterMap fun k =>
    match named[k]?, l.refs[k]? with
    | some r, some q => if r = q then none
        else some { line := l.num, seg := k, loc := q.loc, wseq := q.wseq, check := none, old := none, news := l.lateNews k,
                    drops := [], settled := true, gone := true }
    | _, _ => none

/-- The open segment whose entries were replaced while the ROOT image was out is rewritten from the pool. A flush image of it that
is built is that rewrite's, and where that image is stale a further rewrite follows it; a flush asked for and not built becomes
that rewrite (R103, R105, log entry 32). -/
def rewriteFromPool (n : Nat) (l : Line) (s : State) : State :=
  match l.refs.getLast? with
  | none => s
  | some r =>
    let ps := l.pool.filter PoolEnt.inSeg
    let es := ps.map PoolEnt.e
    let news := (ps.filter PoolEnt.moved).filterMap fun p => p.e.loc
    let k := l.refs.length - 1
    if es.isEmpty || (s.store.segRw.any fun w => w.line == n && w.seg == k) then s
    else
      match l.flush.filter FlushOut.built with
      | some f =>
        s.modStore fun t => { t with
          segRw := t.segRw ++ [{ line := n, seg := k, ref := r, phase := .built, pool := true, news := news, drops := [], applied := [],
                                 whole := es.filterMap PageEntry.loc, flush := some f, again := if f.stale then es else [] }] }
      | none => if l.rewrite then startPoolRewrite n k r es news l.flush s else s

/-- The ROOT image of a close is handed: the line becomes CLOSED (R107). -/
def handCloseRoot (n : Nat) (x : Buf) (a : Addr) (s : State) : State :=
  match s.line n with
  | none => s
  | some l =>
    if l.st ≠ .closing ∨ !l.rootOut then s
    else
      let named := match x.body with
        | .refs rs => rs
        | .records _ => []
        | .entries _ => []
        | .raw _ => []
      let s := refUp a s
      let s := s.modLine n fun l => { l with
        st := .closed, root := some { addr := a, wseq := x.hdr.wseq }, segs := l.refs.length, refs := [], pool := [],
        rewrite := false, flush := none, rootOut := false, late := [] }
      let s := dropLoc (l.root.map Loc.addr) s
      let s := s.modStore fun t => { t with segDone := t.segDone ++ rootChanges named l }
      rewriteFromPool n l (startRootRewrite n s)

/-- As far as it is known on chip, reference `k` of a CLOSED line still names the copy of write sequence `old` (R115); the root
says the rest when it is read (`carryDone`). `a` stands for the location that the root gives. -/
def State.namesCopy (s : State) (n k old : Nat) (a : Addr) : Bool :=
  (trackRef k (s.doneOf n) { loc := some a, wseq := old, first := 0, last := 0 }).names old

/-- A rewrite of segment `k` of line `n` that has no image yet takes up a copy of it handed meanwhile (R105). -/
def SegRewrite.moved (n k old wseq : Nat) (a : Addr) (w : SegRewrite) : SegRewrite :=
  if w.line = n ∧ w.seg = k ∧ w.ref.names old ∧ w.phase ≠ .built then { w with ref := { w.ref with loc := some a, wseq := wseq } }
  else w

/-- A copy of SEGMENT page `k` that supersedes `old` is handed (R115, and R65 for a page written again): `news` and `drops`
are the data copies it brought in and those it replaced, `ps` the replacements that it carries. It is not entered where the
reference names `old` no more. -/
def handSegCopy (n k old : Nat) (news drops : List Addr) (ps : List Repl) (x : Buf) (a : Addr) (s : State) : State :=
  match s.line n with
  | none => s
  | some l =>
    let s := invalidateSeg n k s
    if l.indexInRoot then
      if !s.namesCopy n k old a then s
      else
        addDone { line := n, seg := k, loc := some a, wseq := x.hdr.wseq, check := some old, old := none, news := news,
                  drops := drops, settled := false, gone := false, applied := ps }
          ((refUp a s).modStore fun t => { t with segRw := t.segRw.map (SegRewrite.moved n k old x.hdr.wseq a) })
    else
      match l.refs[k]? with
      | none => s
      | some r =>
        if r.names old then
          let s := (refUp a s).modLine n (Line.withCopy k a x.hdr.wseq news drops)
          refDownAll drops (dropLoc r.loc s)
        else s

/-- A copy of SEGMENT page `k` of line `n` that supersedes `old` would be entered (R115). -/
def State.entersCopy (s : State) (n k old : Nat) (a : Addr) : Bool :=
  match s.line n with
  | none => false
  | some l => if l.indexInRoot then s.namesCopy n k old a else ((l.refs[k]?).map fun r => r.names old).getD false

/-- The relocated copy of a SEGMENT page that is a rewrite of its segment is handed (R105, R115). Where it is not entered, the
replacements that it carries are pending again (R98). -/
def handSegReloc (n k old : Nat) (x : Buf) (a : Addr) (s : State) : State :=
  match s.builtRewrite n k old with
  | none => s
  | some w =>
    let t := handSegCopy n k old w.news w.drops w.applied x a s
    if s.entersCopy n k old a then endSegRewrite w { w.ref with loc := some a, wseq := x.hdr.wseq } t
    else loadCheck n (servePendings n (returnRepls w.applied (t.modStore fun t => { t with segRw := t.segRw.erase w })))

/-- A copy of a ROOT page that supersedes `old` is handed (R115). -/
def handRootCopy (n old : Nat) (x : Buf) (a : Addr) (s : State) : State :=
  match (s.line n).bind Line.root with
  | none => s
  | some r =>
    if r.wseq = old then
      let s := refUp a s
      let s := s.modLine n fun l => { l with root := some { addr := a, wseq := x.hdr.wseq } }
      refDown r.addr s
    else s

/-- A page of a line is handed to the line store (R61, R96): `first` is its first handing. A relocated page names the
sequence it was copied from, a page written again the sequence of the copy it replaces (R64, R65, R115). -/
def handLinePage (x : Buf) (a : Addr) (first : Bool) (s : State) : State :=
  let h := x.hdr
  let copy := if first && x.origin == .relocation then h.orig else h.sup
  let s := match h.kind with
    | .data => handData h a (if first && x.origin != .relocation then none else some copy) s
    | .segment =>
      if first then match x.job with
        | .flush n k => handFlush n k x a s
        | .segRewrite n k old => handSegRewrite n k old x a s
        | .reloc => handSegCopy h.line h.number copy [] [] [] x a s
        | .relocRewrite => handSegReloc h.line h.number copy x a s
        | .intake | .closeRoot _ | .rootRewrite _ _ | .checkpoint _ | .settings => s
      else handSegCopy h.line h.number copy [] [] [] x a s
    | .root =>
      if first then match x.job with
        | .closeRoot n => handCloseRoot n x a s
        | .rootRewrite n old => handRootRewrite n old x a s
        | .reloc => handRootCopy h.line copy x a s
        | .intake | .flush _ _ | .segRewrite _ _ _ | .relocRewrite | .checkpoint _ | .settings => s
      else handRootCopy h.line copy x a s
    | .checkpoint | .settings => s
  let s := if h.kind = .data ∨ h.kind = .segment then judgePressure s else s
  loadCheck h.line (closeAdvance h.line s)

/-! ## Index reads that end (R99, R105, R109) -/

/-- A page read for the index is the SEGMENT page `k` of line `n`. One whose header does not check, or that is another page, is
treated as lost (R99, log entry 70). -/
def segmentOf (n k : Nat) (r : ReadResult) : Option (List PageEntry) :=
  match readPage r with
  | some (h, d) => if h.kind = .segment ∧ h.line = n ∧ h.number = k then some (pageEntries h d) else none
  | none => none

/-- A page read for the index is the ROOT page of line `n`, or is treated as lost (R99, log entry 70). -/
def rootOf (n : Nat) (r : ReadResult) : Option (List SegRef) :=
  match readPage r with
  | some (h, d) => if h.kind = .root ∧ h.line = n then some (pageRefs h d) else none
  | none => none

/-- A rewrite's segment has been read (R105): its image is asked for, or, where no entry of it is replaced, the rewrite has
come to nothing and the replacements are not entered (R98). -/
def segmentRead (w : SegRewrite) (es : List PageEntry) (s : State) : State :=
  let ps := s.store.pendingOf w.line w.ref
  let ap := applyRepls ps es
  if ap.drops.isEmpty then
    let s := s.modStore fun t => { t with pendings := t.pendings.filter fun p => !ps.contains p }
    let s := ap.idle.foldl (fun s p => uncountNew p s) s
    loadCheck w.line (closeAdvance w.line (s.modStore fun t => { t with segRw := t.segRw.erase w }))
  else
    requestImage (.segRewrite w.line w.seg) (s.modStore fun t => { t with
      segRw := mapIf (fun v => v == w) (fun v => { v with phase := .read es }) t.segRw })

/-- The segment of a rewrite is lost: its pending replacements are dropped, their new copies left counted (R105). -/
def rewriteLost (w : SegRewrite) (s : State) : State :=
  let s := s.modStore fun t => { t with
    segRw := t.segRw.erase w,
    pendings := t.pendings.filter fun p => !(s.store.pendingOf w.line w.ref).contains p }
  loadCheck w.line (closeAdvance w.line (loseSegment w.line w.seg w.ref.wseq s))

def rewriteSegmentRead (n k : Nat) (a : Addr) (r : ReadResult) (s : State) : State :=
  match s.store.segRw.find? fun w => w.line == n && w.seg == k && w.phase == .reading with
  | none => s
  | some w =>
    let cur := s.curRef n k w.ref
    if cur.loc ≠ some a then
      let s := s.modStore fun t => { t with segRw := mapIf (fun v => v == w) (fun v => { v with ref := cur }) t.segRw }
      match cur.loc with
      | some b => requestRead b (.rewriteSegment n k) s
      | none => rewriteLost { w with ref := cur } s
    else
      match segmentOf n k r with
      | some es => segmentRead w es s
      | none => rewriteLost w s

/-- A root rewrite's root has been read (R105): its image is asked for, to carry the segment copies handed; one whose
reference no longer names what it was copied from is not counted, and the replacements that it carries go on (R98, R115). -/
def rewriteRootRead (n : Nat) (a : Addr) (r : ReadResult) (s : State) : State :=
  match s.store.rootRw.find? fun w => w.line == n && w.phase == .reading, (s.line n).bind Line.root with
  | some w, some root =>
    if root.addr ≠ a then requestRead root.addr (.rewriteRoot n) s
    else
      match rootOf n r with
      | none => loseRoot n s
      | some refs =>
        let c := carryDones (s.store.segDone.filter fun d => d.line == n) refs
        let s := s.modStore fun t => { t with segDone := t.segDone.filter fun d => d.line != n || !c.void.contains d }
        let s := c.void.foldl (fun s d => dropLoc d.loc s) s
        let back := (c.void.map SegDone.applied).flatten
        let s := returnRepls back s
        let s :=
          if c.carried.isEmpty then s.modStore fun t => { t with rootRw := t.rootRw.erase w }
          else
            requestImage (.rootRewrite n) (s.modStore fun t => { t with
              rootRw := mapIf (fun v => v == w) (fun v => { v with phase := .read refs }) t.rootRw })
        loadCheck n (if back.isEmpty then s else servePendings n s)
  | _, _ => s

/-- The root read that locates the segments of a CLOSED line's pending replacements has ended (R98). -/
def locateRead (n : Nat) (a : Addr) (r : ReadResult) (s : State) : State :=
  match s.line n with
  | none => s
  | some l =>
    if !l.indexInRoot then servePendings n s
    else
      match l.root with
      | none => servePendings n s
      | some root =>
        if root.addr ≠ a then requestRead root.addr (.locate n) s
        else
          match rootOf n r with
          | none => loseRoot n s
          | some refs =>
            let refs := overlay (s.doneOf n) refs
            let ps := s.store.pendings.filter fun p => p.line == n &&
              !(s.store.segRw.any fun w => w.line == n && w.ref.covers p.arrival)
            loadCheck n (ps.foldl (fun s p => assignPending refs p s) s)

def loadRootRead (n : Nat) (a : Addr) (r : ReadResult) (s : State) : State :=
  match s.line n with
  | none => s
  | some l =>
    if l.load ≠ .readRoot then s
    else
      match l.root with
      | none => loadRootLost n s
      | some root =>
        if root.addr ≠ a then requestRead root.addr (.loadRoot n) s
        else
          match rootOf n r with
          | some refs => rootLoaded n refs s
          | none => loadRootLost n s

def loadSegmentRead (n : Nat) (a : Addr) (r : ReadResult) (s : State) : State :=
  match s.line n with
  | none => s
  | some l =>
    if l.load ≠ .readSegment then s
    else
      match (l.refs.getLast?).bind SegRef.loc with
      | none => loadEnd n (markDamaged n s)
      | some b =>
        if b ≠ a then requestRead b (.loadSegment n) s
        else segmentLoaded n (segmentOf n (l.refs.length - 1) r) s

end Sys2Proof.Machine
end

