-- ==== Sys2Proof/Machine/Retrieval.lean ====
section
/-!
DEFINITION. The retrieval unit (Chapter 6): the walk of a READ-RECORDS, its messages, its stop, and the segment cache.
-/
namespace Sys2Proof.Machine

/-! ## The segment cache (R130 to R132) -/

/-- The set of a segment (R130). -/
def cacheSet (n k : Nat) : Nat := (n + k) % 8

/-- The recency marks after way `w` is used (Table 6-2). -/
def CacheSet.use (w : Nat) (c : CacheSet) : CacheSet :=
  match w with
  | 0 => { c with half := true, left := true }
  | 1 => { c with half := true, left := false }
  | 2 => { c with half := false, right := true }
  | _ => { c with half := false, right := false }

/-- The victim of a fill (R131). -/
def CacheSet.victim (c : CacheSet) : Nat :=
  match c.ways.findIdx? Option.isNone with
  | some w => w
  | none => if c.half then (if c.right then 3 else 2) else (if c.left then 1 else 0)

def CacheSet.fill (w : Way) (c : CacheSet) : CacheSet :=
  ({ c with ways := c.ways.set c.victim (some w) }).use c.victim

def Way.isKey (n k : Nat) (w : Option Way) : Bool :=
  match w with
  | some x => x.line == n && x.seg == k
  | none => false

/-- The way that holds the key. -/
def CacheSet.find (n k : Nat) (c : CacheSet) : Option (Nat × Way) :=
  match c.ways.findIdx? (Way.isKey n k) with
  | some i => (c.ways.getD i none).map fun w => (i, w)
  | none => none

def Retrieval.set (r : Retrieval) (n k : Nat) : CacheSet := r.cache.getD (cacheSet n k) .reset

def Retrieval.modSet (n k : Nat) (f : CacheSet → CacheSet) (r : Retrieval) : Retrieval :=
  { r with cache := r.cache.modify (cacheSet n k) f }

/-- A lookup of the walk (R130): the entries of a hit, with the way marked used; a way that holds the key of a LIVE view
under another write sequence or location is emptied. -/
def Retrieval.lookup (live : Bool) (n k : Nat) (ref : SegRef) (r : Retrieval) : Retrieval × Option (List PageEntry) :=
  match (r.set n k).find n k with
  | none => (r, none)
  | some (i, w) =>
    if live && !(w.wseq == ref.wseq && ref.loc == some w.loc) then
      (r.modSet n k fun c => { c with ways := c.ways.set i none }, none)
    else (r.modSet n k (CacheSet.use i), some w.entries)

/-! ## Messages (R125 to R127) -/

def State.modCtx (f : RetrCtx → RetrCtx) (s : State) : State := s.modRetr fun r => { r with ctx := r.ctx.map f }

def State.runTag (s : State) : Byte :=
  match s.link.running with
  | some r => r.cmd.tag
  | none => 0

def retrMessage (n : Nat) (tag : Byte) : HeldMsg → Message
  | .record r => { cls := .retrieval, kind := kindRecord, tag := tag, body := le2 n ++ [0, 0] ++ r.bytes }
  | .damaged a b => { cls := .retrieval, kind := kindDamaged, tag := tag, body := le4 a ++ le4 b ++ le4 (b - a + 1) }

def HeldMsg.isRecord : HeldMsg → Bool
  | .record _ => true
  | .damaged _ _ => false

/-- A message enters the reply FIFO while fewer than 8 wait, the count sent growing by a RECORD; it is held otherwise
(R17, R125, R127). -/
def placeMsg (c : RetrCtx) (m : HeldMsg) (s : State) : State :=
  if s.link.fifo.length < Config.retrievalLimit then
    (s.modLink fun l => l.enter s.paused (retrMessage c.line s.runTag m)).modCtx fun c =>
      { c with msg := none, sent := if m.isRecord then c.sent + 1 else c.sent }
  else s.modCtx fun c => { c with msg := some m }

/-- A DAMAGED message, with the line's flag (R126). -/
def placeDamaged (c : RetrCtx) (a b : Nat) (s : State) : State := placeMsg c (.damaged a b) (markDamaged c.line s)

/-- The contents of the final reply: the count sent and the line's count still in staging (R128). -/
def retrContent (sent line : Nat) (s : State) : List Byte := le2 sent ++ le4 (s.stagedRecords line)

def StopReq.code : StopReq → Option Code
  | .none => Option.none | .cancel => some .cancelled | .lowHalt => some .notReady | .mediaFault => some .mediaFault

/-- The walk ends: the final reply is built (R128). -/
def endRetr (c : RetrCtx) (code : Code) (s : State) : State :=
  endCommand code (retrContent c.sent c.line s) (s.modCtx fun c => { c with ended := true, todo := [], read := none })

/-! ## The walk (R122 to R124) -/

/-- A retrieval read is requested; one is outstanding at any time (R124). -/
def requestRetr (a : Addr) (p : RetrPurpose) (s : State) : State :=
  s.modCtx fun c => { c with read := some { addr := a, purpose := p, started := false, stale := false } }

/-- The entry is selected: its station range overlaps the range asked for (R124). -/
def PageEntry.meets (lo hi : Nat) (e : PageEntry) : Bool := decide (e.smin ≤ hi) && decide (lo ≤ e.smax)

/-- The cursor after an entry has been dealt with (R123). -/
def PageEntry.past (e : PageEntry) : Nat := e.first + max e.count 1

/-- The next entry is dealt with: passed over, reported, or read (R123, R124, R126). -/
def dealEntry (c : RetrCtx) (e : PageEntry) (s : State) : State :=
  let s := s.modCtx fun c => { c with cursor := e.past }
  if !e.meets c.lo c.hi then s
  else
    match e.loc with
    | none => placeDamaged c e.first e.last s
    | some a => requestRetr a (.data e) s

/-- The smallest entry at or above the cursor and below the bound. -/
def RetrCtx.nextOf (c : RetrCtx) (es : List PageEntry) : Option PageEntry :=
  es.find? fun e => decide (c.cursor ≤ e.first) && decide (e.first < c.bound)

/-- The flushed segments of the view: of a HELD root all, of a LIVE line all but its open segment (R122). -/
def RetrCtx.segments (c : RetrCtx) (l : Option Line) : List SegRef :=
  match c.root with
  | some rs => rs
  | none =>
    match l with
    | some l => l.flushedRefs
    | none => []

/-- The pool's entries of a LIVE view; a HELD view does not consult the pool (R122). -/
def RetrCtx.poolEntries (c : RetrCtx) (l : Option Line) : List PageEntry :=
  if c.held then [] else match l with
    | some l => l.pool.map PoolEnt.e
    | none => []

/-- The next entry from the pool, or the end of the walk (R123). -/
def dealPool (c : RetrCtx) (s : State) : State :=
  match c.nextOf (c.poolEntries (s.line c.line)) with
  | some e => dealEntry c e s
  | none => endRetr c .ok s

/-- Segment `k` of the view has been looked up with these entries: its candidate is dealt with, unless the pool's is
smaller (R123). None is a segment without a candidate. -/
def dealSegment (c : RetrCtx) (es : List PageEntry) (s : State) : Option State :=
  match c.nextOf es with
  | none => none
  | some e =>
    match c.nextOf (c.poolEntries (s.line c.line)) with
    | some p => if p.first < e.first then some (dealEntry c p s) else some (dealEntry c e s)
    | none => some (dealEntry c e s)

/-- The walk's search from segment `k` on: the first that the cursor and the bound let through is looked up (R123, R130). -/
def searchSegs (c : RetrCtx) : Nat → List SegRef → State → State
  | _, [], s => dealPool c s
  | k, r :: rs, s =>
    if decide (c.cursor ≤ r.last) && decide (r.first < c.bound) then
      match r.loc with
      | none => (placeDamaged c r.first r.last s).modCtx fun c => { c with cursor := r.last + 1 }
      | some a =>
        let (cache, hit) := s.retr.lookup (!c.held) c.line k r
        let s := s.modRetr fun _ => cache
        match hit with
        | some es => match dealSegment c es s with
          | some s => s
          | none => searchSegs c (k + 1) rs s
        | none => requestRetr a (.segment k r) s
    else searchSegs c (k + 1) rs s

/-- The root that a HELD view reads: the line's root location, or its prior root (R122). -/
def readHeldRoot (c : RetrCtx) (s : State) : State :=
  match (s.line c.line).bind Line.root with
  | some r => requestRetr r.addr .root s
  | none => (placeDamaged c c.cursor (c.bound - 1) s).modCtx fun c => { c with cursor := c.bound }

/-- A LIVE view becomes HELD where the line is CLOSED or LOCKED or a reopen load is in progress (R122). -/
def RetrCtx.holds (c : RetrCtx) (l : Option Line) : Bool :=
  c.held || match l with
    | some l => !l.indexing || l.loading
    | none => true

/-- One step of the walk, with no message held, no read outstanding and no record of a page in hand. -/
def walkStep (c : RetrCtx) (s : State) : State :=
  if c.bound ≤ c.cursor then endRetr c .ok s
  else
    let c := { c with held := c.holds (s.line c.line) }
    let s := s.modCtx fun x => { x with held := c.held }
    if c.held && c.root.isNone then readHeldRoot c s else searchSegs c 0 (c.segments (s.line c.line)) s

/-- A record is sent where its station, its kind and the bound allow it (R125). -/
def RetrCtx.wants (c : RetrCtx) (r : Rec) : Bool :=
  decide (c.lo ≤ r.station) && decide (r.station ≤ c.hi) && maskHas c.mask r.kind && decide (r.arrival < c.bound)

/-- A die is carrying out the retrieval read. -/
def RetrCtx.inFlight (c : RetrCtx) : Bool := (c.read.map RetrRead.started).getD false

/-- The retrieval goes on until a message is held, a read is outstanding or the command has ended (R123 to R129). At a stop
request a read in flight runs to its end first, and one that no die has started is not made.
Every round takes a record of the page in hand or moves the cursor, so the fuel given is never used up. -/
def walk : Nat → State → State
  | 0, s => s
  | fuel + 1, s =>
    match s.retr.ctx with
    | none => s
    | some c =>
      if c.ended || c.msg.isSome then s
      else match c.stop.code with
        | some code => if c.inFlight then s else endRetr c code s
        | none =>
          if c.read.isSome then s
          else if c.max ≤ c.sent then endRetr c .partialDone s
          else match c.todo with
            | r :: rs =>
              let s := s.modCtx fun c => { c with todo := rs }
              walk fuel (if c.wants r then placeMsg c (.record r) s else s)
            | [] => walk fuel (walkStep c s)

def runWalk (s : State) : State :=
  match s.retr.ctx with
  | none => s
  | some c => walk (c.bound - c.cursor + c.todo.length + 4) s

/-! ## Start, reads, held messages and stops -/

/-- READ-RECORDS reaches its owner (R121); a line with no pages has nothing to walk. -/
def startRetr (body : List Byte) (s : State) : State :=
  let n := rrLine body
  match s.line n with
  | none => endCommand .noSuchLine (retrContent 0 n s) s
  | some l =>
    if l.indexing && l.loading then endCommand .lineBusy (retrContent 0 n s) s
    else
      let c : RetrCtx :=
        { line := n, lo := rrLo body, hi := rrHi body, mask := rrMask body, max := rrMax body, sent := 0, bound := l.next,
          cursor := 1, held := !l.indexing, root := none, noFill := false, read := none, msg := none, todo := [],
          stop := .none, ended := false }
      let s := s.modRetr fun r => { r with ctx := some c }
      if l.pages = 0 then endRetr c .ok s else runWalk s

/-- The root read of a HELD view has ended (R122, R126). -/
def rootDone (c : RetrCtx) (r : ReadResult) (s : State) : State :=
  match rootOf c.line r with
  | some refs => s.modCtx fun c => { c with root := some refs }
  | none => (placeDamaged c c.cursor (c.bound - 1) s).modCtx fun c => { c with cursor := c.bound }

/-- The segment read of a lookup has ended: a way is filled where R132 allows it, and this lookup alone uses the entries read
(R130). A HELD view that began after a rewrite was handed and before its root was fills the copy that its root names (log entry
117). -/
def segmentDone (c : RetrCtx) (k : Nat) (ref : SegRef) (stale : Bool) (a : Addr) (r : ReadResult) (s : State) : State :=
  match segmentOf c.line k r with
  | none => (placeDamaged c ref.first ref.last s).modCtx fun c => { c with cursor := ref.last + 1 }
  | some es =>
    let fills := !stale && (!c.noFill || !c.held) && ((s.retr.set c.line k).find c.line k).isNone
    let s :=
      if fills then
        s.modRetr fun t => t.modSet c.line k (CacheSet.fill
          { line := c.line, seg := k, wseq := ref.wseq, loc := a, first := ref.first, last := ref.last, entries := es })
      else s
    match dealSegment c es s with
    | some s => s
    | none =>
      let c := { c with held := c.holds (s.line c.line) }
      if c.held && c.root.isNone then s
      else searchSegs c (k + 1) ((c.segments (s.line c.line)).drop (k + 1)) s

/-- The read of a DATA page has ended: its records are taken, or its range is reported (R124 to R126). -/
def dataDone (c : RetrCtx) (e : PageEntry) (r : ReadResult) (s : State) : State :=
  match readPage r with
  | some (h, d) =>
    if h.kind = .data ∧ h.line = c.line ∧ h.wseq = e.wseq then s.modCtx fun c => { c with todo := pageRecs h d }
    else placeDamaged c e.first e.last s
  | none => placeDamaged c e.first e.last s

/-- A retrieval read of the page at `a` has ended (R124); at a stop request nothing of it is used (R129). -/
def retrReadDone (a : Addr) (r : ReadResult) (s : State) : State :=
  let s := noteRead a r s
  match s.retr.ctx with
  | none => s
  | some c =>
    match c.read with
    | none => s
    | some q =>
      if q.started && q.addr == a then
        let s := s.modCtx fun c => { c with read := none }
        let c := { c with read := none }
        runWalk (if c.stop ≠ .none then s
          else match q.purpose with
            | .root => rootDone c r s
            | .segment k ref => segmentDone c k ref q.stale a r s
            | .data e => dataDone c e r s)
      else s

/-- The held message enters the reply FIFO (R127). -/
def heldEnters (s : State) : State :=
  match s.retr.ctx with
  | none => s
  | some c =>
    match c.msg with
    | none => s
    | some m => if s.link.fifo.length < Config.retrievalLimit then runWalk (placeMsg c m s) else s

/-- A stop request (R129): the first one decides, also where the final reply is built and has not entered. -/
def stopRetr (q : StopReq) (s : State) : State :=
  match s.retr.ctx with
  | none => s
  | some c =>
    if c.stop ≠ .none then s
    else
      let s := s.modCtx fun c => { c with stop := q }
      if c.ended then
        s.modLink fun l => { l with running := l.running.map fun r => match r.final, q.code with
          | some f, some code => { r with final := some { f with code := code } }
          | _, _ => r }
      else runWalk s

end Sys2Proof.Machine
end

