-- ==== Sys2Proof/Machine/Power.lean ====
section
/-!
DEFINITION. The power manager's transitions (Chapter 9): wakes, both closeouts, LOW-HALT, the MEDIA-FAULT state, the end
of a mount, and a checkpoint that is abandoned.
-/
namespace Sys2Proof.Machine

/-! ## The end of running store commands -/

/-- The contents that a store command's final reply carries where its work has not ended: those of READ-RECORDS and
LINE-ERASE are present whatever the outcome (R16). -/
def stoppedContent (c : StoreCmd) (s : State) : List Byte :=
  match c.kind with
  | .readRecords => retrContent 0 (rrLine c.body) s
  | .lineErase => le2 ((s.store.erase.map EraseJob.count).getD 0)
  | .identify | .status | .gaugeRead | .motionRead | .getSettings | .putSettings | .lineList | .lineInfo | .intake
  | .filterReset | .ackResume | .gaugeAnchor | .cancel | .reset | .lineClose | .lineLock | .lineUnlock
  | .permitLoad | .saveSettings | .format | .closeout | .pause => []

/-- The contents of a final reply that is given without running: what the command would carry, as the state stands where
it names one (R16). -/
def unrunContent (c : StoreCmd) (code : Code) (s : State) : List Byte :=
  match c.kind with
  | .pause => if code = .cancelled then le1 s.power.st.code else []
  | .closeout => if code = .cancelled then le1 s.power.store.code else []
  | .readRecords => stoppedContent c s
  | .lineErase => le2 0
  | .identify | .status | .gaugeRead | .motionRead | .getSettings | .putSettings | .lineList | .lineInfo | .intake
  | .filterReset | .ackResume | .gaugeAnchor | .cancel | .reset | .lineClose | .lineLock | .lineUnlock
  | .permitLoad | .saveSettings | .format => []

/-- A running command no longer waits for a checkpoint, and a running erase drops no further reference. -/
def forgetCommand (s : State) : State :=
  s.modStore fun t => { t with waiters := t.waiters.filter fun w => w.1 != .command, erase := none }

/-- The running store command ends with `code` where it has not ended: a retrieval by a stop request (R14, R84). A final reply
that is built and waits for room keeps its code, but for that of a READ-RECORDS whose context still stands (log entry 62). -/
def stopRunning (code : Code) (q : StopReq) (s : State) : State :=
  match s.link.running with
  | none => s
  | some r =>
    if r.cmd.kind = .readRecords ∧ s.retrieving then stopRetr q s
    else if r.final.isSome then s
    else forgetCommand (endCommand code (stoppedContent r.cmd s) s)

/-- A running PAUSE ends with CLOSING and enters no pause state (R14), also where its reply is built and waits for room
(log entry 62). -/
def closePause (s : State) : State :=
  match s.link.running with
  | none => s
  | some r =>
    if r.cmd.kind ≠ .pause ∨ !r.handed then s
    else
      let s := s.modStore fun t => { t with waiters := t.waiters.filter fun w => w.1 != .command }
      if r.final.isSome then s.modLink fun l => { l with running := some { r with final := some ⟨.closing, []⟩ } }
      else endCommand .closing [] s

/-! ## Wake (R178, R179) -/

/-- The motion monitor resumes sampling: the sample stream alone starts anew (R156). -/
def Motion.resumed (m : Motion) : Motion := { m with lastRaw := none, repeats := 0, missed := 0 }

/-- A wake, or the cancel of a pause entry, which acts as one: RUN, the wake cause, the resume-pending flag, RESUMED. -/
def wake (cause : WakeCause) (s : State) : State :=
  let s := if s.power.st = .deep then s.modMotion Motion.resumed else s
  let s := s.modPower fun p => { p with st := .run, wake := cause, resume := true, pauseMark := none }
  updateWait (raiseNotice .resumed (le1 cause.code) s)

/-- A wake source acts in a pause state and at the pause-entry mark (R178, R179). -/
def wakeBy (cause : WakeCause) (s : State) : State :=
  if s.pausing then wake cause s else s

/-! ## LOW-HALT (R14, R185, R186) -/

/-- A waiting command removed at LOW-HALT gets NOT-READY, or waits among the removed ones for room (R14). -/
def removeWaiting (c : StoreCmd) (s : State) : State :=
  if s.link.removed.isEmpty && decide (s.link.fifo.length < Config.replyFifo) then
    s.modLink fun l => l.enter s.paused (finalMessage c ⟨.notReady, unrunContent c .notReady s⟩)
  else s.modLink fun l => { l with removed := l.removed ++ [c] }

/-- The power state becomes LOW-HALT (R14, R129, R186). -/
def enterLowHalt (s : State) : State :=
  let s := s.modPower fun p => { p with st := .lowHalt }
  let cs := s.link.waiting
  let s := cs.foldl (fun s c => removeWaiting c s) (s.modLink fun l => { l with waiting := [] })
  updateWait (stopRunning .notReady .lowHalt s)

/-- LOW-HALT is entered at the first event at which R185 allows it. -/
def lowHaltCheck (s : State) : State := if s.lowHaltDue then enterLowHalt s else s

/-! ## Closeouts (R181, R182, R185) -/

/-- An orderly closeout begins (R181): the intake closes, a running PAUSE ends, and every OPEN line is sent to CLOSING in
order of slot number, with CUT where the cause is RESERVE. -/
def beginOrderly (cause : CloseoutCause) (s : State) : State :=
  let s := s.modPower fun p => { p with
    store := .closingOut, closeout := some { kind := .orderly false false, cause := cause }, lastCause := none }
  let s := closePause (s.modIntake fun i => { i with openReq := false })
  let ns := s.intake.slots.filterMap fun x => x.map Slot.line
  updateWait (ns.foldl (fun s n => requestClose n .closeout (cause == .reserve) s) s)

/-- The orderly closeout ends (R182): CLOSED-OUT, its cause kept, CLOSEOUT raised, a CLOSEOUT command answered. -/
def endOrderly (abandoned : Bool) (s : State) : State :=
  match s.power.closeout with
  | none => s
  | some c =>
    match c.kind with
    | .emergency => s
    | .orderly _ stuck =>
      let s := s.modPower fun p => { p with store := .closedOut, closeout := none, lastCause := some c.cause }
      let s := raiseNotice .closeout (le1 c.cause.code ++ le1 StoreState.closedOut.code) s
      if abandoned then endIf .closeout .mediaFault [] s
      else if stuck then endIf .closeout .storeFull [] s
      else endIf .closeout .ok (le1 StoreState.closedOut.code) s

/-- A collapse begins an emergency closeout in every power state but LOW-HALT (R185). The FILLING buffers are queued from slot
0 to slot 3 (R55, log entry 66). -/
def beginEmergency (s : State) : State :=
  if s.power.st = .lowHalt then s
  else
    let s := wakeBy .collapse s
    let s := s.modPower fun p => { p with
      closeout := some { kind := .emergency, cause := .collapse }, lastCause := none, mount := none,
      store := if p.store = .ready ∨ p.store = .closedOut then .closingOut else p.store }
    let s := s.modIntake fun i => { i with openReq := false }
    let s := s.modStore fun t => { t with waiters := t.waiters.filter fun w => w.1 == .command }
    let s := (List.range Config.openSlots).foldl (fun s i => queueSlot i s) s
    lowHaltCheck (updateWait (closePause s))

/-! ## The end of a mount (R187, R188, R192) -/

def raiseMounted (s : State) : State :=
  raiseNotice .mounted (le1 s.power.store.code ++ le1 s.power.resetCause.code) s

/-- The mount ends in this store state: the decay timer starts, the gauge samples, the space conditions are judged, and
MOUNTED is raised. -/
def endMount (st : StoreState) (s : State) : State :=
  let s := s.modPower fun p => { p with store := st, mount := none }
  let s := s.modMotion fun m => { m with decayOn := true }
  let s := s.modGauge fun g => { g with sampling := true }
  raiseMounted (judgeSpace s)

/-- The mount opens the store; a reserve that stands raised with reserve_action 1 begins an orderly closeout (R192). -/
def openStore (s : State) : State :=
  let s := endMount .ready s
  if s.gauge.reserve && s.reserveAction then beginOrderly .reserve s else updateWait s

/-! ## A checkpoint that ends without completing (R83, R118) -/

/-- The checkpoint's images leave the queue and the wait list unwritten. -/
def dropCheckpointImages (s : State) : State :=
  let s := s.modStaging fun t => { t with requests := t.requests.filter fun q => !q.isCheckpoint }
  let bs := s.staging.queue.filter fun b => ((s.buf b).map fun x => x.origin == .checkpoint).getD false
  bs.foldl (fun s b => freeBuf b s) s

/-- A checkpoint that is abandoned: no image of it is written and no pending one starts (R118). -/
def dropCheckpoint (s : State) : State :=
  dropCheckpointImages (s.modStore fun t => { t with ckpt := none, ckptPend := false })

/-- Who waits for an abandoned checkpoint is told so: a command ends with MEDIA-FAULT, a closeout ends, the mount opens
the store all the same (R83, R182, R192). -/
def waiterFails (w : Waiter) (s : State) : State :=
  match w with
  | .command => stopRunning .mediaFault .mediaFault s
  | .closeout => endOrderly true s
  | .mount => openStore s

/-- The checkpoint in progress is abandoned because die 0 is FAULTED (R83). -/
def abandonCheckpoint (s : State) : State :=
  let ws := s.store.waiters
  ws.foldl (fun s w => waiterFails w.1 s) (dropCheckpoint (s.modStore fun t => { t with waiters := [] }))

/-! ## MEDIA-FAULT (R84) -/

/-- The store state becomes MEDIA-FAULT: a mount ends with MOUNTED, an orderly closeout ends without a notice, the
checkpoint is abandoned and the running store command ends with MEDIA-FAULT (R84, R118, R182, R190). -/
def enterMediaFault (s : State) : State :=
  if s.power.store = .mediaFault then dropCheckpoint s
  else
    let mounting := s.power.mount.isSome
    let s := dropCheckpoint (s.modStore fun t => { t with waiters := [] })
    let s := s.modPower fun p => { p with
      store := .mediaFault,
      closeout := match p.closeout with
        | some c => match c.kind with
          | .orderly _ _ => none
          | .emergency => some c
        | none => none }
    let s := if mounting then endMount .mediaFault s else s
    updateWait (stopRunning .mediaFault .mediaFault s)

/-- Every detected die is FAULTED (R84). -/
def allFaulted (s : State) : Bool := !s.flash.dies.isEmpty && s.flash.dies.all fun d => !d.ready

def judgeDies (s : State) : State := if allFaulted s then enterMediaFault s else s

/-! ## PAUSE against a store that cannot become quiet (R177) -/

/-- What a PAUSE judges its buffers by: the store-full condition, the free list, and the active blocks of the READY dies (R177). -/
def State.pauseView (s : State) : Bool × List Blk × List (Option Active) :=
  (s.storeFull, s.flash.freeList.filter fun b => s.dieReady b.die, s.flash.dies.map fun d => if d.ready then d.active else none)

/-- A PAUSE that has not ended ends with STORE-FULL where a queued buffer can be taken by no die (R177). -/
def endStuckPause (s : State) : State :=
  if s.queueStuck then
    match s.link.running with
    | some r => if r.final.isSome then s else updateWait (endCommand .storeFull [] (forgetCommand s))
    | none => s
  else s

/-- A running PAUSE is judged as it starts and at each change of what it is judged by; a buffer that is queued meanwhile waits for
the next one (R177). -/
def judgePause (s : State) : State :=
  if s.isRunning .pause && s.power.pauseSeen != some s.pauseView then
    endStuckPause (s.modPower fun p => { p with pauseSeen := some s.pauseView })
  else s

end Sys2Proof.Machine
end

