-- ==== Sys2Proof/Machine/Checkpoint.lean ====
section
/-!
DEFINITION. Checkpoints (section 5.7): the request, the flush step, the snapshot, the ring placement, the handing of the
pages, and what the completion satisfies.
-/
namespace Sys2Proof.Machine

/-! ## The flush step (R117) -/

/-- A flush of the line is out, or a segment rewrite that stands for one since the line became CLOSED (R103, log entry 32). -/
def State.flushOut (s : State) (n : Nat) : Bool :=
  ((s.line n).bind Line.flush).isSome || s.store.segRw.any fun w => w.line == n && w.flush.isSome

/-- What becomes of one line of the flush step: flushed and waited for, kept for a later flush, or done with. -/
def flushStep (acc : List Nat × List Nat × State) (n : Nat) : List Nat × List Nat × State :=
  let (todo, wait, s) := acc
  match s.line n with
  | none => acc
  | some l =>
    if s.flushOut n then (todo ++ [n], wait, s)
    else if !s.canFlush l then acc
    else
      let s := flushLine n false s
      if (((s.line n).map fun l => l.flush.isSome).getD false) then (todo, wait ++ [n], s) else (todo, wait, s)

def runFlushes (ns wait : List Nat) (s : State) : State :=
  let (todo, wait, s) := ns.foldl flushStep ([], wait, s)
  s.modStore fun t => { t with ckpt := some (.flushing todo wait) }

/-- The flush step takes the line: a flush of it is out, or there is something to flush (R117). -/
def State.stepsFlush (s : State) (l : Line) : Bool :=
  l.indexing && (l.flush.isSome || (!l.loading && s.flushNeeded l))

/-- A checkpoint begins with its flush step. -/
def startCheckpoint (s : State) : State :=
  let ns := (s.store.lines.filter s.stepsFlush).map Line.num
  runFlushes ns [] (s.modStore fun t => { t with ckpt := some (.flushing [] []), ckptPend := false })

/-- A line's flush image has been handed: the flush step goes on. -/
def flushHanded (n : Nat) (s : State) : State :=
  match s.store.ckpt with
  | some (.flushing todo wait) =>
    if s.flushOut n && !wait.contains n then s
    else runFlushes todo (wait.filter (· != n)) s
  | some (.writing _) => s
  | none => s

/-! ## Requests (R116) -/

def addWaiter (w : Option Waiter) (s : State) : State :=
  match w with
  | some w => s.modStore fun t => { t with waiters := t.waiters ++ [(w, t.ckptSeq + 1)] }
  | none => s

/-- A checkpoint is requested: one starts, or the request joins one before its snapshot, or sets the pending mark. -/
def requestCheckpoint (w : Option Waiter) (s : State) : State :=
  let s := addWaiter w s
  match s.store.ckpt with
  | none => startCheckpoint s
  | some (.flushing _ _) => s
  | some (.writing _) => s.modStore fun t => { t with ckptPend := true }

/-! ## The ring (R91) -/

/-- Anchor positions left in the current ring block. -/
def State.ringLeft (s : State) : Nat :=
  if s.flash.ringDue || decide (254 < s.flash.ringPos) then 0 else (254 - s.flash.ringPos) / 2 + 1

/-- An erase becomes due on a die. -/
def dueErase (d block : Nat) (s : State) : State := s.modDie d fun x => { x with due := x.due ++ [block] }

/-- The next ring block becomes the current one and its erase becomes due, unless it holds a page of the newest complete
checkpoint: the store state becomes MEDIA-FAULT then. -/
def ringAdvance (s : State) : State :=
  let b := if s.flash.ringBlock = 4 then 1 else s.flash.ringBlock + 1
  if s.store.ckptBlocks.contains b then enterMediaFault s
  else dueErase 0 b (s.modFlash fun fl => { fl with ringBlock := b, ringDue := true, ringPos := 0 })

/-- The rest of the checkpoint continues in the next ring block where the present one cannot hold it. -/
def ringRoom (s : State) : State :=
  match s.store.ckpt with
  | some (.writing snap) =>
    if !s.flash.ringDue && decide (s.ringLeft < snap.pages - snap.handed) then ringAdvance s else s
  | some (.flushing _ _) => s
  | none => s

/-! ## The snapshot (R117) -/

/-- The blocks that the snapshot marks for the scan, recorded ACTIVE. An entry of the open segment is marked as a loose one is where
no segment copy handed names the page. -/
def State.scanMarks (s : State) : List Blk :=
  let bufs := (s.staging.bufs.filterMap id).filterMap fun b =>
    if b.st = .programming ∨ b.st = .verifying then b.target.map Addr.blk else none
  let loose := (s.store.lines.map fun l =>
    (l.pool.filter fun p => !p.inSeg || p.moved).filterMap fun p => p.e.loc.map Addr.blk).flatten
  let pend := s.store.pendings.filterMap fun p => p.new.map fun l => l.addr.blk
  let dones := s.store.segDone ++ (s.store.rootRw.map RootRewrite.carried).flatten
  let segs := (dones.map fun d => (d.loc.toList ++ d.news).map Addr.blk).flatten
  let rws := (s.store.segRw.map fun w => w.news.map Addr.blk).flatten
  bufs ++ loose ++ pend ++ segs ++ rws

/-- A block as the checkpoint records it: marked for the scan ACTIVE, RECLAIM-PENDING as FREE behind the free list, that one
also where it is marked (log entry 109). -/
def recordBlock (marks pend : List Blk) (ctr : Nat) (r : BlockRec) : BlockRec :=
  match r.st with
  | .anchor => r
  | .reclaimPending =>
    { r with st := .free, seq := (ctr + 1 + (pend.findIdx? (· == r.id)).getD 0) % Config.clockModulus }
  | .free | .active | .full | .retired => if marks.contains r.id then { r with st := .active } else r

/-- The captured state (Table 5-5). -/
def takeSnapshot (s : State) : Snapshot :=
  let roots := (s.rootUsed + Config.rootReferences - 1) / Config.rootReferences
  let marks := s.scanMarks
  { seq := s.store.ckptSeq + 1, nextW := s.store.wseq, clock := s.power.clock, pages := 26 + roots, roots := roots,
    lines := s.store.lines, blocks := s.flash.blocks.map (recordBlock marks s.flash.pendingRec s.flash.freeCtr),
    refs := (s.store.lines.map Line.refs).flatten, refresh := s.flash.refresh,
    freeCtr := (s.flash.freeCtr + s.flash.pendingRec.length) % Config.clockModulus, score := s.motion.score,
    log := s.motion.log, fcc := s.gauge.fcc, res := s.gauge.res, permit := s.settings.permit, handed := 0, used := [] }

/-- The orderly closeout has passed on because no die could take a program (R182). -/
def State.closeoutStuck (s : State) : Bool :=
  match s.power.closeout with
  | some c => match c.kind with | .orderly _ stuck => stuck | .emergency => false
  | none => false

/-- The snapshot may be taken: the flush step is over and the root store holds 4,080 or fewer references. The checkpoint
of a closeout that no program can serve waits for no flush image (log entry 31). -/
def State.snapshotReady (s : State) : Bool :=
  match s.store.ckpt with
  | some (.flushing todo wait) =>
    ((todo.isEmpty && wait.isEmpty) || s.closeoutStuck) && decide (s.rootUsed ≤ Config.rootStoreLimit)
  | some (.writing _) => false
  | none => false

/-- The snapshot is taken at one event (R117): the sequence grows by 1, the program count becomes 0, the ring is given the
page count (R91) and page 0 is asked for (R118). With die 0 FAULTED the checkpoint is abandoned (R83). -/
def snapshot (s : State) : State :=
  let snap := takeSnapshot s
  let s := s.modStore fun t => { t with ckptSeq := snap.seq, progCount := 0, ckpt := some (.writing snap) }
  let s := s.modFlash fun fl => { fl with ringFails := 0 }
  if !s.dieReady 0 then abandonCheckpoint s
  else
    let s := ringRoom s
    match s.store.ckpt with
    | some (.writing snap) => requestImage (.checkpoint 0) s
    | some (.flushing _ _) => s
    | none => s

/-! ## Completion (R118) -/

/-- What the newest complete checkpoint satisfies: the running command, the closeout or the mount. A LINE-ERASE is over as an
erase (R36, R111) here, also where its final reply waits for room (log entry 65). A FORMAT that ends behind a closeout begun
meanwhile leaves the store CLOSING-OUT (R184, log entry 102). -/
def waiterDone (w : Waiter) (s : State) : State :=
  match w with
  | .closeout => endOrderly false s
  | .mount => openStore s
  | .command =>
    match s.link.running with
    | none => s
    | some r =>
      match r.cmd.kind with
      | .lineErase =>
        let n := (s.store.erase.map EraseJob.count).getD 0
        endCommand .ok (le2 n) (s.modStore fun t => { t with erase := none })
      | .format =>
        updateWait (endCommand .ok [] (s.modPower fun p => { p with
          store := if p.closeout.isNone then .ready else p.store, lastCause := none }))
      | .pause => s.modPower fun p => { p with pause := .checkpointed }
      | .lineLock | .lineUnlock => endCommand .ok [] s
      | .identify | .status | .gaugeRead | .motionRead | .getSettings | .putSettings | .lineList | .lineInfo | .intake
      | .filterReset | .ackResume | .gaugeAnchor | .cancel | .reset | .readRecords | .lineClose | .permitLoad
      | .saveSettings | .closeout => s

/-- The trailer page is handed: the waiting commands and closeouts are satisfied, and a pending checkpoint starts. -/
def completeCheckpoint (snap : Snapshot) (s : State) : State :=
  let done := s.store.waiters.filter fun w => decide (w.2 ≤ snap.seq)
  let s := s.modStore fun t => { t with
    ckpt := none, ckptBlocks := snap.used, waiters := t.waiters.filter fun w => !decide (w.2 ≤ snap.seq) }
  let s := done.foldl (fun s w => waiterDone w.1 s) s
  if s.store.ckptPend && s.store.ckpt.isNone then startCheckpoint s else s

/-- A CHECKPOINT page is handed at its written point (R61, R118). -/
def handCheckpointPage (h : PageHdr) (a : Addr) (s : State) : State :=
  match s.store.ckpt with
  | some (.writing snap) =>
    if h.cpSeq ≠ snap.seq then s
    else
      let snap := { snap with
        handed := snap.handed + 1, used := if snap.used.contains a.block then snap.used else snap.used ++ [a.block] }
      let s := s.modStore fun t => { t with ckpt := some (.writing snap) }
      if h.number + 1 = snap.pages then completeCheckpoint snap s else s
  | some (.flushing _ _) => s
  | none => s

end Sys2Proof.Machine
end

