-- ==== Sys2Proof/Machine/Reloc.lean ====
section
/-!
DEFINITION. The relocation walk (R113 to R115), the search for an unreadable page (R114), the reads of a LINE-ERASE (R111),
and what each relocation or index read that ends is for (R99).
-/
namespace Sys2Proof.Machine

def State.modWalk (f : Walk → Walk) (s : State) : State := s.modStore fun t => { t with walk := t.walk.map f }

def endWalk (s : State) : State := s.modStore fun t => { t with walk := none }

def Walk.addr (w : Walk) : Addr := { die := w.blk.die, block := w.blk.block, page := w.page }

/-! ## The walk (R113) -/

/-- The block of a walk has ceased to be the head of the refresh queue, whether or not it is the head again (R113). -/
def State.walkStopped (s : State) (b : Blk) : Bool := (s.store.walk.map Walk.stopped).getD false || s.flash.refresh.head? != some b

/-- The page in hand is settled: the walk goes on to the next page, or ends (R113). A block that the walk leaves at its
last page leaves the refresh queue; a walk whose block has ceased to be the head stops (log entry 82). -/
def settlePage (w : Walk) (s : State) : State :=
  if s.walkStopped w.blk then endWalk s
  else if w.page = 255 then leaveRefresh w.blk (endWalk s)
  else
    let w := { w with page := w.page + 1, phase := if s.isRunning .pause then .retry else .reading }
    let s := s.modStore fun t => { t with walk := some w }
    if s.isRunning .pause then s else requestRead w.addr .walk s

/-- The read result is discarded and the page is read again later (R56, R113, R177, log entry 77). -/
def retryPage (w : Walk) (s : State) : State := s.modStore fun t => { t with walk := some { w with phase := .retry } }

/-- A relocation image may take a buffer (R56). -/
def State.relocRoom (s : State) : Bool := decide (s.waitMark < s.freeBuffers) && s.staging.requests.isEmpty

/-- The body of a page as it is copied: zero-filled positions are not copied (R199). -/
def pageBody (h : PageHdr) (d : List Byte) : Body :=
  match h.kind with
  | .data => .records (pageRecs h d)
  | .segment => .entries (pageEntries h d)
  | .root => .refs (pageRefs h d)
  | .checkpoint | .settings => .raw []

/-- The RELOCATION image of a live page: superseded and origin sequence are its own (R56, R115). -/
def relocImage (h : PageHdr) (body : Body) : Image :=
  { origin := .relocation,
    hdr := { h with wseq := 0, sup := h.wseq, orig := h.wseq, verified := false, relocated := false, cpSeq := 0 },
    body := body, job := .reloc }

/-- A load of the line's index has begun to read and has not ended (R109): its last segment, where that is short, is to come
into the pool as it was read. -/
def Load.begun : Load → Bool
  | .readRoot | .readSegment | .waitPool _ => true
  | .none | .waitRewrites => false

/-- Segment `k` of line `n`, which holds `m` entries, is the line's open segment, or the one that a reopen load which has begun
is about to make it (R109). -/
def State.isOpenSeg (s : State) (n k m : Nat) : Bool :=
  match s.line n with
  | some l =>
    l.indexing && (l.hasOpenSeg || (l.load.begun && decide (m < Config.segmentEntries))) && k + 1 == l.segCount
  | none => false

/-- A copy of this SEGMENT page, made as it is, waits in staging to be handed. -/
def State.copyStaged (s : State) (h : PageHdr) : Bool :=
  s.staging.bufs.any fun b => match b with
    | some x => x.job == .reloc && x.hdr.kind == .segment && x.hdr.orig == h.wseq && !x.reported
    | none => false

/-- The copy of a live SEGMENT page is a rewrite of that segment (R105): it applies the pending replacements of the segment,
which relocation has just read. A page of the open segment, or one that a copy already handed or still in staging stands for, is
copied as it is (log entry 75). -/
def relocSegment (b : Nat) (a : Addr) (h : PageHdr) (d : List Byte) (s : State) : State :=
  let es := pageEntries h d
  if s.isOpenSeg h.line h.number es.length || (s.doneOf h.line).any (fun x => x.seg == h.number) || s.copyStaged h then
    putImage b (relocImage h (.entries es)) s
  else
    let ref : SegRef := { loc := some a, wseq := h.wseq, first := h.first, last := (es.getLast?.map PageEntry.last).getD 0 }
    let ps := s.store.pendingOf h.line ref
    let ap := applyRepls ps es
    let s := s.modStore fun t => { t with
      pendings := t.pendings.filter fun p => !ps.contains p,
      segRw := t.segRw ++ [{ line := h.line, seg := h.number, ref := ref, phase := .built, pool := false, news := ap.news,
                             drops := ap.drops, applied := ps.filter fun p => !ap.idle.contains p }] }
    putImage b { relocImage h (.entries ap.es) with job := .relocRewrite } (ap.idle.foldl (fun s p => uncountNew p s) s)

/-- How far the rewrite of the segment that a SEGMENT page holds has come, where one is in flight. -/
def State.rewriteOf (s : State) (h : PageHdr) : Option (RwPhase PageEntry) :=
  if h.kind = .segment then (s.store.segRw.find? fun r => r.line == h.line && r.seg == h.number).map SegRewrite.phase
  else none

/-- A page judged live is copied where R56 gives a buffer, and is otherwise read again later. One rewrite of a segment is
made at a time (R105): with the image of one queued the page is settled, and before that it is read again later
(log entry 75). The FREE count and the wait list are tested here, once the index reads of the judging have ended
(log entry 106). -/
def relocLive (w : Walk) (h : PageHdr) (d : List Byte) (s : State) : State :=
  match s.rewriteOf h with
  | some .built => settlePage w s
  | some .reading | some (.read _) => retryPage w s
  | none =>
    match s.freeBuffer with
    | none => retryPage w s
    | some b =>
      if !s.relocRoom then retryPage w s
      else if h.kind = .segment then settlePage w (relocSegment b w.addr h d s)
      else settlePage w (putImage b (relocImage h (pageBody h d)) s)

/-! ## Judging a page (R114) -/

/-- What the judging of a page needs next. -/
inductive Verdict where
  | live | notLive
  | needRoot (a : Addr)
  | needSegment (a : Addr) (k : Nat)

/-- An entry names this location and sequence. -/
def PageEntry.isAt (a : Addr) (wseq : Nat) (e : PageEntry) : Bool := e.loc == some a && e.wseq == wseq

/-- The root and the segments of CLOSED and LOCKED lines, where the walk holds the last one it read. -/
def Walk.refsOf (w : Walk) (l : Line) : Option (List SegRef) :=
  if !l.indexInRoot then some l.refs
  else
    match w.heldRoot, l.root with
    | some (n, q, refs), some r => if n = l.num ∧ q = r.wseq then some refs else none
    | _, _ => none

def Walk.segOf (w : Walk) (n : Nat) (r : SegRef) : Option (List PageEntry) :=
  match w.heldSeg with
  | some (m, q, es) => if m = n ∧ q = r.wseq then some es else none
  | none => none

/-- The judging of a DATA page by the entry that covers its first arrival index. A page whose segment no index read reads is
passed over (R109). -/
def judgeData (w : Walk) (l : Line) (h : PageHdr) (refs : List SegRef) : Verdict :=
  match refs.findIdx? fun r => r.covers h.first with
  | none => .notLive
  | some k =>
    match refs[k]? with
    | none => .notLive
    | some r =>
      match r.loc with
      | none => .notLive
      | some a =>
        if l.unread.contains k then .notLive
        else match w.segOf l.num r with
        | none => .needSegment a k
        | some es => if es.any (fun e => e.first == h.first && e.isAt w.addr h.wseq) then .live else .notLive

/-- The verdict of Table R114. -/
def judgePage (w : Walk) (h : PageHdr) (s : State) : Verdict :=
  match s.line h.line with
  | none => .notLive
  | some l =>
    match h.kind with
    | .data =>
      match l.pool.find? fun p => decide (p.e.first ≤ h.first) && decide (h.first ≤ p.e.last) with
      | some p => if p.e.isAt w.addr h.wseq then .live else .notLive
      | none =>
        match w.refsOf l, l.root with
        | some refs, _ => judgeData w l h refs
        | none, some r => .needRoot r.addr
        | none, none => .notLive
    | .segment =>
      match w.refsOf l, l.root with
      | some refs, _ =>
        match refs[h.number]? with
        | some r => if r.loc = some w.addr ∧ r.wseq = h.wseq then .live else .notLive
        | none => .notLive
      | none, some r => .needRoot r.addr
      | none, none => .notLive
    | .root =>
      match l.root with
      | some r => if r.addr = w.addr ∧ r.wseq = h.wseq then .live else .notLive
      | none => .notLive
    | .checkpoint | .settings => .notLive

/-- The page in hand is judged: copied, passed over, or judged further after an index read. -/
def continueJudging (w : Walk) (h : PageHdr) (d : List Byte) (s : State) : State :=
  let s := s.modStore fun t => { t with walk := some { w with phase := .judging h d } }
  match judgePage w h s with
  | .live => relocLive w h d s
  | .notLive => settlePage w s
  | .needRoot a => requestRead a .judgeRoot s
  | .needSegment a _ => requestRead a .judgeSegment s

/-! ## The search for an unreadable page (R114) -/

/-- The line whose segments are searched next: its root is read (R114 step 4). -/
def searchLines (w : Walk) : List Nat → State → State
  | [], s => settlePage w s
  | n :: ns, s =>
    match s.line n with
    | none => searchLines w ns s
    | some l =>
      match l.indexing, l.root with
      | false, some r =>
        requestRead r.addr .searchRoot (s.modStore fun t => { t with walk := some { w with phase := .search ns [] n 0 } })
      | _, _ => searchLines w ns s

/-- The segment searched next of the line in hand. -/
def searchSegments (w : Walk) (ns : List Nat) (n : Nat) : Nat → List SegRef → State → State
  | _, [], s => searchLines w ns s
  | k, r :: rs, s =>
    match r.loc with
    | some a =>
      if s.unread n k then searchSegments w ns n (k + 1) rs s
      else requestRead a .searchSegment (s.modStore fun t => { t with walk := some { w with phase := .search ns rs n k } })
    | none => searchSegments w ns n (k + 1) rs s

/-- An entry that can no longer be read becomes LOST, and its line gains DAMAGED (R114). -/
def loseEntry (n : Nat) (e : PageEntry) (s : State) : State :=
  replaceCopy { line := n, arrival := e.first, old := e.wseq, new := none, verified := false, relocated := false,
                prior := false }
    (markDamaged n s)

/-- An unreadable page of the block in hand: a reference to its location is looked for in the pool, in the root store, at
the root locations, and then in the segments of the CLOSED and LOCKED lines (R114). -/
def lostPage (w : Walk) (s : State) : State :=
  let a := w.addr
  let inPool := s.store.lines.findSome? fun l => (l.pool.find? fun p => p.e.loc == some a).map fun p => (l.num, p.e)
  match inPool with
  | some (n, e) => settlePage w (loseEntry n e s)
  | none =>
    let inRefs := s.store.lines.findSome? fun l =>
      match l.refs.findIdx? fun r => r.loc == some a with
      | some k => (l.refs[k]?).map fun r => (l.num, k, r.wseq)
      | none => none
    match inRefs with
    | some (n, k, q) => settlePage w (loseSegment n k q s)
    | none =>
      match s.store.lines.find? fun l => (l.root.map Loc.addr) == some a with
      | some l => settlePage w (loseRoot l.num s)
      | none => searchLines w ((s.store.lines.filter fun l => !l.indexing).map Line.num) s

/-! ## Reads of the walk that end -/

/-- A relocation read has ended (R113, R114). A BLANK page ends the walk, and its block leaves the queue where it has been the head
all along, as after page 255 (log entry 82). -/
def walkRead (a : Addr) (r : ReadResult) (s : State) : State :=
  match s.store.walk with
  | none => s
  | some w =>
    match w.phase with
    | .judging _ _ | .retry | .search _ _ _ _ => s
    | .reading =>
      if w.addr ≠ a then s
      else if s.isRunning .pause then retryPage w s
      else if r = .blank then (if s.walkStopped w.blk then id else leaveRefresh w.blk) (endWalk s)
      else
        match readPage r with
        | some (h, d) => continueJudging w h d s
        | none => lostPage w s

/-- The root read that the judging needs has ended; a failed one loses the root, and the page is passed over (R114). A BLANK one is
taken as an UNCORRECTABLE one is (log entry 116). -/
def judgeRootRead (a : Addr) (r : ReadResult) (s : State) : State :=
  match s.store.walk with
  | none => s
  | some w =>
    match w.phase with
    | .reading | .retry | .search _ _ _ _ => s
    | .judging h d =>
      if s.isRunning .pause then retryPage w s
      else match (s.line h.line).bind Line.root with
      | none => settlePage w s
      | some root =>
        if root.addr ≠ a then continueJudging w h d s
        else
          match rootOf h.line r with
          | some refs => continueJudging { w with heldRoot := some (h.line, root.wseq, refs) } h d s
          | none => settlePage w (loseRoot h.line s)

/-- The segment read that the judging needs has ended; a failed one, BLANK or UNCORRECTABLE, loses the segment (R114, log entry 116). -/
def judgeSegmentRead (a : Addr) (r : ReadResult) (s : State) : State :=
  match s.store.walk with
  | none => s
  | some w =>
    match w.phase with
    | .reading | .retry | .search _ _ _ _ => s
    | .judging h d =>
      if s.isRunning .pause then retryPage w s
      else match (s.line h.line).bind w.refsOf with
      | none => continueJudging w h d s
      | some refs =>
        match refs.findIdx? fun q => q.loc == some a with
        | none => continueJudging w h d s
        | some k =>
          match refs[k]?, segmentOf h.line k r with
          | some q, some es => continueJudging { w with heldSeg := some (h.line, q.wseq, es) } h d s
          | some q, none => settlePage w (loseSegment h.line k q.wseq s)
          | none, _ => settlePage w s

/-- A root read of the search has ended; where it is BLANK or UNCORRECTABLE the page is passed over (R114, log entry 116). -/
def searchRootRead (a : Addr) (r : ReadResult) (s : State) : State :=
  match s.store.walk with
  | none => s
  | some w =>
    match w.phase with
    | .reading | .retry | .judging _ _ => s
    | .search ns _ n _ =>
      if s.isRunning .pause then retryPage w s
      else match (s.line n).bind Line.root with
      | none => searchLines w ns s
      | some root =>
        if root.addr ≠ a then searchLines w (n :: ns) s
        else
          match rootOf n r with
          | none => settlePage w s
          | some refs =>
            match refs.findIdx? fun q => q.loc == some w.addr with
            | some k => settlePage w (loseSegment n k ((refs[k]?.map SegRef.wseq).getD 0) s)
            | none => searchSegments w ns n 0 refs s

/-- A segment read of the search has ended; where it is BLANK or UNCORRECTABLE the page is passed over (R114, log entry 116). -/
def searchSegmentRead (r : ReadResult) (s : State) : State :=
  match s.store.walk with
  | none => s
  | some w =>
    match w.phase with
    | .reading | .retry | .judging _ _ => s
    | .search ns rs n k =>
      if s.isRunning .pause then retryPage w s
      else match segmentOf n k r with
      | none => settlePage w s
      | some es =>
        match es.find? fun e => e.loc == some w.addr with
        | some e => settlePage w (loseEntry n e s)
        | none => searchSegments w ns n (k + 1) rs s

/-! ## LINE-ERASE (R111) -/

/-- Those that the pages of a removed line name and that are not dropped with its work under way. -/
def ErasedLine.named (l : ErasedLine) (as : List Addr) : List Addr := as.filter fun a => !l.extra.contains a

/-- The references of the removed lines are dropped as far as no index read is needed; with the last one gone, the
checkpoint is requested. Each round drops a line or a reference; a segment that no index read reads has its own reference
dropped and leaves what it names counted (R109). -/
def eraseAdvance : Nat → State → State
  | 0, s => s
  | fuel + 1, s =>
    match s.store.erase with
    | none => s
    | some j =>
      match j.lines with
      | [] => requestCheckpoint (some .command) s
      | l :: ls =>
        match j.refs, l.root with
        | none, some r => requestRead r.addr .eraseRoot s
        | none, none =>
          eraseAdvance fuel (refDownAll l.extra (s.modStore fun t => { t with erase := some { j with lines := ls } }))
        | some [], root =>
          eraseAdvance fuel (refDownAll l.extra (dropLoc (root.map Loc.addr)
            (s.modStore fun t => { t with erase := some { j with lines := ls, refs := none } })))
        | some ((k, r) :: rs), _ =>
          match r.loc, l.unread.contains k with
          | some a, false => requestRead a .eraseSegment s
          | _, _ =>
            eraseAdvance fuel (refDownAll (l.named r.loc.toList)
              (s.modStore fun t => { t with erase := some { j with refs := some rs } }))

def runErase (s : State) : State :=
  match s.store.erase with
  | none => s
  | some j => eraseAdvance (j.lines.length + (j.refs.getD []).length + 2) s

/-- The root of a removed line has been read; an unreadable one leaves what it named counted (R111). The segment copies that
the copies standing for them replace are dropped here, and the entries that its pool held last. Any ROOT page that reads well is
taken (log entry 108). -/
def eraseRootRead (r : ReadResult) (s : State) : State :=
  match s.store.erase with
  | none => s
  | some j =>
    match j.lines with
    | [] => s
    | l :: _ =>
      let root := (readPage r).filter fun x => x.1.kind == .root
      let refs := (root.map fun x => pageRefs x.1 x.2).getD []
      let c := carryDones l.stead refs
      let whole := if root.isSome then l.whole else []
      let s := s.modStore fun t => { t with erase := some { j with refs := some ((List.range c.refs.length).zip c.refs) } }
      runErase (refDownAll (l.named (c.carried.filterMap SegDone.old ++ whole)) s)

/-- A segment of a removed line has been read: its entries' references and its own are dropped (R111), with the copies of the mount
that replacements were to enter in it (log entry 121). Any SEGMENT page that reads well is taken (log entry 108). -/
def eraseSegmentRead (a : Addr) (r : ReadResult) (s : State) : State :=
  match s.store.erase with
  | none => s
  | some j =>
    match j.lines with
    | [] => s
    | l :: _ =>
      let page := (readPage r).filter fun x => x.1.kind == .segment
      let es := (page.map fun x => pageEntries x.1 x.2).getD []
      let s := refDownAll (l.named (es.filterMap PageEntry.loc ++ (applyRepls l.priors es).news ++ [a])) s
      runErase (s.modStore fun t => { t with erase := some { j with refs := j.refs.map List.tail } })

/-! ## The start of a walk -/

/-- No walk is begun in MOUNTING, while PAUSE runs (R177) or while FORMAT runs (R112). -/
def State.mayWalk (s : State) : Bool :=
  s.power.store != .mounting && !s.isRunning .pause && s.power.fmt == .none && !s.paused

/-- A walk that waits to read its page again has lost its block: that left the queue, or has ceased to be the head (R87, R113). -/
def State.walkStale (s : State) : Bool :=
  match s.store.walk with
  | some w => match w.phase with
    | .retry => s.walkStopped w.blk
    | .reading | .judging _ _ | .search _ _ _ _ => false
  | none => false

/-- The walk of the refresh queue's head begins at its page 0 (R113); a head without live pages leaves the queue (R87). -/
def startWalk (s : State) : State :=
  let s := if s.walkStale then endWalk s else s
  match s.store.walk, s.flash.refresh.head? with
  | none, some b =>
    if !s.mayWalk then s
    else if ((s.block b).map BlockRec.live).getD 0 = 0 then leaveRefresh b s
    else
      requestRead { die := b.die, block := b.block, page := 0 } .walk (s.modStore fun t => { t with
        walk := some { blk := b, page := 0, phase := .reading, heldRoot := none, heldSeg := none } })
  | _, _ => s

/-- The page in hand is read again once a buffer is to be had (R113), while its block is the head of the refresh queue. -/
def retryWalk (s : State) : State :=
  match s.store.walk with
  | none => s
  | some w =>
    match w.phase with
    | .reading | .judging _ _ | .search _ _ _ _ => s
    | .retry =>
      if s.relocRoom && s.mayWalk && !s.walkStale then requestRead w.addr .walk (s.modWalk fun w => { w with phase := .reading }) else s

end Sys2Proof.Machine
end

