-- ==== Sys2Proof/Machine/Score.lean ====
section
/-!
DEFINITION. The handling score, the careful latch and flag (R150 to R153), and the gauge's computed values (R158 to R171):
what the settings store and the mount also change.
-/
namespace Sys2Proof.Machine

/-! ## The handling score and careful mode -/

/-- A change of the careful flag from `old` raises CAREFUL with the flag and the score (R153). -/
def raiseCareful (old : Bool) (s : State) : State :=
  if s.careful = old then s else raiseNotice .careful (leBool s.careful ++ le2 s.motion.score) s

/-- The careful latch for a score (R152). -/
def latchOf (on off score : Nat) (latch : Bool) : Bool :=
  if on ≤ score then true else if score < off then false else latch

/-- The latch and the flag judged at a change of the score or of its bounds. -/
def judgeLatch (s : State) : State :=
  raiseCareful s.careful (s.modMotion fun m => { m with latch := latchOf s.carefulOn s.carefulOff m.score m.latch })

/-- Points are added to the score (R150): HANDLING-ALARM on the way from below alarm to alarm or above. -/
def addPoints (n : Nat) (s : State) : State :=
  let old := s.motion.score
  let new := min 1023 (old + n)
  let s := s.modMotion fun m => { m with score := new }
  let s := if old < s.alarm ∧ s.alarm ≤ new then raiseNotice .handlingAlarm (le2 new) s else s
  judgeLatch s

/-- What a decay leaves of the score (R151). -/
def decayed (score : Nat) : Nat := if score = 0 then 0 else score - max 1 (score / 16)

/-- The decay timer reaches 6,000 ticks (R151). -/
def decayScore (s : State) : State :=
  judgeLatch (s.modMotion fun m => { m with decay := 0, score := decayed m.score })

/-! ## Charge, state of charge and time to empty -/

/-- The derate percentage of Table 8-2. -/
def derate (t : Int) : Nat :=
  if 200 ≤ t then 100 else if 100 ≤ t then 96 else if 0 ≤ t then 90 else if -100 ≤ t then 80
  else if -200 ≤ t then 68 else 55

/-- The locked charge U (R160). -/
def lockedCharge (fcc : Nat) (t : Int) : Nat := fcc * (100 - derate t) / 100

/-- The state of charge (R160). -/
def socOf (rc fcc u : Nat) : Nat := if rc ≤ u then 0 else min 100 (100 * (rc - u) / (fcc - u))

/-- The average of the current ring, truncated toward zero (R161). -/
def ringAvg (ring : List Int) : Int := ring.sum.tdiv 16

/-- Time to empty (R161). -/
def tteOf (rc u : Nat) (avg : Int) : Nat :=
  if avg ≤ 0 then 65535 else if rc ≤ u then 0 else min 65534 ((rc - u) / (avg.toNat * 240))

/-- SOC, TTE and avg from the present charge, U and ring (step 7 of Table 8-1). -/
def Gauge.report (g : Gauge) : Gauge :=
  let avg := ringAvg g.ring
  { g with soc := socOf g.rc g.fcc g.locked, avg := avg, tte := tteOf g.rc g.locked avg }

/-- BATTERY with the state of charge and the confidence (Table 1-4). -/
def raiseBattery (s : State) : State := raiseNotice .battery (le1 s.gauge.soc ++ le1 s.gauge.conf.code) s

/-- The notice rule of R170: a change of the decade or of the confidence since `conf`. -/
def judgeBattery (conf : Confidence) (s : State) : State :=
  let d := s.gauge.soc / 10
  let s' := s.modGauge fun g => { g with decade := d }
  if d ≠ s.gauge.decade ∨ s.gauge.conf ≠ conf then raiseBattery s' else s'

/-- A design-capacity change from `old` to `new` q (R171). -/
def Gauge.redesign (old new : Nat) (g : Gauge) : Gauge :=
  let u := match g.last with
    | some x => lockedCharge new x.t
    | none => g.locked
  ({ g with rc := g.rc * new / old, fcc := new, conf := .estimated, run := none, locked := u }).report

/-- A changed design_mah is a design-capacity change, with BATTERY where the confidence changes by it (R171, log entry 89). -/
def designChange (old : Nat) (s : State) : State :=
  if s.design = old then s
  else
    let conf := s.gauge.conf
    let s := s.modGauge (Gauge.redesign old s.design)
    if s.gauge.conf = conf then s else raiseBattery (s.modGauge fun g => { g with decade := g.soc / 10 })

/-- The gauge's starting values at the settings step of the mount after a POWER-ON reset, "with RC still 0" (R173). -/
def gaugeStart (s : State) : State :=
  s.modGauge fun g => { g with rc := 0, fcc := s.design, res := s.r0Mohm, sampling := true }

/-- The learned values of the checkpoint restored after a POWER-ON reset (R173). -/
def gaugeRestore (fcc res : Nat) (s : State) : State :=
  let f := clampNat (s.design / 2) s.design fcc
  s.modGauge fun g => { g with rc := g.rc * f / g.fcc, fcc := f, res := res }

end Sys2Proof.Machine
end

