-- ==== Sys2Proof/Machine/Settings.lean ====
section
/-!
DEFINITION. The settings store (Chapter 10): the ranges and groups of the items, PUT-SETTINGS, and the load of a saved page.
-/
namespace Sys2Proof.Machine

/-- The range of each item 0 to 41 (Table 10-1). -/
def itemRanges : List (Nat × Nat) :=
  [(64, 2048), (0, 1), (0, 1), (0, 1), (0, 255), (0, 255), (0, 255), (0, 255), (0, 255), (0, 255), (0, 255), (0, 255),
   (10, 1000), (1, 64), (1, 16), (1, 254), (2, 255), (64, 4096), (1, 12), (2, 20), (8, 40)] ++
  [(0, 1), (100, 600), (4, 40), (1500, 16000), (500, 950), (1050, 1500), (8, 400), (100, 4000), (0, 1), (8, 512),
   (0, 511), (16, 1023), (500, 30000), (1, 4), (2000, 14400), (10, 2000), (100, 5000), (50, 1000), (0, 100), (0, 1),
   (5, 200)]

/-- A value brought into its item's range (R194, R195). -/
def clampItem (i v : Nat) : Nat :=
  match itemRanges[i]? with
  | some (lo, hi) => clampNat lo hi v
  | none => v

/-- The groups F, L, S, B, C and P, each by its first item and its length. -/
def groups : List (Nat × Nat) := [(4, 8), (15, 2), (18, 2), (25, 2), (30, 3), (33, 8)]

/-- The group of an item. -/
def groupOf (i : Nat) : Option (Nat × Nat) := groups.find? fun g => decide (g.1 ≤ i) && decide (i < g.1 + g.2)

/-- The constraint of the group that begins at item `g` (Table 10-1). -/
def constraintOk (g : Nat) (items : List Nat) : Bool :=
  let at_ := fun i => items.getD i 0
  if g = 15 then decide (at_ 15 < at_ 16)
  else if g = 18 then decide (at_ 18 < at_ 19)
  else if g = 30 then decide (at_ 31 < at_ 30) && decide (at_ 30 ≤ at_ 32)
  else true

/-- Item `i` received a value from a PUT of `n` values from `first` on. -/
def placed (first n i : Nat) : Bool := decide (first ≤ i) && decide (i < first + n)

/-- The items with every placed value clamped, before the groups are judged (R195 steps 1 and 2). -/
def putCandidate (first : Nat) (vs items : List Nat) : List Nat :=
  items.mapIdx fun i old => if placed first vs.length i then clampItem i (vs.getD (i - first) 0) else old

/-- Item `i` is written: it is placed, and its group, if it has one, is covered and meets its constraint (R195 step 3). -/
def putWrites (first : Nat) (vs items : List Nat) (i : Nat) : Bool :=
  placed first vs.length i &&
    match groupOf i with
    | none => true
    | some g => decide (first ≤ g.1) && decide (g.1 + g.2 ≤ first + vs.length) &&
        constraintOk g.1 (putCandidate first vs items)

/-- The items after a PUT (R195 step 4). -/
def putItems (first : Nat) (vs items : List Nat) : List Nat :=
  let new := putCandidate first vs items
  items.mapIdx fun i old => if putWrites first vs items i then new.getD i old else old

def countItems (p : Nat → Bool) : Nat := (List.range 42).countP p

/-- The applied, clamped and skipped counts, and whether a value was discarded (R195). -/
def putCounts (first : Nat) (vs items : List Nat) : Nat × Nat × Nat × Bool :=
  (countItems (putWrites first vs items),
   countItems (fun i => placed first vs.length i && clampItem i (vs.getD (i - first) 0) != vs.getD (i - first) 0),
   countItems (fun i => placed first vs.length i && !putWrites first vs items i),
   decide (42 < first + vs.length))

/-- A link interval is in progress: its timer runs, or has run since the interval began (R48, log entry 76). -/
def State.intervalBegun (s : State) : Bool := s.timerRuns || decide (0 < s.intake.elapsed) || s.intake.errored

/-- The first interval after a reset keeps the length it began with; a later one has kept it since it began (R48). -/
def keepInterval (s : State) : State :=
  if s.intake.intervalLen.isNone && s.intervalBegun then s.modIntake fun i => { i with intervalLen := some s.intervalMs }
  else s

/-- A new working copy is in force: the blocks act on it as their chapters give (R34, R48, R75, R152, R171). -/
def adoptItems (items : List Nat) (s : State) : State :=
  let s := keepInterval s
  let old := s.design
  let bounds := (s.carefulOn, s.carefulOff)
  let s := s.modSettings fun c => { c with items := items }
  let s := designChange old s
  let s := if (s.carefulOn, s.carefulOff) = bounds then s else judgeLatch s
  updateWait (judgeSpace s)

/-- PUT-SETTINGS (R195). -/
def putSettings (tag : Byte) (body : List Byte) (s : State) : State :=
  let first := field 1 body 0
  let vs := putValues body
  let (applied, clamped, skipped, lost) := putCounts first vs s.settings.items
  let s := adoptItems (putItems first vs s.settings.items) s
  reply CmdKind.putSettings.code tag (if lost then .partialDone else .ok) (le1 applied ++ le1 clamped ++ le1 skipped) s

/-- GET-SETTINGS (R196): value j is that of item first + j, or of item 41 beyond it. -/
def getSettings (tag : Byte) (body : List Byte) (s : State) : State :=
  let first := field 1 body 0
  let vs := (List.range (field 1 body 1)).map fun j => s.item (min (first + j) 41)
  reply CmdKind.getSettings.code tag .ok (vs.map le2).flatten s

/-- The items of a saved page: each brought into range, and a group that fails its constraint at its defaults (R194). -/
def loadedItems (vs : List Nat) : List Nat :=
  let vs := vs.mapIdx clampItem
  vs.mapIdx fun i v => match groupOf i with
    | some g => if constraintOk g.1 vs then v else Settings.defaults.getD i 0
    | none => v

/-- The settings step of the mount (R187, R194): the newest valid page, or the defaults; the gauge takes its starting
values after a POWER-ON reset, and takes samples from here on (R173); a design-capacity change is made otherwise (R171). -/
def loadSettings (best : Option ReadPage) (s : State) : State :=
  let (items, permit) := match best with
    | some p =>
      let map := parsePermit p.data 148
      (loadedItems (parseMany (fun bs off => field 2 bs off) 2 42 p.data 64), if map.ok then map else .default)
    | none => (Settings.defaults, Permit.default)
  let s := s.modSettings fun c => { c with permit := permit, saved := best.map ReadPage.addr }
  if s.power.resetCause = .powerOn then
    let bounds := (s.carefulOn, s.carefulOff)
    let s := gaugeStart (s.modSettings fun c => { c with items := items })
    updateWait (if (s.carefulOn, s.carefulOff) = bounds then s else judgeLatch s)
  else adoptItems items (s.modGauge fun g => { g with sampling := true })

end Sys2Proof.Machine
end

