-- ==== Sys2Proof/Machine/Restore.lean ====
section
/-!
DEFINITION. What the mount does with the pages it has read (R187 to R192): the newest complete checkpoint, its restore, the
scanned pages applied in write-sequence order, the cut, and the checkpoint that opens the store.
-/
namespace Sys2Proof.Machine

def State.modMount (f : Mount → Mount) (s : State) : State := s.modPower fun p => { p with mount := p.mount.map f }

def State.setPhase (ph : MountPhase) (s : State) : State := s.modMount fun m => { m with phase := ph }

/-! ## The newest complete checkpoint (R188) -/

/-- Page `i` of checkpoint `q`, the copy of highest write sequence. -/
def pageOf (ps : List ReadPage) (q i : Nat) : Option ReadPage :=
  (ps.filter fun p => p.hdr.cpSeq == q && p.hdr.number == i).foldl (fun (b : Option ReadPage) p =>
    match b with
    | none => some p
    | some x => if x.hdr.wseq < p.hdr.wseq then some p else some x) none

/-- The pages of checkpoint `q` in order, where it is complete: as many as its page 0 gives, the last with the trailer
marker, the same sequence and the same page count. -/
def completePages (ps : List ReadPage) (q : Nat) : Option (List ReadPage) :=
  match pageOf ps q 0 with
  | none => none
  | some p0 =>
    let n := field 1 p0.data 72
    let found := (List.range n).filterMap (pageOf ps q)
    match found.getLast? with
    | none => none
    | some l =>
      if found.length = n ∧ slice l.data 1232 4 = trailerMarker ∧ field 4 l.data 1236 = q ∧ field 1 l.data 1240 = n then
        some found
      else none

/-- The newest complete checkpoint: its sequence and its pages. -/
def newestCheckpoint (ps : List ReadPage) : Option (Nat × List ReadPage) :=
  (ps.map fun p => p.hdr.cpSeq).foldl (fun (b : Option (Nat × List ReadPage)) q =>
    match completePages ps q with
    | none => b
    | some pages => match b with
      | none => some (q, pages)
      | some (r, old) => if r < q then some (q, pages) else some (r, old)) none

/-- The ring positions from the readable pages and the first BLANK positions (R188). -/
def ringFrom (ps : List ReadPage) (blanks : List (Nat × Nat)) : Nat × Nat :=
  match ps.foldl (fun (b : Option ReadPage) p =>
    match b with
    | none => some p
    | some x => if x.hdr.wseq < p.hdr.wseq then some p else some x) none with
  | none => (4, 256)
  | some p => (p.addr.block, ((blanks.find? fun x => x.1 == p.addr.block).map Prod.snd).getD 256)

/-! ## The restore (R189) -/

def pageData (pages : List ReadPage) (i : Nat) : List Byte := ((pages[i]?).map ReadPage.data).getD []

/-- The table holds one entry for each line number (R94): of two read with one number the first stands (log entry 5). -/
def oneEach : List Line → List Line
  | [] => []
  | l :: ls => l :: (oneEach ls).filter fun m => m.num != l.num

def restoreLines (pages : List ReadPage) : List Line :=
  oneEach ((List.range 8).map fun i => (List.range 256).filterMap fun j => parseLine (pageData pages (i + 1)) (64 + 56 * j)).flatten

/-- The root section's references, dealt to the OPEN and CLOSING lines in order (section 11.5). -/
def dealRefs : List Line → List SegRef → List Line
  | [], _ => []
  | l :: ls, rs =>
    if l.indexing then { l with refs := rs.take l.segs } :: dealRefs ls (rs.drop l.segs) else l :: dealRefs ls rs

def restoreRefs (pages : List ReadPage) (lines : List Line) : List SegRef :=
  let roots := field 1 (pageData pages 0) 73
  let n := ((lines.filter Line.indexing).map Line.segs).sum
  ((List.range roots).map fun i => parseMany parseRef 16 (min 1020 (n - 1020 * i)) (pageData pages (25 + i)) 64).flatten

/-- The recorded blocks of die `d`. -/
def restoreDie (pages : List ReadPage) (d : Nat) : List (Blk × Option BlockRec) :=
  ((List.range 1360).map fun b => (⟨d, b⟩, parseBlock d b (pageData pages (9 + 2 * d)) (64 + 12 * b))) ++
    ((List.range 688).map fun b => (⟨d, 1360 + b⟩, parseBlock d (1360 + b) (pageData pages (10 + 2 * d)) (64 + 12 * b)))

/-- Blocks that the checkpoint does not list join as FREE with erase count 0, at the tail of the free list (R189). -/
def addUnlisted : List (Blk × Option BlockRec) → Nat → List BlockRec × Nat
  | [], ctr => ([], ctr)
  | (_, some r) :: bs, ctr =>
    let (rest, c) := addUnlisted bs ctr
    (r :: rest, c)
  | (b, none) :: bs, ctr =>
    if isAnchor b then
      let (rest, c) := addUnlisted bs ctr
      ({ id := b, st := .anchor, erases := 0, live := 0, seq := 0 } :: rest, c)
    else
      let (rest, c) := addUnlisted bs ((ctr + 1) % Config.clockModulus)
      ({ id := b, st := .free, erases := 0, live := 0, seq := (ctr + 1) % Config.clockModulus } :: rest, c)

/-- A block placed in order of free sequence number. -/
def insertSeq (r : BlockRec) : List BlockRec → List BlockRec
  | [] => [r]
  | q :: qs => if r.seq < q.seq then r :: q :: qs else q :: insertSeq r qs

def freeOrder (rs : List BlockRec) : List Blk :=
  (((rs.filter fun r => r.st == .free)).foldr insertSeq []).map BlockRec.id

def restoreRefresh (pages : List ReadPage) : List Blk :=
  let p := pageData pages 0
  (List.range (field 1 p 80)).map fun i => { die := field 1 p (84 + 4 * i), block := field 2 p (86 + 4 * i) }

def trailerOf (pages : List ReadPage) : List Byte := ((pages.getLast?).map ReadPage.data).getD []

/-- The score and the log merged with those gathered since the reset, and the latch judged (R155). -/
def restoreMotion (t : List Byte) (s : State) : State :=
  let log := parseMany parseImpact 20 (field 1 t 66) t 68
  judgeLatch (s.modMotion fun m =>
    let all := log ++ m.log
    { m with score := min 1023 (field 2 t 64 + m.score), log := all.drop (all.length - Config.impactLog) })

/-- Everything that R189 restores from the newest complete checkpoint. A block of a die that is FAULTED, or was not detected, has
left the refresh queue (R83, log entry 81). A permit map of the checkpoint that is not well formed is not taken (log
entry 113). -/
def restoreCheckpoint (q : Nat) (pages : List ReadPage) (s : State) : State :=
  let p0 := pageData pages 0
  let t := trailerOf pages
  let lines := restoreLines pages
  let lines := dealRefs lines (restoreRefs pages lines)
  let (blocks, ctr) :=
    addUnlisted ((List.range s.flash.dies.length).map (restoreDie pages)).flatten (field 4 p0 76)
  let used := (pages.map fun p => p.addr.block).eraseDups
  let s := s.modFlash fun fl => { fl with
    blocks := blocks, freeCtr := ctr, freeList := freeOrder blocks, pendingRec := [],
    refresh := (restoreRefresh pages).filter fun b => s.dieReady b.die }
  let s := s.modStore fun l => { l with lines := lines, ckptSeq := q, ckptBlocks := used }
  let s := restoreMotion t s
  let s := if s.power.resetCause = .powerOn then gaugeRestore (field 4 t 708) (field 2 t 712) s else s
  let s := s.modMount fun m => { m with
    snapSeq := field 4 p0 64, takenBlks := (blocks.filter fun r => r.st == .active).map BlockRec.id }
  let found := (s.power.mount.map Mount.setFound).getD false
  let map := parsePermit t 716
  if found then s else s.modSettings fun c => { c with permit := if map.ok then map else c.permit }

/-! ## The scanned pages (R191) -/

/-- A page placed in order of write sequence. -/
def insertPage (p : ReadPage) : List ReadPage → List ReadPage
  | [] => [p]
  | q :: qs => if p.hdr.wseq < q.hdr.wseq then p :: q :: qs else q :: insertPage p qs

/-- The pages to apply, lowest write sequence first, less those that another names as superseded. -/
def applyOrder (ps : List ReadPage) : List ReadPage :=
  let named := (ps.map fun p => p.hdr.sup).filter (· != 0)
  (ps.filter fun p => !named.contains p.hdr.wseq).foldr insertPage []

/-- The DATA page is covered (R191). -/
def Line.coversData (first : Nat) (l : Line) : Bool :=
  ((l.refs.getLast?.map fun r => decide (first ≤ r.last)).getD false) || l.pool.any fun p => p.e.first == first

def recInstrument (r : Rec) : Bool :=
  match r.kind with
  | .header | .trace | .mark | .status => true
  | .handling | .gap => false

/-- The first and last instrument times of a line that the scan made (R191). -/
def Line.scanTimes (made : Bool) (rs : List Rec) (lowest highest : Bool) (l : Line) : Line :=
  if !made then l
  else
    let ts := (rs.filter recInstrument).map Rec.time
    { l with tFirst := if lowest then (ts.head?.or l.tFirst) else l.tFirst,
             tLast := if highest then (ts.getLast?.or l.tLast) else l.tLast }

/-- A DATA page is attached as a new entry; below the snapshot without a report and without growing the line (R191). One that
meets a full pool (R97) counts as attached for the arrival index, the flags and the times (log entry 101). -/
def attach (counted made : Bool) (p : ReadPage) (s : State) : State :=
  let h := p.hdr
  let e := entryOf h p.addr
  match s.line h.line with
  | none => s
  | some l =>
    let lowest := !l.flags.reopened && (l.pool.all fun q => decide (h.first < q.e.first)) &&
      l.refs.all fun r => decide (h.first < r.first)
    let highest := (l.pool.all fun q => decide (q.e.first < h.first)) && l.refs.all fun r => decide (r.last < h.first)
    let s := s.modLine h.line fun l => ({ l with
      next := max l.next (h.first + h.count),
      flags := { l.flags with handled := l.flags.handled || h.handled, degraded := l.flags.degraded || h.degraded } }).scanTimes
        made (pageRecs h p.data) lowest highest
    if s.poolFree = 0 then s.flagLine h.line fun f => { f with loss := true }
    else if counted then
      s.modLine h.line fun l => { l with pool := insertPool { e := e, inSeg := false, out := false } l.pool }
    else refUp p.addr (s.modLine h.line fun l => l.addEntry e)

/-- A new line entry: OPEN, with no flags and nothing counted (R94, R191). -/
def freshLine (n : Nat) : Line :=
  { num := n, st := .opened,
    flags := { handled := false, degraded := false, cut := false, loss := false, damaged := false, reopened := false,
               limit := false },
    records := 0, pages := 0, range := none, next := 1, tFirst := none, tLast := none, segs := 0, root := none, pool := [],
    refs := [], rewrite := false, flush := none, rootOut := false, load := .none, unread := [] }

def State.madeByScan (s : State) (n : Nat) : Bool := ((s.power.mount.map Mount.made).getD []).contains n

/-- A DATA page found by the scan (Table 9-2). -/
def applyData (snap : Nat) (p : ReadPage) (s : State) : State :=
  let h := p.hdr
  let counted := decide (h.wseq < snap)
  match s.line h.line with
  | none =>
    if !counted ∧ s.store.lines.length < Config.lineTableEntries then
      attach false true p ((s.modStore fun t => { t with lines := insertLine (freshLine h.line) t.lines }).modMount fun m =>
        { m with made := m.made ++ [h.line] })
    else s
  | some l =>
    let copy : Repl :=
      { line := h.line, arrival := h.first, old := h.sup, new := some { addr := p.addr, wseq := h.wseq },
        verified := h.verified, relocated := h.relocated, prior := counted }
    match l.st with
    | .opened | .closing =>
      if h.sup ≠ 0 ∧ l.coversData h.first then replaceCopy copy s
      else if l.coversData h.first then s
      else attach counted (s.madeByScan h.line) p s
    | .closed =>
      if l.next ≤ h.first then
        if counted then s
        else
          attach false (s.madeByScan h.line) p (beginLoad h.line (s.modLine h.line fun l => { l with
            st := .opened, flags := { l.flags with reopened := true } }))
      else if h.sup ≠ 0 then replaceCopy copy s else s
    | .locked => if h.sup ≠ 0 then replaceCopy copy s else s

/-- Segment rewrites that the scan began are withdrawn as a newer copy is found: the replacements that they carried are
pending again, to be applied to that copy (R105, R191, log entry 92). -/
def withdrawRewrites (hit : SegRewrite → Bool) (s : State) : State :=
  s.modStore fun t => { t with
    segRw := t.segRw.filter fun w => !hit w,
    pendings := t.pendings ++ ((t.segRw.filter hit).map SegRewrite.applied).flatten }

/-- The segment copies and the root rewrites of line `n` that the scan made are withdrawn as a newer root is found. -/
def withdrawRoots (n : Nat) (s : State) : State :=
  (s.doneOf n).foldl (fun s d => dropLoc d.loc s) (s.modStore fun t => { t with
    segDone := t.segDone.filter fun d => d.line != n, rootRw := t.rootRw.filter fun r => r.line != n })

/-- A SEGMENT page found by the scan: the reference of an OPEN or CLOSING line is set or appended, and the pool entries
within its range leave the pool (R191). A copy older than the one the reference names is passed over. The copy that a newer
one replaces is read first, for the data copies that it names and the newer one does not are dropped with it (R105). A number
above the reference count can be neither set nor appended: the page is passed over (log entry 100). -/
def applySegment (snap : Nat) (p : ReadPage) (s : State) : State :=
  let h := p.hdr
  match s.line h.line with
  | none => s
  | some l =>
    if !l.indexing ∨ l.refs.length < h.number then s
    else
      let old := l.refs[h.number]?
      if decide (h.wseq ≤ (old.map SegRef.wseq).getD 0) then s
      else
        let es := pageEntries h p.data
        let last := (es.getLast?.map PageEntry.last).getD 0
        let r : SegRef := { loc := some p.addr, wseq := h.wseq, first := h.first, last := last }
        let s := withdrawRewrites (fun w => w.line == h.line && w.seg == h.number) s
        let s := if h.wseq < snap then s else refUp p.addr s
        let s := servePendings h.line (s.modLine h.line fun l => { l with
          refs := if h.number < l.refs.length then l.refs.set h.number r else l.refs ++ [r],
          pool := l.pool.filter fun q => !r.covers q.e.first })
        match old.bind SegRef.loc with
        | none => s
        | some a =>
          if h.wseq < snap then s
          else requestRead a (.mountSegment h.line h.number es (h.number + 1 == l.refs.length)) s

/-- A segment copy that a scanned root names is counted where it was written after the snapshot (R191). -/
def countCopy (snap : Nat) (s : State) (r : SegRef) : State :=
  match r.loc with
  | some a => if snap ≤ r.wseq then refUp a s else s
  | none => s

/-- A ROOT page found by the scan: the root location is recorded, and an OPEN or CLOSING line becomes CLOSED (R191). The
references of what the root of a CLOSED line replaces are dropped once that root has been read. -/
def applyRoot (snap : Nat) (all : List ReadPage) (p : ReadPage) (s : State) : State :=
  let h := p.hdr
  match s.line h.line with
  | none => s
  | some l =>
    if decide (h.wseq ≤ (l.root.map Loc.wseq).getD 0) then s
    else
      let fresh := decide (snap ≤ h.wseq)
      let refs := pageRefs h p.data
      let s := withdrawRoots h.line (withdrawRewrites (fun w => w.line == h.line) s)
      let s := if fresh then refUp p.addr s else s
      let s :=
        if l.indexing then
          let s := s.modLine h.line fun l => { l with
            st := .closed, root := some { addr := p.addr, wseq := h.wseq }, segs := refs.length, refs := [], pool := [],
            rewrite := false, flush := none, rootOut := false, load := .none, late := [] }
          if fresh then dropLoc (l.root.map Loc.addr) s else s
        else
          let s := s.modLine h.line fun l => { l with root := some { addr := p.addr, wseq := h.wseq }, segs := refs.length }
          if !fresh then s
          else
            let news := refs.map fun r =>
              (r, ((all.find? fun q => some q.addr == r.loc).map fun q => pageEntries q.hdr q.data).getD [])
            let s := refs.foldl (countCopy snap) s
            match l.root with
            | some o => requestRead o.addr (.mountRoot h.line news) s
            | none => s
      servePendings h.line s

/-- One page is applied by the row of Table 9-2 that matches it. -/
def applyPage (snap : Nat) (all : List ReadPage) (p : ReadPage) (s : State) : State :=
  match p.hdr.kind with
  | .data => judgePressure (applyData snap p s)
  | .segment => judgePressure (applySegment snap p s)
  | .root => applyRoot snap all p s
  | .checkpoint | .settings => s

/-- The root that a scanned root replaced has been read: it and the segment copies it alone names are dropped, and the
data copies that those alone name are dropped once they are read (R105, R191). -/
def mountRootRead (n : Nat) (news : List (SegRef × List PageEntry)) (a : Addr) (r : ReadResult) (s : State) : State :=
  let s := match rootOf n r with
    | none => s
    | some refs => (List.range refs.length).foldl (fun s k =>
        match refs[k]?, news[k]? with
        | some o, some (w, es) =>
          if o.wseq = w.wseq then s
          else match o.loc with
            | some b => requestRead b (.mountSegment n k es false) s
            | none => s
        | _, _ => s) s
  refDown a s

/-- The segment copy that a found one replaced has been read: the data copies it alone names and its own reference are
dropped. Of an open segment those are dropped whose new copy was written after the snapshot: the others fell before it. -/
def mountSegmentRead (n k : Nat) (es : List PageEntry) (pool : Bool) (a : Addr) (r : ReadResult) (s : State) : State :=
  let snap := (s.power.mount.map Mount.snapSeq).getD 0
  let gone := ((segmentOf n k r).getD []).filter fun e => !es.any fun f =>
    f.first == e.first && (f.loc == e.loc || (pool && decide (f.wseq < snap)))
  refDown a (if es.isEmpty then s else refDownAll (gone.filterMap PageEntry.loc) s)

/-! ## Every relocation or index read that ends (R99) -/

def indexReadDone (q : ReadReq) (r : ReadResult) (s : State) : State :=
  let s := noteRead q.addr r s
  match q.purpose with
  | .walk => walkRead q.addr r s
  | .judgeRoot => judgeRootRead q.addr r s
  | .judgeSegment => judgeSegmentRead q.addr r s
  | .searchRoot => searchRootRead q.addr r s
  | .searchSegment => searchSegmentRead r s
  | .locate n => locateRead n q.addr r s
  | .rewriteSegment n k => rewriteSegmentRead n k q.addr r s
  | .rewriteRoot n => rewriteRootRead n q.addr r s
  | .loadRoot n => loadRootRead n q.addr r s
  | .loadSegment n => loadSegmentRead n q.addr r s
  | .eraseRoot => eraseRootRead r s
  | .eraseSegment => eraseSegmentRead q.addr r s
  | .mountRoot n news => mountRootRead n news q.addr r s
  | .mountSegment n k es pool => mountSegmentRead n k es pool q.addr r s

/-! ## The end of the scan (R192) -/

/-- One line is cut: CUT, LOSS after an unreadable page, CLOSING with LINE-CLOSED, and its last segment loaded (R191, R192).
With a flush image of the line out, the last segment is the one that image writes, whose entries the pool holds
(log entry 72). -/
def cutLine (bad : Bool) (n : Nat) (s : State) : State :=
  let s := s.modLine n fun l => { l with
    st := .closing, flags := { l.flags with cut := true, loss := l.flags.loss || bad } }
  let s := raiseLineClosed n .mount s
  match s.line n with
  | none => s
  | some l =>
    if l.loading then s
    else if l.refs.isEmpty || l.hasOpenSeg || l.flush.isSome || l.rootOut then closeAdvance n s
    else loadLast n s

/-- One block at the end of the scan: an ACTIVE one becomes FULL, and a FULL one of live count 0 is reclaimed (R89, R192). -/
def settleBlock (b : Blk) (s : State) : State :=
  match s.block b with
  | none => s
  | some r => if r.st = .full ∧ r.live = 0 then reclaim b s else blockFull b s

/-- Every ACTIVE block becomes FULL, those that dies took while the mount ran among them, and the FULL blocks without live pages
are reclaimed, in the order of the block table (R89, log entry 94); no die has an active block, and no erase is due for one
(R192). -/
def closeBlocks (s : State) : State :=
  let bs := (s.flash.blocks.filter fun r => r.st == .active || r.st == .full).map BlockRec.id
  let s := s.modFlash fun fl => { fl with dies := fl.dies.mapIdx fun d x => { x with
    active := none, due := x.due.filter fun n => isAnchor ⟨d, n⟩ } }
  bs.foldl (fun s b => settleBlock b s) s

/-- The cut and the blocks' part of R192 steps 1 and 2; the write sequence of step 3 has stood since the scan ended. The lines
are cut in the order of the line table (log entry 111). -/
def finishScan (m : Mount) (s : State) : State :=
  let ns := (s.store.lines.filter Line.indexing).map Line.num
  closeBlocks (ns.foldl (fun s n => cutLine m.badPage n s) (s.setPhase .closing))

/-- The scanned pages are applied one by one; a page of a line whose load runs waits for the load (R191). -/
def applyPages (snap : Nat) (all : List ReadPage) : List ReadPage → State → List ReadPage × State
  | [], s => ([], s)
  | p :: ps, s =>
    if ((s.line p.hdr.line).map Line.loading).getD false then (p :: ps, s)
    else applyPages snap all ps (applyPage snap all p s)

/-- A read that the mount has still to take into account. -/
def Purpose.ofMount : Purpose → Bool
  | .mountRoot _ _ | .mountSegment _ _ _ _ => true
  | .walk | .judgeRoot | .judgeSegment | .searchRoot | .searchSegment | .locate _ | .rewriteSegment _ _ | .rewriteRoot _
  | .loadRoot _ | .loadSegment _ | .eraseRoot | .eraseSegment => false

def State.mountReads (s : State) : Bool :=
  s.flash.reads.any (fun r => r.purpose.ofMount) ||
    s.flash.dies.any fun d => match d.op with
      | some o => match o.kind with
        | .relocation r => r.purpose.ofMount
        | .program _ _ | .readback _ _ | .retrieval _ | .erase _ => false
      | none => false

/-- The scanned pages still to be applied are applied as far as the loads allow; the last one ends the scan (R191). -/
def mountApply (m : Mount) (s : State) : State :=
  match m.phase with
  | .applying todo =>
    let (rest, s) := applyPages m.snapSeq m.pages todo s
    if rest.isEmpty then finishScan m s else s.setPhase (.applying rest)
  | .detect | .closing | .checkpoint => s
  | .settings _ _ => s
  | .ring _ _ _ _ => s
  | .scan _ _ _ => s
  | .probe _ _ _ _ => s
  | .taken _ _ _ _ => s

/-- When every cut close has completed and no read of the mount is outstanding, the checkpoint is requested (R192). -/
def mountClose (s : State) : State :=
  match s.power.mount.map Mount.phase with
  | some .closing =>
    if (s.store.lines.any Line.indexing) || s.mountReads then s
    else requestCheckpoint (some .mount) (s.setPhase .checkpoint)
  | _ => s

/-- The mount goes on as far as its index reads and its closes allow (R191, R192). -/
def mountPump (s : State) : State :=
  match s.power.mount with
  | none => s
  | some m => mountClose (mountApply m s)

end Sys2Proof.Machine
end

