-- ==== Sys2Proof/Machine/Array.lean ====
section
/-!
DEFINITION. The flash controller's events (Chapters 3 and 4): the written point, the ends of programs, read-backs, reads
and erases, timeouts, and the dispatch of a die.
-/
namespace Sys2Proof.Machine

/-! ## What follows every event of the array -/

/-- Reads requested for pages of FAULTED or absent dies end at once UNCORRECTABLE (R83). -/
def drainDead : Nat → State → State
  | 0, s => s
  | fuel + 1, s =>
    match (s.retr.ctx.bind RetrCtx.read).filter fun q => !q.started && !s.dieReady q.addr.die with
    | some q =>
      drainDead fuel (retrReadDone q.addr .uncorrectable
        (s.modCtx fun c => { c with read := c.read.map fun q => { q with started := true } }))
    | none =>
      match s.flash.reads.find? fun q => !s.dieReady q.addr.die with
      | some q =>
        drainDead fuel (indexReadDone q .uncorrectable (s.modFlash fun fl => { fl with reads := fl.reads.erase q }))
      | none => s

/-- Enough rounds for every read that one event can bring about. -/
def drainFuel : Nat := 4294967296

/-- The judgements that follow an event of the store: the relocation walk starts (R87, R113), reads of dead dies end
(R83), a mount that waited for its index reads and closes goes on (R192), a PAUSE that cannot become quiet ends (R177), an emergency closeout enters LOW-HALT (R185), and the wait line is
re-derived (R34). -/
def finish (s : State) : State := updateWait (lowHaltCheck (judgePause (mountPump (drainDead drainFuel (startWalk s)))))

/-! ## The written point (R61, R62) -/

/-- A SETTINGS page is handed: its location is the saved page's, and SAVE-SETTINGS ends with OK (R197). -/
def handSettings (a : Addr) (s : State) : State :=
  endIf .saveSettings .ok [] (s.modSettings fun c => { c with saved := some a })

/-- The rewrite whose image this is stands for a flush that was asked for as its line became CLOSED (R103, log entry 32). -/
def State.standsForFlush (s : State) (n k old : Nat) : Bool :=
  match s.line n, s.builtRewrite n k old with
  | some l, some w => l.indexInRoot && w.pool && w.flush.isSome
  | _, _ => false

/-- A page is handed to its owner (R61). -/
def handPage (x : Buf) (a : Addr) (first : Bool) (s : State) : State :=
  match x.hdr.kind with
  | .data | .segment | .root =>
    let t := handLinePage x a first s
    match x.job with
    | .flush n _ => if first then flushHanded n t else t
    | .segRewrite n k old => if first && s.standsForFlush n k old then flushHanded n t else t
    | .intake | .closeRoot _ | .rootRewrite _ _ | .reloc | .relocRewrite | .checkpoint _
    | .settings => t
  | .checkpoint => handCheckpointPage x.hdr a s
  | .settings => handSettings a s

/-- The lower page's upper has not been started and the block is still its die's active one (R61). -/
def State.retains (s : State) (a : Addr) : Bool :=
  a.page % 2 == 0 && !isAnchor a.blk &&
    match (s.die a.die).bind Die.active with
    | some t => t.block == a.block && t.next == a.page + 1
    | none => false

/-- The buffer of a page at its written point: a lower page is RETAINED, and any other is FREE, an upper page's RETAINED lower
with it (R61, R62). The upper's is freed first, so that the oldest image request is handed that one (log entry 107). -/
def releaseWritten (b : Nat) (a : Addr) (s : State) : State :=
  if s.retains a then s.setRetained b
  else
    let s := freeBuf b s
    if a.page % 2 == 1 then
      match s.bufAt .retained { a with page := a.page - 1 } with
      | some l => freeBuf l s
      | none => s
    else s

/-- Buffer `b` reaches its written point: the page is handed to its owner, with the reported mark set, where this copy has not
been, and then the buffer moves (R61, R62, log entry 79). -/
def writtenPoint (b : Nat) (s : State) : State :=
  match s.buf b with
  | none => s
  | some x =>
    match x.target with
    | none => s
    | some a =>
      let s := s.setBuf b (some { x with reported := true, handed := true })
      releaseWritten b a (if x.handed then s else handPage x a (!x.reported) s)

/-! ## Programs that end (R60, R63, R82) -/

def clearOp (d : Nat) (s : State) : State := s.modDie d fun x => { x with op := none }

/-- The page is read back (R60). -/
def needsReadback (x : Buf) (s : State) : Bool := s.careful || s.verifyAlways || x.exposed || isAnchorKind x.hdr.kind

/-- An exposed upper page draws its RETAINED lower page onto the exposed list, ahead of itself (R63). -/
def drawLower (a : Addr) (s : State) : State :=
  if a.page % 2 == 1 then
    match s.bufAt .retained { a with page := a.page - 1 } with
    | some l => (s.setVerifying l).modBuf l fun x => { x with exposed := true }
    | none => s
  else s

/-- A program ends with status pass (R60). -/
def programPass (b : Nat) (x : Buf) (a : Addr) (s : State) : State :=
  let s :=
    if needsReadback x s then (if x.exposed then drawLower a s else s).setVerifying b else writtenPoint b s
  if a.page = 255 ∧ !isAnchor a.blk then blockFull a.blk s else s

/-- The block goes to the head of the refresh queue; a full queue loses its tail (R82). -/
def refreshHead (b : Blk) (s : State) : State :=
  s.setRefresh (b :: (s.flash.refresh.erase b).take (Config.refreshQueue - 1))

/-- A block is RETIRED and its die has it no more. -/
def retire (b : Blk) (s : State) : State :=
  (takeOut b .retired s).modDie b.die fun d => { d with active := d.active.filter fun t => t.block != b.block }

/-- A program ends with status fail (R82). -/
def programFail (b : Nat) (a : Addr) (s : State) : State :=
  if isAnchor a.blk then raiseMedia a.blk .programFail (ringRoom (requeueBuf b s))
  else
    let lower := (List.range s.staging.bufs.length).filter fun n => match s.buf n with
      | some x => x.st == .retained && (x.target.map Addr.blk) == some a.blk
      | none => false
    let s := requeueMany (b :: lower) (retire a.blk s)
    judgeSpace (raiseMedia a.blk .programFail (refreshHead a.blk s))

def programDone (d : Nat) (pass : Bool) (s : State) : State :=
  match (s.die d).bind Die.op with
  | none => s
  | some o =>
    match o.kind with
    | .program b a =>
      let s := clearOp d s
      match s.buf b with
      | none => s
      | some x => finish (if pass then programPass b x a s else programFail b a s)
    | .readback _ _ | .retrieval _ | .relocation _ | .erase _ => s

/-! ## Read-backs that end (R80, R81) -/

/-- The data read equal the image (R80), but for its zero-filled positions (R199, log entry 114). -/
def sameImage (x : Buf) (r : ReadResult) : Bool :=
  match readData r with
  | some d => agreesWith x.hdr x.body d
  | none => false

/-- A void page: the lower page of a void upper is read back in its turn, the buffer is re-queued, an active block
becomes FULL, and an anchor position is passed over (R62, R81, R90, R91). -/
def voidPage (b : Nat) (a : Addr) (s : State) : State :=
  if isAnchor a.blk then ringRoom (requeueBuf b s)
  else
    let s :=
      if a.page % 2 == 1 then
        match s.bufAt .retained { a with page := a.page - 1 } with
        | some l => s.setVerifying l
        | none => s
      else s
    blockFull a.blk (requeueBuf b s)

def readbackDone (d : Nat) (r : ReadResult) (s : State) : State :=
  match (s.die d).bind Die.op with
  | none => s
  | some o =>
    match o.kind with
    | .readback b a =>
      let s := clearOp d s
      match s.buf b with
      | none => s
      | some x =>
        let s := (s.modBuf b fun x => { x with exposed := false }).modStaging fun t => { t with
          verifying := t.verifying.filter (· != b) }
        finish (judgeRefresh a r (if sameImage x r then writtenPoint b s else voidPage b a s))
    | .program _ _ | .retrieval _ | .relocation _ | .erase _ => s

/-! ## Reads that end -/

def retrievalDone (d : Nat) (r : ReadResult) (s : State) : State :=
  match (s.die d).bind Die.op with
  | none => s
  | some o =>
    match o.kind with
    | .retrieval a => finish (retrReadDone a r (clearOp d s))
    | .program _ _ | .readback _ _ | .relocation _ | .erase _ => s

/-- Whether a read belongs to the relocation walk itself, or is an index read (R99). -/
def Purpose.isWalk : Purpose → Bool
  | .walk => true
  | .judgeRoot | .judgeSegment | .searchRoot | .searchSegment | .locate _ | .rewriteSegment _ _ | .rewriteRoot _
  | .loadRoot _ | .loadSegment _ | .eraseRoot | .eraseSegment | .mountRoot _ _ | .mountSegment _ _ _ _ => false

/-- A relocation read (`walk`) or an index read ends. -/
def relocationDone (walk : Bool) (d : Nat) (r : ReadResult) (s : State) : State :=
  match (s.die d).bind Die.op with
  | none => s
  | some o =>
    match o.kind with
    | .relocation q => if q.purpose.isWalk == walk then finish (indexReadDone q r (clearOp d s)) else s
    | .program _ _ | .readback _ _ | .retrieval _ | .erase _ => s

/-! ## Erases that end (R72, R74, R90, R91) -/

/-- The erase is counted, and WORN raised at exactly 100,000 (R72). -/
def countErase (b : Blk) (s : State) : State :=
  let s := s.modBlock b fun r => { r with erases := satInc Config.max32 r.erases }
  if ((s.block b).map BlockRec.erases).getD 0 = 100000 then raiseMedia b .worn s else s

/-- The QUEUED SETTINGS buffer is returned FREE without being written (R83, R90). -/
def freeSettings (s : State) : State :=
  let bs := s.staging.queue.filter fun b => ((s.buf b).map fun x => x.hdr.kind == .settings).getD false
  bs.foldl (fun s b => freeBuf b s) s

/-- After a failed erase of block 0 the SETTINGS buffer is returned FREE and SAVE-SETTINGS ends with MEDIA-FAULT (R90). -/
def dropSettings (s : State) : State :=
  settingsUnwritten (freeSettings (s.modStaging fun t => { t with requests := t.requests.filter fun q => !q.isSettings }))

/-- With die 0 FAULTED the SETTINGS buffer is returned FREE and SAVE-SETTINGS ends with MEDIA-FAULT; one whose image still waits for
a buffer ends as that is built (R56, R83, R197). -/
def loseSettings (s : State) : State :=
  let s := freeSettings s
  if s.staging.requests.any ImageReq.isSettings then s else settingsUnwritten s

/-- The erase of anchor block 0 ends (R90). The recorded saved page stands until a new one is handed (R197, log entry 104). -/
def settingsErased (pass : Bool) (s : State) : State :=
  if pass then s.modFlash fun fl => { fl with erase0 := false, setPos := 0 }
  else dropSettings (raiseMedia { die := 0, block := 0 } .eraseFail s)

/-- The erase of a ring block ends (R91): the fourth failure in succession, or no block left to advance to, is
MEDIA-FAULT. -/
def ringErased (b : Nat) (pass : Bool) (s : State) : State :=
  if pass then
    if s.flash.ringBlock = b then s.modFlash fun fl => { fl with ringDue := false, ringPos := 0, ringFails := 0 } else s
  else
    let s := raiseMedia { die := 0, block := b } .eraseFail s
    let s := s.modFlash fun fl => { fl with ringFails := fl.ringFails + 1 }
    if 4 ≤ s.flash.ringFails then enterMediaFault s else ringAdvance s

/-- The oldest free block of die `d` becomes its active block, its erase due (R73). -/
def takeBlock (d : Nat) (s : State) : Option State :=
  match s.flash.freeList.find? fun b => b.die == d with
  | none => none
  | some b =>
    let s := (takeOut b .active s).modDie d fun x => { x with
      active := some { block := b.block, erased := false, next := 0 }, due := x.due ++ [b.block] }
    some (judgeSpace s)

/-- The first read-back of die `d` that is ready (R76). -/
def State.readyReadback (s : State) (d : Nat) : Option Nat :=
  s.staging.verifying.find? fun b => match s.buf b with
    | some x => (x.target.map Addr.die) == some d && (!x.exposed || !s.motion.st.closesGate)
    | none => false

/-- The queue is offered to die `d` (R77). -/
def State.offered (s : State) (d : Nat) : Bool :=
  s.programGate && s.dieIdle d && (s.readyReadback d).isNone

/-- The oldest buffer that die `d` can take (R77). -/
def State.takes (s : State) (d : Nat) : Option Nat :=
  s.staging.queue.find? fun b => ((s.buf b).map (s.canTake d)).getD false

/-- An offered die without an active block that can take no buffer finds an eligible data buffer: it takes a block of its own
(R77). -/
def takeBlockIf (d : Nat) (s : State) : State :=
  let wants := s.staging.queue.any fun b => match s.buf b with
    | some x => s.eligible x && !isAnchorKind x.hdr.kind
    | none => false
  if s.offered d && (s.takes d).isNone && wants && (((s.die d).bind Die.active).isNone) then (takeBlock d s).getD s else s

/-- The erase of a data block ends (R74): after a failed one the die, where it is still offered a data program, takes its
next block at once. -/
def dataErased (b : Blk) (pass : Bool) (s : State) : State :=
  if pass then
    s.modDie b.die fun d => { d with active := d.active.map fun t =>
      if t.block = b.block then { t with erased := true } else t }
  else takeBlockIf b.die (judgeSpace (raiseMedia b .eraseFail (retire b s)))

def eraseDone (d : Nat) (pass : Bool) (s : State) : State :=
  match (s.die d).bind Die.op with
  | none => s
  | some o =>
    match o.kind with
    | .erase n =>
      let b : Blk := { die := d, block := n }
      let s := countErase b (clearOp d s)
      finish (if isAnchor b then (if n = 0 then settingsErased pass s else ringErased n pass s) else dataErased b pass s)
    | .program _ _ | .readback _ _ | .retrieval _ | .relocation _ => s

/-! ## Timeouts (R83, R84) -/

def OpKind.blk (d : Nat) : OpKind → Blk
  | .program _ a => a.blk
  | .readback _ a => a.blk
  | .retrieval a => a.blk
  | .relocation q => q.addr.blk
  | .erase b => { die := d, block := b }

/-- The buffers with a target on the die that are PROGRAMMING, VERIFYING or RETAINED. -/
def State.bufsOn (s : State) (d : Nat) : List Nat :=
  (List.range s.staging.bufs.length).filter fun n => match s.buf n with
    | some x => (x.st == .programming || x.st == .verifying || x.st == .retained) &&
        (x.target.map Addr.die) == some d
    | none => false

/-- A read of the walk that no die has started is not made where its die is FAULTED: its block has left the refresh queue
(R83, R87, log entry 77). -/
def dropWalkRead (d : Nat) (s : State) : State :=
  let mine := fun (q : ReadReq) => q.purpose.isWalk && q.addr.die == d
  if s.flash.reads.any mine then
    endWalk (s.modFlash fun fl => { fl with reads := fl.reads.filter fun q => !mine q })
  else s

/-- The die becomes FAULTED: its buffers are re-queued and its blocks leave the refresh queue (R83). Its due erases are dropped
and hold no PAUSE back (R177, log entry 95). -/
def faultDie (d : Nat) (s : State) : State :=
  let bs := s.bufsOn d
  let s := s.modDie d fun x => { x with ready := false, op := none, due := [] }
  requeueMany bs (dropWalkRead d (s.setRefresh (s.flash.refresh.filter fun b => b.die != d)))

/-- What follows where die 0 is FAULTED: no anchor page can be written, in MEDIA-FAULT either (R83, R84). -/
def anchorLost (s : State) : State :=
  if s.dieReady 0 then s
  else
    let s := loseSettings s
    if s.store.ckpt.isSome || !s.store.waiters.isEmpty then abandonCheckpoint s else s

/-- An operation has not ended when its timeout runs out: its die is FAULTED (R83). The caller of a read has its outcome before
the store state is judged (R84, log entry 85), and free list and wait line are judged once that caller has acted (R34, R75,
log entry 93). -/
def timeoutOp (d : Nat) (o : Op) (s : State) : State :=
  let s := faultDie d s
  let s := match o.kind with
    | .retrieval a => retrReadDone a .uncorrectable s
    | .relocation q => indexReadDone q .uncorrectable s
    | .program _ _ => s
    | .readback _ _ => s
    | .erase _ => s
  let s := raiseMedia (o.kind.blk d) .timeout s
  finish (judgeSpace (anchorLost (judgeDies s)))

/-! ## Dispatch (R58, R59, R73, R76, R77) -/

/-- The next write sequence is taken; the last value ends the store (R119), with the block of the program that took it in the
MEDIA notice (log entry 73). -/
def takeSequence (a : Addr) (s : State) : State :=
  let w := s.store.wseq
  let s := s.modStore fun t => { t with wseq := w + 1 }
  if w = Config.max32 then enterMediaFault (raiseMedia a.blk .sequence s) else s

/-- Where the program of this buffer goes on die `d` (R77, R90, R91). -/
def State.targetOf (s : State) (d : Nat) (x : Buf) : Addr :=
  match x.hdr.kind with
  | .settings => { die := 0, block := 0, page := s.flash.setPos }
  | .checkpoint => { die := 0, block := s.flash.ringBlock, page := s.flash.ringPos }
  | .data | .segment | .root =>
    match (s.die d).bind Die.active with
    | some t => { die := d, block := t.block, page := t.next }
    | none => { die := d, block := 0, page := 0 }

/-- The position or the next page advances as the program starts (R70, R90, R91, R116). -/
def advancePosition (d : Nat) (k : PageKind) (s : State) : State :=
  match k with
  | .settings => s.modFlash fun fl => { fl with setPos := fl.setPos + 2 }
  | .checkpoint => s.modFlash fun fl => { fl with ringPos := fl.ringPos + 2 }
  | .data | .segment | .root =>
    let s := s.modDie d fun x => { x with active := x.active.map fun t => { t with next := t.next + 1 } }
    (s.modFlash fun fl => { fl with lastDie := some d }).modStore fun t => { t with progCount := t.progCount + 1 }

/-- A QUEUED buffer's program starts on die `d` (R59). -/
def startProgram (d b : Nat) (x : Buf) (s : State) : State :=
  let a := s.targetOf d x
  let h := { x.hdr with
    wseq := s.store.wseq, verified := s.careful || s.verifyAlways || isAnchorKind x.hdr.kind,
    relocated := x.origin == .relocation }
  let s := s.setBuf b (some { x with
    st := .programming, target := some a, hdr := h, exposed := false, handed := false })
  let s := s.modStaging fun t => { t with queue := t.queue.filter (· != b) }
  let s := s.modDie d fun y => { y with op := some { kind := .program b a, start := s.power.clock } }
  takeSequence a (advancePosition d x.hdr.kind s)

/-- The queue is offered to die `d` (R77): it takes the oldest buffer it can take, or a block of its own, or nothing. -/
def offerQueue (d : Nat) (s : State) : State :=
  if !s.offered d then s
  else
    match s.takes d with
    | some b => match s.buf b with
      | some x => startProgram d b x s
      | none => s
    | none => takeBlockIf d s

/-- The dies from the one after the die that last started a data program, in cyclic order, up to die `d` (R77). -/
def State.offerOrder (s : State) (d : Nat) : List Nat :=
  let n := s.flash.dies.length
  let first := match s.flash.lastDie with
    | some l => l + 1
    | none => 0
  let order := (List.range n).map fun i => (first + i) % n
  (order.takeWhile (· != d)) ++ [d]

/-- Die `d` has taken work in this dispatch: an operation or a new block. -/
def tookWork (d : Nat) (before s : State) : Bool :=
  !s.dieIdle d || ((s.die d).bind Die.active != (before.die d).bind Die.active)

/-- The retrieval read for a page on die `d`, where one is requested. -/
def State.retrievalFor (s : State) (d : Nat) : Option Addr :=
  match s.retr.ctx.bind RetrCtx.read with
  | some q => if !q.started && q.addr.die == d then some q.addr else none
  | none => none

def startOp (d : Nat) (k : OpKind) (s : State) : State :=
  s.modDie d fun x => { x with op := some { kind := k, start := s.power.clock } }

/-- Ranks 3 to 5 of the die's arbiter (R76); while PAUSE runs no read of the relocation walk starts (R177). -/
def dispatchReads (d : Nat) (s : State) : State :=
  match s.retrievalFor d with
  | some a => startOp d (.retrieval a) (s.modCtx fun c => { c with read := c.read.map fun q => { q with started := true } })
  | none =>
    match s.flash.reads.find? fun q => q.addr.die == d && !(q.purpose.isWalk && s.isRunning .pause) with
    | some q => startOp d (.relocation q) (s.modFlash fun fl => { fl with reads := fl.reads.erase q })
    | none =>
      match ((s.die d).map Die.due).getD [] with
      | b :: bs => if s.eraseGate then startOp d (.erase b) (s.modDie d fun x => { x with due := bs }) else s
      | [] => s

/-- The arbiter of an idle READY die starts the first kind of work that is ready (R76, R77, R78). -/
def dispatchDie (d : Nat) (s : State) : State :=
  if s.arrayStopped || !s.dieIdle d then s
  else
    match s.readyReadback d with
    | some b => match (s.buf b).bind Buf.target with
      | some a => startOp d (.readback b a) s
      | none => s
    | none =>
      if s.power.st = .lowHalt then s
      else
        let s := startWalk s
        let t := (s.offerOrder d).foldl (fun s e => offerQueue e s) s
        finish (if tookWork d s t then t else dispatchReads d t)

/-! ## The rows of the table -/

/-- A reopened line's last segment is loaded once the pool has room for it (R109). -/
def poolLoad (n : Nat) (s : State) : State :=
  match (s.line n).map Line.load with
  | some (.waitPool es) => placeSegment n es s
  | some .none | some .waitRewrites | some .readRoot | some .readSegment | none => s

/-- DIE_DISPATCH (R76). -/
def execDieDispatch (die : Nat) (s : State) : Host.Outcome State Fault Refusal := .next (dispatchDie die s)

/-- PROGRAM_COMPLETE (R60, R82). -/
def execProgramComplete (die : Nat) (pass : Bool) (s : State) : Host.Outcome State Fault Refusal := .next (programDone die pass s)

/-- READBACK_COMPLETE (R80, R81). -/
def execReadbackComplete (die : Nat) (r : ReadResult) (s : State) : Host.Outcome State Fault Refusal := .next (readbackDone die r s)

/-- RETRIEVAL_READ_COMPLETE (R124). -/
def execRetrievalReadComplete (die : Nat) (r : ReadResult) (s : State) : Host.Outcome State Fault Refusal := .next (retrievalDone die r s)

/-- RELOCATION_READ_COMPLETE (R114). -/
def execRelocationReadComplete (die : Nat) (r : ReadResult) (s : State) : Host.Outcome State Fault Refusal := .next (relocationDone true die r s)

/-- RELOCATION_RETRY (R113). -/
def execRelocationRetry (s : State) : Host.Outcome State Fault Refusal := .next (finish (retryWalk s))

/-- INDEX_READ_COMPLETE (R99). -/
def execIndexReadComplete (die : Nat) (r : ReadResult) (s : State) : Host.Outcome State Fault Refusal := .next (relocationDone false die r s)

/-- REOPEN_POOL_LOAD (R109). -/
def execReopenPoolLoad (line : Nat) (s : State) : Host.Outcome State Fault Refusal := .next (finish (poolLoad line s))

/-- ERASE_COMPLETE (R72, R74). -/
def execEraseComplete (die : Nat) (pass : Bool) (s : State) : Host.Outcome State Fault Refusal := .next (eraseDone die pass s)

end Sys2Proof.Machine
end

