-- ==== Sys2Proof/Machine/Intake.lean ====
section
/-!
DEFINITION. The intake unit (Chapter 2): the acquisition parser, the checks of a frame, opening and closing lines, the
status filter, appending, handling and gap records, and the link quality monitor.
-/
namespace Sys2Proof.Machine

/-! ## The link interval (R48) -/

/-- The present interval is marked errored while the timer runs. -/
def markErrored (s : State) : State :=
  if s.timerRuns then s.modIntake fun i => { i with errored := true } else s

/-! ## Appending (R44 to R46) -/

/-- How the placing of a record ended (R45, R46). -/
inductive Placed where
  | stored | forbidden | noBuffer | limit
  deriving DecidableEq, Repr

/-- What a record carries beside its arrival index, its run clock and the flag DEGRADED (R44). -/
structure Draft where
  kind     : RecordKind
  short    : Bool
  iflags   : Byte
  station  : Nat
  time     : Nat
  supCount : Nat
  payload  : List Byte

/-- The record as it is stored (R44). -/
def Draft.record (d : Draft) (arrival clock : Nat) (degraded : Bool) : Rec :=
  { kind := d.kind, degraded := degraded, short := d.short, suppressed := decide (0 < d.supCount), iflags := d.iflags,
    station := d.station, time := d.time, arrival := arrival, clock := clock, supCount := d.supCount,
    payload := d.payload }

/-- An empty FILLING buffer bound to a slot (R54). -/
def fillingBuf (i line : Nat) : Buf :=
  { st := .filling, origin := .intake, slot := some i, fill := 0, hdr := { blankHdr .data with line := line },
    body := .records [], target := none, exposed := false, reported := false, handed := false, job := .intake }

/-- One record packed at the end of a buffer, with the record summary (R54). -/
def Buf.pack (r : Rec) (x : Buf) : Buf :=
  let h := x.hdr
  { x with
    fill := x.fill + r.size,
    hdr := { h with
      count := h.count + 1, first := if h.count = 0 then r.arrival else h.first,
      smin := if h.count = 0 then r.station else min h.smin r.station,
      smax := if h.count = 0 then r.station else max h.smax r.station,
      handled := h.handled || r.kind == .handling, degraded := h.degraded || r.degraded },
    body := match x.body with
      | .records rs => .records (rs ++ [r])
      | .entries _ => .records [r]
      | .refs _ => .records [r]
      | .raw _ => .records [r] }

/-- The line as a record is placed for it: the next arrival index, and the instrument times (R44, R94). -/
def Line.placed (r : Rec) (l : Line) : Line :=
  { l with next := l.next + 1,
           tFirst := if recInstrument r && l.tFirst.isNone then some r.time else l.tFirst,
           tLast := if recInstrument r then some r.time else l.tLast }

def packInto (b n : Nat) (r : Rec) (s : State) : State := (s.modBuf b (Buf.pack r)).modLine n (Line.placed r)

/-- The pages of a line, programmed and still in staging (R45, R67). -/
def State.pageNumber (s : State) (l : Line) : Nat := l.pages + (s.stagedBufs l.num).length

/-- Step 3 of R45: a FREE buffer is bound to the slot, unless the line is at its page limit or none is FREE (R46). The page
limit is tested first: a record dropped at it counts no overrun (log entry 64). -/
def bindAndPack (i n : Nat) (l : Line) (r : Rec) (s : State) : State × Placed :=
  if Config.pagesPerLine ≤ s.pageNumber l then (s, .limit)
  else
    match s.freeBuffer with
    | none => (s, .noBuffer)
    | some b => (updateWait (packInto b n r (s.setBuf b (some (fillingBuf i n)))), .stored)

/-- A record for the line of slot `i` is placed under R45. -/
def placeRecord (i : Nat) (d : Draft) (s : State) : State × Placed :=
  if !s.mayStore then (s, .forbidden)
  else
    match (s.intake.slots.getD i none).bind fun t => s.line t.line with
    | none => (s, .forbidden)
    | some l =>
      let r := d.record l.next s.power.clock (s.intake.linkState != .good)
      match s.fillingOf i with
      | some b =>
        if ((s.buf b).map Buf.fill).getD 0 + r.size ≤ Config.recordBytes then (packInto b l.num r s, .stored)
        else bindAndPack i l.num l r (queueFilling b s)
      | none => bindAndPack i l.num l r s

/-- A record dropped at the page limit: its line is closed with LIMIT (R45). -/
def limitDrop (n : Nat) (s : State) : State :=
  requestClose n .limit false (s.count fun c => { c with limit := satInc Config.max32 c.limit })

/-! ## Instrument records -/

/-- The last-append ordinal of a slot takes the next value of the append counter (R38, log entry 69). -/
def advanceOrdinal (i : Nat) (s : State) : State :=
  let n := (s.intake.appends + 1) % Config.clockModulus
  (s.modIntake fun t => { t with appends := n }).modSlot i fun x => { x with ordinal := n }

/-- What a stored instrument record leaves on its slot: its ordinal, its last station and time, and the filter (R38, R41
to R44). -/
def slotStored (i : Nat) (d : Draft) (s : State) : State :=
  (advanceOrdinal i (s.count fun c => { c with stored := satInc Config.max32 c.stored })).modSlot i fun x =>
    { x with
      station := d.station, time := d.time,
      filter := if d.short || d.kind == .trace || d.kind == .mark then .fresh else x.filter,
      reference := if d.kind == .status && !d.short then some (d.payload.length, d.payload.take 8) else x.reference,
      suppressed := if d.kind == .status then 0 else x.suppressed }

/-- An instrument record that finds no buffer (R46). -/
def overrun (n : Nat) (s : State) : State :=
  let s := raiseRefused .overrun n (s.count fun c => { c with overrun := satInc Config.max32 c.overrun })
  if s.overrunErrors then markErrored s else s

/-- An instrument record is appended on slot `i` of line `n`; whether it was stored is told (R45, R46). -/
def appendInstrument (i n : Nat) (d : Draft) (s : State) : State × Bool :=
  match placeRecord i d s with
  | (s, .stored) => (slotStored i d s, true)
  | (s, .noBuffer) => (overrun n s, false)
  | (s, .limit) => (limitDrop n s, false)
  | (s, .forbidden) => (s, false)

def draftOf (k : RecordKind) (short : Bool) (f : AcqFrame) (sup : Nat) : Draft :=
  { kind := k, short := short, iflags := f.flags, station := f.station, time := f.time, supCount := sup,
    payload := f.payload }

def orphan (s : State) : State := s.count fun c => { c with orphan := satInc Config.max32 c.orphan }

/-- The slot of an OPEN line. -/
def State.openSlot (s : State) (n : Nat) : Option Nat :=
  match s.line n with
  | some l => if l.open? then s.slotOf n else none
  | none => none

/-- A TRACE or a MARK for an OPEN line is appended; for any other it is an orphan (R39). -/
def appendPlain (k : RecordKind) (short : Bool) (f : AcqFrame) (s : State) : State :=
  match s.openSlot f.line with
  | some i => (appendInstrument i f.line (draftOf k short f 0) s).1
  | none => orphan s

/-! ## The status filter (R41 to R43) -/

/-- The masked bytes agree, byte `i` on (R41). -/
def maskEqual (s : State) : Nat → List Byte → List Byte → Bool
  | i, a :: as, b :: bs => (a &&& s.filterMask i) == (b &&& s.filterMask i) && maskEqual s (i + 1) as bs
  | _, _, _ => true

/-- The comparison of a STATUS payload with the slot's reference (R41). -/
def filterMatches (s : State) (reference : Option (Nat × List Byte)) (payload : List Byte) : Bool :=
  match reference with
  | none => false
  | some (n, bs) => n == payload.length && maskEqual s 0 (payload.take 8) bs

/-- Table 2-3: the next state, and whether the record is stored. -/
def filterStep (st : FilterState) (same : Bool) : FilterState × Bool :=
  match st, same with
  | _, false => (.fresh, true)
  | .fresh, true => (.once, true)
  | .once, true => (.twice, true)
  | .twice, true => (.twice, false)

def setFilter (i : Nat) (st : FilterState) (s : State) : State := s.modSlot i fun x => { x with filter := st }

/-- Every slot's filter returns to FRESH, its reference and suppressed count kept (R43). -/
def resetFilters (s : State) : State :=
  s.modIntake fun t => { t with slots := t.slots.map fun x => x.map fun x => { x with filter := .fresh } }

/-- A STATUS frame for an OPEN line: filtered, then appended (R39, R41 to R43). -/
def appendStatus (short : Bool) (f : AcqFrame) (s : State) : State :=
  match s.openSlot f.line with
  | none => orphan s
  | some i =>
    match s.intake.slots.getD i none with
    | none => orphan s
    | some t =>
      let d := draftOf .status short f t.suppressed
      if !s.filterEnable then (appendInstrument i f.line d (setFilter i .fresh s)).1
      else if short then (appendInstrument i f.line d s).1
      else
        let (st, passes) := filterStep t.filter (filterMatches s t.reference f.payload)
        let s := setFilter i st s
        if passes then (appendInstrument i f.line d s).1
        else
          (s.modSlot i fun x => { x with suppressed := satInc Config.max16 x.suppressed }).count fun c =>
            { c with suppressed := satInc Config.max32 c.suppressed }

/-! ## Opening and closing lines (R36 to R39) -/

/-- A refused OPEN-LINE (R36). -/
def refuseOpen (r : RefuseReason) (n : Nat) (s : State) : State :=
  raiseRefused r n (s.count fun c => match r with
    | .permit => { c with permit := satInc Config.max32 c.permit }
    | .locked => { c with locked := satInc Config.max32 c.locked }
    | .busy => { c with busy := satInc Config.max32 c.busy }
    | .tableFull => { c with tableFull := satInc Config.max32 c.tableFull }
    | .overrun => c)

/-- The slot with the smallest last-append ordinal (R38). -/
def oldestSlot (slots : List (Option Slot)) : Option Slot :=
  slots.foldl (fun (b : Option Slot) x =>
    match b, x with
    | none, x => x
    | some y, none => some y
    | some y, some x => if x.ordinal < y.ordinal then some x else some y) none

/-- With all slots in use the line to which a record was least recently appended is closed (R38). -/
def freeASlot (s : State) : State :=
  if s.intake.slots.any Option.isNone then s
  else
    match oldestSlot s.intake.slots with
    | some t => requestClose t.line .slots false s
    | none => s

/-- A reopened or new line takes the lowest-numbered free slot, and its HEADER record is appended (R37). -/
def takeSlot (f : AcqFrame) (s : State) : State :=
  match s.intake.slots.findIdx? Option.isNone with
  | none => s
  | some i =>
    let s := s.setSlot i (some { line := f.line, ordinal := 0, station := f.station, time := f.time, filter := .fresh,
                                 reference := none, suppressed := 0 })
    match appendInstrument i f.line (draftOf .header false f 0) s with
    | (s, true) => s
    | (s, false) => advanceOrdinal i s

/-- The line flag DEGRADED of a line opened while the link is DEGRADED or LOST (R37). -/
def degradeOpened (n : Nat) (s : State) : State :=
  if s.intake.linkState = .good then s else s.flagLine n fun f => { f with degraded := true }

def openNew (f : AcqFrame) (s : State) : State :=
  let s := freeASlot s
  let s := s.modStore fun t => { t with lines := insertLine (freshLine f.line) t.lines }
  takeSlot f (degradeOpened f.line s)

def reopen (f : AcqFrame) (s : State) : State :=
  let s := freeASlot s
  let s := s.modLine f.line fun l => { l with st := .opened, flags := { l.flags with reopened := true } }
  takeSlot f (beginLoad f.line (degradeOpened f.line s))

def repeatOpen (f : AcqFrame) (s : State) : State :=
  match s.slotOf f.line with
  | some i => (appendInstrument i f.line (draftOf .header false f 0) s).1
  | none => s

/-- An OPEN-LINE frame (R36, R37). -/
def handleOpen (f : AcqFrame) (s : State) : State :=
  if !s.settings.permit.allows f.line then refuseOpen .permit f.line s
  else
    match s.line f.line with
    | some l =>
      match l.st with
      | .locked => refuseOpen .locked f.line s
      | .closing => refuseOpen .busy f.line s
      | .opened => if s.erasing f.line then refuseOpen .busy f.line s else repeatOpen f s
      | .closed => if s.erasing f.line then refuseOpen .busy f.line s else reopen f s
    | none =>
      if s.erasing f.line then refuseOpen .busy f.line s
      else if Config.lineTableEntries ≤ s.store.lines.length then refuseOpen .tableFull f.line s
      else openNew f s

/-- A CLOSE-LINE frame (R39). -/
def handleClose (f : AcqFrame) (s : State) : State :=
  match s.openSlot f.line with
  | some _ => requestClose f.line .instrument false s
  | none => orphan s

/-! ## The checks of a frame (R29 to R31) -/

/-- The frame kinds, with their minimum payloads (Table 2-1, Table 11-3). -/
inductive FrameKind where
  | openLine | trace | mark | status | closeLine
  deriving DecidableEq, Repr

def FrameKind.ofCode (b : Byte) : Option FrameKind :=
  match b.toNat with
  | 1 => some .openLine | 2 => some .trace | 3 => some .mark | 4 => some .status | 5 => some .closeLine | _ => none

def FrameKind.least : FrameKind → Nat
  | .openLine => 0 | .trace => 16 | .mark => 1 | .status => 4 | .closeLine => 0

def handleFrame (k : FrameKind) (f : AcqFrame) (s : State) : State :=
  let short := decide (f.payload.length < k.least)
  if short && s.discardShort then s.count fun c => { c with short := satInc Config.max32 c.short }
  else
    match k with
    | .openLine => handleOpen f s
    | .trace => appendPlain .trace short f s
    | .mark => appendPlain .mark short f s
    | .status => appendStatus short f s
    | .closeLine => handleClose f s

def malformed (s : State) : State := s.count fun c => { c with malformed := satInc Config.max32 c.malformed }

/-- A frame that passes its CRC meets the checks of R30; none is a kind that Table 2-1 does not have. -/
def checkFrame (k : Option FrameKind) (f : AcqFrame) (s : State) : State :=
  match k with
  | none => malformed s
  | some k =>
    if f.line = 0 then malformed s
    else
      match s.intakeState with
      | .closed => s.count fun c => { c with closed := satInc Config.max32 c.closed }
      | .suspended => s.count fun c => { c with suspended := satInc Config.max32 c.suspended }
      | .opened => handleFrame k f s

/-- A frame is taken: it is counted (R27) and checked, and the parser is in HUNT for the next byte (R24). -/
def acqFrame (k : Option FrameKind) (f : AcqFrame) (s : State) : State :=
  let s := s.modIntake fun i => { i with parser := .reset, hunt := 0 }
  finish (checkFrame k f (s.count fun c => { c with frames := satInc Config.max32 c.frames }))

/-- A frame whose CRC fails is dropped (R27). -/
def acqCrcFail (s : State) : State :=
  let s := s.modIntake fun i => { i with parser := .reset, hunt := 0 }
  markErrored (s.count fun c => { c with crc := satInc Config.max32 c.crc })

/-! ## The acquisition parser (R24 to R28) -/

def State.setAcq (p : AcqParser) (s : State) : State := s.modIntake fun i => { i with parser := p }

/-- One byte discarded in HUNT (R25). -/
def discardByte (s : State) : State :=
  if s.huntBytes ≤ s.intake.hunt + 1 then
    markErrored ((s.modIntake fun i => { i with hunt := 0 }).count fun c =>
      { c with huntMarks := satInc Config.max32 c.huntMarks })
  else s.modIntake fun i => { i with hunt := i.hunt + 1 }

/-- A byte in HUNT (R24); the completed sync pair is a wake source in a pause state (R179). -/
def huntByte (b : Byte) (s : State) : State :=
  let half := fun (v : Bool) (s : State) => s.modIntake fun i => { i with parser := { i.parser with half := v } }
  if !s.intake.parser.half then (if b = 0x7C then half true s else discardByte s)
  else if b = 0xA2 then
    let s := s.modIntake fun i => { i with hunt := 0, parser := { AcqParser.reset with st := .header, crc := crc32Init } }
    if s.paused then wake .acquisition s else s
  else if b = 0x7C then discardByte s
  else half false (discardByte (discardByte s))

/-- The frame of a completed header and payload. -/
def frameOf (p : AcqParser) : AcqFrame :=
  { flags := byteAt p.hdr 1, line := field 2 p.hdr 2, station := field 4 p.hdr 4, time := field 8 p.hdr 8,
    payload := p.payload }

def headerByte (b : Byte) (p : AcqParser) (s : State) : State :=
  let p := { p with hdr := p.hdr ++ [b], crc := crc32Byte p.crc b }
  if p.hdr.length < 18 then s.setAcq p
  else
    let len := field 2 p.hdr 16
    if s.maxPayload < len then
      markErrored ((s.setAcq .reset).count fun c => { c with overlong := satInc Config.max32 c.overlong })
    else s.setAcq { p with st := if len = 0 then .check else .payload }

def payloadByte (b : Byte) (p : AcqParser) (s : State) : State :=
  let p := { p with payload := p.payload ++ [b], crc := crc32Byte p.crc b }
  s.setAcq { p with st := if p.payload.length < field 2 p.hdr 16 then .payload else .check }

def checkByte (b : Byte) (p : AcqParser) (s : State) : State :=
  let p := { p with got := p.got ++ [b] }
  if p.got.length < 4 then s.setAcq p
  else if ofLe p.got = (crc32Final p.crc).toNat then acqFrame (FrameKind.ofCode (byteAt p.hdr 0)) (frameOf p) s
  else acqCrcFail s

/-- A byte arrives on the acquisition link (R24). -/
def acqByte (b : Byte) (s : State) : State :=
  let p := s.intake.parser
  match p.st with
  | .hunt => huntByte b s
  | .header => headerByte b p s
  | .payload => payloadByte b p s
  | .check => checkByte b p s

/-- How many bytes this byte discards in HUNT, an earlier 7Ch among them (R25). -/
def discards (half : Bool) (b : Byte) : Nat :=
  if half then (if b = 0xA2 then 0 else if b = 0x7C then 1 else 2) else (if b = 0x7C then 0 else 1)

/-- The byte whose discarding counts a hunt mark (R25). -/
def huntMarkByte (b : Byte) (s : State) : State :=
  let p := s.intake.parser
  if p.st = .hunt ∧ 0 < discards p.half b ∧ s.huntBytes ≤ s.intake.hunt + discards p.half b then acqByte b s else s

/-- 5 ms pass with no byte in HEADER, PAYLOAD or CHECK (R28). -/
def acqTimedOut (s : State) : State :=
  if s.intake.parser.st = .hunt then s
  else markErrored ((s.setAcq .reset).count fun c => { c with timeouts := satInc Config.max32 c.timeouts })

/-! ## Handling records (R47) -/

/-- One OPEN line gains HANDLED and its HANDLING record, or the handling-lost counter rises. -/
def handleLine (r : ImpactRec) (s : State) (i : Nat) : State :=
  match s.intake.slots.getD i none with
  | none => s
  | some t =>
    let s := s.flagLine t.line fun f => { f with handled := true }
    let lost := fun (s : State) => s.count fun c => { c with handlingLost := satInc Config.max32 c.handlingLost }
    match placeRecord i { kind := .handling, short := false, iflags := 0, station := t.station, time := t.time,
                          supCount := 0, payload := r.bytes } s with
    | (s, .stored) => s
    | (s, .limit) => lost (limitDrop t.line s)
    | (s, .noBuffer) => lost s
    | (s, .forbidden) => lost s

/-- A completed impact, or a fall without impact, reaches the intake unit (R47). -/
def handlingRecords (r : ImpactRec) (s : State) : State :=
  resetFilters ((List.range Config.openSlots).foldl (handleLine r) s)

/-! ## The link quality monitor (R49, R50) -/

/-- One GAP record; its line's filter returns to FRESH whether or not it is stored (R50). -/
def gapLine (payload : List Byte) (s : State) (i : Nat) : State :=
  match s.intake.slots.getD i none with
  | none => s
  | some t =>
    let lost := fun (s : State) => s.count fun c => { c with gapLost := satInc Config.max32 c.gapLost }
    setFilter i .fresh (match placeRecord i { kind := .gap, short := false, iflags := 0, station := t.station,
                                              time := t.time, supCount := 0, payload := payload } s with
      | (s, .stored) => s
      | (s, .limit) => lost (limitDrop t.line s)
      | (s, .noBuffer) => lost s
      | (s, .forbidden) => lost s)

def gapRecords (payload : List Byte) (s : State) : State := (List.range Config.openSlots).foldl (gapLine payload) s

/-- The link state for a new LQ (R49). -/
def nextLink (st : LinkState) (lq degraded lost : Nat) : LinkState :=
  match st with
  | .lost => if degraded ≤ lq then .lost else .good
  | .good | .degraded => if lost ≤ lq then .lost else if degraded ≤ lq then .degraded else .good

/-- What a change of link state brings about (R49, R50). From LOST the GAP END records come first, and then the intake state
returns to OPEN: the wait line stays ASSERTED through them and is re-derived at that change (R34, log entry 78). -/
def linkChange (old new : LinkState) (s : State) : State :=
  let lq := s.intake.lq
  let s := raiseNotice .link (le1 new.code ++ le1 lq) s
  let s :=
    if new = .good then s
    else s.modStore fun t => { t with lines := mapIf Line.open? (fun l => { l with
      flags := { l.flags with degraded := true } }) t.lines }
  if new = .lost then
    gapRecords (gapPayload false new lq 0) (s.modIntake fun i => { i with lostClock := some s.power.clock })
  else if old = .lost then
    let len := (s.power.clock + Config.clockModulus - s.intake.lostClock.getD 0) % Config.clockModulus
    updateWait ((gapRecords (gapPayload true new lq len) s).modIntake fun i => { i with wait := true })
  else s

/-- The interval ends: LQ moves, the link state is re-derived, and a new interval begins (R48, R49). -/
def intervalEnd (s : State) : State :=
  if !s.timerRuns then s
  else
    let lq := if s.intake.errored then min 255 (s.intake.lq + s.lqUp) else s.intake.lq - s.lqDown
    let old := s.intake.linkState
    let new := nextLink old lq s.lqDegraded s.lqLost
    let s := s.modIntake fun i => { i with
      lq := lq, linkState := new, elapsed := 0, errored := false, intervalLen := some s.intervalMs }
    finish (if new = old then s else linkChange old new s)

/-! ## INTAKE and FILTER-RESET (R33, R43) -/

/-- What refuses INTAKE with action OPEN, the first that stands (R33). -/
def openRefusal (s : State) : Option Code :=
  if s.power.store = .blank ∨ s.power.store = .mediaFault then some .notReady
  else if s.power.closeout.isSome then some .closing
  else if s.power.store = .closedOut ∧ s.power.lastCause = some .reserve ∧ s.gauge.reserve then some .closing
  else if s.power.resume then some .resumePending
  else if s.isRunning .pause ∨ s.isRunning .format then some .notReady
  else none

def intakeReply (tag : Byte) (s : State) : State :=
  reply CmdKind.intake.code tag .ok (le1 s.intakeState.code) s

/-- INTAKE with action OPEN: a CLOSED-OUT store returns to READY first (R33, R184). -/
def openIntake (tag : Byte) (s : State) : State :=
  match openRefusal s with
  | some c => reply CmdKind.intake.code tag c [] s
  | none =>
    let s := s.modPower fun p => if p.store = .closedOut then { p with store := .ready, lastCause := none } else p
    intakeReply tag (finish (s.modIntake fun i => { i with openReq := true }))

/-- INTAKE with action CLOSE (R33). -/
def closeIntake (tag : Byte) (s : State) : State :=
  intakeReply tag (updateWait (s.modIntake fun i => { i with openReq := false }))

def filterResetCmd (tag : Byte) (s : State) : State := reply CmdKind.filterReset.code tag .ok [] (resetFilters s)

/-! ## The rows of the table -/

/-- A frame that passed its CRC; one longer than max_payload is not taken by the parser (R26). -/
def takenFrame (k : Option FrameKind) (f : AcqFrame) (s : State) : State :=
  if s.maxPayload < f.payload.length then s else acqFrame k f s

/-- ACQUISITION_BYTE_RECEIVED (R24). -/
def execAcquisitionByteReceived (b : Byte) (s : State) : Host.Outcome State Fault Refusal := .next (acqByte b s)

/-- HUNT_MARK (R25). -/
def execHuntMark (b : Byte) (s : State) : Host.Outcome State Fault Refusal := .next (huntMarkByte b s)

/-- ACQ_CRC_FAILURE (R27). -/
def execAcqCrcFailure (s : State) : Host.Outcome State Fault Refusal := .next (acqCrcFail s)

/-- ACQ_TIMEOUT (R28). -/
def execAcqTimeout (s : State) : Host.Outcome State Fault Refusal := .next (acqTimedOut s)

/-- MALFORMED_FRAME (R29): line 0, or a kind that Table 2-1 does not have. -/
def execMalformedFrame (kind : Byte) (f : AcqFrame) (s : State) : Host.Outcome State Fault Refusal := .next (if f.line = 0 ∨ FrameKind.ofCode kind = none then takenFrame (FrameKind.ofCode kind) f s else s)

/-- OPEN_LINE (R36). -/
def execOpenLine (f : AcqFrame) (s : State) : Host.Outcome State Fault Refusal := .next (takenFrame (some .openLine) f s)

/-- TRACE (R39). -/
def execTrace (f : AcqFrame) (s : State) : Host.Outcome State Fault Refusal := .next (takenFrame (some .trace) f s)

/-- MARK (R39). -/
def execMark (f : AcqFrame) (s : State) : Host.Outcome State Fault Refusal := .next (takenFrame (some .mark) f s)

/-- STATUS_FRAME (R41). -/
def execStatusFrame (f : AcqFrame) (s : State) : Host.Outcome State Fault Refusal := .next (takenFrame (some .status) f s)

/-- CLOSE_LINE (R39). -/
def execCloseLine (f : AcqFrame) (s : State) : Host.Outcome State Fault Refusal := .next (takenFrame (some .closeLine) f s)

/-- LINK_INTERVAL_END (R49). -/
def execLinkIntervalEnd (s : State) : Host.Outcome State Fault Refusal := .next (intervalEnd s)

end Sys2Proof.Machine
end

