-- ==== Sys2Proof/Machine/Motion.lean ====
section
/-!
DEFINITION. The motion monitor (Chapter 7): samples and magnitude, the motion states and their transitions, sensor faults,
impact records, and what a pause does to it.
-/
namespace Sys2Proof

/-! ## Samples and magnitude (R136, R137) -/

def saturateAxis (v : Int) : Int := clampInt (-32000) 32000 v

/-- The saturated triple (R136). -/
def Triple.saturate (t : Triple) : Triple := { x := saturateAxis t.x, y := saturateAxis t.y, z := saturateAxis t.z }

/-- Some axis of the raw triple lies beyond 32,000 mg. -/
def Triple.beyond (t : Triple) : Bool := t != t.saturate

/-- The root built bit by bit from bit `k - 1` down: the largest `acc + r` with `r < 2 ^ k` whose square is at most `n`. -/
def rootBits (n : Nat) : Nat → Nat → Nat
  | 0, acc => acc
  | k + 1, acc => rootBits n k (if (acc + 2 ^ k) * (acc + 2 ^ k) ≤ n then acc + 2 ^ k else acc)

/-- The magnitude of a saturated triple (R137): the largest integer whose square is at most the sum of squares, which is at
most 3,072,000,000. -/
def Triple.magnitude (t : Triple) : Nat := rootBits (t.x * t.x + t.y * t.y + t.z * t.z).toNat 16 0

/-- The axis of the largest absolute value, X before Y before Z where they tie (R137). -/
def Triple.peakAxis (t : Triple) : Machine.Axis :=
  if t.y.natAbs ≤ t.x.natAbs ∧ t.z.natAbs ≤ t.x.natAbs then .x
  else if t.z.natAbs ≤ t.y.natAbs then .y else .z

end Sys2Proof

namespace Sys2Proof.Machine

/-- The sample classes (Table 7-1). -/
inductive SampleClass where | low | mid | high
  deriving DecidableEq, Repr

def classOf (ff impact m : Nat) : SampleClass := if m < ff then .low else if m < impact then .mid else .high

/-! ## Impact records (R147, R148) -/

/-- Table 7-2: the class of a peak. -/
def classOfPeak (peak : Nat) : ImpactClass :=
  if peak < 3000 then .slight else if peak < 6000 then .minor else if peak < 12000 then .moderate
  else if peak < 24000 then .severe else .extreme

/-- Table 7-2: the points of a class. -/
def ImpactClass.points : ImpactClass → Nat
  | .none => 0 | .slight => 0 | .minor => 1 | .moderate => 4 | .severe => 16 | .extreme => 64

/-- The record of the event in progress: of an impact, or of a fall without one (R147). -/
def Motion.record (m : Motion) (impact : Bool) : ImpactRec :=
  { clock := m.start, fall := m.fall, fallMs := m.fall * 5 / 2, height := m.fall * m.fall * 30644 / 1000000,
    peak := if impact then m.peak else 0, axis := if impact then m.axis.getD .x else .x,
    cls := if impact then classOfPeak m.peak else .none, exposed := m.exposed }

/-- The log with one more entry, at most 32 (R149). -/
def logAppend (log : List ImpactRec) (r : ImpactRec) : List ImpactRec :=
  log.drop (log.length + 1 - Config.impactLog) ++ [r]

/-- An event is completed: the log, the score and the intake unit receive its record, and it is counted (R149). -/
def completeEvent (r : ImpactRec) (s : State) : State :=
  let s := s.modMotion fun m => { m with
    log := logAppend m.log r,
    impacts := if r.cls = .none then m.impacts else satInc Config.max32 m.impacts,
    noImpact := if r.cls = .none then satInc Config.max32 m.noImpact else m.noImpact }
  handlingRecords r (addPoints r.cls.points s)

/-! ## Changes of state (R139, R140, R143, R144) -/

/-- A motion state is entered: its run counters start at 0 (R139). -/
def Motion.enter (st : MotionState) (m : Motion) : Motion :=
  { m with st := st, lowRun := 0, midRun := 0, quietRun := 0, bandRun := 0, recovery := 0 }

/-- A new event starts at this run clock with this fall count (R140). -/
def Motion.newEvent (clock fall : Nat) (m : Motion) : Motion :=
  { m with fall := fall, pending := 0, peak := 0, axis := none, exposed := 0, start := clock }

/-- A sample taken in IMPACT, or entering it, is compared with the peak (R142). -/
def Motion.takePeak (mag : Nat) (axis : Axis) (m : Motion) : Motion :=
  if m.peak < mag then { m with peak := mag, axis := some axis } else m

/-- A buffer that an entry to FALLING or IMPACT marks: PROGRAMMING, and not marked yet (R63, R143). -/
def Buf.newlyExposed (b : Buf) : Bool := b.st == .programming && !b.exposed

/-- The entry to FALLING or IMPACT marks every PROGRAMMING buffer exposed, and the event counts them (R63, R79, R143). -/
def exposePrograms (s : State) : State :=
  let n := s.staging.bufs.countP fun x => (x.map Buf.newlyExposed).getD false
  (s.modStaging fun t => { t with bufs := t.bufs.map fun x => x.map fun b =>
      if b.newlyExposed then { b with exposed := true } else b }).modMotion fun m => { m with exposed := m.exposed + n }

def motionDetail (st : MotionState) (fall : Nat) : List Byte := le1 st.code ++ le2 fall

/-- The entry to FALLING (R140, R143, R144). -/
def enterFalling (s : State) : State :=
  let s := s.modMotion fun m =>
    { (m.newEvent s.power.clock s.ffCount).enter .falling with falls := satInc Config.max32 m.falls }
  raiseNotice .fall (motionDetail .falling s.motion.fall) (exposePrograms s)

/-- The entry to IMPACT wakes the part from LIGHT PAUSE, or cancels the entry to it (R143, R178, R179). -/
def impactWake (s : State) : State :=
  if s.power.st = .light ∨ s.power.pauseMark = some .light then wakeBy .impact s else s

/-- The entry to IMPACT, its event begun or its fall folded already (R141 to R144). -/
def enterImpact (mag : Nat) (axis : Axis) (s : State) : State :=
  let s := impactWake (exposePrograms (s.modMotion fun m => (m.enter .impact).takePeak mag axis))
  raiseNotice .impact (motionDetail .impact s.motion.fall) s

/-- SETTLED with the state entered and the settle type, absent at an entry to FAULT (R144). -/
def raiseSettled (st : MotionState) (t : Option SettleType) (s : State) : State :=
  raiseNotice .settled (le1 st.code ++ le1 ((t.map SettleType.code).getD 0)) s

/-- A settle from SETTLING to CALM (R140). -/
def enterCalm (t : SettleType) (s : State) : State :=
  raiseSettled .calm (some t) (s.modMotion fun m => m.enter .calm)

/-- An event ends in SETTLING and is completed (R141, R142). -/
def settleEvent (impact : Bool) (s : State) : State :=
  completeEvent (s.motion.record impact) (s.modMotion fun m => { m.enter .settling with pending := 0 })

/-- The event in progress is ended from outside: an IMPACT is completed, a FALLING abandoned (R145, R156). -/
def endEvent (s : State) : State :=
  match s.motion.st with
  | .impact => completeEvent (s.motion.record true) s
  | .falling => s.modMotion fun m => { m with abandoned := satInc Config.max32 m.abandoned }
  | .calm | .settling | .fault => s

/-- The entry to FAULT (R145). -/
def enterFault (s : State) : State :=
  let s := endEvent s
  let old := s.careful
  let s := s.modMotion fun m => { m.enter .fault with faults := satInc Config.max32 m.faults }
  raiseCareful old (raiseSettled .fault none s)

/-! ## The judgement of a sample (R138 to R142, R146) -/

/-- A high sample in CALM or SETTLING starts an impact event with fall count 0 (R140). -/
def startImpact (mag : Nat) (axis : Axis) (s : State) : State :=
  enterImpact mag axis (s.modMotion (Motion.newEvent s.power.clock 0))

/-- A run counter after a sample. -/
def runNext (holds : Bool) (n : Nat) : Nat := if holds then n + 1 else 0

def judgeCalm (c : SampleClass) (mag : Nat) (axis : Axis) (s : State) : State :=
  if c = .high then startImpact mag axis s
  else
    let low := runNext (c == .low) s.motion.lowRun
    if c = .low ∧ s.ffCount ≤ low then enterFalling s else s.modMotion fun m => { m with lowRun := low }

def judgeFalling (c : SampleClass) (mag : Nat) (axis : Axis) (s : State) : State :=
  match c with
  | .low => s.modMotion fun m => { m with fall := min 2000 (m.fall + 1 + m.pending), pending := 0, midRun := 0 }
  | .high => enterImpact mag axis (s.modMotion fun m => { m with fall := min 2000 (m.fall + m.pending), pending := 0 })
  | .mid =>
    if 4 ≤ s.motion.midRun + 1 then settleEvent false s
    else s.modMotion fun m => { m with pending := m.pending + 1, midRun := m.midRun + 1 }

def judgeImpact (c : SampleClass) (mag : Nat) (axis : Axis) (s : State) : State :=
  let s := s.modMotion (Motion.takePeak mag axis)
  if c = .high then s.modMotion fun m => { m with quietRun := 0 }
  else if 8 ≤ s.motion.quietRun + 1 then settleEvent true s
  else s.modMotion fun m => { m with quietRun := m.quietRun + 1 }

def judgeSettling (c : SampleClass) (mag : Nat) (axis : Axis) (s : State) : State :=
  if c = .high then startImpact mag axis s
  else
    let inBand := decide (s.bandLo ≤ mag) && decide (mag ≤ s.bandHi)
    let low := runNext (c == .low) s.motion.lowRun
    let band := runNext inBand s.motion.bandRun
    let mid := runNext (c == .mid) s.motion.midRun
    if c = .low ∧ s.ffCount ≤ low then enterFalling s
    else if inBand ∧ s.settleCount ≤ band then enterCalm .settled s
    else if c = .mid ∧ s.settleMax ≤ mid then enterCalm .rough s
    else s.modMotion fun m => { m with lowRun := low, bandRun := band, midRun := mid }

/-- An answered sample in FAULT (R146): one with no answered sample before it neither differs nor repeats. -/
def judgeFault (differs : Bool) (s : State) : State :=
  let n := runNext differs s.motion.recovery
  if 400 ≤ n then
    let old := s.careful
    raiseCareful old (raiseSettled .calm (some .sensor)
      (s.modMotion fun m => { m.enter .calm with repeats := 1, missed := 0 }))
  else s.modMotion fun m => { m with recovery := n }

/-- The sample classified and judged in the present state (R138, R139). -/
def judgeSample (t : Triple) (s : State) : State :=
  let mag := t.magnitude
  let c := classOf s.ffMg s.impactMg mag
  match s.motion.st with
  | .calm => judgeCalm c mag t.peakAxis s
  | .falling => judgeFalling c mag t.peakAxis s
  | .impact => judgeImpact c mag t.peakAxis s
  | .settling => judgeSettling c mag t.peakAxis s
  | .fault => s

/-- The repeat count after an answered sample (R145). -/
def repeatNext (last : Option Triple) (raw : Triple) (n : Nat) : Nat :=
  if last = some raw then min 400 (n + 1) else 1

/-- An answered read (R136, R145, R146). -/
def answered (raw : Triple) (s : State) : State :=
  let differs := s.motion.lastRaw.isSome && s.motion.lastRaw != some raw
  let s := s.modMotion fun m => { m with
    lastRaw := some raw, repeats := repeatNext m.lastRaw raw m.repeats, missed := 0 }
  if s.motion.st = .fault then judgeFault differs s
  else if s.motion.repeats = 400 then enterFault s
  else judgeSample raw.saturate s

/-- A missed read (R136, R139, R141, R145, R146). -/
def missedRead (s : State) : State :=
  let again := decide (1 ≤ s.motion.missed)
  let s := s.modMotion fun m => { m with missed := if again then 2 else 1 }
  match s.motion.st with
  | .fault => s.modMotion fun m => { m with recovery := 0 }
  | .falling => if again then enterFault s else s.modMotion fun m => { m with pending := m.pending + 1 }
  | .calm | .impact | .settling => if again then enterFault s else s

/-- One read of the accelerometer: the motion monitor samples in every power state but DEEP PAUSE (R136, R156). -/
def motionRead (r : Option Triple) (s : State) : State :=
  if s.power.st = .deep then s
  else finish (match r with
    | some raw => answered raw s
    | none => missedRead s)

/-! ## The rows that name one transition -/

/-- The motion state that a read would leave. -/
def State.motionAfter (s : State) (r : Option Triple) : MotionState := (motionRead r s).motion.st

/-- A read that causes the transition of its row; any other is not the row's event and changes nothing (log entry 2). -/
def motionRow (p : MotionState → MotionState → Bool) (r : Option Triple) (s : State) : State :=
  let t := motionRead r s
  if p s.motion.st t.motion.st then t else s

def fallStart (r : Option Triple) (s : State) : State :=
  motionRow (fun a b => (a == .calm || a == .settling) && b == .falling) r s

def fallEnd (r : Option Triple) (s : State) : State := motionRow (fun a b => a == .falling && b == .settling) r s

def impactEnd (r : Option Triple) (s : State) : State := motionRow (fun a b => a == .impact && b == .settling) r s

/-- The settle type that the sample gives: the band run completes (R140). -/
def State.bandDone (s : State) (r : Option Triple) : Bool :=
  match r with
  | none => false
  | some raw =>
    let mag := raw.saturate.magnitude
    decide (s.bandLo ≤ mag) && decide (mag ≤ s.bandHi) && decide (s.settleCount ≤ s.motion.bandRun + 1)

def settle (r : Option Triple) (s : State) : State :=
  motionRow (fun a b => a == .settling && b == .calm && s.bandDone r) r s

def roughSettle (r : Option Triple) (s : State) : State :=
  motionRow (fun a b => a == .settling && b == .calm && !s.bandDone r) r s

def sensorFault (r : Option Triple) (s : State) : State := motionRow (fun a b => a != .fault && b == .fault) r s

def sensorRecovery (r : Option Triple) (s : State) : State := motionRow (fun a b => a == .fault && b == .calm) r s

/-! ## The decay timer and DEEP PAUSE (R151, R156) -/

/-- The decay timer counts (R151). -/
def State.decayRuns (s : State) : Bool := s.motion.decayOn && (s.power.st == .run || s.power.st == .light)

/-- The decay timer reaches 6,000 ticks while it counts. -/
def handlingDecay (s : State) : State := if s.decayRuns then decayScore s else s

/-- The entry to DEEP PAUSE: the event in progress ends, and the state is CALM or stays FAULT (R156). It raises no SETTLED (R144,
log entry 87). -/
def deepStop (s : State) : State :=
  let s := endEvent s
  updateWait (s.modMotion fun m => m.enter (if m.st = .fault then .fault else .calm))

/-! ## The rows of the table -/

/-- MOTION_SAMPLE (R136): an answered triple, or none for a missed read. -/
def execMotionSample (r : Option Triple) (s : State) : Host.Outcome State Fault Refusal := .next (motionRead r s)

/-- FALL_START (R140). -/
def execFallStart (r : Option Triple) (s : State) : Host.Outcome State Fault Refusal := .next (fallStart r s)

/-- FALL_END (R141). -/
def execFallEnd (r : Option Triple) (s : State) : Host.Outcome State Fault Refusal := .next (fallEnd r s)

/-- IMPACT_END (R142). -/
def execImpactEnd (r : Option Triple) (s : State) : Host.Outcome State Fault Refusal := .next (impactEnd r s)

/-- SETTLE (R140). -/
def execSettle (r : Option Triple) (s : State) : Host.Outcome State Fault Refusal := .next (settle r s)

/-- ROUGH_SETTLE (R140). -/
def execRoughSettle (r : Option Triple) (s : State) : Host.Outcome State Fault Refusal := .next (roughSettle r s)

/-- SENSOR_FAULT (R145). -/
def execSensorFault (r : Option Triple) (s : State) : Host.Outcome State Fault Refusal := .next (sensorFault r s)

/-- SENSOR_RECOVERY (R146). -/
def execSensorRecovery (r : Option Triple) (s : State) : Host.Outcome State Fault Refusal := .next (sensorRecovery r s)

/-- HANDLING_DECAY (R151). -/
def execHandlingDecay (s : State) : Host.Outcome State Fault Refusal := .next (handlingDecay s)

end Sys2Proof.Machine
end

