-- ==== Sys2Proof/Machine/Resets.lean ====
section
/-!
DEFINITION. Resets (R176): what each cause resets, keeps and starts.
-/
namespace Sys2Proof.Machine

/-- The gauge across a reset other than POWER-ON (R174): its open discharge run closes; the recovery run is 0 where the part
does not come up in LOW-HALT (R165). -/
def Gauge.afterReset (g : Gauge) : Gauge := { g with run := none, recRun := if g.collapse then g.recRun else 0 }

/-- The power manager after a reset (R176): with the collapse mark set the part is in LOW-HALT and no mount begins. -/
def powerAfter (cause : ResetCause) (clock : Nat) (collapse : Bool) : Power :=
  let p := Power.reset cause clock
  if collapse then { p with st := .lowHalt, mount := none } else p

/-- The supply rises: every block is reset (R23, R52, R68, R120, R133, R155, R173, R175, R176, R194). The queue of commands
and the count of strap levels are the environment's. -/
def powerOnReset (strap : Bool) (s : State) : State :=
  { State.reset with pending := s.pending, straps := s.straps, link := .reset strap }

/-- A reset of another cause: the gauge, the settings and the run clock stand (R174, R175, R194), and the rate strap is
sampled at the level given (R23). The saved-page location stands till the mount sets it, so that it stands on where no
settings step follows (R197, log entry 103). -/
def warmReset (cause : ResetCause) (strap : Bool) (s : State) : State :=
  { State.reset with
    pending := s.pending, straps := s.straps, link := .reset strap, gauge := s.gauge.afterReset, settings := s.settings,
    power := powerAfter cause s.power.clock s.gauge.collapse }

/-- A reset whose row gives no strap level: the strap is sampled all the same, at whatever level it then has (R23, log
entry 63). -/
def sampledReset (cause : ResetCause) (s : State) : State :=
  warmReset cause (Config.strapLevel s.straps) { s with straps := s.straps + 1 }

/-- The OK reply of a RESET command (R11). -/
def Message.isResetReply (m : Message) : Bool := m.kind == CmdKind.reset.code && byteAt m.body 0 == 0 && m.cls == .immediate

/-- The RESET command's reply is being sent (R11). -/
def State.sendingReset (s : State) : Bool := (s.link.sending.map Message.isResetReply).getD false

/-- The last byte of the RESET command's reply has been sent (R11). -/
def linkReset (s : State) : State := if s.sendingReset then sampledReset .linkReset s else s

/-! ## The rows of the table -/

/-- POWER_ON (R176): the supply rises with the rate strap at this level. -/
def execPowerOn (strap : Bool) (s : State) : Host.Outcome State Fault Refusal := .next (powerOnReset strap s)

/-- RESET_PIN (R176). -/
def execResetPin (strap : Bool) (s : State) : Host.Outcome State Fault Refusal := .next (warmReset .resetPin strap s)

end Sys2Proof.Machine
end

