-- ==== Sys2Proof/Machine/Gauge.lean ====
section
/-!
DEFINITION. The charge gauge (Chapter 8): the steps of one sample, reserve and collapse with what the power manager does at
them, both anchors, the voltage estimate and the notice rule.
-/
namespace Sys2Proof.Machine

/-! ## Samples (R157) -/

/-- An answered read brought into range. -/
def sampleOf (r : PackRead) : PackSample :=
  { i := clampInt (-10000) 10000 r.current, v := (clampInt 0 20000 r.voltage).toNat, t := clampInt (-400) 850 r.temp,
    sat := decide (r.current < -10000) || decide (10000 < r.current), done := r.done }

/-! ## Counting and the voltage estimate (R158, R166, R169) -/

/-- The open-circuit points (Table 8-5). -/
def openCircuit : List Nat := [3300, 3550, 3650, 3710, 3750, 3790, 3840, 3910, 3990, 4080, 4180]

/-- The estimate from point `i` on, for a per-cell voltage at or above the first point of the list (R169). -/
def estimateFrom (v : Nat) : Nat → List Nat → Nat
  | i, a :: b :: rest => if v < b then 10 * i + 10 * (v - a) / (b - a) else estimateFrom v (i + 1) (b :: rest)
  | _, _ => 100

/-- The estimate in percent for a per-cell voltage (R169). -/
def estimateOf (v : Nat) : Nat := if v < 3300 then 0 else estimateFrom v 0 openCircuit

/-- The open run after one more counted sample (R166). -/
def Discharge.count (x : PackSample) (r : Discharge) : Discharge :=
  { r with drawn := (clampInt 0 864000000 (r.drawn + x.i)).toNat, warm := r.warm && decide (100 ≤ x.t) }

/-- Step 2: the charge is counted, or on the first answered sample after a POWER-ON reset estimated. -/
def Gauge.countStep (cells : Nat) (x : PackSample) (g : Gauge) : Gauge :=
  if g.estimated then
    { g with
      rc := (clampInt 0 g.fcc (g.rc - x.i)).toNat, run := g.run.map (Discharge.count x),
      conf := if g.conf = .estimated then .counting else g.conf }
  else { g with rc := g.fcc * estimateOf (x.v / cells) / 100, conf := .estimated, run := none, estimated := true }

/-- Steps 3 and 4: the current ring, and U (R160, R161). -/
def Gauge.ringStep (x : PackSample) (g : Gauge) : Gauge :=
  { g with ring := g.ring.drop 1 ++ [x.i], locked := lockedCharge g.fcc x.t }

/-! ## Anchors and capacity learning (R167, R168) -/

/-- A full anchor at this run clock with this temperature. -/
def Gauge.fullAnchor (clock : Nat) (t : Int) (g : Gauge) : Gauge :=
  { g with
    rc := g.fcc, conf := .anchored, run := some { start := clock, drawn := 0, warm := decide (100 ≤ t) },
    emptyRun := 0, armed := true, fulls := satInc Config.max32 g.fulls }

/-- The capacity that an empty anchor learns, and whether it does (R168 step 1). -/
def Gauge.learnCapacity (design : Nat) (g : Gauge) : Gauge :=
  match g.run with
  | some r =>
    if r.warm then
      { g with fcc := clampNat (design / 2) design ((3 * g.fcc + (r.drawn + g.locked)) / 4),
               learns := satInc Config.max32 g.learns }
    else g
  | none => g

/-- The empty anchor is taken (R168). -/
def Gauge.emptyAnchor (design : Nat) (t : Int) (g : Gauge) : Gauge :=
  let g := g.learnCapacity design
  let u := lockedCharge g.fcc t
  { g with run := none, locked := u, rc := u, conf := .anchored, armed := false, empties := satInc Config.max32 g.empties }

/-- The empty-anchor run after a sample (R168): 8 after the one that takes the anchor, and 0 while the mark is clear (log
entry 45). -/
def Gauge.emptyNext (cutoff : Nat) (x : PackSample) (g : Gauge) : Nat :=
  if g.armed && decide (x.v < cutoff + 200) && decide (100 < x.i) then g.emptyRun + 1 else 0

/-- The run reaches 8 at this sample. -/
def Gauge.emptyDue (cutoff : Nat) (x : PackSample) (g : Gauge) : Bool := decide (8 ≤ g.emptyNext cutoff x)

/-- Step 6. -/
def Gauge.emptyStep (design cutoff : Nat) (x : PackSample) (g : Gauge) : Gauge :=
  let due := g.emptyDue cutoff x
  let g := { g with emptyRun := g.emptyNext cutoff x, armed := g.armed || decide (cutoff + 200 ≤ x.v) }
  if due then g.emptyAnchor design x.t else g

/-- Step 7: SOC and TTE; at the sample that takes the empty anchor TTE is 0 whatever the ring holds (R161, R168, log entry 88). -/
def Gauge.reportAt (anchored : Bool) (g : Gauge) : Gauge := if anchored then { g.report with tte := 0 } else g.report

/-! ## Headroom and reserve (R163, R164) -/

/-- The drop, rounded up (R163). -/
def dropOf (peak : Nat) (i : Int) (res : Nat) : Nat :=
  if i < peak then ((peak - i).toNat * res + 999) / 1000 else 0

def headroomOf (peak cutoff res : Nat) (x : PackSample) : Int := (x.v : Int) - dropOf peak x.i res - cutoff

/-- The reserve floor in q (R164). -/
def Gauge.floorQ (permille : Nat) (g : Gauge) : Nat := g.fcc * permille / 1000

/-- RC less U, signed (R164). -/
def Gauge.free (g : Gauge) : Int := (g.rc : Int) - g.locked

/-- Step 8: the headroom, and the reserve flag with its runs. The run that does not count keeps what it last held (log
entry 110). -/
def Gauge.reserveStep (peak cutoff margin permille : Nat) (x : PackSample) (g : Gauge) : Gauge :=
  let h := headroomOf peak cutoff g.res x
  let g := { g with headroom := h }
  if g.reserve then
    let clear := if (margin : Int) + 100 ≤ h ∧ (g.floorQ permille : Int) < g.free then g.clearRun + 1 else 0
    if 40 ≤ clear then { g with reserve := false, clearRun := clear, lowRun := 0 } else { g with clearRun := clear }
  else
    let low := if h < margin then g.lowRun + 1 else 0
    if 4 ≤ low ∨ g.free < g.floorQ permille then { g with reserve := true, lowRun := low, clearRun := 0 }
    else { g with lowRun := low }

/-- What the power manager does at a reserve raise with reserve_action 1, the part awake already (R181). -/
def actOnReserve (s : State) : State :=
  if s.power.st = .lowHalt ∨ s.emergency then s
  else
    match s.power.store with
    | .ready => beginOrderly .reserve s
    | .closingOut => s.modPower fun p => { p with closeout := p.closeout.map fun c => { c with cause := .reserve } }
    | .closedOut => s.modPower fun p => { p with lastCause := some .reserve }
    | .mounting | .blank | .mediaFault => s

/-- A raise or a clear of reserve is handed to the power manager: it wakes the part or cancels a pause entry, RESERVE is
raised, and a raise may begin an orderly closeout (R164, R178, R179, R181). -/
def reserveChange (s : State) : State :=
  let s := wakeBy .reserve s
  let s := raiseNotice .reserve (leBool s.gauge.reserve ++ leInt 4 s.gauge.headroom) s
  if s.gauge.reserve && s.reserveAction then actOnReserve s else s

/-! ## Collapse and recovery (R165) -/

/-- The collapse run and the mark after a sample; while the mark is set the run keeps its count (log entry 110). -/
def Gauge.collapseStep (cutoff : Nat) (x : PackSample) (g : Gauge) : Gauge :=
  if g.collapse then g
  else
    let n := if x.v < cutoff then g.collRun + 1 else 0
    { g with collRun := n, collapse := decide (2 ≤ n) }

/-- A collapse is handed to the power manager: the part wakes, COLLAPSE is raised and an emergency closeout begins. -/
def collapseHanded (v : Nat) (s : State) : State :=
  beginEmergency (raiseNotice .collapse (le2 v) (wakeBy .collapse s))

/-- The recovery run counts while the mark was set before this sample and the power state is LOW-HALT. -/
def Gauge.recoveryStep (lowHalt : Bool) (cutoff : Nat) (x : PackSample) (g : Gauge) : Gauge :=
  if lowHalt && g.collapse then { g with recRun := if cutoff + 300 ≤ x.v then g.recRun + 1 else 0 }
  else { g with recRun := 0 }

/-- Step 9; whether the recovery is handed over is told. -/
def collapseStep (x : PackSample) (s : State) : State × Bool :=
  let marked := s.gauge.collapse
  let s := s.modGauge fun g => (g.recoveryStep (s.power.st == .lowHalt) s.cutoffMv x).collapseStep s.cutoffMv x
  if !marked then (if s.gauge.collapse then collapseHanded x.v s else s, false)
  else if 40 ≤ s.gauge.recRun then (s.modGauge fun g => { g with collapse := false, collRun := 0, recRun := 0 }, true)
  else (s, false)

/-! ## Resistance (R162) -/

/-- The resistance of a pair of samples, where the pair teaches one. -/
def pairResistance (prev x : PackSample) : Option Int :=
  if prev.sat ∨ x.sat ∨ (x.i - prev.i).natAbs < 400 then none
  else some ((((prev.v : Int) - x.v) * 1000).fdiv (x.i - prev.i))

/-- Step 10. -/
def Gauge.learnStep (prev : Option PackSample) (x : PackSample) (g : Gauge) : Gauge :=
  match prev.bind fun p => pairResistance p x with
  | some r =>
    if 5 ≤ r ∧ r ≤ 2000 then { g with res := (7 * g.res + r.toNat) / 8, resUpd := satInc Config.max32 g.resUpd } else g
  | none => g

/-! ## One sample (Table 8-1) -/

/-- Steps 5 to 7: the full anchor by the charge-done level, which is a wake source, the empty anchor, SOC and TTE. -/
def anchorSteps (x : PackSample) (s : State) : State :=
  let rises := x.done && !s.gauge.lastDone
  let s := s.modGauge fun g => { g with lastDone := x.done }
  let s := if rises then wakeBy .chargeDone (s.modGauge (Gauge.fullAnchor s.power.clock x.t)) else s
  s.modGauge fun g => (g.emptyStep s.design s.cutoffMv x).reportAt (g.emptyDue s.cutoffMv x)

/-- Step 8. -/
def reserveSteps (x : PackSample) (s : State) : State :=
  let old := s.gauge.reserve
  let s := s.modGauge (Gauge.reserveStep s.closeoutPeak s.cutoffMv s.marginMv s.floorPermille x)
  if s.gauge.reserve = old then s else reserveChange s

/-- Step 11: the first answered sample after a POWER-ON reset counts as a change of confidence (R170). -/
def batteryStep (first : Bool) (conf : Confidence) (s : State) : State :=
  if first then raiseBattery (s.modGauge fun g => { g with decade := g.soc / 10 }) else judgeBattery conf s

/-- An answered sample; the LOW-RECOVERY reset is taken when its handling ends (R157, R165). -/
def answeredSample (r : PackRead) (s : State) : State :=
  let x := sampleOf r
  let prev := if s.gauge.prevOk then s.gauge.last else none
  let first := !s.gauge.estimated
  let conf := s.gauge.conf
  let s := s.modGauge fun g => ({ g with
    last := some x, prevOk := true, answered := satInc Config.max32 g.answered }.countStep s.cells x).ringStep x
  let (s, recovered) := collapseStep x (reserveSteps x (anchorSteps x s))
  let s := batteryStep first conf (s.modGauge (Gauge.learnStep prev x))
  if recovered then sampledReset .lowRecovery s else finish s

/-- A missed sample (R159). -/
def Gauge.missSample (g : Gauge) : Gauge :=
  { g with
    prevOk := false, run := none, conf := if g.conf = .anchored then .counting else g.conf,
    missed := satInc Config.max32 g.missed }

/-- One read of the battery front-end, once the gauge takes samples (R157, R173). -/
def gaugeRead (r : Option PackRead) (s : State) : State :=
  if !s.gauge.sampling then s
  else
    match r with
    | some x => answeredSample x s
    | none => s.modGauge Gauge.missSample

/-! ## The rows that name one effect of a sample (log entry 2) -/

/-- A read that has the effect of its row; any other is not the row's event and changes nothing. -/
def gaugeRow (p : State → State → Bool) (r : Option PackRead) (s : State) : State :=
  let t := gaugeRead r s
  if p s t then t else s

def reserveRaise (r : Option PackRead) (s : State) : State :=
  gaugeRow (fun a b => !a.gauge.reserve && b.gauge.reserve) r s

def reserveClear (r : Option PackRead) (s : State) : State :=
  gaugeRow (fun a b => a.gauge.reserve && !b.gauge.reserve) r s

def collapseRow (r : Option PackRead) (s : State) : State :=
  gaugeRow (fun a b => !a.gauge.collapse && b.gauge.collapse) r s

def collapseRecovery (r : Option PackRead) (s : State) : State :=
  gaugeRow (fun a b => a.gauge.collapse && !b.gauge.collapse) r s

/-- Whether the sample `r` takes the empty anchor: its run reaches 8 at step 6. -/
def State.emptyAnchored (s : State) (r : Option PackRead) : Bool :=
  match r with
  | none => false
  | some x =>
    let y := sampleOf x
    s.gauge.sampling && !(y.done && !s.gauge.lastDone) && s.gauge.emptyDue s.cutoffMv y

def emptyAnchorRow (r : Option PackRead) (s : State) : State := gaugeRow (fun a _ => a.emptyAnchored r) r s

/-! ## GAUGE-ANCHOR with type FULL (R167) -/

/-- The full anchor by command, with the notice rule of R170; the anchor's warmth is that of the last sample. -/
def commandAnchor (s : State) : State :=
  let conf := s.gauge.conf
  let t := (s.gauge.last.map PackSample.t).getD 0
  judgeBattery conf (s.modGauge fun g => (g.fullAnchor s.power.clock t).report)

/-! ## The rows of the table -/

/-- GAUGE_SAMPLE (R157): an answered read, or none for a missed sample. -/
def execGaugeSample (r : Option PackRead) (s : State) : Host.Outcome State Fault Refusal := .next (gaugeRead r s)

/-- RESERVE_RAISE (R164). -/
def execReserveRaise (r : Option PackRead) (s : State) : Host.Outcome State Fault Refusal := .next (reserveRaise r s)

/-- RESERVE_CLEAR (R164). -/
def execReserveClear (r : Option PackRead) (s : State) : Host.Outcome State Fault Refusal := .next (reserveClear r s)

/-- COLLAPSE (R165). -/
def execCollapse (r : Option PackRead) (s : State) : Host.Outcome State Fault Refusal := .next (collapseRow r s)

/-- COLLAPSE_RECOVERY (R165). -/
def execCollapseRecovery (r : Option PackRead) (s : State) : Host.Outcome State Fault Refusal := .next (collapseRecovery r s)

/-- EMPTY_ANCHOR (R168). -/
def execEmptyAnchor (r : Option PackRead) (s : State) : Host.Outcome State Fault Refusal := .next (emptyAnchorRow r s)

end Sys2Proof.Machine
end

