-- ==== Sys2Proof/Machine/Reports.lean ====
section
/-!
DEFINITION. The contents of the reports (R22, R134, R135, R154, R172, R198) at the widths of R201.
-/
namespace Sys2Proof.Machine

/-- The identity report (R198). -/
def identityReport (s : State) : List Byte :=
  le2 Config.partCode ++ le1 Config.revision ++ le8 Config.unitSerial.toNat ++ le1 s.flash.dies.length ++
    le2 Config.blocksPerDie ++ le2 Config.pagesPerBlock ++ le2 Config.pageBytes ++ le1 Config.stagingBuffers ++
    le1 Config.openSlots ++ le2 Config.lineTableEntries ++ le2 Config.poolEntries ++
    le4 (if s.link.rate3M then 3000000 else 1000000) ++ le1 s.power.store.code

/-- The intake counters in the order of Table 2-6. -/
def IntakeCounters.values (c : IntakeCounters) : List Nat :=
  [c.frames, c.stored, c.crc, c.overlong, c.timeouts, c.huntMarks, c.malformed, c.short, c.closed, c.suspended, c.permit,
   c.locked, c.busy, c.tableFull, c.orphan, c.suppressed, c.overrun, c.limit, c.handlingLost, c.gapLost]

/-- The status report (R22). -/
def statusReport (s : State) : List Byte :=
  le1 s.power.st.code ++ le1 s.power.resetCause.code ++ le1 s.power.wake.code ++ leBool s.power.resume ++
    le1 s.power.store.code ++ le2 (s.store.lines.countP Line.open?) ++
    le1 s.intakeState.code ++ le1 s.intake.linkState.code ++ (s.intake.counters.values.map le4).flatten ++
    le1 s.motion.st.code ++ leBool s.careful ++ le2 s.motion.score ++
    le1 s.gauge.soc ++ le1 s.gauge.conf.code ++ le1 s.freeBuffers ++ le2 s.flash.freeList.length ++
    le2 s.link.errCrc ++ le2 s.link.errLen ++ le2 s.link.errTime ++ le2 s.link.dropped ++
    le1 s.link.waiting.length ++ [s.runTag] ++ le1 s.link.notices.length

/-- The last answered sample; absent before the first. -/
def sampleReport (x : Option PackSample) : List Byte :=
  match x with
  | some x => leInt 2 x.i ++ le2 x.v ++ leInt 2 x.t ++ leBool x.sat ++ leBool x.done
  | none => le8 0

/-- The discharge-run record, open as 1 and closed as 0 (log entry 120); of a closed one start, charge and warm flag are reported as
0 (R172, log entry 99). -/
def runReport (r : Option Discharge) : List Byte :=
  leBool r.isSome ++ le4 ((r.map Discharge.start).getD 0) ++ le4 ((r.map Discharge.drawn).getD 0) ++
    leBool ((r.map Discharge.warm).getD false)

/-- The gauge report (R172); its five runs take 1 byte each (log entry 17). -/
def gaugeReport (s : State) : List Byte :=
  let g := s.gauge
  sampleReport g.last ++ le4 g.rc ++ le4 g.fcc ++ le4 s.design ++ le4 g.locked ++ le2 (g.rc / Config.qPerMah) ++
    le2 (g.fcc / Config.qPerMah) ++ le1 g.soc ++ le2 g.tte ++ leInt 2 g.avg ++ le2 g.res ++ leInt 4 g.headroom ++
    leBool g.reserve ++ le1 g.lowRun ++ le1 g.clearRun ++ leBool g.collapse ++ le1 g.collRun ++ le1 g.recRun ++
    le1 g.emptyRun ++ leBool g.armed ++ le1 g.conf.code ++ runReport g.run ++
    le4 g.answered ++ le4 g.missed ++ le4 g.resUpd ++ le4 g.learns ++ le4 g.fulls ++ le4 g.empties

/-- The last answered motion sample: its saturated triple, its magnitude, and whether an axis was saturated. -/
def tripleReport (t : Option Triple) : List Byte :=
  match t with
  | some t =>
    let u := t.saturate
    leInt 2 u.x ++ leInt 2 u.y ++ leInt 2 u.z ++ le2 u.magnitude ++ leBool t.beyond
  | none => le8 0 ++ leBool false

/-- The event in progress, absent in the states that have none. -/
def eventReport (m : Motion) : List Byte :=
  if m.st = .falling ∨ m.st = .impact then
    le4 m.start ++ le2 m.fall ++ le4 m.pending ++ le2 m.peak ++ le1 ((m.axis.map Axis.code).getD 0) ++ le1 m.exposed
  else le4 0 ++ le2 0 ++ le4 0 ++ le2 0 ++ le1 0 ++ le1 0

/-- The motion report (R154). -/
def motionReport (s : State) : List Byte :=
  let m := s.motion
  le1 m.st.code ++ leBool s.careful ++ leBool m.latch ++ le2 m.score ++ le2 m.decay ++ tripleReport m.lastRaw ++
    le2 m.repeats ++ le1 m.missed ++ le2 (if m.st = .fault then m.recovery else 0) ++ eventReport m ++
    le4 m.falls ++ le4 m.impacts ++ le4 m.noImpact ++ le4 m.abandoned ++ le4 m.faults ++
    le1 m.log.length ++ (m.log.map ImpactRec.bytes).flatten

/-- The fields of Table 5-2, and the two values of R134. -/
def lineReport (l : Line) (s : State) : List Byte :=
  let opened := l.open?
  le2 l.num ++ le1 l.st.code ++ le1 (if opened then (s.slotOf l.num).getD 0 else 0) ++ le1 l.flags.code ++
    le4 l.records ++ le4 l.pages ++ le4 ((l.range.map Prod.fst).getD 0) ++ le4 ((l.range.map Prod.snd).getD 0) ++
    le4 l.next ++ le8 (l.tFirst.getD 0) ++ le8 (l.tLast.getD 0) ++ le2 l.segCount ++
    locBytes (l.root.map Loc.addr) ++ le4 ((l.root.map Loc.wseq).getD 0) ++ le2 (if opened then l.pool.length else 0) ++
    le4 (s.stagedRecords l.num) ++ leBool l.loading

/-- A LINE-LIST summary (R135). -/
def lineSummary (l : Line) : List Byte :=
  le2 l.num ++ le1 l.st.code ++ le1 l.flags.code ++ le4 l.records ++ le4 l.pages ++
    le4 ((l.range.map Prod.fst).getD 0) ++ le4 ((l.range.map Prod.snd).getD 0)

/-- The summaries of up to 64 lines from `start` on, and the continuation number (R135). -/
def listReport (start : Nat) (s : State) : List Byte :=
  let ls := s.store.lines.filter fun l => decide (start ≤ l.num)
  let shown := ls.take 64
  le1 shown.length ++ (shown.map lineSummary).flatten ++ le2 (((ls.drop 64).head?.map Line.num).getD 0)

end Sys2Proof.Machine
end

