-- ==== Sys2Proof/Machine/Commands.lean ====
section
/-!
DEFINITION. The commands of Table 1-1 as they are served or run: the immediate commands that the control link and the
power manager serve (R11, R15, R180), the store commands at their owners (R35, R106, R110 to R112, R177, R181, R197), the
command queue (R12, R13), and the steps of the store commands that take more than one event.
-/
namespace Sys2Proof.Machine

/-! ## Lines (R106, R110, R111) -/

/-- LINE-CLOSE (R106). -/
def lineClose (n : Nat) (s : State) : State :=
  match s.line n with
  | none => endCommand .noSuchLine [] s
  | some _ => endCommand .ok [] (requestClose n .command false s)

/-- The line's state becomes `st`, and the command waits for a checkpoint taken after the change (R110). -/
def lockChange (n : Nat) (st : LineState) (s : State) : State :=
  requestCheckpoint (some .command) (s.modLine n fun l => { l with st := st })

/-- LINE-LOCK (R110). -/
def lineLock (n : Nat) (s : State) : State :=
  match s.line n with
  | none => endCommand .noSuchLine [] s
  | some l =>
    match l.st with
    | .opened | .closing => endCommand .lineOpen [] s
    | .locked => endCommand .ok [] s
    | .closed => lockChange n .locked s

/-- LINE-UNLOCK (R110). -/
def lineUnlock (n : Nat) (s : State) : State :=
  match s.line n with
  | none => endCommand .noSuchLine [] s
  | some l =>
    match l.st with
    | .opened | .closing | .closed => endCommand .ok [] s
    | .locked => lockChange n .closed s

def inRange (lo hi n : Nat) : Bool := decide (lo ≤ n) && decide (n ≤ hi)

/-- A removed line with its work under way (R111): what that counted, the segment copies that stand for those the root names, the
entries of a segment that the pool held last with the old copies that such a copy replaced, and the copies that the mount found
below the snapshot. -/
def State.erasedLine (s : State) (l : Line) : ErasedLine :=
  let pend := s.store.pendings.filter fun p => p.line == l.num
  let rws := s.store.segRw.filter fun w => w.line == l.num
  let pool := rws.filter SegRewrite.pool
  let dones := s.doneOf l.num
  { root := l.root, unread := l.unread,
    extra := ((pend.filter fun p => !p.prior).filterMap (fun p => p.new.map Loc.addr) ++ (rws.map SegRewrite.news).flatten ++
      (dones.map fun d => d.loc.toList ++ d.news).flatten).eraseDups,
    stead := dones.filter SegDone.settled ++ pool.map fun w =>
      { line := l.num, seg := w.seg, loc := none, wseq := 0, check := none, old := none, news := [], drops := [],
        settled := true, gone := false },
    whole := (pool.map SegRewrite.whole).flatten ++ ((dones.filter SegDone.settled).map SegDone.drops).flatten,
    priors := pend.filter Repl.prior }

/-- The flush step of a checkpoint waits no more for the lines of the range (R117). -/
def Ckpt.without (lo hi : Nat) : Ckpt → Ckpt
  | .flushing todo wait => .flushing (todo.filter fun n => !inRange lo hi n) (wait.filter fun n => !inRange lo hi n)
  | .writing snap => .writing snap

/-- The flush images of the lines of the range that are not handed are those of rewrites that no longer stand: handed, they change
nothing (R105). -/
def deadFlush (lo hi : Nat) (x : Buf) : Buf :=
  match x.job with
  | .flush n k => if inRange lo hi n && !x.reported then { x with job := .segRewrite n k 0 } else x
  | .intake | .segRewrite _ _ _ | .closeRoot _ | .rootRewrite _ _ | .reloc | .relocRewrite | .checkpoint _ | .settings => x

/-- The lines of the range are removed with their work under way and the requests that name it (R111). -/
def removeLines (lo hi : Nat) (s : State) : State :=
  let ls := s.store.lines.filter fun l => inRange lo hi l.num
  let job : EraseJob :=
    { lo := lo, hi := hi, count := ls.length, refs := none,
      lines := ls.map s.erasedLine }
  let s := s.modStore fun t => { t with
    lines := t.lines.filter fun l => !inRange lo hi l.num,
    pendings := t.pendings.filter fun p => !inRange lo hi p.line,
    segRw := t.segRw.filter fun w => !inRange lo hi w.line,
    segDone := t.segDone.filter fun d => !inRange lo hi d.line,
    rootRw := t.rootRw.filter fun w => !inRange lo hi w.line, ckpt := t.ckpt.map (Ckpt.without lo hi), erase := some job }
  let s := s.modStaging fun t => { t with
    bufs := t.bufs.map (Option.map (deadFlush lo hi)),
    requests := t.requests.filter fun q => !((q.line.map (inRange lo hi)).getD false) }
  ls.foldl (fun s l => invalidateLine l.num s) s

/-- LINE-ERASE (R111). -/
def lineErase (lo hi : Nat) (s : State) : State :=
  let ls := s.store.lines.filter fun l => inRange lo hi l.num
  if ls.any fun l => l.st == .locked then endCommand .lineLocked (le2 0) s
  else if ls.any Line.indexing then endCommand .lineOpen (le2 0) s
  else runErase (removeLines lo hi s)

/-! ## Settings (R35, R197) -/

/-- PERMIT-LOAD (R35). -/
def permitLoad (body : List Byte) (s : State) : State :=
  endCommand .ok [] (s.modSettings fun c => { c with permit := parsePermit body 0 })

/-- SAVE-SETTINGS (R197): the copy taken is asked for as an image, which is not written while die 0 is FAULTED (R83). -/
def saveSettings (s : State) : State := requestImage (.settings (settingsBody s.settings.items s.settings.permit)) s

/-! ## FORMAT (R92, R112) -/

/-- The image wait list is emptied and every QUEUED buffer is returned FREE (R112 step 1). -/
def discardImages (s : State) : State :=
  s.staging.queue.foldl (fun s b => freeBuf b s) (s.modStaging fun t => { t with requests := [] })

/-- FORMAT begins: step 1 of R112, and the intake is held CLOSED. -/
def startFormat (s : State) : State :=
  if s.store.lines.any fun l => l.st == .locked then endCommand .lineLocked [] s
  else
    let s := s.modPower fun p => { p with fmt := .waiting }
    let s := discardImages (dropCheckpoint (s.modStore fun t => { t with waiters := [] }))
    updateWait (endWalk s)

/-- The block table of a BLANK store, built new (R92). -/
def newBlocks (dies : Nat) : List BlockRec :=
  ((List.range dies).map fun d => (List.range Config.blocksPerDie).map fun b =>
    { id := { die := d, block := b }, st := if isAnchor { die := d, block := b } then .anchor else .free, erases := 0,
      live := 0, seq := 0 : BlockRec }).flatten

/-- A block after the format event: ACTIVE, FULL and RECLAIM-PENDING blocks of READY dies are FREE (R92). -/
def formatBlock (ready : Nat → Bool) (r : BlockRec) : BlockRec :=
  let st := match r.st with
    | .active | .full | .reclaimPending => if ready r.id.die then BlockState.free else r.st
    | .anchor | .free | .retired => r.st
  { r with st := st, live := 0 }

/-- Blocks given new free sequence numbers in the order they stand, from the one after `ctr` on. -/
def numberFree : Nat → List BlockRec → List BlockRec × Nat
  | ctr, [] => ([], ctr)
  | ctr, r :: rs =>
    if r.st = .free then
      let n := (ctr + 1) % Config.clockModulus
      let (rs, ctr) := numberFree n rs
      ({ r with seq := n } :: rs, ctr)
    else
      let (rs, ctr) := numberFree ctr rs
      (r :: rs, ctr)

/-- The block table in the order of die and block number, as the format event rebuilds it (R92). -/
def formatTable (s : State) : List BlockRec :=
  let all := if s.flash.blocks.isEmpty then newBlocks s.flash.dies.length else s.flash.blocks
  let all := ((List.range s.flash.dies.length).map fun d => all.filter fun r => r.id.die == d).flatten
  all.map (formatBlock s.dieReady)

/-- The flash controller's part of the format event (R92). -/
def formatFlash (s : State) : State :=
  let (blocks, ctr) := numberFree s.flash.freeCtr (formatTable s)
  s.modFlash fun fl => { fl with
    blocks := blocks, freeList := (blocks.filter fun r => r.st == .free).map BlockRec.id, freeCtr := ctr, refresh := [],
    pendingRec := [], reads := [],
    dies := fl.dies.mapIdx fun d x => { x with active := none, due := x.due.filter fun b => isAnchor ⟨d, b⟩ } }

/-- The FILLING and RETAINED buffers are returned FREE (R112). -/
def dropHeldBuffers (s : State) : State :=
  let bs := (List.range s.staging.bufs.length).filter fun n => match s.buf n with
    | some x => x.st == .filling || x.st == .retained
    | none => false
  bs.foldl (fun s b => freeBuf b s) s

/-- FORMAT may reach its format event: no buffer is QUEUED, PROGRAMMING or VERIFYING (R68, R112 step 2). -/
def State.formatReady (s : State) : Bool :=
  s.isRunning .format && s.power.fmt == .waiting && s.staging.queue.isEmpty &&
    !(s.staging.bufs.any fun x => match x with
      | some b => b.st == .programming || b.st == .verifying
      | none => false)

/-- The format event, and the checkpoint that ends the command (R112 step 3). A checkpoint that was begun while FORMAT waited is
abandoned with the other work lists. -/
def formatEvent (s : State) : State :=
  if !s.formatReady then s
  else
    let s := discardImages (dropCheckpoint (s.modPower fun p => { p with fmt := .checkpoint }))
    let s := s.modStore fun t => { t with
      lines := [], pendings := [], segRw := [], segDone := [], rootRw := [], walk := none, erase := none }
    let s := dropHeldBuffers (s.modIntake fun i => { i with slots := i.slots.map fun _ => none })
    let s := s.modRetr fun r => { r with cache := r.cache.map (CacheSet.drop fun _ => true) }
    finish (requestCheckpoint (some .command) (judgeSpace (formatFlash s)))

/-! ## CLOSEOUT and PAUSE (R177, R178, R181, R182) -/

/-- CLOSEOUT reaches the power manager: in CLOSED-OUT it ends at once (R13, R181). -/
def startCloseout (s : State) : State :=
  if s.power.store = .closedOut then endCommand .ok (le1 StoreState.closedOut.code) s else beginOrderly .command s

/-- PAUSE reaches the power manager (R177). -/
def startPause (s : State) : State :=
  judgePause (updateWait (s.modPower fun p => { p with pause := .quiet, pauseSeen := none }))

/-- The power state that PAUSE enters, as the reply is built (R177 step 3). -/
def State.pauseTarget (s : State) : PowerState := if s.watchInPause then .light else .deep

/-- The running PAUSE finds the store quiet: it requests its checkpoint, and after it ends with OK (R177). -/
def pauseQuiet (s : State) : State :=
  if !(s.isRunning .pause && s.quiet) then s
  else
    match s.power.pause with
    | .quiet => requestCheckpoint (some .command) (s.modPower fun p => { p with pause := .checkpoint })
    | .checkpointed => updateWait (endIf .pause .ok (le1 s.pauseTarget.code) s)
    | .checkpoint | .none => s

/-- No line is CLOSING, or a queued buffer bound for a data block can be taken by no die (R182). -/
def State.noneClosing (s : State) : Bool := !(s.store.lines.any fun l => l.st == .closing)

def State.dataStuck (s : State) : Bool :=
  !s.dataRoom && s.staging.queue.any fun n => match s.buf n with
    | some b => !isAnchorKind b.hdr.kind
    | none => false

/-- The active block of a die whose last programmed page is a lower page becomes FULL (R66). -/
def releaseDie (s : State) (d : Nat) : State :=
  match (s.die d).bind Die.active with
  | some t => if t.next % 2 = 1 then blockFull { die := d, block := t.block } s else s
  | none => s

/-- The orderly closeout takes its steps 2 and 3 (R182). The dies' active blocks become FULL from die 0 up (R66,
log entry 67). -/
def closeoutRelease (s : State) : State :=
  match s.power.closeout with
  | none => s
  | some c =>
    match c.kind with
    | .emergency => s
    | .orderly released _ =>
      if released || !(s.noneClosing || s.dataStuck) then s
      else
        let s := s.modPower fun p => { p with closeout := some { c with kind := .orderly true (!s.noneClosing) } }
        let s := (List.range s.flash.dies.length).foldl releaseDie s
        finish (requestCheckpoint (some .closeout) s)

/-! ## The command queue (R12, R13) -/

/-- The running command is at its owner (R13). -/
def runOwner (c : StoreCmd) (s : State) : State :=
  match c.kind with
  | .readRecords => startRetr c.body s
  | .lineClose => lineClose (lineArg c.body) s
  | .lineLock => lineLock (lineArg c.body) s
  | .lineUnlock => lineUnlock (lineArg c.body) s
  | .lineErase => lineErase (eraseLo c.body) (eraseHi c.body) s
  | .permitLoad => permitLoad c.body s
  | .saveSettings => saveSettings s
  | .format => startFormat s
  | .closeout => startCloseout s
  | .pause => startPause s
  | .identify | .status | .gaugeRead | .motionRead | .getSettings | .putSettings | .lineList | .lineInfo | .intake
  | .filterReset | .ackResume | .gaugeAnchor | .cancel | .reset => s

/-- The command in the running position is tested again and handed to its owner; while the pause-entry mark is set it
waits there (R9, R13, R178). -/
def handRunning (s : State) : State :=
  match s.link.running with
  | none => s
  | some r =>
    if r.handed || r.final.isSome then s
    else if r.cmd.cancelled then endCommand .cancelled (unrunContent r.cmd .cancelled s) s
    else
      match refusedBy r.cmd.kind s.power.st s.power.store with
      | some code => endCommand code (unrunContent r.cmd code s) s
      | none =>
        if s.pausing then s
        else runOwner r.cmd (s.modLink fun l => { l with running := some { r with handed := true } })

/-- A store command moves to the running position and starts (R12, R13). -/
def moveUp (c : StoreCmd) (s : State) : State :=
  handRunning (s.modLink fun l => { l with running := some { cmd := c, handed := false, final := none } })

/-- A store command that passes R7 is admitted (R12). -/
def admitCmd (c : StoreCmd) (s : State) : State :=
  if s.link.running.isNone && s.link.waiting.isEmpty then moveUp c s
  else s.modLink fun l => { l with waiting := l.waiting ++ [c] }

/-- The oldest waiting command moves up where the running position is empty; a command held there by the pause-entry mark
is handed to its owner after the wake (R13, R179). -/
def storeAdvance (s : State) : State :=
  finish (match s.link.running with
    | some _ => handRunning s
    | none => match s.link.waiting with
      | c :: cs => moveUp c (s.modLink fun l => { l with waiting := cs })
      | [] => s)

/-! ## Immediate commands of the control link and the power manager -/

/-- CANCEL of a waiting command: it is removed with CANCELLED, or keeps its place with the cancelled mark (R15). -/
def cancelWaiting (c : StoreCmd) (s : State) : State :=
  if s.link.fifo.length < Config.replyFifo then
    (s.modLink fun l => { l with waiting := l.waiting.filter fun x => x.tag != c.tag }).modLink fun l =>
      l.enter s.paused (finalMessage c ⟨.cancelled, unrunContent c .cancelled s⟩)
  else s.modLink fun l => { l with waiting := mapIf (fun x => x.tag == c.tag) (fun x => { x with cancelled := true }) l.waiting }

/-- CANCEL of the command in the running position (R15). A READ-RECORDS whose final reply is built and waits for room ends with
CANCELLED all the same. Where no record is in progress the target's reply is placed first and the CANCEL's OK behind it
(log entry 61). -/
def cancelRunning (tag : Byte) (r : Running) (s : State) : State :=
  let k := CmdKind.cancel.code
  if r.cmd.kind ≠ .readRecords then reply k tag .notCancellable [] s
  else if s.retrieving then finish (reply k tag .ok [] (stopRetr .cancel s))
  else
    reply k tag .ok [] (match r.final with
      | some f => s.modLink fun l => { l with running := some { r with final := some { f with code := .cancelled } } }
      | none => endCommand .cancelled (unrunContent r.cmd .cancelled s) s)

/-- CANCEL (R15); a target that is not in use has been refused under R7. -/
def cancelCommand (tag target : Byte) (s : State) : State :=
  match s.link.running.filter fun r => r.cmd.tag == target with
  | some r => cancelRunning tag r s
  | none =>
    match s.link.waiting.find? fun c => c.tag == target with
    | some c => reply CmdKind.cancel.code tag .ok [] (cancelWaiting c s)
    | none => s

/-- RESET (R11): its reply is placed and the receiver discards every byte; where the reply is dropped the reset is taken
at once. -/
def resetCommand (tag : Byte) (s : State) : State :=
  if s.link.fifo.length < Config.immediateLimit then
    reply CmdKind.reset.code tag .ok [] (s.modLink fun l => { l with discard := true })
  else sampledReset .linkReset s

/-- ACK-RESUME (R180). -/
def ackResume (tag : Byte) (s : State) : State :=
  reply CmdKind.ackResume.code tag .ok [] (updateWait (s.modPower fun p => { p with resume := false }))

/-- LINE-INFO (R134). -/
def lineInfo (tag : Byte) (n : Nat) (s : State) : State :=
  match s.line n with
  | none => reply CmdKind.lineInfo.code tag .noSuchLine [] s
  | some l => reply CmdKind.lineInfo.code tag .ok (lineReport l s) s

/-- GAUGE-ANCHOR with type FULL (R167). -/
def gaugeAnchor (tag : Byte) (s : State) : State :=
  let s := commandAnchor s
  reply CmdKind.gaugeAnchor.code tag .ok (gaugeReport s) s

/-! ## A taken frame (R7, R10) -/

/-- A command that passes R7 is served at once, or admitted to the queue (R10, R12). -/
def serve (k : CmdKind) (tag : Byte) (body : List Byte) (s : State) : State :=
  match k with
  | .identify => reply k.code tag .ok (identityReport s) s
  | .status => reply k.code tag .ok (statusReport s) s
  | .gaugeRead => reply k.code tag .ok (gaugeReport s) s
  | .motionRead => reply k.code tag .ok (motionReport s) s
  | .getSettings => getSettings tag body s
  | .putSettings => putSettings tag body s
  | .lineList => reply k.code tag .ok (listReport (lineArg body) s) s
  | .lineInfo => lineInfo tag (lineArg body) s
  | .intake => if byteAt body 0 = 1 then openIntake tag s else closeIntake tag s
  | .filterReset => filterResetCmd tag s
  | .ackResume => ackResume tag s
  | .gaugeAnchor => gaugeAnchor tag s
  | .cancel => cancelCommand tag (byteAt body 0) s
  | .reset => resetCommand tag s
  | .readRecords | .lineClose | .lineLock | .lineUnlock | .lineErase | .permitLoad | .saveSettings | .format | .closeout
  | .pause => finish (admitCmd { kind := k, tag := tag, body := body, cancelled := false } s)

/-- A taken frame of a kind of Table 1-1 (R7). -/
def takeCommand (k : CmdKind) (tag : Byte) (body : List Byte) (s : State) : State :=
  match checkCommand k tag body s with
  | some code => reply k.code tag code [] s
  | none => serve k tag body s

/-- A taken frame whose kind byte is this one: of another kind it is refused (R7 checks 1 and 2). -/
def takeFrame (kind tag : Byte) (body : List Byte) (s : State) : State :=
  match CmdKind.ofCode kind with
  | some k => takeCommand k tag body s
  | none => reply kind tag (if tag = 0 then .badTag else .unknownKind) [] s

/-- A byte received in a pause state wakes the part (R4, R179). -/
def controlWake (s : State) : State := if s.paused then wake .control s else s

def State.setCtl (p : CtlParser) (s : State) : State := s.modLink fun l => { l with parser := p }

/-- A whole command frame arrives: the receiver takes it unless it discards every byte (R3, R11). -/
def commandFrame (k : CmdKind) (tag : Byte) (body : List Byte) (s : State) : State :=
  if s.link.discard then s else takeCommand k tag body ((controlWake s).setCtl .reset)

/-! ## The rows of the table -/

/-- IDENTIFY (R198): its frame is taken. -/
def execIdentify (tag : Byte) (body : List Byte) (s : State) : Host.Outcome State Fault Refusal := .next (commandFrame .identify tag body s)

/-- STATUS (R22): its frame is taken. -/
def execStatus (tag : Byte) (body : List Byte) (s : State) : Host.Outcome State Fault Refusal := .next (commandFrame .status tag body s)

/-- GAUGE_READ (R172): its frame is taken. -/
def execGaugeRead (tag : Byte) (body : List Byte) (s : State) : Host.Outcome State Fault Refusal := .next (commandFrame .gaugeRead tag body s)

/-- MOTION_READ (R154): its frame is taken. -/
def execMotionRead (tag : Byte) (body : List Byte) (s : State) : Host.Outcome State Fault Refusal := .next (commandFrame .motionRead tag body s)

/-- GET_SETTINGS (R196): its frame is taken. -/
def execGetSettings (tag : Byte) (body : List Byte) (s : State) : Host.Outcome State Fault Refusal := .next (commandFrame .getSettings tag body s)

/-- PUT_SETTINGS (R195): its frame is taken. -/
def execPutSettings (tag : Byte) (body : List Byte) (s : State) : Host.Outcome State Fault Refusal := .next (commandFrame .putSettings tag body s)

/-- LINE_LIST (R135): its frame is taken. -/
def execLineList (tag : Byte) (body : List Byte) (s : State) : Host.Outcome State Fault Refusal := .next (commandFrame .lineList tag body s)

/-- LINE_INFO (R134): its frame is taken. -/
def execLineInfo (tag : Byte) (body : List Byte) (s : State) : Host.Outcome State Fault Refusal := .next (commandFrame .lineInfo tag body s)

/-- FILTER_RESET (R43): its frame is taken. -/
def execFilterReset (tag : Byte) (body : List Byte) (s : State) : Host.Outcome State Fault Refusal := .next (commandFrame .filterReset tag body s)

/-- ACK_RESUME (R180): its frame is taken. -/
def execAckResume (tag : Byte) (body : List Byte) (s : State) : Host.Outcome State Fault Refusal := .next (commandFrame .ackResume tag body s)

/-- GAUGE_ANCHOR (R167): its frame is taken. -/
def execGaugeAnchor (tag : Byte) (body : List Byte) (s : State) : Host.Outcome State Fault Refusal := .next (commandFrame .gaugeAnchor tag body s)

/-- CANCEL (R15): its frame is taken. -/
def execCancel (tag : Byte) (body : List Byte) (s : State) : Host.Outcome State Fault Refusal := .next (commandFrame .cancel tag body s)

/-- RESET (R11): its frame is taken. -/
def execReset (tag : Byte) (body : List Byte) (s : State) : Host.Outcome State Fault Refusal := .next (commandFrame .reset tag body s)

/-- READ_RECORDS (R121): its frame is taken. -/
def execReadRecords (tag : Byte) (body : List Byte) (s : State) : Host.Outcome State Fault Refusal := .next (commandFrame .readRecords tag body s)

/-- LINE_CLOSE (R106): its frame is taken. -/
def execLineClose (tag : Byte) (body : List Byte) (s : State) : Host.Outcome State Fault Refusal := .next (commandFrame .lineClose tag body s)

/-- LINE_LOCK (R110): its frame is taken. -/
def execLineLock (tag : Byte) (body : List Byte) (s : State) : Host.Outcome State Fault Refusal := .next (commandFrame .lineLock tag body s)

/-- LINE_UNLOCK (R110): its frame is taken. -/
def execLineUnlock (tag : Byte) (body : List Byte) (s : State) : Host.Outcome State Fault Refusal := .next (commandFrame .lineUnlock tag body s)

/-- LINE_ERASE (R111): its frame is taken. -/
def execLineErase (tag : Byte) (body : List Byte) (s : State) : Host.Outcome State Fault Refusal := .next (commandFrame .lineErase tag body s)

/-- PERMIT_LOAD (R35): its frame is taken. -/
def execPermitLoad (tag : Byte) (body : List Byte) (s : State) : Host.Outcome State Fault Refusal := .next (commandFrame .permitLoad tag body s)

/-- SAVE_SETTINGS (R197): its frame is taken. -/
def execSaveSettings (tag : Byte) (body : List Byte) (s : State) : Host.Outcome State Fault Refusal := .next (commandFrame .saveSettings tag body s)

/-- FORMAT (R112): its frame is taken. -/
def execFormat (tag : Byte) (body : List Byte) (s : State) : Host.Outcome State Fault Refusal := .next (commandFrame .format tag body s)

/-- CLOSEOUT (R181): its frame is taken. -/
def execCloseout (tag : Byte) (body : List Byte) (s : State) : Host.Outcome State Fault Refusal := .next (commandFrame .closeout tag body s)

/-- PAUSE (R177): its frame is taken. -/
def execPause (tag : Byte) (body : List Byte) (s : State) : Host.Outcome State Fault Refusal := .next (commandFrame .pause tag body s)

/-- INTAKE_OPEN (R33): the frame of INTAKE with action 1 is taken. -/
def execIntakeOpen (tag : Byte) (s : State) : Host.Outcome State Fault Refusal := .next (commandFrame .intake tag [1] s)

/-- INTAKE_CLOSE (R33): the frame of INTAKE with action 2 is taken. -/
def execIntakeClose (tag : Byte) (s : State) : Host.Outcome State Fault Refusal := .next (commandFrame .intake tag [2] s)

/-- STORE_COMMAND_ADVANCE (R13). -/
def execStoreCommandAdvance (s : State) : Host.Outcome State Fault Refusal := .next (storeAdvance s)

/-- PROGRAM_COUNT_CHECKPOINT (R116): the program count has reached 1,024. -/
def execProgramCountCheckpoint (s : State) : Host.Outcome State Fault Refusal := .next (if Config.programCountLimit ≤ s.store.progCount then finish (requestCheckpoint none s) else s)

/-- CHECKPOINT_SNAPSHOT (R117). -/
def execCheckpointSnapshot (s : State) : Host.Outcome State Fault Refusal := .next (if s.snapshotReady then finish (snapshot s) else s)

/-- FORMAT_EVENT (R112). -/
def execFormatEvent (s : State) : Host.Outcome State Fault Refusal := .next (formatEvent s)

/-- PAUSE_QUIET (R177). -/
def execPauseQuiet (s : State) : Host.Outcome State Fault Refusal := .next (pauseQuiet s)

/-- CLOSEOUT_RELEASE (R182). -/
def execCloseoutRelease (s : State) : Host.Outcome State Fault Refusal := .next (closeoutRelease s)

/-- LOW_HALT_ENTRY (R185). -/
def execLowHaltEntry (s : State) : Host.Outcome State Fault Refusal := .next (updateWait (lowHaltCheck s))

end Sys2Proof.Machine
end

