-- ==== Sys2Proof/Machine/Link.lean ====
section
/-!
DEFINITION. The control link's events: the receive parser (R1 to R5), the end of a message at the transmitter (R18) with the
pause entry and the LINK-RESET that follow one (R11, R178), and a final reply that waited for room (R17).
-/
namespace Sys2Proof.Machine

/-! ## Link errors (R5) -/

def crcError (kind tag : Byte) (s : State) : State :=
  linkError 1 [kind, tag] ((s.setCtl .reset).modLink fun l => { l with errCrc := satInc Config.max16 l.errCrc })

def lengthError (len : Nat) (s : State) : State :=
  linkError 2 (le2 len) ((s.setCtl .reset).modLink fun l => { l with errLen := satInc Config.max16 l.errLen })

/-- The bytes of the frame received after the sync pair. -/
def CtlParser.received (p : CtlParser) : Nat :=
  match p.st with
  | .idle => 0
  | .header => p.count
  | .body => 4 + p.count
  | .check => 4 + p.len + p.count

def timeoutError (p : CtlParser) (s : State) : State :=
  linkError 3 (le1 p.st.code ++ le2 p.received)
    ((s.setCtl .reset).modLink fun l => { l with errTime := satInc Config.max16 l.errTime })

/-! ## The receive parser (Figure 1-1) -/

/-- A byte in IDLE (R1). -/
def idleByte (b : Byte) (p : CtlParser) : CtlParser :=
  if p.half && b == 0x1B then { CtlParser.reset with st := .header, crc := 0xFFFF }
  else { CtlParser.reset with half := b == 0xE5 }

/-- A byte in HEADER (R1, R2). -/
def ctlHeader (b : Byte) (p : CtlParser) (s : State) : State :=
  let c := crc16Byte p.crc b
  if p.count = 0 then s.setCtl { p with count := 1, len := b.toNat, crc := c }
  else if p.count = 1 then
    let len := p.len + 256 * b.toNat
    if Config.maxBody < len then lengthError len s else s.setCtl { p with count := 2, len := len, crc := c }
  else if p.count = 2 then s.setCtl { p with count := 3, kind := b, crc := c }
  else s.setCtl { p with st := if p.len = 0 then .check else .body, count := 0, tag := b, crc := c }

/-- A byte in BODY (R1). -/
def ctlBody (b : Byte) (p : CtlParser) (s : State) : State :=
  let p := { p with count := p.count + 1, body := p.body ++ [b], crc := crc16Byte p.crc b }
  s.setCtl (if p.count < p.len then p else { p with st := .check, count := 0 })

/-- A byte in CHECK: with the second the frame is taken or rejected (R3). -/
def ctlCheck (b : Byte) (p : CtlParser) (s : State) : State :=
  if p.count = 0 then s.setCtl { p with count := 1, crcLo := b }
  else if ofLe [p.crcLo, b] = p.crc.toNat then takeFrame p.kind p.tag p.body (s.setCtl .reset)
  else crcError p.kind p.tag s

def parseByte (b : Byte) (s : State) : State :=
  let p := s.link.parser
  match p.st with
  | .idle => s.setCtl (idleByte b p)
  | .header => ctlHeader b p s
  | .body => ctlBody b p s
  | .check => ctlCheck b p s

/-- A byte arrives on the control link (R1, R4, R11). -/
def controlByte (b : Byte) (s : State) : State :=
  let s := controlWake s
  if s.link.discard then s else parseByte b s

/-- A complete frame whose CRC differs (R3). -/
def crcFrame (kind tag : Byte) (s : State) : State :=
  if s.link.discard then s else crcError kind tag (controlWake s)

/-- 20 ms pass with no byte in HEADER, BODY or CHECK (R4). -/
def controlTimedOut (s : State) : State :=
  if s.link.parser.st = .idle then s else timeoutError s.link.parser s

/-! ## The transmitter (R11, R17, R18, R178) -/

/-- The OK reply of a PAUSE. -/
def Message.isPauseReply (m : Message) : Bool :=
  m.cls == .final && m.kind == CmdKind.pause.code && byteAt m.body 0 == 0

/-- The PAUSE reply that set the pause-entry mark is being sent: no other stands behind it (R178). -/
def State.sendingPause (s : State) : Bool :=
  s.power.pauseMark.isSome && (s.link.sending.map Message.isPauseReply).getD false &&
    !(s.link.fifo.any Message.isPauseReply)

/-- The part enters the pause state that the reply named (R178); DEEP PAUSE stops the motion monitor (R156). -/
def enterPause (p : PowerState) (s : State) : State :=
  let s := updateWait (s.modPower fun q => { q with st := p, pauseMark := none })
  if p = .deep then deepStop s else s

/-- The PAUSE reply and everything ahead of it have been sent (R178). A buffer that a HANDLING record has QUEUED since the
reply was built does not hold the entry back (R68, log entry 68). -/
def pauseEntry (s : State) : State :=
  match s.power.pauseMark with
  | some p => if s.sendingPause then enterPause p (s.modLink fun l => { l with sending := none }) else s
  | none => s

/-- The transmitter finishes a message: it resets the part, enters the pause, or chooses the next message. -/
def messageSent (s : State) : State :=
  if s.link.sending.isNone then s
  else if s.sendingReset then linkReset s
  else if s.sendingPause then pauseEntry s
  else (s.modLink fun l => { l with sending := none }).kick

/-- A final reply that waited for room enters the reply FIFO: those of commands removed at LOW-HALT first (R14, R17). -/
def placeFinal (s : State) : State :=
  if Config.replyFifo ≤ s.link.fifo.length then s
  else
    match s.link.removed with
    | c :: cs =>
      (s.modLink fun l => { l with removed := cs }).modLink fun l =>
        l.enter s.paused (finalMessage c ⟨.notReady, unrunContent c .notReady s⟩)
    | [] =>
      match s.link.running with
      | none => s
      | some r =>
        match r.final with
        | none => s
        | some f => finish (finalPlaced r.cmd f (s.modLink fun l => l.enter s.paused (finalMessage r.cmd f)))

/-! ## The rows of the table -/

/-- CONTROL_BYTE_RECEIVED (R1). -/
def execControlByteReceived (b : Byte) (s : State) : Host.Outcome State Fault Refusal := .next (controlByte b s)

/-- LINK_ERROR_CRC (R3): the kind and tag bytes are those received. -/
def execLinkErrorCrc (kind : Byte) (tag : Byte) (s : State) : Host.Outcome State Fault Refusal := .next (crcFrame kind tag s)

/-- CONTROL_TIMEOUT (R4). -/
def execControlTimeout (s : State) : Host.Outcome State Fault Refusal := .next (controlTimedOut s)

/-- MESSAGE_SENT (R18). -/
def execMessageSent (s : State) : Host.Outcome State Fault Refusal := .next (messageSent s)

/-- FINAL_REPLY_PLACED (R17). -/
def execFinalReplyPlaced (s : State) : Host.Outcome State Fault Refusal := .next (placeFinal s)

/-- HELD_MESSAGE_ENTRY (R127). -/
def execHeldMessageEntry (s : State) : Host.Outcome State Fault Refusal := .next (finish (heldEnters s))

/-- LINK_RESET (R11). -/
def execLinkReset (s : State) : Host.Outcome State Fault Refusal := .next (linkReset s)

/-- PAUSE_ENTRY (R178). -/
def execPauseEntry (s : State) : Host.Outcome State Fault Refusal := .next (pauseEntry s)

end Sys2Proof.Machine
end

