-- ==== Sys2Proof/Machine/Mount.lean ====
section
/-!
DEFINITION. The reads of the mount (R187 to R190): the die detection, the settings pages, the ring, the recorded ACTIVE
blocks and the free list, and a read that times out.
-/
namespace Sys2Proof.Machine

/-- The page that the mount reads next, if it reads one. -/
def MountPhase.target : MountPhase → Option Addr
  | .detect | .closing | .checkpoint => none
  | .applying _ => none
  | .settings pos _ => some { die := 0, block := 0, page := pos }
  | .ring block pos _ _ => some { die := 0, block := block, page := pos }
  | .scan b page _ => some { die := b.die, block := b.block, page := page }
  | .probe b _ _ _ => some { die := b.die, block := b.block, page := 0 }
  | .taken b page _ _ => some { die := b.die, block := b.block, page := page }

/-- A page read, with its header where that holds. -/
def readPageAt (a : Addr) (r : ReadResult) : Option ReadPage :=
  (readPage r).map fun x => { addr := a, hdr := x.1, data := x.2 }

/-- The highest write sequence read anywhere in the mount (R192). -/
def noteSeq (p : Option ReadPage) (s : State) : State :=
  match p with
  | some p => s.modMount fun m => { m with topSeq := max m.topSeq p.hdr.wseq }
  | none => s

def keepPage (p : ReadPage) (s : State) : State := s.modMount fun m => { m with pages := m.pages ++ [p] }

/-! ## The scan (R190) -/

/-- The scan is over: the write sequence stands above every page read (R192 step 3), and the pages are applied. -/
def endScan (s : State) : State :=
  match s.power.mount with
  | none => s
  | some m =>
    let s := s.modStore fun t => { t with wseq := max m.snapSeq (m.topSeq + 1) }
    mountPump (s.setPhase (.applying (applyOrder m.pages)))

def State.freeOn (s : State) (d : Nat) : List Blk := s.flash.freeList.filter fun b => b.die == d

/-- The free list of the next READY die is followed, oldest block first. -/
def probeDies : List Nat → State → State
  | [], s => endScan s
  | d :: ds, s =>
    if !s.dieReady d then probeDies ds s
    else
      match s.freeOn d with
      | b :: bs => s.setPhase (.probe b bs 0 ds)
      | [] => probeDies ds s

/-- The next block of the die in hand, unless two in a row were passed over. -/
def probeNext (todo : List Blk) (passed : Nat) (dies : List Nat) (s : State) : State :=
  match todo with
  | b :: bs => if passed < 2 ∧ s.dieReady b.die then s.setPhase (.probe b bs passed dies) else probeDies dies s
  | [] => probeDies dies s

/-- The next recorded ACTIVE block on a READY die, in the order of the block table; the free lists of the dies follow, from die 0
up (R190, log entry 112). -/
def scanNext : List Blk → State → State
  | [], s => probeDies (List.range s.flash.dies.length) s
  | b :: bs, s => if s.dieReady b.die then s.setPhase (.scan b 0 bs) else scanNext bs s

/-- A page of a covered block has been read: judged for refresh (R86), and kept for R191, or an unreadable header noted, without
a MEDIA notice (R85, log entry 91). -/
def scanPage (a : Addr) (r : ReadResult) (s : State) : State :=
  let s := judgeRefresh a r s
  match readPageAt a r with
  | some p => keepPage p s
  | none => s.modMount fun m => { m with badPage := true }

/-! ## The ring and the settings pages (R187, R188) -/

/-- No complete checkpoint: the store is BLANK (R188). -/
def mountBlank (m : Mount) (ps : List ReadPage) (s : State) : State :=
  let s := s.modStore fun t => { t with
    ckptSeq := (ps.map fun p => p.hdr.cpSeq).foldl max 0, wseq := m.topSeq + 1 }
  endMount .blank (s.modFlash fun fl => { fl with freeCtr := 0 })

/-- The ring has been read (R188, R189). -/
def ringRead (ps : List ReadPage) (blanks : List (Nat × Nat)) (s : State) : State :=
  match s.power.mount with
  | none => s
  | some m =>
    let (b, pos) := ringFrom ps blanks
    let s := s.modFlash fun fl => { fl with ringBlock := b, ringPos := pos, ringDue := false }
    match newestCheckpoint ps with
    | none => mountBlank m ps s
    | some (q, pages) =>
      let s := restoreCheckpoint q pages s
      scanNext (((s.power.mount.map Mount.takenBlks).getD [])) s

/-- The next anchor position of the ring. -/
def ringNext (block pos : Nat) (ps : List ReadPage) (blanks : List (Nat × Nat)) (done : Bool) (s : State) : State :=
  if !done && decide (pos + 2 ≤ 254) then s.setPhase (.ring block (pos + 2) ps blanks)
  else if block < 4 then s.setPhase (.ring (block + 1) 0 ps blanks)
  else ringRead ps blanks s

/-- The settings step (R187): the settings are applied and the ring is read next. -/
def settingsRead (pos : Nat) (best : Option ReadPage) (s : State) : State :=
  let s := s.modFlash fun fl => { fl with setPos := pos, erase0 := false }
  let s := s.modMount fun m => { m with setFound := best.isSome }
  (loadSettings best s).setPhase (.ring 1 0 [] [])

def newerPage (best : Option ReadPage) (p : ReadPage) : Option ReadPage :=
  match best with
  | none => some p
  | some q => if q.hdr.wseq < p.hdr.wseq then some p else some q

/-- The readable page of a kind, for the settings block and the ring. -/
def pageOfKind (k : PageKind) (p : Option ReadPage) : Option ReadPage := p.filter fun p => p.hdr.kind == k

/-! ## One read of the mount that ends -/

def mountPage (ph : MountPhase) (r : ReadResult) (s : State) : State :=
  match ph with
  | .detect | .closing | .checkpoint => s
  | .applying _ => s
  | .settings pos best =>
    if r = .blank then settingsRead pos best s
    else
      let p := readPageAt { die := 0, block := 0, page := pos } r
      let best := match pageOfKind .settings p with
        | some q => newerPage best q
        | none => best
      let s := noteSeq p s
      if pos + 2 ≤ 254 then s.setPhase (.settings (pos + 2) best) else settingsRead 256 best s
  | .ring block pos ps blanks =>
    if r = .blank then ringNext block pos ps (blanks ++ [(block, pos)]) true s
    else
      let p := readPageAt { die := 0, block := block, page := pos } r
      let ps := ps ++ (pageOfKind .checkpoint p).toList
      ringNext block pos ps blanks false (noteSeq p s)
  | .scan b page todo =>
    let a : Addr := { die := b.die, block := b.block, page := page }
    if r = .blank then scanNext todo s
    else
      let s := scanPage a r (noteSeq (readPageAt a r) s)
      if page < 255 then s.setPhase (.scan b (page + 1) todo) else scanNext todo s
  | .probe b todo passed dies =>
    let a : Addr := { die := b.die, block := b.block, page := 0 }
    let p := readPageAt a r
    let snap := (s.power.mount.map Mount.snapSeq).getD 0
    let s := noteSeq p s
    match p.filter fun p => decide (snap ≤ p.hdr.wseq) with
    | none => probeNext todo (passed + 1) dies s
    | some _ =>
      let s := (takeOut b .active s).modMount fun m => { m with takenBlks := m.takenBlks ++ [b] }
      (scanPage a r s).setPhase (.taken b 1 todo dies)
  | .taken b page todo dies =>
    let a : Addr := { die := b.die, block := b.block, page := page }
    if r = .blank then probeNext todo 0 dies s
    else
      let s := scanPage a r (noteSeq (readPageAt a r) s)
      if page < 255 then s.setPhase (.taken b (page + 1) todo dies) else probeNext todo 0 dies s

/-- The die detection, or a page read, of a mount in progress ends. -/
def mountRead (r : MountAnswer) (s : State) : State :=
  match s.power.mount with
  | none => s
  | some m =>
    match r, m.phase with
    | .detected n, .detect =>
      if n = 0 then endMount .mediaFault s
      else
        let dies := List.replicate (min n 8) { ready := true, op := none, active := none, due := [] : Die }
        (s.modFlash fun fl => { fl with dies := dies }).setPhase (.settings 0 none)
    | .detected _, _ => s
    | .page r, ph => finish (mountPage ph r s)

/-! ## A mount read that times out (R190) -/

/-- The mount goes on without the die in hand: nothing further is read on it. Where the ring was being read, the pages read so
far are all there are (R190, log entry 81). -/
def mountSkip (ph : MountPhase) (s : State) : State :=
  match ph with
  | .detect | .closing | .checkpoint => s
  | .applying _ => s
  | .settings _ best => settingsRead 256 best s
  | .ring _ _ ps blanks => ringRead ps blanks s
  | .scan _ _ todo => scanNext todo s
  | .probe _ _ _ dies => probeDies dies s
  | .taken _ _ _ dies => probeDies dies s

/-- The ring cannot be read where die 0 is FAULTED. -/
def mountDead (s : State) : State :=
  match s.power.mount.map Mount.phase with
  | some (.ring _ _ ps blanks) => if s.dieReady 0 then s else ringRead ps blanks s
  | _ => s

/-- The mount's read of a page on die `d` times out: the die is FAULTED (R83, R190). It is no unreadable page of Table 9-2
(log entry 90). -/
def mountTimeout (d : Nat) (s : State) : State :=
  match s.power.mount with
  | none => s
  | some m =>
    match m.phase.target with
    | none => s
    | some a =>
      if a.die ≠ d then s
      else
        let s := raiseMedia a.blk .timeout (faultDie d s)
        if allFaulted s then finish (enterMediaFault s) else finish (mountDead (mountSkip m.phase s))

/-- An operation of die `d` exceeds its timeout: one in flight, or the mount's read of a page on it (R83, R190). -/
def operationTimeout (d : Nat) (s : State) : State :=
  match (s.die d).bind Die.op with
  | some o => timeoutOp d o s
  | none => mountTimeout d s

/-! ## The rows of the table -/

/-- OPERATION_TIMEOUT (R83). -/
def execOperationTimeout (die : Nat) (s : State) : Host.Outcome State Fault Refusal := .next (operationTimeout die s)

/-- MOUNT_READ_COMPLETE (R190). -/
def execMountReadComplete (a : MountAnswer) (s : State) : Host.Outcome State Fault Refusal := .next (mountRead a s)

end Sys2Proof.Machine
end

