-- ==== Sys2Proof/Machine/Dispatch.lean ====
section
/-!
DEFINITION. One arm per row of the table, each a call of that row's own meaning.
-/
namespace Sys2Proof.Machine

def exec (i : Instr) (s : State) : Host.Outcome State Fault Refusal :=
  match i with
  | .controlByteReceived b => Sys2Proof.Machine.execControlByteReceived b s
  | .linkErrorCrc kind tag => Sys2Proof.Machine.execLinkErrorCrc kind tag s
  | .controlTimeout => Sys2Proof.Machine.execControlTimeout s
  | .identify tag body => Sys2Proof.Machine.execIdentify tag body s
  | .status tag body => Sys2Proof.Machine.execStatus tag body s
  | .gaugeRead tag body => Sys2Proof.Machine.execGaugeRead tag body s
  | .motionRead tag body => Sys2Proof.Machine.execMotionRead tag body s
  | .getSettings tag body => Sys2Proof.Machine.execGetSettings tag body s
  | .putSettings tag body => Sys2Proof.Machine.execPutSettings tag body s
  | .lineList tag body => Sys2Proof.Machine.execLineList tag body s
  | .lineInfo tag body => Sys2Proof.Machine.execLineInfo tag body s
  | .intakeOpen tag => Sys2Proof.Machine.execIntakeOpen tag s
  | .intakeClose tag => Sys2Proof.Machine.execIntakeClose tag s
  | .filterReset tag body => Sys2Proof.Machine.execFilterReset tag body s
  | .ackResume tag body => Sys2Proof.Machine.execAckResume tag body s
  | .gaugeAnchor tag body => Sys2Proof.Machine.execGaugeAnchor tag body s
  | .cancel tag body => Sys2Proof.Machine.execCancel tag body s
  | .reset tag body => Sys2Proof.Machine.execReset tag body s
  | .linkReset => Sys2Proof.Machine.execLinkReset s
  | .readRecords tag body => Sys2Proof.Machine.execReadRecords tag body s
  | .lineClose tag body => Sys2Proof.Machine.execLineClose tag body s
  | .lineLock tag body => Sys2Proof.Machine.execLineLock tag body s
  | .lineUnlock tag body => Sys2Proof.Machine.execLineUnlock tag body s
  | .lineErase tag body => Sys2Proof.Machine.execLineErase tag body s
  | .permitLoad tag body => Sys2Proof.Machine.execPermitLoad tag body s
  | .saveSettings tag body => Sys2Proof.Machine.execSaveSettings tag body s
  | .format tag body => Sys2Proof.Machine.execFormat tag body s
  | .closeout tag body => Sys2Proof.Machine.execCloseout tag body s
  | .pause tag body => Sys2Proof.Machine.execPause tag body s
  | .storeCommandAdvance => Sys2Proof.Machine.execStoreCommandAdvance s
  | .messageSent => Sys2Proof.Machine.execMessageSent s
  | .finalReplyPlaced => Sys2Proof.Machine.execFinalReplyPlaced s
  | .heldMessageEntry => Sys2Proof.Machine.execHeldMessageEntry s
  | .powerOn strap => Sys2Proof.Machine.execPowerOn strap s
  | .resetPin strap => Sys2Proof.Machine.execResetPin strap s
  | .acquisitionByteReceived b => Sys2Proof.Machine.execAcquisitionByteReceived b s
  | .huntMark b => Sys2Proof.Machine.execHuntMark b s
  | .acqCrcFailure => Sys2Proof.Machine.execAcqCrcFailure s
  | .acqTimeout => Sys2Proof.Machine.execAcqTimeout s
  | .malformedFrame kind f => Sys2Proof.Machine.execMalformedFrame kind f s
  | .openLine f => Sys2Proof.Machine.execOpenLine f s
  | .trace f => Sys2Proof.Machine.execTrace f s
  | .mark f => Sys2Proof.Machine.execMark f s
  | .statusFrame f => Sys2Proof.Machine.execStatusFrame f s
  | .closeLine f => Sys2Proof.Machine.execCloseLine f s
  | .linkIntervalEnd => Sys2Proof.Machine.execLinkIntervalEnd s
  | .motionSample r => Sys2Proof.Machine.execMotionSample r s
  | .fallStart r => Sys2Proof.Machine.execFallStart r s
  | .fallEnd r => Sys2Proof.Machine.execFallEnd r s
  | .impactEnd r => Sys2Proof.Machine.execImpactEnd r s
  | .settle r => Sys2Proof.Machine.execSettle r s
  | .roughSettle r => Sys2Proof.Machine.execRoughSettle r s
  | .sensorFault r => Sys2Proof.Machine.execSensorFault r s
  | .sensorRecovery r => Sys2Proof.Machine.execSensorRecovery r s
  | .handlingDecay => Sys2Proof.Machine.execHandlingDecay s
  | .gaugeSample r => Sys2Proof.Machine.execGaugeSample r s
  | .reserveRaise r => Sys2Proof.Machine.execReserveRaise r s
  | .reserveClear r => Sys2Proof.Machine.execReserveClear r s
  | .collapse r => Sys2Proof.Machine.execCollapse r s
  | .collapseRecovery r => Sys2Proof.Machine.execCollapseRecovery r s
  | .emptyAnchor r => Sys2Proof.Machine.execEmptyAnchor r s
  | .dieDispatch die => Sys2Proof.Machine.execDieDispatch die s
  | .programComplete die pass => Sys2Proof.Machine.execProgramComplete die pass s
  | .readbackComplete die r => Sys2Proof.Machine.execReadbackComplete die r s
  | .retrievalReadComplete die r => Sys2Proof.Machine.execRetrievalReadComplete die r s
  | .relocationReadComplete die r => Sys2Proof.Machine.execRelocationReadComplete die r s
  | .relocationRetry => Sys2Proof.Machine.execRelocationRetry s
  | .indexReadComplete die r => Sys2Proof.Machine.execIndexReadComplete die r s
  | .reopenPoolLoad line => Sys2Proof.Machine.execReopenPoolLoad line s
  | .eraseComplete die pass => Sys2Proof.Machine.execEraseComplete die pass s
  | .operationTimeout die => Sys2Proof.Machine.execOperationTimeout die s
  | .programCountCheckpoint => Sys2Proof.Machine.execProgramCountCheckpoint s
  | .checkpointSnapshot => Sys2Proof.Machine.execCheckpointSnapshot s
  | .formatEvent => Sys2Proof.Machine.execFormatEvent s
  | .pauseQuiet => Sys2Proof.Machine.execPauseQuiet s
  | .pauseEntry => Sys2Proof.Machine.execPauseEntry s
  | .closeoutRelease => Sys2Proof.Machine.execCloseoutRelease s
  | .lowHaltEntry => Sys2Proof.Machine.execLowHaltEntry s
  | .mountReadComplete a => Sys2Proof.Machine.execMountReadComplete a s

end Sys2Proof.Machine
end

