-- ==== Sys2Proof/Machine/Tick.lean ====
section
/-!
DEFINITION. One 10 ms tick of the run clock (R175): the link interval and the decay timer count it (R48, R151).
-/
namespace Sys2Proof.Machine

/-- The length of the present link interval (R48). -/
def State.intervalLength (s : State) : Nat := s.intake.intervalLen.getD s.intervalMs

/-- The interval timer counts 10 ms while it runs, and ends the interval when it reaches its length (R48, R49). -/
def tickInterval (s : State) : State :=
  if !s.timerRuns then s
  else
    let s := s.modIntake fun i => { i with elapsed := i.elapsed + 10 }
    if s.intervalLength ≤ s.intake.elapsed then intervalEnd s else s

/-- The decay timer counts one tick in RUN and LIGHT PAUSE, and decays the score at 6,000 (R151). -/
def tickDecay (s : State) : State :=
  if !s.decayRuns then s
  else if 6000 ≤ s.motion.decay + 1 then decayScore s
  else s.modMotion fun m => { m with decay := m.decay + 1 }

/-- One tick: the run clock grows by 1 in every power state. -/
def tick (s : State) : State :=
  tickInterval (tickDecay (s.modPower fun p => { p with clock := (p.clock + 1) % Config.clockModulus }))

end Sys2Proof.Machine
end

