-- ==== Sys2Proof/Machine/Step.lean ====
section
/-!
DEFINITION. One step of the block: the command at the front of the queue, or one 10 ms tick of the run clock.
-/
namespace Sys2Proof.Machine

/-- The command at the front of the queue is taken with the queue's rest; on an empty queue one tick passes (log entry 1). -/
def step (s : State) : Host.Outcome State Fault Refusal :=
  match s.pending with
  | [] => .next (tick s)
  | c :: cs => exec c { s with pending := cs }

/-- The command that a word spells is put at the front of the queue; no word spells one. -/
def State.withFetchWord (s : State) (nbits w : Nat) : State :=
  match decodeTableWord nbits w with
  | some c => { s with pending := c :: s.pending }
  | none => s

end Sys2Proof.Machine
end

