-- ==== Sys2Proof/Safety.lean ====
section
/-!
DEFINITION. What the statements about this machine speak of: the part of the state that the store's own work leaves alone,
the conditions under which a command is heard and under which no follow-up work stands, and the invariant of every step.
-/
namespace Sys2Proof.Machine

/-! ## What the store's own work leaves alone -/

/-- A die without what the block table and the settings store move on it. -/
def Die.kept (d : Die) : Die := { d with active := none, due := [] }

/-- The state without what follow-up work of the store moves: replies and notices, slots and the wait line, staging, the
flash controller's lists, the line store, the retrieval unit, and how far the power manager's own sequences have come. -/
def State.kept (s : State) : State :=
  { s with
    link := { s.link with running := none, waiting := [], removed := [], fifo := [], sending := none, notices := [] },
    intake := { s.intake with slots := [], wait := true },
    staging := .reset,
    flash := { Flash.reset with dies := s.flash.dies.map Die.kept },
    store := .reset,
    retr := .reset,
    power := { s.power with st := .run, pauseMark := none, pause := .none, fmt := .none, mount := none, pauseSeen := none } }

/-! ## Frames and messages -/

/-- The frame that a command row stands for: its kind, its tag and its body. -/
def rowFrame : Instr → Option (CmdKind × Byte × List Byte)
  | .identify t b => some (.identify, t, b)
  | .status t b => some (.status, t, b)
  | .gaugeRead t b => some (.gaugeRead, t, b)
  | .motionRead t b => some (.motionRead, t, b)
  | .getSettings t b => some (.getSettings, t, b)
  | .putSettings t b => some (.putSettings, t, b)
  | .lineList t b => some (.lineList, t, b)
  | .lineInfo t b => some (.lineInfo, t, b)
  | .intakeOpen t => some (.intake, t, [1])
  | .intakeClose t => some (.intake, t, [2])
  | .filterReset t b => some (.filterReset, t, b)
  | .ackResume t b => some (.ackResume, t, b)
  | .gaugeAnchor t b => some (.gaugeAnchor, t, b)
  | .cancel t b => some (.cancel, t, b)
  | .reset t b => some (.reset, t, b)
  | .readRecords t b => some (.readRecords, t, b)
  | .lineClose t b => some (.lineClose, t, b)
  | .lineLock t b => some (.lineLock, t, b)
  | .lineUnlock t b => some (.lineUnlock, t, b)
  | .lineErase t b => some (.lineErase, t, b)
  | .permitLoad t b => some (.permitLoad, t, b)
  | .saveSettings t b => some (.saveSettings, t, b)
  | .format t b => some (.format, t, b)
  | .closeout t b => some (.closeout, t, b)
  | .pause t b => some (.pause, t, b)
  | _ => none

/-- The part as it judges a frame it has taken: awake (R4, R179), with the parser in IDLE (R3). -/
def State.heard (s : State) : State := (controlWake s).setCtl .reset

/-- From `u` to `t` an immediate-class message enters the reply FIFO at its tail, and the transmitter chooses where it is
free; with 16 messages waiting it is dropped and counted. Nothing else changes (R17, R18). -/
def EntersFifo (m : Message) (u t : State) : Prop :=
  t = { u with link := t.link } ∧
    (u.link.fifo.length < 16 → t.link = LinkUnit.choose u.paused { u.link with fifo := u.link.fifo ++ [m] }) ∧
    (16 ≤ u.link.fifo.length → t.link = { u.link with dropped := min (u.link.dropped + 1) 65535 })

/-- The immediate reply to a command, with its code and contents. -/
def immediateReply (kind tag : Byte) (c : Code) (content : List Byte) : Message :=
  { cls := .immediate, kind := kind, tag := tag, body := replyBody c content }

/-- From `u` to `t` the running command's final reply enters the reply FIFO, and the running position is empty. -/
def Finished (k : CmdKind) (tag : Byte) (c : Code) (content : List Byte) (u t : LinkUnit) : Prop :=
  t = LinkUnit.choose false { u with
    running := none, fifo := u.fifo ++ [{ cls := .final, kind := k.code, tag := tag, body := replyBody c content }] }

/-- A taken frame of a store command runs at once: the receiver takes it, every check of R7 passes, the queue is empty,
no pause-entry mark stands, and the reply FIFO has room for a final reply (R12, R13, R17, R178). -/
def Runs (k : CmdKind) (tag : Byte) (body : List Byte) (s : State) : Prop :=
  s.link.discard = false ∧ k.isStore = true ∧ checkCommand k tag body s.heard = none ∧ s.link.running = none ∧
    s.link.waiting = [] ∧ s.heard.power.pauseMark = none ∧ s.heard.link.fifo.length < 32

/-- No relocation walk is due to start or to end: one is in progress whose page is being read or judged, or waits for a buffer
while its block has been the head of the refresh queue all along; or none is, and no block waits for one (R113). -/
def WalkStill (s : State) : Prop :=
  match s.store.walk with
  | some w => w.phase ≠ .retry ∨ (w.stopped = false ∧ s.flash.refresh.head? = some w.blk)
  | none => s.flash.refresh = []

/-- No follow-up work stands: no relocation walk is due to start or to end, no read waits on a die that is not READY, no
mount and no PAUSE is in progress, and no emergency closeout runs. -/
def Still (s : State) : Prop :=
  WalkStill s ∧
    (∀ q, s.retr.ctx.bind RetrCtx.read = some q → s.dieReady q.addr.die = true) ∧
    (∀ q ∈ s.flash.reads, s.dieReady q.addr.die = true) ∧
    s.power.mount = none ∧ s.isRunning .pause = false ∧ s.emergency = false

/-! ## Resets -/

/-- What a reset of another cause than POWER-ON leaves (R23, R52, R68, R93, R120, R133, R155, R174, R175, R176, R194). -/
def WarmAfter (cause : ResetCause) (strap : Bool) (s t : State) : Prop :=
  t.pending = s.pending ∧ t.link = { LinkUnit.reset false with strap := strap, rate3M := strap } ∧ t.intake = .reset ∧
    t.staging = .reset ∧ t.flash = .reset ∧ t.store = .reset ∧ t.retr = .reset ∧ t.motion = .reset ∧
    t.settings = s.settings ∧
    t.gauge = { s.gauge with run := none, recRun := if s.gauge.collapse then s.gauge.recRun else 0 } ∧
    t.power.clock = s.power.clock ∧ t.power.resetCause = cause ∧ t.power.wake = .none ∧ t.power.resume = false ∧
    t.power.closeout = none ∧ t.power.lastCause = none ∧ t.power.pauseMark = none ∧ t.power.pause = .none ∧
    t.power.fmt = .none ∧ t.power.store = .mounting ∧
    (s.gauge.collapse = true → t.power.st = .lowHalt ∧ t.power.mount = none) ∧
    (s.gauge.collapse = false → t.power.st = .run ∧ t.power.mount = some .reset)

/-! ## The invariant of every step -/

/-- The working copy is whole: 42 items, each in its range, and every group meets its constraint (R194, R195). -/
def SettingsOk (items : List Nat) : Prop :=
  items.length = 42 ∧ (∀ i, clampItem i (items.getD i 0) = items.getD i 0) ∧
    constraintOk 15 items = true ∧ constraintOk 18 items = true ∧ constraintOk 30 items = true

/-- The gauge stays within its full capacity, and that within the design capacity (R158, R160, R168, R171). -/
def Gauge.ok (design : Nat) (g : Gauge) : Prop :=
  g.rc ≤ g.fcc ∧ design / 2 ≤ g.fcc ∧ g.fcc ≤ design ∧ g.soc ≤ 100

/-- The values that stay in their bounds: whole settings, the gauge's bounds, a score of at most 1,023 (R150), an impact log of
at most 32 records (R149), a link quality of at most 255 (R49), and a run clock of 32 bits (R175). -/
def Bounds (s : State) : Prop :=
  SettingsOk s.settings.items ∧ s.gauge.ok s.design ∧ s.motion.score ≤ 1023 ∧ s.motion.log.length ≤ Config.impactLog ∧
    s.intake.lq ≤ 255 ∧ s.power.clock < Config.clockModulus

/-- At most 32 messages wait in the reply FIFO, and at most 4 store commands behind the running one (R12, R17). -/
def LinkUnit.ok (l : LinkUnit) : Prop := l.fifo.length ≤ Config.replyFifo ∧ l.waiting.length ≤ 4

/-- There are 24 buffers, and the program queue holds those that are QUEUED, each once (R53, R57). -/
def Staging.ok (t : Staging) : Prop :=
  t.bufs.length = Config.stagingBuffers ∧ t.queue.Nodup ∧
    ∀ b, b ∈ t.queue ↔ (t.bufs.getD b none).map Buf.st = some .queued

/-- The state that the block table records of a block. -/
def Flash.stateOf (f : Flash) (b : Blk) : Option BlockState := (f.blocks.find? fun r => r.id == b).map BlockRec.st

/-- The block table has one record of a block, the free list holds the FREE blocks, each once, and the pending order holds
blocks that are RECLAIM-PENDING, each once (section 4.2, R73, R89). -/
def Flash.ok (f : Flash) : Prop :=
  (f.blocks.map BlockRec.id).Nodup ∧ f.freeList.Nodup ∧ (∀ b, b ∈ f.freeList ↔ f.stateOf b = some .free) ∧
    f.pendingRec.Nodup ∧ ∀ b ∈ f.pendingRec, f.stateOf b = some .reclaimPending

/-- The line table holds at most 2,048 entries, and one for each line number (R94). -/
def LineStore.ok (t : LineStore) : Prop :=
  t.lines.length ≤ Config.lineTableEntries ∧ (t.lines.map Line.num).Nodup

/-- The queues, lists and tables are well formed. -/
def Sound (s : State) : Prop := s.link.ok ∧ s.staging.ok ∧ s.flash.ok ∧ s.store.ok

/-- What every step keeps. -/
def Inv (s : State) : Prop := Bounds s ∧ Sound s

/-! ## Pages at their written point -/

/-- A page of line `n` is handed and nothing else follows: no follow-up work stands, no image request waits, more than 510 pool
entries are free (R103), and the line neither goes on with a close nor begins a load (R107, R109). -/
def HandStill (n : Nat) (s : State) : Prop :=
  Still s ∧ s.staging.requests = [] ∧ s.store.ok ∧ 510 < s.poolFree ∧
    ∀ l, s.line n = some l → l.load ≠ .waitRewrites ∧ (l.st = .closing → l.flush.isSome = true ∨ l.rootOut = true)

/-- From `s` to `t` the DATA page of header `h` at `a` becomes a new loose entry of its line `l`, in order of first arrival
index, and its reference is counted in its block (R71, R96). -/
def Entered (h : PageHdr) (a : Addr) (l : Line) (s t : State) : Prop :=
  (∃ xs ys, l.pool = xs ++ ys ∧ (∀ p ∈ xs, p.e.first ≤ h.first) ∧ (∀ p, ys.head? = some p → h.first < p.e.first) ∧
    t.line h.line = some { l with
      pool := xs ++ { e := { loc := some a, wseq := h.wseq, first := h.first, count := h.count, smin := h.smin, smax := h.smax,
                             handled := h.handled, degraded := h.degraded, verified := h.verified,
                             relocated := h.relocated },
                      inSeg := false, out := false } :: ys,
      records := l.records + h.count, pages := l.pages + 1,
      range := some (match l.range with
        | none => (h.smin, h.smax)
        | some r => (min r.1 h.smin, max r.2 h.smax)) }) ∧
    (∀ m, m ≠ h.line → t.line m = s.line m) ∧
    ∀ c, (t.block c).map BlockRec.live = (s.block c).map fun r => if c = a.blk then min (r.live + 1) 256 else r.live

/-- From `s` to `t` the DATA page of header `h` at `a` replaces the pool entry `y` of its line `l`: the new copy is counted in its
block and the old copy, at `old`, is dropped from its own (R98, R102, R103). -/
def Replaced (h : PageHdr) (a old : Addr) (y : PoolEnt) (l : Line) (s t : State) : Prop :=
  t.line h.line = some { l with
    pool := l.pool.map fun p => if p.e.first = h.first then
        { p with e := { p.e with loc := some a, wseq := h.wseq, verified := h.verified, relocated := h.relocated },
                 moved := true, again := p.out }
      else p,
    flush := if y.out then l.flush.map fun f => { f with stale := true } else l.flush,
    rewrite := l.rewrite || (y.inSeg && !y.out) } ∧
    (∀ m, m ≠ h.line → t.line m = s.line m) ∧
    ∀ c, (t.block c).map BlockRec.live = (s.block c).map fun r =>
      r.live + (if c = a.blk then 1 else 0) - (if c = old.blk then 1 else 0)

/-- From `s` to `t` the buffer `b` of the page at `a` leaves its written point: a lower page whose upper has not been started in its
die's active block is RETAINED; any other is FREE, an upper page's RETAINED lower page with it (R61, R62). -/
def Released (b : Nat) (x : Buf) (a : Addr) (s t : State) : Prop :=
  let held := ∃ y, (s.die a.die).bind Die.active = some y ∧ y.block = a.block ∧ y.next = a.page + 1
  (a.page % 2 = 0 → held →
    t.buf b = some { x with st := .retained, exposed := false, reported := true, handed := true }) ∧
  (a.page % 2 = 0 → ¬held → t.buf b = none) ∧
  (a.page % 2 = 1 → t.buf b = none ∧ ∀ l, s.bufAt .retained { a with page := a.page - 1 } = some l → t.buf l = none) ∧
  b ∉ t.staging.queue ∧ b ∉ t.staging.verifying

/-! ## Index and checkpoint pages handed -/

/-- From `s` to `t` one reference is counted, at `up`, and those at `downs` are dropped, each in its block (R71, R100). -/
def Counted (up : Addr) (downs : List Addr) (s t : State) : Prop :=
  ∀ c, (t.block c).map BlockRec.live = (s.block c).map fun r =>
    r.live + (if c = up.blk then 1 else 0) - downs.countP fun a => decide (a.blk = c)

/-- As those references are counted no live count meets a bound, so that no block is reclaimed (R71, R89). -/
def CountsRoom (up : Addr) (downs : List Addr) (s : State) : Prop :=
  (∀ r, s.block up.blk = some r → r.live < 256) ∧
    ∀ a ∈ downs, ∀ r, s.block a.blk = some r → r.st ≠ .anchor ∧ downs.length < r.live

/-- From `s` to `t` the entry of line `n` becomes `l`, and no other line changes. -/
def LineBecomes (n : Nat) (l : Line) (s t : State) : Prop :=
  t.line n = some l ∧ ∀ m, m ≠ n → t.line m = s.line m

/-- From `s` to `t` the ways that hold segment `k` of line `n` are emptied (R103, R105, R133). -/
def CacheDropped (n k : Nat) (s t : State) : Prop :=
  t.retr.cache = s.retr.cache.map fun c => { c with
    ways := c.ways.map fun w => w.filter fun x => !(x.line == n && x.seg == k) }

/-- The line once the SEGMENT image of a flush, number `k` with the reference `r` and `m` entries, is handed (R103). -/
def Line.withFlushed (k m : Nat) (r : SegRef) (stale : Bool) (l : Line) : Line :=
  { l with
    refs := if k < l.refs.length then l.refs.set k r else l.refs ++ [r],
    pool := if m = 510 ∧ stale = false then l.pool.filter fun p => !p.out
      else l.pool.map fun p => if p.out then { p with inSeg := true, out := false, moved := p.again, again := false } else p,
    rewrite := l.rewrite || stale, flush := none }

/-- What the first handing of the index page in buffer `x` at `a` does, `written P` saying of the event that it leaves a next
state with `P`. A flush of an OPEN line: its segment takes its place in the root store (R103). A segment rewrite: of an OPEN line
its reference is replaced and the old copies are dropped at once, of a CLOSED or LOCKED line a root rewrite follows (R105). The ROOT
of a close: the line is CLOSED, and its references and its pool entries are gone (R107), and a flush image of it that is built is
from then on that of a segment rewrite (log entry 32, DEDUCED). A root rewrite: the root location takes
it, and what it carried is dropped (R105). -/
def IndexWritten (written : (State → Prop) → Prop) (x : Buf) (a : Addr) (s : State) : Prop :=
  let n := x.hdr.line
  let copy := fun r : SegRef => { r with loc := some a, wseq := x.hdr.wseq }
  let root : Loc := { addr := a, wseq := x.hdr.wseq }
  ∀ l, s.line n = some l → l.load = .none → (∀ p ∈ s.store.pendings, p.line ≠ n) →
    (x.hdr.kind = .segment →
      (∀ k f es, x.job = .flush n k → x.body = .entries es → l.st = .opened → l.flush = some f →
        (∀ todo wait, s.store.ckpt ≠ some (.flushing todo wait)) →
        let downs := ((l.refs[k]?).bind SegRef.loc).toList
        CountsRoom a downs s → written fun t =>
          LineBecomes n (l.withFlushed k x.hdr.count { loc := some a, wseq := x.hdr.wseq, first := x.hdr.first,
                                                       last := (es.getLast?.map PageEntry.last).getD 0 } f.stale) s t ∧
          Counted a downs s t ∧ CacheDropped n k s t ∧ t.store = { s.store with lines := t.store.lines }) ∧
      (∀ k old w, x.job = .segRewrite n k old → s.builtRewrite n k old = some w →
        (l.st = .opened →
          let downs := ((l.refs[k]?).bind SegRef.loc).toList ++ w.drops
          CountsRoom a downs s → written fun t =>
            LineBecomes n { l with refs := l.refs.modify k copy } s t ∧ Counted a downs s t ∧ CacheDropped n k s t ∧
            t.store = { s.store with lines := t.store.lines, segRw := s.store.segRw.erase w }) ∧
        (∀ c, l.st = .closed ∨ l.st = .locked → l.root = some c → s.dieReady c.addr.die = true → w.pool = false →
          (∀ v ∈ s.store.rootRw, v.line ≠ n) → CountsRoom a [] s → written fun t =>
            Counted a [] s t ∧ CacheDropped n k s t ∧
            t.flash.reads = s.flash.reads ++ [{ addr := c.addr, purpose := .rewriteRoot n }] ∧
            t.store = { s.store with
              segRw := s.store.segRw.erase w,
              segDone := s.store.segDone ++ [{ line := n, seg := k, loc := some a, wseq := x.hdr.wseq, check := none,
                                               old := none, news := w.news, drops := w.drops, settled := false,
                                               gone := false, applied := w.applied }],
              rootRw := s.store.rootRw ++ [{ line := n, old := c.wseq, phase := .reading, carried := [] }] }))) ∧
    (x.hdr.kind = .root → (∀ d ∈ s.store.segDone, d.line ≠ n) →
      (x.job = .closeRoot n → x.body = .refs l.refs → l.st = .closing → l.rootOut = true → l.rewrite = false →
        let downs := (l.root.map Loc.addr).toList
        let closed := { l with
          st := .closed, root := some root, segs := l.refs.length, refs := [], pool := [], flush := none, rootOut := false,
          late := [] }
        CountsRoom a downs s →
          ((∀ f, l.flush = some f → f.built = false) → written fun t =>
            LineBecomes n closed s t ∧ Counted a downs s t ∧ t.store = { s.store with lines := t.store.lines }) ∧
          (∀ f r, l.flush = some f → f.built = true → l.refs.getLast? = some r → l.hasOpenSeg = true →
            (∀ w ∈ s.store.segRw, w.line ≠ n) → written fun t =>
              LineBecomes n closed s t ∧ Counted a downs s t ∧ ∃ w : SegRewrite, w.line = n ∧ w.seg + 1 = l.refs.length ∧
                w.ref = r ∧ w.phase = .built ∧ w.pool = true ∧ w.flush = some f ∧
                w.again = (if f.stale then (l.pool.filter PoolEnt.inSeg).map PoolEnt.e else []) ∧
                t.store = { s.store with lines := t.store.lines, segRw := s.store.segRw ++ [w] })) ∧
      (∀ old w c, x.job = .rootRewrite n old → l.st = .closed ∨ l.st = .locked → l.root = some c →
        s.store.rootRw.find? (fun w => w.line == n && w.phase == .built && w.old == old) = some w →
        let downs := c.addr :: (w.carried.map fun d => d.old.toList ++ d.drops).flatten
        CountsRoom a downs s → written fun t =>
          LineBecomes n { l with root := some root } s t ∧ Counted a downs s t ∧
          t.store = { s.store with lines := t.store.lines, rootRw := s.store.rootRw.erase w }))

/-- What the handing of the last page of checkpoint `snap` at `a` does, `ends P` saying of the event that it leaves a next state
with `P` (R118): the checkpoint is complete, its ring blocks are those of the newest one, and a pending one starts. An orderly
closeout that waits for it ends CLOSED-OUT with CLOSEOUT (R182), and a command that waits for it ends with OK: LINE-LOCK,
LINE-UNLOCK, LINE-ERASE with its count, and FORMAT, which leaves the store READY (R110 to R112). A PAUSE goes on (R177). -/
def CheckpointEnds (ends : (State → Prop) → Prop) (snap : Snapshot) (a : Addr) (s : State) : Prop :=
  let served := fun w : Waiter × Nat => decide (w.2 ≤ snap.seq)
  let met := s.store.waiters.filter served
  let store : LineStore := { s.store with
    ckpt := none, waiters := s.store.waiters.filter fun w => !served w,
    ckptBlocks := if snap.used.contains a.block then snap.used else snap.used ++ [a.block] }
  (met = [] → s.isRunning .pause = false →
    (s.store.ckptPend = false → ends fun t => t.store = store ∧ t.link = s.link ∧ t.power = s.power) ∧
    (s.store.ckptPend = true → (∀ l ∈ s.store.lines, l.indexing = false) → ends fun t =>
      t.store = { store with ckpt := some (.flushing [] []), ckptPend := false } ∧ t.link = s.link ∧ t.power = s.power)) ∧
  (∀ q c, met = [(.closeout, q)] → s.store.ckptPend = false → s.link.running = none →
    s.power.closeout = some { kind := .orderly true false, cause := c } → ends fun t =>
      t.store = store ∧ t.power = { s.power with store := .closedOut, closeout := none, lastCause := some c } ∧
      t.link = (raiseNotice .closeout (le1 c.code ++ le1 StoreState.closedOut.code) s).link) ∧
  (∀ q r, met = [(.command, q)] → s.store.ckptPend = false → s.link.running = some r → r.final = none →
    s.link.fifo.length < 32 → s.paused = false →
    let finished := fun (content : List Byte) (p : Power) (u : LineStore) => ends fun t =>
      Finished r.cmd.kind r.cmd.tag .ok content s.link t.link ∧ t.store = u ∧ t.power = { p with pause := .none, fmt := .none }
    (r.cmd.kind = .lineLock ∨ r.cmd.kind = .lineUnlock → finished [] s.power store) ∧
    (∀ j, r.cmd.kind = .lineErase → s.store.erase = some j → finished (le2 j.count) s.power { store with erase := none }) ∧
    (r.cmd.kind = .format → s.power.closeout = none →
      finished [] { s.power with store := .ready, lastCause := none } store) ∧
    (r.cmd.kind = .pause → s.staging.queue = [] → ends fun t =>
      t.store = store ∧ t.link = s.link ∧
      t.power = { s.power with pause := .checkpointed, pauseSeen := some s.pauseView }))

end Sys2Proof.Machine
end

