-- ==== Sys2Proof/Certificates/Slice0/Obligations.lean ====
section
/-!
DEFINITION. The statements for the provers.
-/
open Sys2Proof Sys2Proof.Machine

/-! ## The queue, the tick and every command -/

/-- A step with a command at the front of the queue is that command's meaning on the state with the queue's rest. -/
def Obligations.StepRunsTheFrontCommand : Prop :=
  ∀ (c : Instr) (cs : List Instr) (s : State), s.pending = c :: cs → step s = exec c { s with pending := cs }

/-- With an empty queue a step is one 10 ms tick (log entry 1): the run clock grows by 1 and passes from 4,294,967,295 to 0;
with the decay timer and the interval timer held, nothing else changes. -/
def Obligations.EmptyQueueStepIsOneTick : Prop :=
  ∀ s : State, s.pending = [] → s.decayRuns = false → s.timerRuns = false → s.power.clock < 4294967296 →
    step s = .next { s with power := { s.power with clock := if s.power.clock = 4294967295 then 0 else s.power.clock + 1 } }

/-- Every command answers a next state in every state: that no command ever stops the part is
log entry 58 (DEDUCED: the manual stops it nowhere). It leaves the queue of commands as it was (log entry 57, DESIGN CHOICE). -/
def Obligations.EveryCommandAnswersNextAndLeavesTheQueue : Prop :=
  ∀ (c : Instr) (s : State), ∃ t, exec c s = .next t ∧ t.pending = s.pending

/-- No word spells a command: the table gives the rows no bits. -/
def Obligations.NoWordSpellsACommand : Prop :=
  ∀ nbits w : Nat, decodeTableWord nbits w = none

/-- The invariant holds right after reset. -/
def Obligations.InvariantHoldsAtReset : Prop := Inv State.reset

/-- Every step keeps the invariant. Bounds: whole settings (R194, R195), the gauge's bounds (R158), a score of at most 1,023 (R150),
an impact log of at most 32 records (R149), a link quality of at most 255 (R49), a run clock of 32 bits (R175). Queues, lists and
tables: at most 32 messages in the reply FIFO (R17) and 4 waiting store commands (R12); 24 buffers (R53), of which those QUEUED
stand in the program queue, each once (R57); one record of a block in the block table, the free list the FREE blocks, each once
(R73), the pending order RECLAIM-PENDING blocks, each once (R89); at most 2,048 lines, one for each number (R94). -/
def Obligations.EveryStepKeepsTheInvariant : Prop :=
  ∀ s t : State, Inv s → step s = .next t → Inv t

/-! ## Resets -/

/-- POWER_ON leaves the queue of commands (log entry 57, DESIGN CHOICE), with the model's count of strap levels (log entry 63,
DESIGN CHOICE), and nothing else: the part is in RUN, the store MOUNTING at the mount's first step, the reset cause POWER-ON, the
wake cause NONE, no resume pending, the run clock 0; the working copy is at the defaults; every other block is as its chapter
gives for this reset, and the rate strap is sampled. What no rule gives of a block is the model's: the values of log entry 8, and
the write sequence 1 and the checkpoint sequence 0 of log entry 96 (both DESIGN CHOICE). -/
def Obligations.PowerOnResetsEveryBlock : Prop :=
  ∀ (strap : Bool) (s : State), ∃ t, exec (.powerOn strap) s = .next t ∧ t.pending = s.pending ∧ t.straps = s.straps ∧
    t.link = { LinkUnit.reset false with strap := strap, rate3M := strap } ∧ t.intake = .reset ∧ t.staging = .reset ∧
    t.flash = .reset ∧ t.store = .reset ∧ t.retr = .reset ∧ t.motion = .reset ∧ t.gauge = .reset ∧
    t.settings = .reset ∧
    t.power = { st := .run, store := .mounting, closeout := none, lastCause := none, resetCause := .powerOn, wake := .none,
                resume := false, pauseMark := none, clock := 0, pause := .none, fmt := .none, mount := some .reset }

/-- RESET_PIN, and LINK_RESET once the last byte of the RESET reply is sent, keep the settings, the run clock and the gauge but
for its open discharge run; every other block is reset. What no rule gives is the model's, each a DESIGN CHOICE: of the blocks the
values of log entry 8, the write sequence 1 and the checkpoint sequence 0 (log entry 96), the saved-page location kept with the
settings (log entry 103), and the queue of commands kept (log entry 57). With the collapse mark set the part comes up in LOW-HALT
and no mount begins; otherwise the recovery run is 0. Of a sample in flight nothing is left to miss (log entry 26, DESIGN
CHOICE), and the level that a LINK_RESET samples of the rate strap is a free value, one for each such reset (log entry 63, DESIGN
CHOICE). LINK_RESET while no OK reply of a RESET is being sent is not the row's event and changes nothing (log entries 54
and 2). -/
def Obligations.OtherResetsKeepTheGaugeTheSettingsAndTheClock : Prop :=
  ∀ (strap : Bool) (s : State),
    (∃ t, exec (.resetPin strap) s = .next t ∧ WarmAfter .resetPin strap s t ∧ t.straps = s.straps) ∧
    ((∃ m, s.link.sending = some m ∧ m.cls = .immediate ∧ m.kind = CmdKind.reset.code ∧ byteAt m.body 0 = 0) →
      ∃ t, exec .linkReset s = .next t ∧ WarmAfter .linkReset (Config.strapLevel s.straps) s t ∧
        t.straps = s.straps + 1) ∧
    ((∀ m, s.link.sending = some m → ¬(m.cls = .immediate ∧ m.kind = CmdKind.reset.code ∧ byteAt m.body 0 = 0)) →
      exec .linkReset s = .next s)

/-! ## The control link's receiver -/

/-- Bytes of the two links. Control link: a byte in a pause state wakes the part first, and once a RESET has been answered every
byte is discarded, waking the part all the same (log entry 47). In IDLE 1Bh with the half-sync mark set completes the pair, and
any other byte sets the mark where it is E5h and clears it otherwise. BODY takes as many bytes as the length gives; in CHECK
the first byte is kept, and with the second the frame is taken as the row of its kind takes it where the CRC holds, and is a
CRC error otherwise. Acquisition link: the header's last byte drops an overlong frame, counted, the interval errored while its
timer runs, and else begins the payload or the CRC; PAYLOAD takes as many bytes as the header gives; with the fourth CRC byte
the frame is taken as the row of its kind takes it where the CRC holds, and is a CRC failure otherwise. -/
def Obligations.BytesOfBothLinksAreTaken : Prop :=
  ∀ (b : Byte) (s : State),
    let p := s.link.parser
    let control := exec (.controlByteReceived b) s
    let goes := fun p : CtlParser => control = .next ((controlWake s).setCtl p)
    let c := crc16Byte p.crc b
    let q := s.intake.parser
    let acquisition := exec (.acquisitionByteReceived b) s
    let steps := fun q : AcqParser => acquisition = .next { s with intake := { s.intake with parser := q } }
    let d := crc32Byte q.crc b
    (s.link.discard = true → control = .next (controlWake s)) ∧
    (s.link.discard = false →
      (p.st = .idle → goes (if p.half = true ∧ b = 0x1B then { CtlParser.reset with st := .header, crc := 0xFFFF }
        else { CtlParser.reset with half := b == 0xE5 })) ∧
      (p.st = .body → p.count + 1 < p.len → goes { p with count := p.count + 1, body := p.body ++ [b], crc := c }) ∧
      (p.st = .body → p.len ≤ p.count + 1 → goes { p with st := .check, count := 0, body := p.body ++ [b], crc := c }) ∧
      (p.st = .check → p.count = 0 → goes { p with count := 1, crcLo := b }) ∧
      (p.st = .check → p.count ≠ 0 → p.crcLo.toNat + 256 * b.toNat ≠ p.crc.toNat →
        control = exec (.linkErrorCrc p.kind p.tag) s) ∧
      (p.st = .check → p.count ≠ 0 → p.crcLo.toNat + 256 * b.toNat = p.crc.toNat →
        (∀ c k, rowFrame c = some (k, p.tag, p.body) → CmdKind.ofCode p.kind = some k → control = exec c s) ∧
        (CmdKind.ofCode p.kind = none → ∃ t, control = .next t ∧
          EntersFifo (immediateReply p.kind p.tag (if p.tag = 0 then .badTag else .unknownKind) []) s.heard t))) ∧
    (q.st = .header →
      let hdr := q.hdr ++ [b]
      let len := field 2 hdr 16
      (hdr.length < 18 → steps { q with hdr := hdr, crc := d }) ∧
      (18 ≤ hdr.length → s.maxPayload < len → acquisition = .next { s with intake := { s.intake with
        parser := .reset, errored := s.intake.errored || s.timerRuns,
        counters := { s.intake.counters with overlong := min (s.intake.counters.overlong + 1) 4294967295 } } }) ∧
      (18 ≤ hdr.length → len ≤ s.maxPayload →
        steps { q with st := if len = 0 then .check else .payload, hdr := hdr, crc := d })) ∧
    (q.st = .payload → steps { q with
      st := if q.payload.length + 1 < field 2 q.hdr 16 then .payload else .check, payload := q.payload ++ [b], crc := d }) ∧
    (q.st = .check →
      let got := q.got ++ [b]
      let f : AcqFrame := { flags := byteAt q.hdr 1, line := field 2 q.hdr 2, station := field 4 q.hdr 4,
                            time := field 8 q.hdr 8, payload := q.payload }
      (got.length < 4 → steps { q with got := got }) ∧
      (4 ≤ got.length → ofLe got ≠ (crc32Final q.crc).toNat → acquisition = exec .acqCrcFailure s) ∧
      (4 ≤ got.length → ofLe got = (crc32Final q.crc).toNat → f.payload.length ≤ s.maxPayload →
        (byteAt q.hdr 0 = 1 → acquisition = exec (.openLine f) s) ∧ (byteAt q.hdr 0 = 2 → acquisition = exec (.trace f) s) ∧
        (byteAt q.hdr 0 = 3 → acquisition = exec (.mark f) s) ∧
        (byteAt q.hdr 0 = 4 → acquisition = exec (.statusFrame f) s) ∧
        (byteAt q.hdr 0 = 5 → acquisition = exec (.closeLine f) s) ∧
        (byteAt q.hdr 0 = 0 ∨ 5 < (byteAt q.hdr 0).toNat →
          acquisition = exec (.malformedFrame (byteAt q.hdr 0) f) s)))

/-- The four header bytes: the length's low byte, its high byte, the kind and the tag; a length above 4,096 counts a LENGTH
error, returns the parser to IDLE and sends LINK-ERROR with reason LENGTH and the length received. -/
def Obligations.ControlHeaderBytesAreTaken : Prop :=
  ∀ (b : Byte) (s : State), s.link.discard = false → s.paused = false → s.link.parser.st = .header →
    let p := s.link.parser
    let c := crc16Byte p.crc b
    (p.count = 0 → exec (.controlByteReceived b) s = .next (s.setCtl { p with count := 1, len := b.toNat, crc := c })) ∧
    (p.count = 1 → p.len + 256 * b.toNat ≤ 4096 →
      exec (.controlByteReceived b) s = .next (s.setCtl { p with count := 2, len := p.len + 256 * b.toNat, crc := c })) ∧
    (p.count = 1 → 4096 < p.len + 256 * b.toNat → ∃ t, exec (.controlByteReceived b) s = .next t ∧
      EntersFifo { cls := .immediate, kind := kindLinkError, tag := 0, body := [2] ++ le2 (p.len + 256 * b.toNat) }
        { s with link := { s.link with parser := .reset, errLen := min (s.link.errLen + 1) 65535 } } t) ∧
    (p.count = 2 → exec (.controlByteReceived b) s = .next (s.setCtl { p with count := 3, kind := b, crc := c })) ∧
    (p.count = 3 → exec (.controlByteReceived b) s = .next (s.setCtl
      { p with st := if p.len = 0 then .check else .body, count := 0, tag := b, crc := c }))

/-- A frame whose CRC differs, and 20 ms without a byte in HEADER, BODY or CHECK: the counter of the reason grows by 1, the
parser returns to IDLE with the half-sync mark clear, and LINK-ERROR is sent with tag 0, the reason and its contents. With the
parser in IDLE no time is measured. -/
def Obligations.LinkErrorsAreCountedAndSent : Prop :=
  ∀ (kind tag : Byte) (s : State),
    (s.link.discard = false → ∃ t, exec (.linkErrorCrc kind tag) s = .next t ∧
      EntersFifo { cls := .immediate, kind := kindLinkError, tag := 0, body := [1, kind, tag] }
        { controlWake s with link := { (controlWake s).link with parser := .reset, errCrc := min (s.link.errCrc + 1) 65535 } } t) ∧
    (s.link.parser.st ≠ .idle → ∃ t, exec .controlTimeout s = .next t ∧
      EntersFifo { cls := .immediate, kind := kindLinkError, tag := 0,
                   body := [3] ++ le1 s.link.parser.st.code ++ le2 s.link.parser.received }
        { s with link := { s.link with parser := .reset, errTime := min (s.link.errTime + 1) 65535 } } t) ∧
    (s.link.parser.st = .idle → exec .controlTimeout s = .next s)

/-- The checks of R7 in their order, on every command row: the first that fails decides the code, and the refusal reply is all
that follows. -/
def Obligations.ChecksRefuseInOrder : Prop :=
  ∀ (c : Instr) (k : CmdKind) (tag : Byte) (body : List Byte) (s : State),
    rowFrame c = some (k, tag, body) → s.link.discard = false →
    let u := s.heard
    let refuses := fun code : Code => ∃ t, exec c s = .next t ∧ EntersFifo (immediateReply k.code tag code []) u t
    (tag = 0 → refuses .badTag) ∧
    (tag ≠ 0 → lengthOk k body = false → refuses .badLength) ∧
    (tag ≠ 0 → lengthOk k body = true → u.tagInUse tag = true → refuses .tagInUse) ∧
    (tag ≠ 0 → lengthOk k body = true → u.tagInUse tag = false →
      (∀ code, refusedBy k u.power.st u.power.store = some code → refuses code) ∧
      (refusedBy k u.power.st u.power.store = none → argumentBad k body u = true → refuses .badArgument) ∧
      (refusedBy k u.power.st u.power.store = none → argumentBad k body u = false → k.isStore = true →
        u.link.waiting.length = 4 → refuses .busy))

/-! ## Immediate commands -/

/-- IDENTIFY, STATUS, GAUGE-READ, MOTION-READ, LINE-LIST and LINE-INFO: the one reply enters the reply FIFO with OK and the
report, taken from the state as it stands, and nothing else changes; LINE-INFO of no line gets NO-SUCH-LINE. -/
def Obligations.ReportsAreAnsweredAndChangeNothing : Prop :=
  ∀ (tag : Byte) (body : List Byte) (s : State), s.link.discard = false →
    let u := s.heard
    let ok := fun k : CmdKind => checkCommand k tag body u = none
    (ok .identify → ∃ t, exec (.identify tag body) s = .next t ∧
      EntersFifo (immediateReply CmdKind.identify.code tag .ok (identityReport u)) u t) ∧
    (ok .status → ∃ t, exec (.status tag body) s = .next t ∧
      EntersFifo (immediateReply CmdKind.status.code tag .ok (statusReport u)) u t) ∧
    (ok .gaugeRead → ∃ t, exec (.gaugeRead tag body) s = .next t ∧
      EntersFifo (immediateReply CmdKind.gaugeRead.code tag .ok (gaugeReport u)) u t) ∧
    (ok .motionRead → ∃ t, exec (.motionRead tag body) s = .next t ∧
      EntersFifo (immediateReply CmdKind.motionRead.code tag .ok (motionReport u)) u t) ∧
    (ok .lineList → ∃ t, exec (.lineList tag body) s = .next t ∧
      EntersFifo (immediateReply CmdKind.lineList.code tag .ok (listReport (lineArg body) u)) u t) ∧
    (ok .lineInfo → u.line (lineArg body) = none → ∃ t, exec (.lineInfo tag body) s = .next t ∧
      EntersFifo (immediateReply CmdKind.lineInfo.code tag .noSuchLine []) u t) ∧
    (ok .lineInfo → ∀ l, u.line (lineArg body) = some l → ∃ t, exec (.lineInfo tag body) s = .next t ∧
      EntersFifo (immediateReply CmdKind.lineInfo.code tag .ok (lineReport l u)) u t)

/-- GET-SETTINGS: as many values as the count gives, value j that of item first + j, or of item 41 beyond it. -/
def Obligations.GetSettingsRepliesTheWorkingValues : Prop :=
  ∀ (tag : Byte) (body : List Byte) (s : State), s.link.discard = false →
    checkCommand .getSettings tag body s.heard = none →
    ∃ (t : State) (vs : List Nat), exec (.getSettings tag body) s = .next t ∧
      EntersFifo (immediateReply CmdKind.getSettings.code tag .ok ((vs.map le2).flatten)) s.heard t ∧
      vs.length = (byteAt body 1).toNat ∧
      ∀ j, j < vs.length → vs.getD j 0 = s.settings.items.getD (min ((byteAt body 0).toNat + j) 41) 0

/-- PUT-SETTINGS: an item is written where it received a value and, if it belongs to a group, every item of the group
received one and the group's constraint holds on the clamped values; a written item takes its clamped value, every other item
keeps its own; the permit map and the saved page stand. The reply carries the applied count (items written), the clamped count
(values placed that were out of range) and the skipped count (values placed and not written), with PARTIAL where a value fell
beyond item 41 and OK otherwise. -/
def Obligations.PutSettingsWritesWholeGroupsClamped : Prop :=
  ∀ (tag : Byte) (body : List Byte) (s : State), s.link.discard = false → s.settings.items.length = 42 →
    checkCommand .putSettings tag body s.heard = none →
    let first := (byteAt body 0).toNat
    let vs := putValues body
    let placed := fun i : Nat => decide (first ≤ i) && decide (i < first + vs.length)
    let written := fun i : Nat => placed i && (groupOf i).all fun g =>
      decide (first ≤ g.1) && decide (g.1 + g.2 ≤ first + vs.length) && constraintOk g.1 (putCandidate first vs s.settings.items)
    let count := fun p : Nat → Bool => le1 ((List.range 42).countP p)
    ∃ t u, exec (.putSettings tag body) s = .next t ∧
      (∀ i, i < 42 → t.settings.items.getD i 0 =
        if written i then clampItem i (vs.getD (i - first) 0) else s.settings.items.getD i 0) ∧
      t.settings.items.length = 42 ∧ t.settings.permit = s.settings.permit ∧ t.settings.saved = s.settings.saved ∧
      EntersFifo (immediateReply CmdKind.putSettings.code tag (if 42 < first + vs.length then .partialDone else .ok)
        (count written ++ count (fun i => placed i && clampItem i (vs.getD (i - first) 0) != vs.getD (i - first) 0) ++
          count fun i => placed i && !written i)) u t ∧
      u.link.running = s.link.running ∧ u.link.waiting = s.link.waiting ∧ u.link.dropped = s.heard.link.dropped ∧
      (s.heard.link.sending ≠ none ∨ s.heard.link.fifo = [] → u.link.fifo = s.heard.link.fifo)

/-- INTAKE: with none of R33's conditions standing, action OPEN sets the open request, a CLOSED-OUT store returning to READY, and
gets OK with the intake state that results; with one standing it gets that condition's code. Action CLOSE clears the open
request and gets OK with CLOSED. FILTER-RESET returns every slot's filter to FRESH, keeping its reference and its suppressed
count, and ACK-RESUME clears the resume-pending flag; each gets OK. Beside the reply and the wait line nothing else changes:
settings, gauge, line store and motion stand. -/
def Obligations.IntakeFilterResetAndAckResume : Prop :=
  ∀ (tag : Byte) (body : List Byte) (s : State), s.link.discard = false →
    let u := s.heard
    let replied := fun (c : Instr) (k : CmdKind) (code : Code) (content : List Byte) (v : State) =>
      ∃ t, exec c s = .next t ∧ EntersFifo (immediateReply k.code tag code content) v t ∧ t.settings = s.settings ∧
        t.gauge = s.gauge ∧ t.store = s.store ∧ t.flash = s.flash ∧ t.staging = s.staging ∧ t.motion = u.motion
    (checkCommand .intake tag [1] u = none → openRefusal u = none → Still s →
      let v := updateWait { u with
        intake := { u.intake with openReq := true },
        power := if u.power.store = .closedOut then { u.power with store := .ready, lastCause := none } else u.power }
      replied (.intakeOpen tag) .intake .ok (le1 v.intakeState.code) v) ∧
    (∀ code, checkCommand .intake tag [1] u = none → openRefusal u = some code →
      replied (.intakeOpen tag) .intake code [] u) ∧
    (checkCommand .intake tag [2] u = none → replied (.intakeClose tag) .intake .ok (le1 IntakeState.closed.code)
      (updateWait { u with intake := { u.intake with openReq := false } })) ∧
    (checkCommand .filterReset tag body u = none → replied (.filterReset tag body) .filterReset .ok [] { u with
      intake := { u.intake with slots := s.intake.slots.map fun x => x.map fun x => { x with filter := .fresh } } }) ∧
    (checkCommand .ackResume tag body u = none → replied (.ackResume tag body) .ackResume .ok []
      (updateWait { u with power := { u.power with resume := false } })) ∧
    (s.paused = false → u.motion = s.motion)

/-- GAUGE-ANCHOR with type FULL: RC becomes FCC, the confidence ANCHORED, a discharge run is opened at this run clock, warm as
the last sample was (with no last sample as at 0 degrees, log entry 59, DESIGN CHOICE), the empty-anchor run is 0 and the
empty-armed mark set, and the full-anchors counter grows by 1. The reply is OK with the gauge report after the anchor, and it
enters behind the replies that wait; no command and no drop count is lost. -/
def Obligations.GaugeAnchorTakesTheFullAnchor : Prop :=
  ∀ (tag : Byte) (body : List Byte) (s : State), s.link.discard = false →
    checkCommand .gaugeAnchor tag body s.heard = none →
    ∃ t u, exec (.gaugeAnchor tag body) s = .next t ∧
      EntersFifo (immediateReply CmdKind.gaugeAnchor.code tag .ok (gaugeReport t)) u t ∧ t.gauge.rc = s.gauge.fcc ∧ t.gauge.fcc = s.gauge.fcc ∧
      t.gauge.conf = .anchored ∧ t.gauge.emptyRun = 0 ∧ t.gauge.armed = true ∧
      t.gauge.fulls = min (s.gauge.fulls + 1) 4294967295 ∧
      t.gauge.run = some { start := s.power.clock, drawn := 0,
                           warm := decide (100 ≤ (s.gauge.last.map PackSample.t).getD 0) } ∧
      t.settings = s.settings ∧ t.store = s.store ∧ t.flash = s.flash ∧ t.intake.slots = s.intake.slots ∧
      u.link.running = s.link.running ∧ u.link.waiting = s.link.waiting ∧ u.link.dropped = s.heard.link.dropped ∧
      (s.heard.link.sending ≠ none ∨ s.heard.link.fifo = [] → u.link.fifo = s.heard.link.fifo)

/-- CANCEL. Of a waiting store command: with room for a final reply the command leaves the waiting list, its final reply
CANCELLED enters the FIFO and the CANCEL gets OK behind it; without room it keeps its place with the cancelled mark. Of a running
READ-RECORDS: with no record in progress it ends at once with CANCELLED and the count sent, its reply ahead of the CANCEL's OK
(log entry 61, DESIGN CHOICE); with a message held or a page being read it is asked to stop and goes on to the end of that; asked a second time,
nothing further changes; each CANCEL gets OK. Of any other running command it gets NOT-CANCELLABLE, and the target runs on. -/
def Obligations.CancelRemovesAWaitingCommand : Prop :=
  ∀ (tag : Byte) (body : List Byte) (s : State), s.link.discard = false → checkCommand .cancel tag body s.heard = none →
    let u := s.heard
    let cancel := exec (.cancel tag body) s
    let answered := fun (code : Code) (v t : State) => EntersFifo (immediateReply CmdKind.cancel.code tag code []) v t
    (∀ c : StoreCmd, (∀ r, s.link.running = some r → r.cmd.tag ≠ byteAt body 0) →
      s.link.waiting.find? (fun x => x.tag == byteAt body 0) = some c →
      (u.link.fifo.length < 32 → ∃ t, cancel = .next t ∧ answered .ok { u with link := LinkUnit.choose false { u.link with
        waiting := s.link.waiting.filter fun x => x.tag != c.tag,
        fifo := u.link.fifo ++ [{ cls := .final, kind := c.kind.code, tag := c.tag,
                                  body := replyBody .cancelled (unrunContent c .cancelled u) }] } } t) ∧
      (32 ≤ u.link.fifo.length → ∃ t, cancel = .next t ∧ answered .ok { u with link := { u.link with
        waiting := s.link.waiting.map fun x => if x.tag = c.tag then { x with cancelled := true } else x } } t)) ∧
    (∀ r : Running, s.link.running = some r → r.cmd.tag = byteAt body 0 →
      (r.cmd.kind ≠ .readRecords → ∃ t, cancel = .next t ∧ answered .notCancellable u t) ∧
      (∀ c : RetrCtx, r.cmd.kind = .readRecords → s.retr.ctx = some c → Still s →
        (c.stop = .none → c.ended = false → c.msg = none → c.inFlight = false → u.link.fifo.length < 32 →
          s.flash.pendingRec = [] → ∃ t v, cancel = .next (updateWait t) ∧ answered .ok v t ∧
            v = { u with
              retr := { u.retr with ctx := none },
              link := LinkUnit.choose u.paused { u.link with
                running := none,
                fifo := u.link.fifo ++ [{ cls := .final, kind := CmdKind.readRecords.code, tag := r.cmd.tag,
                                          body := replyBody .cancelled (le2 c.sent ++ le4 (s.stagedRecords c.line)) }] },
              power := { u.power with pause := .none, fmt := .none } }) ∧
        (c.stop = .none → c.ended = false → c.msg.isSome = true ∨ c.inFlight = true → ∃ t, cancel = .next (updateWait t) ∧
          answered .ok { u with retr := { u.retr with ctx := some { c with stop := .cancel } } } t) ∧
        (c.stop ≠ .none → ∃ t, cancel = .next (updateWait t) ∧ answered .ok u t)))

/-- RESET: its OK reply enters the FIFO, and the receiver discards every byte from then on: a whole-frame row has no effect at all
while it does, not even that of waking the part (log entry 47, DEDUCED). -/
def Obligations.ResetIsAnsweredAndTheReceiverDiscards : Prop :=
  (∀ (tag : Byte) (body : List Byte) (s : State), s.link.discard = false →
    checkCommand .reset tag body s.heard = none → s.heard.link.fifo.length < 16 →
    ∃ t, exec (.reset tag body) s = .next t ∧
      EntersFifo (immediateReply CmdKind.reset.code tag .ok [])
        { s.heard with link := { s.heard.link with discard := true } } t) ∧
  (∀ (c : Instr) (k : CmdKind) (tag : Byte) (body : List Byte) (s : State),
    rowFrame c = some (k, tag, body) → s.link.discard = true → exec c s = .next s)

/-! ## The transmitter -/

/-- The transmitter finishes a message that is neither a RESET's reply nor the PAUSE reply it waits for, and begins the
oldest of the reply FIFO, or where that is empty the oldest notice, or is idle. -/
def Obligations.MessageSentBeginsTheNext : Prop :=
  ∀ (m : Message) (s : State), s.link.sending = some m → m.isResetReply = false → s.power.pauseMark = none →
    s.paused = false →
    (∀ x xs, s.link.fifo = x :: xs →
      exec .messageSent s = .next { s with link := { s.link with fifo := xs, sending := some x } }) ∧
    (∀ n ns, s.link.fifo = [] → s.link.notices = n :: ns →
      exec .messageSent s = .next { s with link := { s.link with notices := ns, sending := some n.message } }) ∧
    (s.link.fifo = [] → s.link.notices = [] →
      exec .messageSent s = .next { s with link := { s.link with sending := none } })

/-- A final reply that waited for room enters the FIFO once fewer than 32 messages wait, and the running position is empty:
the final reply of a LINE-CLOSE, LINE-LOCK, LINE-UNLOCK, LINE-ERASE, PERMIT-LOAD, SAVE-SETTINGS or CLOSEOUT. -/
def Obligations.AHeldFinalReplyEntersTheFifo : Prop :=
  ∀ (r : Running) (f : Final) (s : State), s.link.removed = [] → s.link.running = some r → r.final = some f →
    r.cmd.kind ∈ [CmdKind.lineClose, .lineLock, .lineUnlock, .lineErase, .permitLoad, .saveSettings, .closeout] →
    Still s → s.link.fifo.length < 32 →
    ∃ t, exec .finalReplyPlaced s = .next t ∧ t.store = s.store ∧ t.flash = s.flash ∧ t.staging = s.staging ∧
      t.link = LinkUnit.choose s.paused { s.link with
        running := none,
        fifo := s.link.fifo ++ [{ cls := .final, kind := r.cmd.kind.code, tag := r.cmd.tag,
                                  body := replyBody f.code f.content }] }

/-- The held message of a retrieval that has reached its maximum enters the FIFO once fewer than 8 messages wait; with the
count then at the maximum the command ends with PARTIAL, the count and what is still in staging. -/
def Obligations.AHeldRecordEntersTheFifo : Prop :=
  ∀ (r : Running) (c : RetrCtx) (x : Rec) (s : State), s.link.running = some r → r.cmd.kind = .readRecords →
    s.retr.ctx = some c → c.msg = some (.record x) → c.ended = false → c.stop = .none → c.read = none →
    c.max = c.sent + 1 → s.link.fifo.length < 8 → Still s → s.flash.pendingRec = [] →
    let l := LinkUnit.choose s.paused { s.link with
      fifo := s.link.fifo ++ [{ cls := .retrieval, kind := kindRecord, tag := r.cmd.tag,
                                body := le2 c.line ++ [0, 0] ++ x.bytes }] }
    ∃ t, exec .heldMessageEntry s = .next t ∧ t.retr.ctx = none ∧ t.store = s.store ∧ t.staging = s.staging ∧
      t.link = LinkUnit.choose s.paused { l with
        running := none,
        fifo := l.fifo ++
          [{ cls := .final, kind := CmdKind.readRecords.code, tag := r.cmd.tag,
             body := replyBody .partialDone (le2 (c.sent + 1) ++ le4 (s.stagedRecords c.line)) }] }

/-! ## Store commands as they reach their owners -/

/-- READ-RECORDS of a line that does not exist ends with NO-SUCH-LINE, no record sent and no record in staging counted but the
line's; of a line with no pages it ends at once with OK, no record sent; of a CLOSED or LOCKED line with pages and a root, the
view is HELD, the bound is the line's next arrival index, the cursor is 1, and the first read is that of the root. -/
def Obligations.ReadRecordsStartsWithTheLineTable : Prop :=
  ∀ (tag : Byte) (body : List Byte) (s : State), Runs .readRecords tag body s → Still s → s.retr.ctx = none →
    (s.line (rrLine body) = none → ∃ t, exec (.readRecords tag body) s = .next t ∧ t.retr = s.retr ∧ t.store = s.store ∧
      Finished .readRecords tag .noSuchLine (le2 0 ++ le4 (s.stagedRecords (rrLine body))) s.heard.link t.link) ∧
    (∀ l, s.line (rrLine body) = some l → l.loading = false → l.pages = 0 → s.flash.pendingRec = [] →
      ∃ t, exec (.readRecords tag body) s = .next t ∧ t.retr = s.retr ∧ t.store = s.store ∧ t.flash = s.flash ∧
        Finished .readRecords tag .ok (le2 0 ++ le4 (s.stagedRecords (rrLine body))) s.heard.link t.link) ∧
    (∀ l r, s.line (rrLine body) = some l → l.indexing = false → l.root = some r → l.pages ≠ 0 → 1 < l.next →
      s.dieReady r.addr.die = true →
      ∃ t, exec (.readRecords tag body) s = .next t ∧ t.store = s.store ∧ t.staging = s.staging ∧ t.flash = s.flash ∧
        t.link.running = some { cmd := { kind := .readRecords, tag := tag, body := body, cancelled := false },
                                handed := true, final := none } ∧
        t.retr.cache = s.retr.cache ∧ t.retr.ctx = some
          { line := rrLine body, lo := rrLo body, hi := rrHi body, mask := rrMask body, max := rrMax body, sent := 0,
            bound := l.next, cursor := 1, held := true, root := none, noFill := false,
            read := some { addr := r.addr, purpose := .root, started := false, stale := false },
            msg := none, todo := [], stop := .none, ended := false })

/-- LINE-CLOSE: of no line NO-SUCH-LINE; of a line that is not OPEN, OK with no effect; an OPEN line becomes CLOSING, its slot
is released, and the command ends. -/
def Obligations.LineCloseMovesAnOpenLineToClosing : Prop :=
  ∀ (tag : Byte) (body : List Byte) (s : State), Runs .lineClose tag body s → Still s →
    (s.line (lineArg body) = none → ∃ t, exec (.lineClose tag body) s = .next t ∧ t.store = s.store ∧
      t.staging = s.staging ∧ t.flash = s.flash ∧ t.intake.slots = s.intake.slots ∧
      Finished .lineClose tag .noSuchLine [] s.heard.link t.link) ∧
    (∀ l, s.line (lineArg body) = some l → l.st ≠ .opened → ∃ t, exec (.lineClose tag body) s = .next t ∧
      t.store = s.store ∧ t.staging = s.staging ∧ t.flash = s.flash ∧ t.intake.slots = s.intake.slots ∧
      Finished .lineClose tag .ok [] s.heard.link t.link) ∧
    (∀ l, s.line (lineArg body) = some l → l.st = .opened → ∃ t, exec (.lineClose tag body) s = .next t ∧
      ((t.line (lineArg body)).map Line.st) = some .closing ∧ t.link.running = none ∧
      (∀ i, s.slotOf (lineArg body) = some i → t.intake.slots.getD i none = none) ∧
      t.flash.blocks = s.flash.blocks ∧ t.settings = s.settings ∧ t.gauge = s.gauge)

/-- LINE-LOCK and LINE-UNLOCK where nothing is to be changed: NO-SUCH-LINE for no line; LINE-LOCK of an OPEN or CLOSING line
ends with LINE-OPEN and of a LOCKED line with OK; LINE-UNLOCK of a line that is not LOCKED ends with OK. -/
def Obligations.LockAndUnlockThatChangeNothing : Prop :=
  ∀ (tag : Byte) (body : List Byte) (s : State), Still s →
    let done := fun (c : Instr) (k : CmdKind) (code : Code) => ∃ t, exec c s = .next t ∧ t.store = s.store ∧
      t.staging = s.staging ∧ t.flash = s.flash ∧ t.settings = s.settings ∧
      Finished k tag code [] s.heard.link t.link
    (Runs .lineLock tag body s →
      (s.line (lineArg body) = none → done (.lineLock tag body) .lineLock .noSuchLine) ∧
      (∀ l, s.line (lineArg body) = some l → l.st = .opened ∨ l.st = .closing →
        done (.lineLock tag body) .lineLock .lineOpen) ∧
      (∀ l, s.line (lineArg body) = some l → l.st = .locked → done (.lineLock tag body) .lineLock .ok)) ∧
    (Runs .lineUnlock tag body s →
      (s.line (lineArg body) = none → done (.lineUnlock tag body) .lineUnlock .noSuchLine) ∧
      (∀ l, s.line (lineArg body) = some l → l.st ≠ .locked → done (.lineUnlock tag body) .lineUnlock .ok))

/-- LINE-LOCK of a CLOSED line makes it LOCKED and LINE-UNLOCK of a LOCKED line makes it CLOSED; the command then waits for a
checkpoint taken after the change, which is requested, and no reply is placed yet. With no OPEN or CLOSING line there is
nothing to flush. -/
def Obligations.LockAndUnlockChangeTheLineAndAskForACheckpoint : Prop :=
  ∀ (tag : Byte) (body : List Byte) (l : Line) (s : State), Still s →
    s.line (lineArg body) = some l → (∀ m ∈ s.store.lines, m.indexing = false) → s.store.ckpt = none →
    let changed := fun (t : State) (st : LineState) =>
      ((t.line (lineArg body)).map Line.st) = some st ∧
      t.store.waiters = s.store.waiters ++ [(.command, s.store.ckptSeq + 1)] ∧
      t.store.ckpt = some (.flushing [] []) ∧ t.link.fifo = s.heard.link.fifo ∧ t.flash = s.flash ∧ t.staging = s.staging
    (Runs .lineLock tag body s → l.st = .closed → ∃ t, exec (.lineLock tag body) s = .next t ∧ changed t .locked) ∧
    (Runs .lineUnlock tag body s → l.st = .locked → ∃ t, exec (.lineUnlock tag body) s = .next t ∧ changed t .closed)

/-- LINE-ERASE: a LOCKED line in the range ends it with LINE-LOCKED, otherwise an OPEN or CLOSING one with LINE-OPEN, and
nothing is removed; otherwise every line of the range leaves the line table at once and the others stay: as they were, where a
root of the range is to be read first or no line is OPEN or CLOSING; else the checkpoint that is requested at once flushes what is
OPEN or CLOSING, and closed lines stay as they were (with no relocation walk waiting to read its page again). -/
def Obligations.LineEraseRemovesTheRange : Prop :=
  ∀ (tag : Byte) (body : List Byte) (s : State), Runs .lineErase tag body s → Still s →
    let hit := fun l : Line => eraseLo body ≤ l.num ∧ l.num ≤ eraseHi body
    ((∃ l ∈ s.store.lines, hit l ∧ l.st = .locked) → ∃ t, exec (.lineErase tag body) s = .next t ∧ t.store = s.store ∧
      t.flash = s.flash ∧ t.staging = s.staging ∧ Finished .lineErase tag .lineLocked (le2 0) s.heard.link t.link) ∧
    ((∀ l ∈ s.store.lines, hit l → l.st ≠ .locked) → (∃ l ∈ s.store.lines, hit l ∧ l.indexing = true) →
      ∃ t, exec (.lineErase tag body) s = .next t ∧ t.store = s.store ∧
        t.flash = s.flash ∧ t.staging = s.staging ∧ Finished .lineErase tag .lineOpen (le2 0) s.heard.link t.link) ∧
    ((∀ l ∈ s.store.lines, hit l → l.st ≠ .locked ∧ l.indexing = false) →
      (∀ l ∈ s.store.lines, hit l → ∀ r, l.root = some r → s.dieReady r.addr.die = true) →
      (∀ w, s.store.walk = some w → w.phase ≠ .retry) →
      let kept := s.store.lines.filter fun l => !(decide (eraseLo body ≤ l.num) && decide (l.num ≤ eraseHi body))
      ∃ t, exec (.lineErase tag body) s = .next t ∧ t.store.lines.map Line.num = kept.map Line.num ∧
        ((∃ l ∈ s.store.lines, hit l ∧ l.root.isSome = true) ∨ (∀ l ∈ s.store.lines, l.indexing = false) →
          t.store.lines = kept) ∧
        (∀ m l, s.line m = some l → ¬hit l → l.indexing = false → t.line m = some l) ∧
        (t.store.erase.map EraseJob.count) =
          some (s.store.lines.countP fun l => decide (eraseLo body ≤ l.num) && decide (l.num ≤ eraseHi body)) ∧
        t.link.running.isSome = true ∧ t.settings = s.settings ∧ t.gauge = s.gauge)

/-- PERMIT-LOAD replaces the whole working permit map with the one carried, and ends with OK; the items stand. -/
def Obligations.PermitLoadReplacesThePermitMap : Prop :=
  ∀ (tag : Byte) (body : List Byte) (s : State), Runs .permitLoad tag body s → Still s →
    ∃ t, exec (.permitLoad tag body) s = .next t ∧
      t.settings = { s.settings with
        permit := parsePermit body 0 } ∧
      t.store = s.store ∧ t.flash = s.flash ∧ t.staging = s.staging ∧ t.gauge = s.gauge ∧
      Finished .permitLoad tag .ok [] s.heard.link t.link

/-- SAVE-SETTINGS builds a SETTINGS image of the working items and the permit map in the lowest-numbered FREE buffer (log entry
11, DESIGN CHOICE), which joins the program queue at its tail; its reply waits for the page. With no FREE buffer, or behind a
request that waits for one, it joins the image wait list with the copy taken now. While die 0 cannot take the page its buffer is
returned FREE unwritten, and the command ends with MEDIA-FAULT. -/
def Obligations.SaveSettingsQueuesAnImageOfTheWorkingCopy : Prop :=
  ∀ (tag : Byte) (body : List Byte) (s : State), Runs .saveSettings tag body s → Still s →
    let copy := settingsBody s.settings.items s.settings.permit
    let waits := fun t : State => t.settings = s.settings ∧ t.store = s.store ∧
      t.link.running = some { cmd := { kind := .saveSettings, tag := tag, body := body, cancelled := false },
                              handed := true, final := none }
    (∀ b, s.dieReady 0 = true → s.staging.requests = [] → s.freeBuffer = some b →
      ∃ t, exec (.saveSettings tag body) s = .next t ∧ t.staging.queue = s.staging.queue ++ [b] ∧
        (∃ x, t.buf b = some x ∧ x.st = .queued ∧ x.origin = .index ∧ x.hdr.kind = .settings ∧ x.body = .raw copy) ∧
        (∀ c, c ≠ b → t.buf c = s.buf c) ∧ waits t) ∧
    (s.staging.requests ≠ [] ∨ s.freeBuffer = none → ∃ t, exec (.saveSettings tag body) s = .next t ∧
      t.staging = { s.staging with requests := s.staging.requests ++ [.settings copy] } ∧ t.flash = s.flash ∧ waits t) ∧
    (s.dieReady 0 = false → s.staging.requests = [] → s.freeBuffer.isSome = true →
      ∃ t, exec (.saveSettings tag body) s = .next t ∧ t.staging = s.staging ∧ t.flash = s.flash ∧ t.settings = s.settings ∧
        t.store = s.store ∧ Finished .saveSettings tag .mediaFault [] s.heard.link t.link)

/-- FORMAT with a LOCKED line ends with LINE-LOCKED and changes nothing; otherwise it begins to wait for its format event,
which holds the intake CLOSED, and a relocation walk in progress ends. -/
def Obligations.FormatBeginsOrIsRefusedByALockedLine : Prop :=
  ∀ (tag : Byte) (body : List Byte) (s : State), Runs .format tag body s → Still s →
    ((∃ l ∈ s.store.lines, l.st = .locked) → ∃ t, exec (.format tag body) s = .next t ∧ t.store = s.store ∧
      t.flash = s.flash ∧ t.staging = s.staging ∧ Finished .format tag .lineLocked [] s.heard.link t.link) ∧
    ((∀ l ∈ s.store.lines, l.st ≠ .locked) → ∃ t, exec (.format tag body) s = .next t ∧ t.power.fmt = .waiting ∧
      t.store.walk = none ∧ t.store.ckpt = none ∧ t.store.lines = s.store.lines ∧ t.intakeState = .closed ∧
      t.settings = s.settings ∧ t.gauge = s.gauge)

/-- CLOSEOUT in CLOSED-OUT ends at once with OK and the store state; in READY an orderly closeout with cause COMMAND begins:
the store is CLOSING-OUT and the open request is clear. -/
def Obligations.CloseoutBeginsAnOrderlyCloseout : Prop :=
  ∀ (tag : Byte) (body : List Byte) (s : State), Runs .closeout tag body s → Still s →
    (s.power.store = .closedOut → ∃ t, exec (.closeout tag body) s = .next t ∧ t.store = s.store ∧ t.flash = s.flash ∧
      t.staging = s.staging ∧ Finished .closeout tag .ok (le1 StoreState.closedOut.code) s.heard.link t.link) ∧
    (s.power.store = .ready → ∃ t, exec (.closeout tag body) s = .next t ∧ t.power.store = .closingOut ∧
      t.power.closeout = some { kind := .orderly false false, cause := .command } ∧ t.power.lastCause = none ∧
      t.intake.openReq = false ∧ t.flash.blocks = s.flash.blocks ∧ t.settings = s.settings ∧ t.gauge = s.gauge ∧
      t.link.running = some { cmd := { kind := .closeout, tag := tag, body := body, cancelled := false },
                              handed := true, final := none })

/-- PAUSE, where no queued buffer is such that no die can take it, waits for the store to become quiet, what it was judged by kept
for the next change of it; while it runs the intake state is CLOSED and the wait line ASSERTED. Where a queued buffer is such that
no die can take it, it ends with STORE-FULL. -/
def Obligations.PauseWaitsForAQuietStore : Prop :=
  ∀ (tag : Byte) (body : List Byte) (s : State), Runs .pause tag body s → Still s →
    (s.queueStuck = false →
      ∃ t, exec (.pause tag body) s = .next t ∧
        t.power = { s.heard.power with pause := .quiet, pauseSeen := some s.pauseView } ∧
        t.intakeState = .closed ∧ t.intake.wait = true ∧ t.store = s.store ∧ t.flash = s.flash ∧ t.staging = s.staging ∧
        t.link.running = some { cmd := { kind := .pause, tag := tag, body := body, cancelled := false },
                                handed := true, final := none }) ∧
    (s.queueStuck = true →
      ∃ t, exec (.pause tag body) s = .next t ∧ Finished .pause tag .storeFull [] s.heard.link t.link ∧
        t.power.pause = .none ∧ t.store.lines = s.store.lines ∧ t.flash = s.flash ∧ t.staging = s.staging ∧
        t.settings = s.settings)

/-- The oldest waiting command moves to the empty running position. With the cancelled mark it ends with CANCELLED, and one that
the present power and store states refuse ends with the code of R9; its reply carries what log entry 18 says. One that they
accept waits in the running position while the pause-entry mark is set, and else is at its owner: PERMIT-LOAD loads its map. -/
def Obligations.StoreCommandAdvanceRunsTheOldestWaiting : Prop :=
  ∀ (c : StoreCmd) (cs : List StoreCmd) (s : State), s.link.running = none → s.link.waiting = c :: cs → Still s →
    s.link.fifo.length < 32 →
    let final := fun (code : Code) (content : List Byte) => LinkUnit.choose s.paused { s.link with
      waiting := cs, running := none,
      fifo := s.link.fifo ++ [{ cls := .final, kind := c.kind.code, tag := c.tag, body := replyBody code content }] }
    let ended := fun code : Code => ∃ t, exec .storeCommandAdvance s = .next t ∧ t.link = final code (unrunContent c code s) ∧
      t.settings = s.settings ∧ t.store = s.store ∧ t.flash = s.flash ∧ t.staging = s.staging ∧ t.retr = s.retr
    (c.cancelled = true → s.retr.ctx = none → ended .cancelled) ∧
    (∀ code, c.cancelled = false → refusedBy c.kind s.power.st s.power.store = some code → s.retr.ctx = none → ended code) ∧
    (c.cancelled = false → refusedBy c.kind s.power.st s.power.store = none →
      let moved := fun handed : Bool => { s with
        link := { s.link with waiting := cs, running := some { cmd := c, handed := handed, final := none } } }
      (s.arrayStopped = true → c.kind ≠ .pause → exec .storeCommandAdvance s = .next (updateWait (moved false))) ∧
      (s.arrayStopped = false → exec .storeCommandAdvance s = .next (finish (runOwner c (moved true)))) ∧
      (s.arrayStopped = false → c.kind = .permitLoad → ∃ t, exec .storeCommandAdvance s = .next t ∧ t.link = final .ok [] ∧
        t.settings = { s.settings with
          permit := parsePermit c.body 0 } ∧
        t.store = s.store ∧ t.flash = s.flash ∧ t.staging = s.staging))

/-! ## The acquisition link -/

/-- A byte in HUNT: the byte A2h behind a 7Ch completes the sync pair and the parser is in HEADER with the hunt counter 0, which
in a pause state wakes the part; any other byte is discarded or held as the half-sync mark, and what it discards is counted
where the hunt counter stays below hunt_bytes. -/
def Obligations.AcquisitionByteInHuntAwaitsTheSyncPair : Prop :=
  ∀ (b : Byte) (s : State), s.intake.parser.st = .hunt →
    let p := s.intake.parser
    let synced : AcqParser := { AcqParser.reset with st := .header, crc := 0xFFFFFFFF }
    let discarded := if p.half then (if b = 0x7C then 1 else 2) else (if b = 0x7C then 0 else 1)
    (p.half = true → b = 0xA2 → s.paused = false → exec (.acquisitionByteReceived b) s =
      .next { s with intake := { s.intake with hunt := 0, parser := synced } }) ∧
    (p.half = true → b = 0xA2 → s.paused = true → ∃ t, exec (.acquisitionByteReceived b) s = .next t ∧
      t.power = { s.power with st := .run, wake := .acquisition, resume := true, pauseMark := none } ∧
      t.intake = { s.intake with hunt := 0, parser := synced, wait := t.intake.wait } ∧ t.store = s.store ∧
      t.flash = s.flash ∧ t.staging = s.staging ∧ t.settings = s.settings ∧ t.gauge = s.gauge) ∧
    ((p.half = true → b ≠ 0xA2) → s.intake.hunt + discarded < s.huntBytes → exec (.acquisitionByteReceived b) s =
      .next { s with intake := { s.intake with hunt := s.intake.hunt + discarded, parser := { p with half := b == 0x7C } } })

/-- A hunt mark, a CRC failure and a timeout inside a frame are each counted, and mark the link interval errored while its
timer runs; the parser is in HUNT. A timeout with the parser in HUNT is none. -/
def Obligations.HuntMarksAndBrokenFramesAreCounted : Prop :=
  ∀ (b : Byte) (s : State),
    let p := s.intake.parser
    let c := s.intake.counters
    let errored := s.intake.errored || s.timerRuns
    let discarded := if p.half then (if b = 0xA2 then 0 else if b = 0x7C then 1 else 2) else (if b = 0x7C then 0 else 1)
    (p.st = .hunt → 0 < discarded → 2 ≤ s.huntBytes → s.intake.hunt < s.huntBytes →
      s.huntBytes ≤ s.intake.hunt + discarded → exec (.huntMark b) s = .next { s with intake := { s.intake with
        hunt := s.intake.hunt + discarded - s.huntBytes, parser := { p with half := b == 0x7C }, errored := errored,
        counters := { c with huntMarks := min (c.huntMarks + 1) 4294967295 } } }) ∧
    exec .acqCrcFailure s = .next { s with intake := { s.intake with
      hunt := 0, parser := .reset, errored := errored, counters := { c with crc := min (c.crc + 1) 4294967295 } } } ∧
    (p.st ≠ .hunt → exec .acqTimeout s = .next { s with intake := { s.intake with
      parser := .reset, errored := errored, counters := { c with timeouts := min (c.timeouts + 1) 4294967295 } } }) ∧
    (p.st = .hunt → exec .acqTimeout s = .next s)

/-- A frame that passes its CRC and fails a check is counted with the frames and under that check, and nothing else comes of
it: line 0 or an unknown kind, the intake state CLOSED or SUSPENDED, a payload below the kind's least while discard_short is 1.
A payload beyond max_payload is not taken by these rows (log entry 4). -/
def Obligations.FramesThatFailACheckAreCounted : Prop :=
  ∀ (kind : Byte) (f : AcqFrame) (s : State),
    let rows := [Instr.openLine f, .trace f, .mark f, .statusFrame f, .closeLine f]
    (s.maxPayload < f.payload.length → exec (.malformedFrame kind f) s = .next s ∧ ∀ c ∈ rows, exec c s = .next s) ∧
    (Still s → f.payload.length ≤ s.maxPayload →
      let d := { s.intake.counters with frames := min (s.intake.counters.frames + 1) 4294967295 }
      let counted := fun d : IntakeCounters =>
        updateWait { s with intake := { s.intake with parser := .reset, hunt := 0, counters := d } }
      (f.line = 0 ∨ kind.toNat = 0 ∨ 5 < kind.toNat →
        exec (.malformedFrame kind f) s = .next (counted { d with malformed := min (d.malformed + 1) 4294967295 })) ∧
      (f.line ≠ 0 →
        (s.intakeState = .closed → ∀ c ∈ rows,
          exec c s = .next (counted { d with closed := min (d.closed + 1) 4294967295 })) ∧
        (s.intakeState = .suspended → ∀ c ∈ rows,
          exec c s = .next (counted { d with suspended := min (d.suspended + 1) 4294967295 })) ∧
        (s.intakeState = .opened → s.discardShort = true →
          let short := Host.Outcome.next (counted { d with short := min (d.short + 1) 4294967295 })
          (f.payload.length < 16 → exec (.trace f) s = short) ∧ (f.payload.length < 1 → exec (.mark f) s = short) ∧
          (f.payload.length < 4 → exec (.statusFrame f) s = short))))

/-- OPEN-LINE of a permitted line that does not exist, with a slot and a buffer free: the line enters the table OPEN, takes the
lowest-numbered free slot, and its HEADER record, arrival index 1, is the first of a FILLING buffer (the lowest-numbered FREE
one, log entry 11). The append counter goes from 4,294,967,295 to 0 (log entry 69, DESIGN CHOICE). No other line and no other
buffer changes. -/
def Obligations.OpenLineOpensANewLine : Prop :=
  ∀ (f : AcqFrame) (i b : Nat) (s : State), Still s → s.intakeState = .opened → f.line ≠ 0 →
    f.payload.length ≤ s.maxPayload → s.settings.permit.allows f.line = true → s.line f.line = none →
    s.erasing f.line = false → s.store.lines.length < 2048 → s.intake.slots.findIdx? Option.isNone = some i →
    s.fillingOf i = none → s.freeBuffer = some b → s.stagedBufs f.line = [] →
    let degraded := s.intake.linkState != .good
    let r : Rec :=
      { kind := .header, degraded := degraded, short := false, suppressed := false, iflags := f.flags,
        station := f.station, time := f.time, arrival := 1, clock := s.power.clock, supCount := 0, payload := f.payload }
    let n := (s.intake.appends + 1) % 4294967296
    ∃ t, exec (.openLine f) s = .next t ∧
      t.line f.line = some { freshLine f.line with
        next := 2, tFirst := some f.time, tLast := some f.time,
        flags := { (freshLine f.line).flags with degraded := degraded } } ∧
      (∀ m, m ≠ f.line → t.line m = s.line m) ∧ t.intake.appends = n ∧
      t.intake.slots = s.intake.slots.set i (some
        { line := f.line, ordinal := n, station := f.station, time := f.time, filter := .fresh, reference := none,
          suppressed := 0 }) ∧
      t.intake.counters = { s.intake.counters with
        frames := min (s.intake.counters.frames + 1) 4294967295,
        stored := min (s.intake.counters.stored + 1) 4294967295 } ∧
      (∃ x, t.buf b = some x ∧ x.st = .filling ∧ x.origin = .intake ∧ x.slot = some i ∧ x.body = .records [r] ∧
        x.fill = r.size ∧ x.hdr.line = f.line ∧ x.hdr.first = 1 ∧ x.hdr.count = 1 ∧ x.hdr.smin = f.station ∧
        x.hdr.smax = f.station) ∧
      (∀ c, c ≠ b → t.buf c = s.buf c) ∧ t.link = s.link ∧ t.flash = s.flash ∧ t.retr = s.retr ∧ t.motion = s.motion ∧
      t.gauge = s.gauge ∧ t.power = s.power ∧ t.settings = s.settings

/-- OPEN-LINE is refused for PERMIT, LOCKED, BUSY or TABLE-FULL: counted, INTAKE-REFUSED raised with the reason and the line, and
nothing else. Of a CLOSED line with a root it is a reopen: the line is OPEN and REOPENED, its load reads the root, it takes the
lowest-numbered free slot, and its HEADER record continues the arrival indices. With all four slots in use the line whose slot
has the smallest ordinal goes to CLOSING and the new line takes its slot. STATUS with the filter enabled moves the filter by
Table 2-3: from TWICE a match is dropped and counted, and any other is stored with the slot's suppressed count. The buffer taken is
the lowest-numbered FREE one (log entry 11, DESIGN CHOICE), and the append counter wraps to 0 (log entry 69, DESIGN CHOICE). Of an
OPEN-LINE that repeats the open of an OPEN line nothing is said here. -/
def Obligations.OpenLineIsRefusedOrReopensAndStatusIsFiltered : Prop :=
  ∀ (f : AcqFrame) (i : Nat) (s : State), Still s → s.intakeState = .opened → f.line ≠ 0 →
    f.payload.length ≤ s.maxPayload →
    let c := { s.intake.counters with frames := min (s.intake.counters.frames + 1) 4294967295 }
    let stored := { c with stored := min (c.stored + 1) 4294967295 }
    let n := (s.intake.appends + 1) % 4294967296
    let refused := fun (r : RefuseReason) (c : IntakeCounters) => exec (.openLine f) s = .next (updateWait
      (raiseNotice .intakeRefused (le1 r.code ++ le2 f.line) { s with
        intake := { s.intake with parser := .reset, hunt := 0, counters := c } }))
    let opened : Slot :=
      { line := f.line, ordinal := n, station := f.station, time := f.time, filter := .fresh, reference := none,
        suppressed := 0 }
    (s.settings.permit.allows f.line = false → refused .permit { c with permit := min (c.permit + 1) 4294967295 }) ∧
    (s.settings.permit.allows f.line = true →
      (∀ l, s.line f.line = some l →
        (l.st = .locked → refused .locked { c with locked := min (c.locked + 1) 4294967295 }) ∧
        (l.st = .closing ∨ (l.st ≠ .locked ∧ s.erasing f.line = true) →
          refused .busy { c with busy := min (c.busy + 1) 4294967295 }) ∧
        (∀ (b : Nat) (r : Loc), l.st = .closed → s.erasing f.line = false → s.intake.slots.findIdx? Option.isNone = some i →
          s.fillingOf i = none → s.freeBuffer = some b → s.stagedBufs f.line = [] → l.pages < 520200 → l.root = some r →
          s.lineBusy f.line = false → s.dieReady r.addr.die = true →
          let degraded := s.intake.linkState != .good
          ∃ t x y, exec (.openLine f) s = .next t ∧
            t.line f.line = some { l with
              st := .opened, load := .readRoot, next := l.next + 1, tFirst := some (l.tFirst.getD f.time),
              tLast := some f.time,
              flags := { l.flags with reopened := true, degraded := l.flags.degraded || degraded } } ∧
            t.flash.reads = s.flash.reads ++ [{ addr := r.addr, purpose := .loadRoot f.line }] ∧
            t.intake.slots = s.intake.slots.set i (some opened) ∧ t.intake.appends = n ∧ t.intake.counters = stored ∧
            t.buf b = some x ∧ x.st = .filling ∧ x.slot = some i ∧ x.body = .records [y] ∧ y.kind = .header ∧
            y.arrival = l.next ∧ y.payload = f.payload ∧ (∀ m, m ≠ f.line → t.line m = s.line m) ∧
            (∀ c, c ≠ b → t.buf c = s.buf c) ∧ t.link = s.link ∧ t.settings = s.settings ∧ t.gauge = s.gauge)) ∧
      (s.line f.line = none →
        (s.erasing f.line = true → refused .busy { c with busy := min (c.busy + 1) 4294967295 }) ∧
        (s.erasing f.line = false → 2048 ≤ s.store.lines.length →
          refused .tableFull { c with tableFull := min (c.tableFull + 1) 4294967295 }) ∧
        (∀ (l : Line) (x : Slot), s.erasing f.line = false → s.store.lines.length < 2048 → s.stagedBufs f.line = [] →
          (∀ y ∈ s.intake.slots, y.isSome = true) → s.intake.slots[i]? = some (some x) →
          (∀ j y, j ≠ i → s.intake.slots[j]? = some (some y) → x.ordinal < y.ordinal ∧ y.line ≠ x.line) →
          s.line x.line = some l → l.st = .opened → ∃ t, exec (.openLine f) s = .next t ∧
            ((t.line x.line).map Line.st) = some .closing ∧ ((t.line f.line).map Line.st) = some .opened ∧
            t.intake.slots = s.intake.slots.set i (some opened) ∧ t.intake.appends = n ∧
            t.settings = s.settings ∧ t.gauge = s.gauge ∧ t.motion = s.motion ∧ t.power = s.power))) ∧
    (∀ (x : Slot), s.openSlot f.line = some i → s.intake.slots.getD i none = some x → s.filterEnable = true →
      4 ≤ f.payload.length →
      let same := ∃ bs, x.reference = some (f.payload.length, bs) ∧ bs.length = min 8 f.payload.length ∧
        ∀ j, j < bs.length → byteAt f.payload j &&& s.filterMask j = byteAt bs j &&& s.filterMask j
      (same → x.filter = .twice → exec (.statusFrame f) s = .next (updateWait { s with
        intake := { s.intake with
          parser := .reset, hunt := 0, counters := { c with suppressed := min (c.suppressed + 1) 4294967295 },
          slots := s.intake.slots.set i (some { x with suppressed := min (x.suppressed + 1) 65535 }) } })) ∧
      (∀ (b : Nat) (l : Line) (y : Buf) (rs : List Rec) (next : FilterState),
        (∀ m bs, x.reference = some (m, bs) → bs.length = min 8 m) →
        (same ∧ x.filter = .fresh ∧ next = .once) ∨ (same ∧ x.filter = .once ∧ next = .twice) ∨ (¬same ∧ next = .fresh) →
        s.line f.line = some l → s.fillingOf i = some b → s.buf b = some y → y.body = .records rs →
        y.fill + recordSize f.payload.length ≤ 16320 → ∃ t y' r, exec (.statusFrame f) s = .next t ∧
          t.buf b = some y' ∧ y'.body = .records (rs ++ [r]) ∧ r.kind = .status ∧ r.payload = f.payload ∧
          r.supCount = x.suppressed ∧ r.suppressed = decide (0 < x.suppressed) ∧ r.arrival = l.next ∧
          (∀ c, c ≠ b → t.buf c = s.buf c) ∧ t.intake.counters = stored ∧ t.intake.appends = n ∧
          t.intake.slots = s.intake.slots.set i (some { x with
            ordinal := n, station := f.station, time := f.time, filter := next,
            reference := some (f.payload.length, f.payload.take 8), suppressed := 0 }) ∧
          t.link = s.link ∧ t.settings = s.settings ∧ t.gauge = s.gauge))

/-- TRACE, MARK and, with the filter disabled, STATUS for an OPEN line whose FILLING buffer has room: the record is appended
there with the line's next arrival index and this run clock, and the slot keeps its station and time. The append counter wraps to 0
(log entry 69, DESIGN CHOICE). Records that need a new buffer, or overrun, are left out here. -/
def Obligations.RecordsAreAppendedToTheFillingBuffer : Prop :=
  ∀ (f : AcqFrame) (i b : Nat) (l : Line) (x : Slot) (y : Buf) (rs : List Rec) (s : State), Still s →
    s.intakeState = .opened → f.line ≠ 0 → f.payload.length ≤ s.maxPayload → s.openSlot f.line = some i →
    s.line f.line = some l → s.intake.slots.getD i none = some x → s.fillingOf i = some b → s.buf b = some y →
    y.body = .records rs → y.fill + recordSize f.payload.length ≤ 16320 →
    let appended := fun (c : Instr) (k : RecordKind) (least sup : Nat) (x' : Slot) =>
      (f.payload.length < least → s.discardShort = false) →
      let r : Rec :=
        { kind := k, degraded := s.intake.linkState != .good, short := decide (f.payload.length < least),
          suppressed := decide (0 < sup), iflags := f.flags, station := f.station, time := f.time, arrival := l.next,
          clock := s.power.clock, supCount := sup, payload := f.payload }
      ∃ t y', exec c s = .next t ∧ t.buf b = some y' ∧ y'.body = .records (rs ++ [r]) ∧
        y'.fill = y.fill + recordSize f.payload.length ∧ y'.hdr.count = y.hdr.count + 1 ∧ y'.st = y.st ∧
        (∀ c, c ≠ b → t.buf c = s.buf c) ∧
        t.line f.line = some { l with
          next := l.next + 1, tFirst := some (l.tFirst.getD f.time), tLast := some f.time } ∧
        (∀ m, m ≠ f.line → t.line m = s.line m) ∧ t.intake.slots = s.intake.slots.set i (some x') ∧
        t.intake.counters = { s.intake.counters with
          frames := min (s.intake.counters.frames + 1) 4294967295,
          stored := min (s.intake.counters.stored + 1) 4294967295 } ∧
        t.link = s.link ∧ t.flash = s.flash ∧ t.retr = s.retr ∧ t.motion = s.motion ∧ t.gauge = s.gauge ∧
        t.power = s.power ∧ t.settings = s.settings
    let kept := { x with
      ordinal := (s.intake.appends + 1) % 4294967296, station := f.station, time := f.time, filter := .fresh }
    appended (.trace f) .trace 16 0 kept ∧ appended (.mark f) .mark 1 0 kept ∧
    (s.filterEnable = false → appended (.statusFrame f) .status 4 x.suppressed { kept with
      suppressed := 0,
      reference := if f.payload.length < 4 then x.reference else some (f.payload.length, f.payload.take 8) })

/-- CLOSE-LINE of an OPEN line moves it to CLOSING and releases its slot. CLOSE-LINE, TRACE, MARK and STATUS of a line that is
not OPEN are orphans: counted, and nothing else. While discard_short is 1 that is so of a payload at or above the kind's least
(one below it is counted as short alone), and of a CLOSE-LINE, which has no least, with any payload. -/
def Obligations.CloseLineMovesTheLineToClosing : Prop :=
  ∀ (f : AcqFrame) (s : State), Still s → s.intakeState = .opened → f.line ≠ 0 → f.payload.length ≤ s.maxPayload →
    let c := { s.intake.counters with frames := min (s.intake.counters.frames + 1) 4294967295 }
    (∀ i, s.openSlot f.line = some i → ∃ t, exec (.closeLine f) s = .next t ∧
      ((t.line f.line).map Line.st) = some .closing ∧ t.intake.slots.getD i none = none ∧ t.intake.counters = c ∧
      t.flash.blocks = s.flash.blocks ∧ t.settings = s.settings ∧ t.gauge = s.gauge ∧ t.motion = s.motion ∧
      t.power = s.power) ∧
    (s.openSlot f.line = none → ∀ r least, (r, least) ∈ [(Instr.trace f, 16), (.mark f, 1), (.statusFrame f, 4), (.closeLine f, 0)] →
      (s.discardShort = true → least ≤ f.payload.length) → exec r s = .next (updateWait { s with
        intake := { s.intake with
          parser := .reset, hunt := 0, counters := { c with orphan := min (c.orphan + 1) 4294967295 } } }))

/-- The end of a link interval while its timer runs: LQ goes up by lq_up, at most to 255, where the interval was errored, and
else down by lq_down; the link state follows from the new LQ, LOST not passing through DEGRADED on its way down; a new interval
begins. Where the link state stays, nothing else changes. While the timer is stopped no interval ends. The row ends the interval
whatever its elapsed count (log entry 3, DESIGN CHOICE). -/
def Obligations.LinkIntervalEndMovesTheLinkQuality : Prop :=
  ∀ s : State,
    let lq := if s.intake.errored then min 255 (s.intake.lq + s.lqUp) else s.intake.lq - s.lqDown
    let new : LinkState :=
      if s.intake.linkState = .lost then (if s.lqDegraded ≤ lq then .lost else .good)
      else if s.lqLost ≤ lq then .lost else if s.lqDegraded ≤ lq then .degraded else .good
    (s.timerRuns = true → ∃ t, exec .linkIntervalEnd s = .next t ∧ t.intake.lq = lq ∧ t.intake.linkState = new ∧
      t.intake.elapsed = 0 ∧ t.intake.errored = false ∧ t.intake.intervalLen = some s.intervalMs ∧
      t.settings = s.settings ∧ t.gauge = s.gauge ∧ t.motion = s.motion ∧ t.power.clock = s.power.clock) ∧
    (s.timerRuns = true → Still s → new = s.intake.linkState → exec .linkIntervalEnd s = .next (updateWait { s with
      intake := { s.intake with lq := lq, elapsed := 0, errored := false, intervalLen := some s.intervalMs } })) ∧
    (s.timerRuns = false → exec .linkIntervalEnd s = .next s)

/-! ## The motion monitor -/

/-- A sample that completes no run moves the sample stream and the runs of its state alone: in CALM the low run, in SETTLING the
low, the band and the middle run, in FAULT the recovery run, which a sample that repeats the one before it, or has none before it,
sets to 0. A first missed read is counted in the missed run alone, and in FAULT any missed read sets the recovery run to 0; in DEEP
PAUSE nothing is sampled. (Samples in FALLING and IMPACT: the next statement.) -/
def Obligations.SamplesInCalmMoveTheSampleStream : Prop :=
  ∀ (raw : Triple) (r : Option Triple) (s : State),
    let m := s.motion
    let mag := raw.saturate.magnitude
    let repeats := if m.lastRaw = some raw then min 400 (m.repeats + 1) else 1
    let stream := { m with lastRaw := some raw, repeats := repeats, missed := 0 }
    let moves := fun (r : Option Triple) (m : Motion) => exec (.motionSample r) s = .next (updateWait { s with motion := m })
    let inBand := s.bandLo ≤ mag ∧ mag ≤ s.bandHi
    (s.power.st = .deep → exec (.motionSample r) s = .next s) ∧
    (s.power.st ≠ .deep → Still s →
      (m.st = .calm → repeats < 400 → s.ffMg ≤ mag → mag < s.impactMg → moves (some raw) { stream with lowRun := 0 }) ∧
      (m.st = .calm → repeats < 400 → mag < s.ffMg → m.lowRun + 1 < s.ffCount →
        moves (some raw) { stream with lowRun := m.lowRun + 1 }) ∧
      (m.st = .settling → repeats < 400 → mag < s.ffMg ∨ mag < s.impactMg → (mag < s.ffMg → m.lowRun + 1 < s.ffCount) →
        (inBand → m.bandRun + 1 < s.settleCount) → (s.ffMg ≤ mag → m.midRun + 1 < s.settleMax) →
        moves (some raw) { stream with
          lowRun := if mag < s.ffMg then m.lowRun + 1 else 0,
          bandRun := if inBand then m.bandRun + 1 else 0,
          midRun := if s.ffMg ≤ mag then m.midRun + 1 else 0 }) ∧
      (m.st = .fault → (∃ x, m.lastRaw = some x ∧ x ≠ raw) → m.recovery + 1 < 400 →
        moves (some raw) { stream with recovery := m.recovery + 1 }) ∧
      (m.st = .fault → m.lastRaw = some raw ∨ m.lastRaw = none → moves (some raw) { stream with recovery := 0 }) ∧
      (m.st = .fault → moves none { m with missed := if m.missed = 0 then 1 else 2, recovery := 0 }) ∧
      (m.st ≠ .fault → m.st ≠ .falling → m.missed = 0 → moves none { m with missed := 1 }))

/-- The sample that completes the low run in CALM or SETTLING starts a fall, and the PROGRAMMING buffers gain the exposed mark.
Four middle samples in FALLING end it without an impact, and eight samples that are not high end an impact: the monitor is
SETTLING, the record enters the log, and the score takes the points of its class. A high sample in CALM, SETTLING or FALLING
enters IMPACT with its magnitude and peak axis, keeping the fall, marks the PROGRAMMING buffers and raises IMPACT; in LIGHT
PAUSE it wakes the part. In FALLING a low sample counts itself and the pending ones, and a middle one or a first missed read is
pending; in IMPACT a higher magnitude is the new peak, a high sample clears the quiet run and any other adds to it. The count of
exposed pages grows by the buffers that gain the mark at that entry (log entry 42, DEDUCED). -/
def Obligations.FallsAndImpactsStartAndEnd : Prop :=
  ∀ (raw : Triple) (s : State), s.power.st ≠ .deep → (s.motion.lastRaw ≠ some raw ∨ s.motion.repeats < 399) →
    let m := s.motion
    let mag := raw.saturate.magnitude
    let newly := fun b : Buf => b.st == .programming && !b.exposed
    let record := fun (peak : Nat) (axis : Axis) (cls : ImpactClass) =>
      ({ clock := m.start, fall := m.fall, fallMs := m.fall * 5 / 2, height := m.fall * m.fall * 30644 / 1000000,
         peak := peak, axis := axis, cls := cls, exposed := m.exposed } : ImpactRec)
    let logged := fun (t : State) (r : ImpactRec) =>
      t.motion.st = .settling ∧ t.motion.log = m.log.drop (m.log.length + 1 - 32) ++ [r] ∧
        t.motion.score = min 1023 (m.score + r.cls.points) ∧ t.motion.falls = m.falls ∧ t.motion.faults = m.faults ∧
        t.settings = s.settings ∧ t.gauge = s.gauge ∧ t.power.clock = s.power.clock
    (Still s → m.st = .calm ∨ m.st = .settling → mag < s.ffMg → mag < s.impactMg → s.ffCount ≤ m.lowRun + 1 →
      ∃ t, exec (.fallStart (some raw)) s = .next t ∧
        t = { s with motion := t.motion, staging := t.staging, link := t.link,
                     intake := { s.intake with wait := t.intake.wait } } ∧
        t.motion.st = .falling ∧ t.motion.fall = s.ffCount ∧ t.motion.start = s.power.clock ∧
        t.motion.falls = min (m.falls + 1) 4294967295 ∧ t.motion.log = m.log ∧ t.motion.score = m.score ∧
        t.motion.exposed = s.staging.bufs.countP (fun x => (x.map newly).getD false) ∧
        t.staging = { s.staging with
          bufs := s.staging.bufs.map fun x => x.map fun b => if newly b then { b with exposed := true } else b }) ∧
    (m.st = .falling → s.ffMg ≤ mag → mag < s.impactMg → 3 ≤ m.midRun →
      ∃ t, exec (.fallEnd (some raw)) s = .next t ∧ logged t (record 0 .x .none) ∧
        t.motion.noImpact = min (m.noImpact + 1) 4294967295 ∧ t.motion.impacts = m.impacts) ∧
    (m.st = .impact → mag < s.impactMg → 7 ≤ m.quietRun →
      let peak := if m.peak < mag then mag else m.peak
      let axis := if m.peak < mag then raw.saturate.peakAxis else m.axis.getD .x
      ∃ t, exec (.impactEnd (some raw)) s = .next t ∧ logged t (record peak axis (classOfPeak peak)) ∧
        t.motion.impacts = min (m.impacts + 1) 4294967295 ∧ t.motion.noImpact = m.noImpact) ∧
    (Still s →
      let sample := exec (.motionSample (some raw)) s
      let stream := { m with
        lastRaw := some raw, repeats := if m.lastRaw = some raw then min 400 (m.repeats + 1) else 1, missed := 0 }
      let peaked := fun m : Motion =>
        if m.peak < mag then { m with peak := mag, axis := some raw.saturate.peakAxis } else m
      let moved := fun m : Motion => sample = .next (updateWait { s with motion := m })
      let exposes := s.staging.bufs.countP fun x => (x.map newly).getD false
      let struck := fun m : Motion => ∃ t, sample = .next t ∧
        t.motion = { peaked m with
          st := .impact, lowRun := 0, midRun := 0, quietRun := 0, bandRun := 0, recovery := 0,
          exposed := m.exposed + exposes } ∧
        t.staging = { s.staging with
          bufs := s.staging.bufs.map fun x => x.map fun b => if newly b then { b with exposed := true } else b } ∧
        (s.power.st ≠ .light → s.power.pauseMark ≠ some .light →
          t = { s with
            motion := t.motion, staging := t.staging, intake := { s.intake with wait := t.intake.wait },
            link := (raiseNotice .impact (le1 MotionState.impact.code ++ le2 m.fall) s).link }) ∧
        (s.power.st = .light → t.power = { s.power with st := .run, wake := .impact, resume := true, pauseMark := none })
      (s.ffMg ≤ mag → s.impactMg ≤ mag →
        (m.st = .calm ∨ m.st = .settling → struck { stream with
          fall := 0, pending := 0, peak := 0, axis := none, exposed := 0, start := s.power.clock }) ∧
        (m.st = .falling → struck { stream with fall := min 2000 (m.fall + m.pending), pending := 0 }) ∧
        (m.st = .impact → moved { peaked stream with quietRun := 0 })) ∧
      (m.st = .falling → mag < s.ffMg → moved { stream with
        fall := min 2000 (m.fall + 1 + m.pending), pending := 0, midRun := 0 }) ∧
      (m.st = .falling → s.ffMg ≤ mag → mag < s.impactMg → m.midRun < 3 → moved { stream with
        pending := m.pending + 1, midRun := m.midRun + 1 }) ∧
      (m.st = .falling → m.missed = 0 → exec (.motionSample none) s = .next (updateWait { s with
        motion := { m with missed := 1, pending := m.pending + 1 } })) ∧
      (m.st = .impact → mag < s.ffMg ∨ mag < s.impactMg → m.quietRun < 7 → moved { peaked stream with
        quietRun := m.quietRun + 1 }))

/-- In SETTLING the sample that completes the band run settles the monitor, and one that completes the middle run settles it
roughly: it is CALM. The 400th equal sample, or a second missed read, puts it in FAULT and is counted: a fall in progress is
abandoned, an impact completed. The 400th sample that differs from the one before recovers it. -/
def Obligations.TheMonitorSettlesFaultsAndRecovers : Prop :=
  ∀ (raw : Triple) (s : State), s.power.st ≠ .deep →
    let m := s.motion
    let mag := raw.saturate.magnitude
    let inBand := s.bandLo ≤ mag ∧ mag ≤ s.bandHi ∧ s.settleCount ≤ m.bandRun + 1
    let repeats := if m.lastRaw = some raw then min 400 (m.repeats + 1) else 1
    let entered := fun (st : MotionState) (m : Motion) =>
      { m with st := st, lowRun := 0, midRun := 0, quietRun := 0, bandRun := 0, recovery := 0 }
    let becomes := fun (c : Instr) (m : Motion) => ∃ t, exec c s = .next t ∧
      t = { s with motion := m, link := t.link, intake := { s.intake with wait := t.intake.wait } }
    let sampled := { m with lastRaw := some raw, repeats := repeats, missed := 0 }
    (Still s → m.st = .settling → repeats < 400 → mag < s.impactMg → (mag < s.ffMg → m.lowRun + 1 < s.ffCount) →
      (inBand → becomes (.settle (some raw)) (entered .calm sampled)) ∧
      (¬inBand → s.ffMg ≤ mag → s.settleMax ≤ m.midRun + 1 →
        becomes (.roughSettle (some raw)) (entered .calm sampled))) ∧
    (Still s → m.st = .calm ∨ m.st = .settling →
      (m.lastRaw = some raw → 399 ≤ m.repeats → becomes (.sensorFault (some raw))
        { entered .fault sampled with faults := min (m.faults + 1) 4294967295 }) ∧
      (1 ≤ m.missed → becomes (.sensorFault none)
        { entered .fault m with missed := 2, faults := min (m.faults + 1) 4294967295 })) ∧
    (m.st = .falling ∨ m.st = .impact →
      let faulted := fun (r : Option Triple) => ∃ t, exec (.sensorFault r) s = .next t ∧
        t.motion.st = .fault ∧ t.motion.faults = min (m.faults + 1) 4294967295 ∧
        (m.st = .falling → t.motion.abandoned = min (m.abandoned + 1) 4294967295 ∧ t.motion.log = m.log ∧
          t.motion.impacts = m.impacts) ∧
        (m.st = .impact → t.motion.impacts = min (m.impacts + 1) 4294967295 ∧ t.motion.abandoned = m.abandoned ∧
          (t.motion.log.getLast?.map ImpactRec.peak) = some m.peak) ∧
        t.settings = s.settings ∧ t.gauge = s.gauge ∧ t.power.clock = s.power.clock
      (m.lastRaw = some raw → 399 ≤ m.repeats → faulted (some raw)) ∧ (1 ≤ m.missed → faulted none)) ∧
    (Still s → m.st = .fault → (∃ x, m.lastRaw = some x ∧ x ≠ raw) → 399 ≤ m.recovery →
      becomes (.sensorRecovery (some raw)) (entered .calm { m with lastRaw := some raw, repeats := 1, missed := 0 }))

/-- The decay of the handling score: 0 stays 0, and a higher score loses the larger of 1 and its sixteenth; the careful latch
is judged by the new score. The decay timer counts in RUN and LIGHT PAUSE after the mount, and else nothing happens. The row
lowers the score whatever the timer's count (log entry 3, DESIGN CHOICE). -/
def Obligations.HandlingDecayLowersTheScore : Prop :=
  ∀ s : State,
    let score := if s.motion.score = 0 then 0 else s.motion.score - max 1 (s.motion.score / 16)
    let latch := if s.carefulOn ≤ score then true else if score < s.carefulOff then false else s.motion.latch
    let runs := s.motion.decayOn = true ∧ (s.power.st = .run ∨ s.power.st = .light)
    (runs → ∃ t, exec .handlingDecay s = .next t ∧
      t = { s with motion := { s.motion with decay := 0, score := score, latch := latch }, link := t.link } ∧
      (latch = s.motion.latch → t.link = s.link)) ∧
    (¬runs → exec .handlingDecay s = .next s)

/-! ## The gauge -/

/-- A sample is not taken before the gauge samples. A missed one closes the discharge run, turns ANCHORED into COUNTING and is
counted. An answered one is kept, brought into range; past the voltage estimate, with no anchor taken, its current is counted
against the charge; the empty anchor is not taken while its run is below 7 before the sample, or its mark is clear, or the sample
is no low one. The first answered sample after a POWER-ON reset sets RC from the voltage per cell instead, by the points of
Table 8-5, ESTIMATED and with no run open. A sample whose charge-done level is asserted where the last one was not takes the full
anchor: RC becomes FCC, ANCHORED, a run opens, and the empty anchor is armed with its run at 0 before the sample. Eight samples with a voltage below cutoff_mv + 200 and a current above 100 mA take the empty anchor: RC
and U become the locked charge of the capacity, which a warm open run has taught, and SOC and TTE are 0. -/
def Obligations.GaugeSamplesCountTheCharge : Prop :=
  ∀ (r : PackRead) (o : Option PackRead) (s : State),
    let g := s.gauge
    let x := sampleOf r
    (g.sampling = false → exec (.gaugeSample o) s = .next s) ∧
    (g.sampling = true → exec (.gaugeSample none) s = .next { s with gauge := { g with
      prevOk := false, run := none, conf := if g.conf = .anchored then .counting else g.conf,
      missed := min (g.missed + 1) 4294967295 } }) ∧
    (g.sampling = true → ∃ t, exec (.gaugeSample (some r)) s = .next t ∧ t.settings = s.settings ∧
      t.power.clock = s.power.clock ∧ t.gauge.last = some
        { i := clampInt (-10000) 10000 r.current, v := (clampInt 0 20000 r.voltage).toNat,
          t := clampInt (-400) 850 r.temp, sat := decide (r.current < -10000 ∨ 10000 < r.current), done := r.done } ∧
      t.gauge.answered = min (g.answered + 1) 4294967295 ∧ t.gauge.missed = g.missed ∧
      t.gauge.ring = g.ring.drop 1 ++ [x.i] ∧
      (g.estimated = true → r.done = false →
        (g.armed = true → x.v < s.cutoffMv + 200 → 100 < x.i → g.emptyRun < 7) →
        t.gauge.rc = (clampInt 0 g.fcc (g.rc - x.i)).toNat ∧ t.gauge.fcc = g.fcc ∧
        t.gauge.locked = g.fcc * (100 - derate x.t) / 100 ∧
        t.gauge.conf = if g.conf = .estimated then .counting else g.conf) ∧
      (g.estimated = false → r.done = false ∨ g.lastDone = true → g.emptyRun < 7 →
        let v := x.v / s.cells
        let points := [3300, 3550, 3650, 3710, 3750, 3790, 3840, 3910, 3990, 4080, 4180]
        t.gauge.estimated = true ∧ t.gauge.conf = .estimated ∧ t.gauge.run = none ∧ t.gauge.fcc = g.fcc ∧
        (v < 3300 → t.gauge.rc = 0) ∧ (4180 ≤ v → t.gauge.rc = g.fcc) ∧
        ∀ i lo hi, points[i]? = some lo → points[i + 1]? = some hi → lo ≤ v → v < hi →
          t.gauge.rc = g.fcc * (10 * i + 10 * (v - lo) / (hi - lo)) / 100) ∧
      (r.done = true → g.lastDone = false → g.collapse = false →
        t.gauge.rc = g.fcc ∧ t.gauge.fcc = g.fcc ∧ t.gauge.conf = .anchored ∧ t.gauge.lastDone = true ∧
        t.gauge.run = some { start := s.power.clock, drawn := 0, warm := decide (100 ≤ x.t) } ∧ t.gauge.armed = true ∧
        t.gauge.emptyRun = (if x.v < s.cutoffMv + 200 ∧ 100 < x.i then 1 else 0) ∧
        t.gauge.fulls = min (g.fulls + 1) 4294967295 ∧ t.gauge.empties = g.empties)) ∧
    (g.sampling = true → g.estimated = true → g.armed = true → r.done = false → x.v < s.cutoffMv + 200 → 100 < x.i →
      7 ≤ g.emptyRun →
      let fcc := match g.run with
        | some d =>
          if d.warm = true ∧ 100 ≤ x.t then
            clampNat (s.design / 2) s.design
              ((3 * g.fcc + ((clampInt 0 864000000 (d.drawn + x.i)).toNat + g.fcc * (100 - derate x.t) / 100)) / 4)
          else g.fcc
        | none => g.fcc
      ∃ t, exec (.emptyAnchor (some r)) s = .next t ∧ t.settings = s.settings ∧ t.power.clock = s.power.clock ∧
        t.gauge.fcc = fcc ∧ t.gauge.locked = fcc * (100 - derate x.t) / 100 ∧ t.gauge.rc = t.gauge.locked ∧
        t.gauge.conf = .anchored ∧ t.gauge.armed = false ∧ t.gauge.run = none ∧ t.gauge.soc = 0 ∧ t.gauge.tte = 0 ∧
        t.gauge.empties = min (g.empties + 1) 4294967295 ∧ t.gauge.fulls = g.fulls)

/-- Four samples with a headroom below the margin raise reserve, as does one whose charge that is not locked is below the floor; and
forty at the margin and 100 mV or more, with that charge above the floor, clear it (the charge being the counted one, with no
anchor taken). Two samples below the cutoff are a collapse: outside LOW-HALT an emergency closeout begins. In
LOW-HALT forty samples at the cutoff and 300 mV or more clear the mark, and the part is reset with cause LOW-RECOVERY. What no
rule gives of that reset is the model's, each a DESIGN CHOICE: of the blocks the values of log entry 8, the write sequence 1 and
the checkpoint sequence 0 (log entry 96), the saved-page location kept with the settings (log entry 103), and the strap and the
rate at the level sampled then, a free value (log entry 63). -/
def Obligations.ReserveAndCollapseAreRaisedAndCleared : Prop :=
  ∀ (r : PackRead) (s : State), s.gauge.sampling = true →
    let g := s.gauge
    let x := sampleOf r
    let drop : Int := if x.i < s.closeoutPeak then ((s.closeoutPeak - x.i).toNat * g.res + 999) / 1000 else 0
    let headroom : Int := x.v - drop - s.cutoffMv
    let stands := fun t : State => t.settings = s.settings ∧ t.power.clock = s.power.clock ∧
      t.gauge.answered = min (g.answered + 1) 4294967295
    (g.reserve = false → headroom < s.marginMv → 3 ≤ g.lowRun → ∃ t, exec (.reserveRaise (some r)) s = .next t ∧
      t.gauge.reserve = true ∧ t.gauge.headroom = headroom ∧ t.gauge.clearRun = 0 ∧ stands t) ∧
    (g.estimated = true → r.done = false → (g.armed = true → x.v < s.cutoffMv + 200 → 100 < x.i → g.emptyRun < 7) →
      let free : Int := clampInt 0 g.fcc (g.rc - x.i) - (g.fcc * (100 - derate x.t) / 100 : Nat)
      let floor : Int := (g.fcc * s.floorPermille / 1000 : Nat)
      (g.reserve = false → free < floor → ∃ t, exec (.reserveRaise (some r)) s = .next t ∧
        t.gauge.reserve = true ∧ t.gauge.headroom = headroom ∧ t.gauge.clearRun = 0 ∧ stands t) ∧
      (g.reserve = true → (s.marginMv : Int) + 100 ≤ headroom → floor < free → 39 ≤ g.clearRun →
        ∃ t, exec (.reserveClear (some r)) s = .next t ∧ t.gauge.reserve = false ∧ t.gauge.headroom = headroom ∧
          t.gauge.lowRun = 0 ∧ stands t)) ∧
    (g.collapse = false → x.v < s.cutoffMv → 1 ≤ g.collRun → ∃ t, exec (.collapse (some r)) s = .next t ∧
      t.gauge.collapse = true ∧ stands t ∧ (s.power.st ≠ .lowHalt →
        t.power.closeout = some { kind := .emergency, cause := .collapse } ∧ t.intake.openReq = false)) ∧
    (g.collapse = true → s.power.st = .lowHalt → s.power.pauseMark = none → s.cutoffMv + 300 ≤ x.v → 39 ≤ g.recRun →
      ∃ t, exec (.collapseRecovery (some r)) s = .next t ∧ t.gauge.collapse = false ∧ t.gauge.collRun = 0 ∧
        t.gauge.recRun = 0 ∧ t.gauge.run = none ∧ stands t ∧ t.power = Power.reset .lowRecovery s.power.clock ∧
        t.straps = s.straps + 1 ∧ t.link = { LinkUnit.reset false with
          strap := Config.strapLevel s.straps, rate3M := Config.strapLevel s.straps } ∧ t.intake = .reset ∧
        t.staging = .reset ∧ t.flash = .reset ∧ t.store = .reset ∧ t.retr = .reset ∧ t.motion = .reset)

/-! ## The flash controller -/

/-- A dispatch of an idle die while operations may start: a read-back that is ready comes first; then a program, where the die is
next in the offering order and can take the queue's only buffer; with an empty queue a retrieval read, then the oldest
relocation or index read on the die, then the oldest erase due. A die that is busy, not READY or stopped starts nothing; all are
stopped from when the PAUSE reply is built, also while it waits for room (log entry 80, DEDUCED). The row is the die's arbiter
at work, which acts when the row comes (log entry 7, DEDUCED). -/
def Obligations.DieDispatchStartsTheFirstReadyWork : Prop :=
  ∀ (d : Nat) (s : State),
    let starts := fun (k : OpKind) (s : State) =>
      s.modDie d fun x => { x with op := some { kind := k, start := s.power.clock } }
    (s.arrayStopped = true ∨ s.dieIdle d = false → exec (.dieDispatch d) s = .next s) ∧
    (s.arrayStopped = false → s.dieIdle d = true →
      (∀ b x a, s.readyReadback d = some b → s.buf b = some x → x.target = some a →
        exec (.dieDispatch d) s = .next (starts (.readback b a) s)) ∧
      (s.readyReadback d = none → s.power.st ≠ .lowHalt → Still s → s.staging.queue = [] →
        (∀ a, s.retrievalFor d = some a → exec (.dieDispatch d) s = .next (updateWait (starts (.retrieval a)
          (s.modCtx fun c => { c with read := c.read.map fun q => { q with started := true } })))) ∧
        (s.retrievalFor d = none →
          (∀ q, s.flash.reads.find? (fun q => q.addr.die == d) = some q →
            exec (.dieDispatch d) s = .next (updateWait (starts (.relocation q)
              { s with flash := { s.flash with reads := s.flash.reads.erase q } }))) ∧
          (∀ x b bs, s.flash.reads.find? (fun q => q.addr.die == d) = none → s.die d = some x → x.due = b :: bs →
            s.eraseGate = true → exec (.dieDispatch d) s =
              .next (updateWait (starts (.erase b) (s.modDie d fun x => { x with due := bs })))))) ∧
      (∀ b x y, s.readyReadback d = none → Still s → s.programGate = true → s.staging.queue = [b] → s.buf b = some x →
        isAnchorKind x.hdr.kind = false → s.canTake d x = true → s.offerOrder d = [d] →
        (s.die d).bind Die.active = some y → s.store.wseq < 4294967295 →
        let a : Addr := { die := d, block := y.block, page := y.next }
        ∃ t, exec (.dieDispatch d) s = .next t ∧
          ((t.die d).bind Die.op) = some { kind := .program b a, start := s.power.clock } ∧
          ((t.die d).bind Die.active) = some { y with next := y.next + 1 } ∧ t.staging.queue = [] ∧
          t.buf b = some { x with
            st := .programming, target := some a, exposed := false, handed := false,
            hdr := { x.hdr with wseq := s.store.wseq, verified := s.careful || s.verifyAlways,
                                relocated := x.origin == .relocation } } ∧
          t.store = { s.store with wseq := s.store.wseq + 1, progCount := s.store.progCount + 1 } ∧
          t.flash.lastDie = some d ∧ t.flash.blocks = s.flash.blocks ∧ t.settings = s.settings ∧ t.gauge = s.gauge ∧
          t.motion = s.motion))

/-- A program that ends with status pass and must be read back leaves its buffer VERIFYING; an exposed upper page draws its
RETAINED lower page in ahead of itself, exposed. A DATA page of the intake that needs no read-back is at its written point: it is
entered at the line store (before its buffer moves: log entry 79, DESIGN CHOICE), a lower page is RETAINED or FREE, an upper page
FREE with its lower page, and page 255 makes the ACTIVE block FULL. That it is a new entry whatever copy its image supersedes is
decided by its reported mark (log entry 12, DEDUCED). So at its written point is a SEGMENT or ROOT page that needs no read-back: a
flushed segment of an OPEN line takes its place in the root store, a rewritten one replaces its reference or has its root
rewritten, the ROOT of a close leaves the line CLOSED and its references gone (a flush image built by then becomes a segment
rewrite's: log entry 32, DEDUCED), and a root rewrite becomes the root. A program that
ends with status fail outside the anchor area leaves its block RETIRED. In every case the die is idle. -/
def Obligations.ProgramsEndInAReadBackOrARetiredBlock : Prop :=
  ∀ (d b : Nat) (a : Addr) (o : Op) (x : Buf) (s : State), (s.die d).bind Die.op = some o → o.kind = .program b a →
    s.buf b = some x →
    let passed := exec (.programComplete d true) s
    let verified := s.careful = true ∨ s.verifyAlways = true ∨ isAnchorKind x.hdr.kind = true
    let lower : Addr := { a with page := a.page - 1 }
    let verifies := fun (bufs : List (Option Buf)) (queue added : List Nat) => passed = .next (updateWait { s with
      flash := { s.flash with dies := s.flash.dies.modify d fun y => { y with op := none } },
      staging := { s.staging with bufs := bufs, queue := queue, verifying := s.staging.verifying ++ added } })
    let toVerify := fun x : Buf => { x with st := .verifying }
    (Still s → (x.exposed = false ∧ verified) ∨ (x.exposed = true ∧ a.page % 2 = 0) → a.page ≠ 255 →
      verifies (s.staging.bufs.modify b (Option.map toVerify)) (s.staging.queue.filter (· != b)) [b]) ∧
    (Still s → x.exposed = true → a.page % 2 = 1 → a.page ≠ 255 → ∀ l, s.bufAt .retained lower = some l →
      verifies ((s.staging.bufs.modify l (Option.map fun y => { y with st := .verifying, exposed := true })).modify b
        (Option.map toVerify)) ((s.staging.queue.filter (· != l)).filter (· != b)) [l, b]) ∧
    (HandStill x.hdr.line s → x.exposed = false → ¬verified → x.target = some a → a.die = d → isAnchor a.blk = false →
      x.hdr.kind = .data → x.reported = false → x.handed = false → x.origin ≠ .relocation → x.job = .intake →
      ∀ l r, s.line x.hdr.line = some l → l.indexing = true → s.block a.blk = some r →
        ∃ t, passed = .next t ∧ Entered x.hdr a l s t ∧ Released b x a s t ∧ ((t.die d).bind Die.op) = none ∧
          (a.page ≠ 255 → (∀ c, c ≠ b → (a.page % 2 = 1 → s.bufAt .retained lower ≠ some c) → t.buf c = s.buf c) ∧
            (t.block a.blk).map BlockRec.st = some r.st) ∧
          (a.page = 255 → r.st = .active → (t.block a.blk).map BlockRec.st = some .full ∧
            ∀ y, (t.die d).bind Die.active = some y → y.block ≠ a.block) ∧
          t.settings = s.settings ∧ t.gauge = s.gauge ∧ t.motion = s.motion ∧ t.power = s.power ∧ t.link = s.link) ∧
    (HandStill x.hdr.line s → x.exposed = false → ¬verified → x.target = some a → isAnchor a.blk = false → a.page ≠ 255 →
      x.reported = false → x.handed = false → IndexWritten (fun P => ∃ t, passed = .next t ∧ P t ∧ Released b x a s t ∧
        ((t.die d).bind Die.op) = none ∧
        (∀ c, c ≠ b → (a.page % 2 = 1 → s.bufAt .retained lower ≠ some c) → t.buf c = s.buf c) ∧
        t.settings = s.settings ∧ t.gauge = s.gauge ∧ t.motion = s.motion ∧ t.power = s.power ∧ t.link = s.link) x a s) ∧
    (Still s → isAnchor a.blk = false → ∀ r, s.block a.blk = some r → ∃ t, exec (.programComplete d false) s = .next t ∧
      ((t.block a.blk).map BlockRec.st) = some .retired ∧ ((t.die d).bind Die.op) = none ∧
      t.settings = s.settings ∧ t.power.clock = s.power.clock)

/-- A SETTINGS page that reads back equal to its image (but for its zero-filled positions: R199, log entry 114, DEDUCED) is at its
written point: it is the saved page. A DATA page that reads back
otherwise (BLANK, UNCORRECTABLE, or data that differ) is void: its buffer is QUEUED again at the head, to supersede that copy, an
upper page's RETAINED lower page is VERIFYING, and its ACTIVE block is FULL. One that reads back equal, corrected below
refresh_bits, is at its written point (in the order of log entry 79, DESIGN CHOICE): handed first, it is a new entry of its OPEN or
CLOSING line, and of no other line is it entered; with the sequence of a copy that a pool entry names it replaces that entry, and
of one that the entry found does not name it is not entered; one handed before is not handed again. Whether it is a new entry is
decided by its reported mark, and for a relocated page first handed the copy it replaces by its origin sequence (log entry 12,
DEDUCED). A SEGMENT or ROOT page that reads back equal is handed as one that needs no read-back is (a flush image
that is built as the ROOT of the close is handed becomes a segment rewrite's: log entry 32, DEDUCED). The last page of a checkpoint
that reads back equal completes it: the command or the closeout that waits for it ends, a PAUSE goes on, and a pending
checkpoint starts. -/
def Obligations.ReadBacksHandOrVoidThePage : Prop :=
  ∀ (d b : Nat) (a : Addr) (o : Op) (x : Buf) (r : ReadResult) (s : State), (s.die d).bind Die.op = some o →
    o.kind = .readback b a → s.buf b = some x → x.target = some a →
    let done := exec (.readbackComplete d r) s
    let same := ∃ data, readData r = some data ∧ agreesWith x.hdr x.body data = true
    let lower : Addr := { a with page := a.page - 1 }
    (x.hdr.kind = .settings → isAnchor a.blk = true → x.handed = false → same →
      ∃ t, done = .next t ∧ t.settings = { s.settings with saved := some a } ∧ ((t.die d).bind Die.op) = none ∧
        t.power.clock = s.power.clock) ∧
    (x.hdr.kind = .checkpoint → isAnchor a.blk = true → x.handed = false → same → s.staging.requests = [] →
      WalkStill s → (∀ q, s.retr.ctx.bind RetrCtx.read = some q → s.dieReady q.addr.die = true) →
      (∀ q ∈ s.flash.reads, s.dieReady q.addr.die = true) → s.power.mount = none → s.emergency = false →
      ∀ snap, s.store.ckpt = some (.writing snap) → x.hdr.cpSeq = snap.seq → x.hdr.number + 1 = snap.pages →
        CheckpointEnds (fun P => ∃ t, done = .next t ∧ P t ∧ t.buf b = none ∧ ((t.die d).bind Die.op) = none ∧
          t.flash.blocks = s.flash.blocks ∧ t.settings = s.settings ∧ t.gauge = s.gauge ∧ t.motion = s.motion) snap a s) ∧
    (x.hdr.kind ≠ .data → isAnchor a.blk = false → same → (∀ n data, r = .corrected n data → n < s.refreshBits) →
      HandStill x.hdr.line s → x.reported = false → x.handed = false → IndexWritten (fun P => ∃ t, done = .next t ∧ P t ∧
        Released b x a s t ∧ ((t.die d).bind Die.op) = none ∧
        (∀ c, c ≠ b → (a.page % 2 = 1 → s.bufAt .retained lower ≠ some c) → t.buf c = s.buf c) ∧
        t.settings = s.settings ∧ t.gauge = s.gauge ∧ t.motion = s.motion ∧ t.power = s.power ∧ t.link = s.link) x a s) ∧
    (x.hdr.kind = .data → isAnchor a.blk = false →
      (¬same → s.power.fmt ≠ .waiting → Still s → a.die = d → s.dieReady d = true →
        (∀ w, s.store.walk = some w → w.blk ≠ a.blk) → ∃ t, done = .next t ∧
          t.buf b = some { x with
            st := .queued, target := none, exposed := false, handed := false,
            hdr := { x.hdr with sup := x.hdr.wseq, wseq := 0 } } ∧
          t.staging.queue.head? = some b ∧ ((t.die d).bind Die.op) = none ∧
          (∀ l y, a.page % 2 = 1 → s.bufAt .retained lower = some l → s.buf l = some y →
            t.buf l = some { y with st := .verifying } ∧ l ∈ t.staging.verifying) ∧
          (∀ y, s.block a.blk = some y → (y.st = .active ∧ 0 < y.live) ∨ y.st = .full →
            (t.block a.blk).map BlockRec.st = some .full) ∧
          t.settings = s.settings ∧ t.gauge = s.gauge ∧ t.motion = s.motion ∧ t.power.clock = s.power.clock) ∧
      (same → (∀ n data, r = .corrected n data → n < s.refreshBits) → HandStill x.hdr.line s →
        x.job = .intake ∨ x.job = .reloc →
        let written := fun handed : State → Prop => ∃ t, done = .next t ∧ handed t ∧ Released b x a s t ∧
          ((t.die d).bind Die.op) = none ∧
          (∀ c, c ≠ b → (a.page % 2 = 1 → s.bufAt .retained lower ≠ some c) → t.buf c = s.buf c) ∧
          t.settings = s.settings ∧ t.gauge = s.gauge ∧ t.motion = s.motion ∧ t.power = s.power ∧ t.link = s.link
        let stands := fun t : State => t.store = s.store ∧ t.flash.blocks = s.flash.blocks
        let again := fun old : Nat => (x.reported = true ∧ old = x.hdr.sup) ∨
          (x.reported = false ∧ x.origin = .relocation ∧ old = x.hdr.orig)
        (x.handed = true → written stands) ∧
        (x.handed = false → x.reported = false → x.origin ≠ .relocation →
          (∀ l, s.line x.hdr.line = some l → l.indexing = true → written (Entered x.hdr a l s)) ∧
          ((∀ l, s.line x.hdr.line = some l → l.indexing = false) → written stands)) ∧
        (∀ old l y, x.handed = false → again old → s.line x.hdr.line = some l →
          l.pool.find? (fun p => p.e.first == x.hdr.first) = some y →
          (∀ c, y.e.wseq = old → y.e.loc = some c → (∀ k, s.block a.blk = some k → k.live < 256) →
            (∀ k, s.block c.blk = some k → k.st ≠ .anchor ∧ 2 ≤ k.live) → written (Replaced x.hdr a c y l s)) ∧
          (y.e.wseq ≠ old ∨ y.e.loc = none → written stands))))

/-- Reads that end. The root of a HELD view names its segments, and the first that the cursor and the bound let through is requested.
A page of the walk that reads BLANK ends it, and its block leaves the refresh queue; a block that has ceased to be the head and is
the head again does not leave it, and is walked again from its page 0. A live DATA or ROOT page of the walk is copied: its
relocation image is queued at the tail, the write sequence it read superseded and the origin, and the walk goes on to the next page.
The last segment of a reopened line that reads well ends the load: a full one stays in the root store, and the entries of any other
become the open segment in the pool, or wait for room there; an unreadable one leaves the line DAMAGED, its load ended, and the
segment one that no index read reads. A page that waits to be read again is requested once a relocation buffer is to be had, and a
load that waits for the pool ends once the pool has room. -/
def Obligations.ReadsThatEndMoveTheirOwners : Prop :=
  ∀ (d : Nat) (o : Op) (s : State), Still s →
    let op := (s.die d).bind Die.op = some o
    (∀ (c : RetrCtx) (a a' : Addr) (ref : SegRef) (refs : List SegRef) (data : List Byte), op → o.kind = .retrieval a →
      s.retr.ctx = some c → c.read = some { addr := a, purpose := .root, started := true, stale := false } →
      c.held = true → c.msg = none → c.ended = false → c.stop = .none → c.todo = [] →
      c.sent < c.max → c.cursor < c.bound → rootOf c.line (.clean data) = some (ref :: refs) → c.cursor ≤ ref.last →
      ref.first < c.bound → ref.loc = some a' → (s.retr.set c.line 0).find c.line 0 = none → s.dieReady a'.die = true →
      ∃ t, exec (.retrievalReadComplete d (.clean data)) s = .next t ∧ t.retr = { s.retr with ctx := some { c with
          root := some (ref :: refs),
          read := some { addr := a', purpose := .segment 0 ref, started := false, stale := false } } } ∧
        ((t.die d).bind Die.op) = none ∧ t.store = s.store ∧ t.staging = s.staging ∧ t.link = s.link ∧
        t.settings = s.settings ∧ t.gauge = s.gauge ∧ t.motion = s.motion ∧ t.power = s.power) ∧
    (∀ (w : Walk) (q : ReadReq), op → o.kind = .relocation q → q.purpose = .walk → q.addr = w.addr →
      s.store.walk = some w → w.phase = .reading →
      let done := exec (.relocationReadComplete d .blank) s
      let idle := s.flash.dies.modify d fun y => { y with op := none }
      (w.stopped = false → s.flash.refresh.erase w.blk = [] → done = .next (updateWait { s with
        store := { s.store with walk := none }, flash := { s.flash with dies := idle, refresh := [] } })) ∧
      (w.stopped = true → s.flash.refresh.head? = some w.blk → s.mayWalk = true → s.dieReady w.blk.die = true →
        (∃ k, s.block w.blk = some k ∧ 0 < k.live) → done = .next (updateWait { s with
          store := { s.store with
            walk := some { blk := w.blk, page := 0, phase := .reading, heldRoot := none, heldSeg := none } },
          flash := { s.flash with
            dies := idle, reads := s.flash.reads ++ [{ addr := { w.addr with page := 0 }, purpose := .walk }] } }))) ∧
    (∀ (w : Walk) (q : ReadReq) (b : Nat) (h : PageHdr) (l : Line) (data : List Byte), op → o.kind = .relocation q →
      q.purpose = .walk → q.addr = w.addr → s.store.walk = some w → w.phase = .reading → w.stopped = false →
      s.flash.refresh.head? = some w.blk → w.page < 255 → s.dieReady w.blk.die = true →
      s.relocRoom = true → s.freeBuffer = some b → parseHdr data = some h → s.line h.line = some l →
      (h.kind = .data ∧ ∃ p, l.pool.find? (fun p => decide (p.e.first ≤ h.first) && decide (h.first ≤ p.e.last)) = some p ∧
          p.e.loc = some w.addr ∧ p.e.wseq = h.wseq) ∨
        (h.kind = .root ∧ l.root = some { addr := w.addr, wseq := h.wseq }) →
      ∃ t, exec (.relocationReadComplete d (.clean data)) s = .next t ∧ t.staging.queue = s.staging.queue ++ [b] ∧
        (∃ x, t.buf b = some x ∧ x.st = .queued ∧ x.origin = .relocation ∧ x.reported = false ∧ x.handed = false ∧
          x.hdr = { h with wseq := 0, sup := h.wseq, orig := h.wseq, verified := false, relocated := false, cpSeq := 0 } ∧
          x.body = pageBody h data) ∧
        (∀ c, c ≠ b → t.buf c = s.buf c) ∧ t.store = { s.store with walk := some { w with page := w.page + 1 } } ∧
        t.flash.reads = s.flash.reads ++ [{ addr := { w.addr with page := w.page + 1 }, purpose := .walk }] ∧
        t.flash.blocks = s.flash.blocks ∧ ((t.die d).bind Die.op) = none ∧ t.link = s.link ∧ t.retr = s.retr ∧
        t.settings = s.settings ∧ t.gauge = s.gauge ∧ t.motion = s.motion ∧ t.power = s.power) ∧
    (∀ (n : Nat) (l : Line) (q : ReadReq), op → o.kind = .relocation q → q.purpose = .loadSegment n →
      s.line n = some l → l.st = .opened → l.load = .readSegment → s.store.pendings = [] →
      (l.refs.getLast?).bind SegRef.loc = some q.addr →
      let becomes := fun (r : ReadResult) (k : Line) => ∃ t, exec (.indexReadComplete d r) s = .next t ∧
        t.line n = some k ∧ (∀ m, m ≠ n → t.line m = s.line m) ∧ ((t.die d).bind Die.op) = none ∧ t.staging = s.staging ∧
        t.settings = s.settings ∧ t.gauge = s.gauge ∧ t.motion = s.motion ∧ t.power = s.power
      becomes .uncorrectable { l with
        load := .none, flags := { l.flags with damaged := true }, unread := l.unread ++ [l.refs.length - 1] } ∧
      ∀ (data : List Byte) (es : List PageEntry), segmentOf n (l.refs.length - 1) (.clean data) = some es →
        (510 ≤ es.length → becomes (.clean data) { l with load := .none }) ∧
        (es.length < 510 → es.length ≤ s.poolFree → becomes (.clean data) { l with
          load := .none,
          pool := es.foldr (fun e p => insertPool { e := e, inSeg := true, out := false } p) l.pool }) ∧
        (es.length < 510 → s.poolFree < es.length → becomes (.clean data) { l with load := .waitPool es })) ∧
    (∀ w, s.store.walk = some w → w.phase = .retry →
      (s.relocRoom = true → s.mayWalk = true → s.dieReady w.blk.die = true →
        exec .relocationRetry s = .next (updateWait { s with
          store := { s.store with walk := some { w with phase := .reading } },
          flash := { s.flash with reads := s.flash.reads ++ [{ addr := w.addr, purpose := .walk }] } })) ∧
      (s.relocRoom = false → exec .relocationRetry s = .next (updateWait s))) ∧
    (∀ (n : Nat) (l : Line) (es : List PageEntry), s.line n = some l → l.st = .opened → l.load = .waitPool es →
      s.store.pendings = [] → ∃ t, exec (.reopenPoolLoad n) s = .next t ∧
        t.line n = some (if es.length ≤ s.poolFree then { l with
            load := .none,
            pool := es.foldr (fun e p => insertPool { e := e, inSeg := true, out := false } p) l.pool } else l) ∧
        (∀ m, m ≠ n → t.line m = s.line m) ∧ t.flash = s.flash ∧ t.staging = s.staging ∧ t.link = s.link ∧
        t.settings = s.settings ∧ t.gauge = s.gauge ∧ t.motion = s.motion ∧ t.power = s.power)

/-- An erase that passes sets the erased mark of its die's active block, one that fails leaves the block RETIRED, and each
counts in the block's erase count. An operation that exceeds its timeout leaves its die not READY and without an operation. -/
def Obligations.ErasesAndTimeoutsEnd : Prop :=
  ∀ (d : Nat) (o : Op) (s : State), (s.die d).bind Die.op = some o →
    (∀ n r, o.kind = .erase n → isAnchor { die := d, block := n } = false → s.block { die := d, block := n } = some r →
      (Still s → r.erases < 99999 → exec (.eraseComplete d true) s = .next (updateWait { s with
        flash := { s.flash with
          blocks := mapIf (fun r => r.id == { die := d, block := n }) (fun r =>
            { r with erases := min (r.erases + 1) 4294967295 })
            s.flash.blocks,
          dies := s.flash.dies.modify d fun y => { y with
            op := none,
            active := y.active.map fun t => if t.block = n then { t with erased := true } else t } } })) ∧
      (Still s → ∃ t, exec (.eraseComplete d false) s = .next t ∧ ((t.die d).bind Die.op) = none ∧
        ((t.block { die := d, block := n }).map fun r => (r.st, r.erases)) =
          some (.retired, min (r.erases + 1) 4294967295) ∧
        t.settings = s.settings ∧ t.gauge = s.gauge ∧ t.power.clock = s.power.clock)) ∧
    (∀ e, e ≠ d → s.dieReady e = true → d ≠ 0 → s.dieReady 0 = true → ∃ t, exec (.operationTimeout d) s = .next t ∧
      t.dieReady d = false ∧ ((t.die d).bind Die.op) = none ∧ (∀ c, c ≠ d → t.dieReady c = s.dieReady c) ∧
      t.settings = s.settings ∧ t.gauge = s.gauge ∧ t.motion = s.motion ∧ t.power.clock = s.power.clock)

/-! ## Checkpoints, FORMAT and the power manager's events -/

/-- A program count of 1,024 requests a checkpoint: with none in progress and no OPEN or CLOSING line its flush step is over at
once; while one is being written the pending mark is set; below 1,024, and where no snapshot is ready, the row is not its event and
changes nothing (log entry 2, DEDUCED). At the snapshot the checkpoint
sequence grows by 1 and the program count becomes 0, and the snapshot holds what the store holds. -/
def Obligations.CheckpointsAreRequestedAndTaken : Prop :=
  ∀ s : State, Still s →
    (s.store.progCount < 1024 → exec .programCountCheckpoint s = .next s) ∧
    (1024 ≤ s.store.progCount →
      (s.store.ckpt = none → (∀ l ∈ s.store.lines, l.indexing = false) → exec .programCountCheckpoint s =
        .next (updateWait { s with store := { s.store with ckpt := some (.flushing [] []), ckptPend := false } })) ∧
      (∀ snap, s.store.ckpt = some (.writing snap) → exec .programCountCheckpoint s =
        .next (updateWait { s with store := { s.store with ckptPend := true } }))) ∧
    (s.snapshotReady = false → exec .checkpointSnapshot s = .next s) ∧
    (s.store.ckpt = some (.flushing [] []) → s.rootUsed ≤ 4080 → s.dieReady 0 = true → s.flash.ringDue = false →
      26 + (s.rootUsed + 1019) / 1020 ≤ s.ringLeft → ∃ t snap, exec .checkpointSnapshot s = .next t ∧
        t.store = { s.store with ckptSeq := s.store.ckptSeq + 1, progCount := 0, ckpt := some (.writing snap) } ∧
        snap.seq = s.store.ckptSeq + 1 ∧ snap.nextW = s.store.wseq ∧ snap.clock = s.power.clock ∧
        snap.pages = 26 + (s.rootUsed + 1019) / 1020 ∧ snap.handed = 0 ∧ snap.lines = s.store.lines ∧
        snap.score = s.motion.score ∧ snap.log = s.motion.log ∧ snap.fcc = s.gauge.fcc ∧ snap.res = s.gauge.res ∧
        snap.permit = s.settings.permit ∧ t.settings = s.settings ∧ t.gauge = s.gauge ∧ t.motion = s.motion ∧
        t.link = s.link ∧ t.flash.blocks = s.flash.blocks)

/-- The format event, with no buffer QUEUED, PROGRAMMING or VERIFYING: no line, no slot and no cached segment is left, every block of a
READY die outside the anchor area is FREE or RETIRED with no reference counted, the free list is the FREE blocks in the order
of the block table, and the command waits for the checkpoint that is requested; one that was begun meanwhile is abandoned and
started anew (log entry 49, DEDUCED). Before the event can be taken its row changes nothing (log entry 2). -/
def Obligations.FormatEventEmptiesTheStore : Prop :=
  ∀ s : State,
    (s.formatReady = false → exec .formatEvent s = .next s) ∧
    (s.isRunning .format = true → s.power.fmt = .waiting →
      (∀ x ∈ s.staging.bufs, ∀ b, x = some b → b.st ≠ .programming ∧ b.st ≠ .verifying) → s.staging.queue = [] →
      Still s → ∃ t, exec .formatEvent s = .next t ∧ t.store.lines = [] ∧ t.store.pendings = [] ∧
        t.store.walk = none ∧ t.store.erase = none ∧ t.store.ckpt = some (.flushing [] []) ∧
        t.store.waiters = s.store.waiters ++ [(.command, s.store.ckptSeq + 1)] ∧
        (∀ x ∈ t.intake.slots, x = none) ∧ (∀ c ∈ t.retr.cache, ∀ w ∈ c.ways, w = none) ∧ t.flash.refresh = [] ∧
        t.flash.pendingRec = [] ∧ t.flash.reads = [] ∧ (∀ x ∈ t.flash.dies, x.active = none) ∧
        (∀ r ∈ t.flash.blocks, r.live = 0 ∧
          (s.dieReady r.id.die = true → r.st = .anchor ∨ r.st = .free ∨ r.st = .retired)) ∧
        t.flash.freeList = (t.flash.blocks.filter fun r => r.st == .free).map BlockRec.id ∧
        t.power.fmt = .checkpoint ∧ t.settings = s.settings ∧ t.gauge = s.gauge ∧ t.motion = s.motion)

/-- A running PAUSE that finds the store quiet requests its checkpoint, and after it ends with OK and the pause state, which sets
the pause-entry mark. When the last byte of that reply is sent (which reply it is: log entry 53, DEDUCED) the part enters the
pause state, and DEEP PAUSE leaves the motion monitor in CALM, from SETTLING with no SETTLED raised (log entry 87, DESIGN CHOICE);
a buffer that is QUEUED by then holds neither entry back (log entry 68, DESIGN CHOICE). Out of their conditions the two rows change
nothing (log entries 2 and 54, DEDUCED). -/
def Obligations.PauseGoesFromQuietToThePauseState : Prop :=
  ∀ s : State,
    (s.isRunning .pause = true → s.quiet = true →
      (s.power.pause = .quiet → s.store.ckpt = none → (∀ l ∈ s.store.lines, l.indexing = false) →
        exec .pauseQuiet s = .next { s with
          power := { s.power with pause := .checkpoint },
          store := { s.store with
            waiters := s.store.waiters ++ [(.command, s.store.ckptSeq + 1)], ckpt := some (.flushing [] []),
            ckptPend := false } }) ∧
      (∀ r, s.power.pause = .checkpointed → s.link.running = some r → r.final = none → s.link.fifo.length < 32 →
        let st : PowerState := if s.watchInPause then .light else .deep
        exec .pauseQuiet s = .next (updateWait { s with
          power := { s.power with pause := .none, fmt := .none, pauseMark := some st },
          link := LinkUnit.choose s.paused { s.link with
            running := none,
            fifo := s.link.fifo ++ [{ cls := .final, kind := CmdKind.pause.code, tag := r.cmd.tag,
                                      body := replyBody .ok (le1 st.code) }] } }))) ∧
    (s.isRunning .pause = false → exec .pauseQuiet s = .next s) ∧
    (∀ (m : Message) (st : PowerState), s.power.pauseMark = some st → s.link.sending = some m → m.isPauseReply = true →
      (∀ x ∈ s.link.fifo, x.isPauseReply = false) →
      (st = .light → exec .pauseEntry s = .next (updateWait { s with
        power := { s.power with st := .light, pauseMark := none }, link := { s.link with sending := none } })) ∧
      (st = .deep → s.motion.st = .calm ∨ s.motion.st = .settling → exec .pauseEntry s = .next (updateWait { s with
        power := { s.power with st := .deep, pauseMark := none }, link := { s.link with sending := none },
        motion := { s.motion with
          st := .calm, lowRun := 0, midRun := 0, quietRun := 0, bandRun := 0, recovery := 0 } }))) ∧
    (s.power.pauseMark = none → exec .pauseEntry s = .next s)

/-- An orderly closeout with no line OPEN or CLOSING left requests the checkpoint that it then waits for. An emergency closeout
with no program in flight and no page of the intake queued or to be read back enters LOW-HALT. Before its condition stands
neither row is its event, and neither moves (log entry 2, DEDUCED). -/
def Obligations.CloseoutsReachTheirCheckpointOrLowHalt : Prop :=
  ∀ s : State,
    (s.power.closeout = none → exec .closeoutRelease s = .next s) ∧
    (∀ c stuck, s.power.closeout = some c → c.kind = .orderly false stuck → (∀ l ∈ s.store.lines, l.indexing = false) →
      s.store.ckpt = none → Still s → ∃ t, exec .closeoutRelease s = .next t ∧
        t.power = { s.power with closeout := some { c with kind := .orderly true false } } ∧
        t.store = { s.store with
          waiters := s.store.waiters ++ [(.closeout, s.store.ckptSeq + 1)], ckpt := some (.flushing [] []),
          ckptPend := false } ∧
        t.settings = s.settings ∧ t.gauge = s.gauge ∧ t.motion = s.motion) ∧
    (s.lowHaltDue = false → exec .lowHaltEntry s = .next (updateWait s)) ∧
    (s.emergency = true → s.power.st ≠ .lowHalt → s.programming = false →
      (∀ x ∈ s.staging.bufs, ∀ b, x = some b → b.origin = .intake → b.st ≠ .queued ∧ b.st ≠ .verifying) →
      s.link.running = none → s.link.waiting = [] → exec .lowHaltEntry s = .next { s with
        power := { s.power with st := .lowHalt }, intake := { s.intake with wait := true } })

/-- The die detection of the mount: with no die answering the mount ends in MEDIA-FAULT, the decay timer and the gauge's samples
begin, the space conditions are judged (log entry 34, DEDUCED), and MOUNTED is raised with MEDIA-FAULT and the reset cause; otherwise every answering
die is READY and the settings pages are read from anchor position 0 on. A settings page that cannot be read is passed over;
after the last position, or at one that is BLANK, the ring is read next, and with no valid page read the defaults stand. An
UNCORRECTABLE page of the mount's own reads raises no MEDIA (log entry 91, DEDUCED). With no mount in progress nothing happens. A notice raised joins the queue at its tail with the detail, a count of 1 and the run
clock; one of its kind that is pending keeps its place and time, takes the detail and counts one more, up to 255. -/
def Obligations.MountDetectsTheDiesAndNoticesCoalesce : Prop :=
  ∀ (m : Mount) (s : State),
    (∀ a, s.power.mount = none → exec (.mountReadComplete a) s = .next s) ∧
    (s.power.mount = some m → m.phase = .detect →
      (let u := judgeSpace { s with
         power := { s.power with store := .mediaFault, mount := none }, motion := { s.motion with decayOn := true },
         gauge := { s.gauge with sampling := true } }
       exec (.mountReadComplete (.detected 0)) s =
         .next (raiseNotice .mounted (le1 StoreState.mediaFault.code ++ le1 s.power.resetCause.code) u) ∧
       u.power = { s.power with store := .mediaFault, mount := none } ∧ u.motion = { s.motion with decayOn := true } ∧
       u.gauge = { s.gauge with sampling := true } ∧ u.settings = s.settings ∧ u.store = s.store ∧
       u.flash.blocks = s.flash.blocks ∧ u.staging = s.staging) ∧
      (∀ n, 1 ≤ n → n ≤ 8 → exec (.mountReadComplete (.detected n)) s = .next { s with
        flash := { s.flash with
          dies := List.replicate n { ready := true, op := none, active := none, due := [] } },
        power := { s.power with mount := some { m with phase := .settings 0 none } } })) ∧
    (∀ pos best, s.power.mount = some m → m.phase = .settings pos best → WalkStill s →
      s.flash.reads = [] → s.retr.ctx = none → s.isRunning .pause = false → s.emergency = false →
      (pos ≤ 252 → exec (.mountReadComplete (.page .uncorrectable)) s = .next (updateWait { s with
        power := { s.power with mount := some { m with phase := .settings (pos + 2) best } } })) ∧
      (best = none →
        let loaded := fun (r : ReadResult) (next : Nat) => ∃ t, exec (.mountReadComplete (.page r)) s = .next t ∧
          t.power = { s.power with mount := some { m with phase := .ring 1 0 [] [], setFound := false } } ∧
          t.flash.setPos = next ∧ t.flash.erase0 = false ∧ t.gauge.sampling = true ∧
          t.settings = { items := Settings.defaults, permit := .default, saved := none } ∧ t.staging = s.staging ∧
          t.store = s.store
        (pos = 254 → loaded .uncorrectable 256) ∧ loaded .blank pos)) ∧
    (∀ (k : NoticeKind) (detail : List Byte),
      let raised := fun q : List NoticeEntry =>
        raiseNotice k detail s = { s with link := LinkUnit.choose s.paused { s.link with notices := q } }
      ((∀ e ∈ s.link.notices, e.kind ≠ k) →
        raised (s.link.notices ++ [{ kind := k, detail := detail, count := 1, first := s.power.clock }])) ∧
      (∀ xs e ys, s.link.notices = xs ++ e :: ys → e.kind = k → (∀ x ∈ xs ++ ys, x.kind ≠ k) →
        raised (xs ++ { e with detail := detail, count := min (e.count + 1) 255 } :: ys)))

/-! ## Values the rules give -/

/-- The magnitude of a sample is the largest integer whose square is at most the sum of the squares of the saturated readings, it
is at most 55,425, and the peak axis is that of the largest absolute value, X before Y before Z where they tie. -/
def Obligations.MagnitudeIsTheIntegerSquareRoot : Prop :=
  ∀ raw : Triple,
    let t := raw.saturate
    let m : Int := t.magnitude
    t = { x := max (-32000) (min 32000 raw.x), y := max (-32000) (min 32000 raw.y), z := max (-32000) (min 32000 raw.z) } ∧
    m * m ≤ t.x * t.x + t.y * t.y + t.z * t.z ∧ t.x * t.x + t.y * t.y + t.z * t.z < (m + 1) * (m + 1) ∧ m ≤ 55425 ∧
    t.x * t.x + t.y * t.y + t.z * t.z ≤ 3072000000 ∧
    (t.y.natAbs ≤ t.x.natAbs → t.z.natAbs ≤ t.x.natAbs → t.peakAxis = .x) ∧
    (t.x.natAbs < t.y.natAbs → t.z.natAbs ≤ t.y.natAbs → t.peakAxis = .y) ∧
    (t.x.natAbs < t.z.natAbs → t.y.natAbs < t.z.natAbs → t.peakAxis = .z)

/-- The recency marks after each way is used, the victim of a fill, and that a fill uses the way it fills while an invalidation
leaves the marks. -/
def Obligations.CacheMarksAndVictimFollowTheTable : Prop :=
  ∀ (c : CacheSet) (x : Way) (hit : Way → Bool),
    c.use 0 = { c with half := true, left := true } ∧ c.use 1 = { c with half := true, left := false } ∧
    c.use 2 = { c with half := false, right := true } ∧ c.use 3 = { c with half := false, right := false } ∧
    (∀ v, c.ways[v]? = some none → (∀ u, u < v → ∃ y, c.ways[u]? = some (some y)) → c.victim = v) ∧
    ((∀ w ∈ c.ways, w.isSome = true) →
      c.victim = if c.half then (if c.right then 3 else 2) else (if c.left then 1 else 0)) ∧
    c.fill x = { c with ways := c.ways.set c.victim (some x) }.use c.victim ∧
    (c.drop hit).half = c.half ∧ (c.drop hit).left = c.left ∧ (c.drop hit).right = c.right ∧
    (c.drop hit).ways = c.ways.map (fun w => w.filter fun y => !hit y)

/-- The class of an impact by its peak, with the points each class carries. -/
def Obligations.ImpactClassesFollowThePeak : Prop :=
  ∀ peak : Nat,
    (classOfPeak peak = .slight ↔ peak < 3000) ∧ (classOfPeak peak = .minor ↔ 3000 ≤ peak ∧ peak ≤ 5999) ∧
    (classOfPeak peak = .moderate ↔ 6000 ≤ peak ∧ peak ≤ 11999) ∧
    (classOfPeak peak = .severe ↔ 12000 ≤ peak ∧ peak ≤ 23999) ∧ (classOfPeak peak = .extreme ↔ 24000 ≤ peak) ∧
    ImpactClass.none.points = 0 ∧ ImpactClass.slight.points = 0 ∧ ImpactClass.minor.points = 1 ∧
    ImpactClass.moderate.points = 4 ∧ ImpactClass.severe.points = 16 ∧ ImpactClass.extreme.points = 64
end

