-- ==== Sys2Proof/Laws/State.lean ====
section
/-!
SUPPORT. One lemma per field and update of `State`: what a change of one block does to every block, and the small
operations that change one block alone. All hold by definition, so that no later proof unfolds a record update.
-/
namespace Sys2Proof.Machine

/-! ## modLink -/

@[simp] theorem modLink_pending (f : LinkUnit → LinkUnit) (s : State) : (s.modLink f).pending = s.pending := rfl
@[simp] theorem modLink_straps (f : LinkUnit → LinkUnit) (s : State) : (s.modLink f).straps = s.straps := rfl
@[simp] theorem modLink_link (f : LinkUnit → LinkUnit) (s : State) : (s.modLink f).link = f s.link := rfl
@[simp] theorem modLink_intake (f : LinkUnit → LinkUnit) (s : State) : (s.modLink f).intake = s.intake := rfl
@[simp] theorem modLink_staging (f : LinkUnit → LinkUnit) (s : State) : (s.modLink f).staging = s.staging := rfl
@[simp] theorem modLink_flash (f : LinkUnit → LinkUnit) (s : State) : (s.modLink f).flash = s.flash := rfl
@[simp] theorem modLink_store (f : LinkUnit → LinkUnit) (s : State) : (s.modLink f).store = s.store := rfl
@[simp] theorem modLink_retr (f : LinkUnit → LinkUnit) (s : State) : (s.modLink f).retr = s.retr := rfl
@[simp] theorem modLink_motion (f : LinkUnit → LinkUnit) (s : State) : (s.modLink f).motion = s.motion := rfl
@[simp] theorem modLink_gauge (f : LinkUnit → LinkUnit) (s : State) : (s.modLink f).gauge = s.gauge := rfl
@[simp] theorem modLink_power (f : LinkUnit → LinkUnit) (s : State) : (s.modLink f).power = s.power := rfl
@[simp] theorem modLink_settings (f : LinkUnit → LinkUnit) (s : State) : (s.modLink f).settings = s.settings := rfl

/-! ## modIntake -/

@[simp] theorem modIntake_pending (f : Intake → Intake) (s : State) : (s.modIntake f).pending = s.pending := rfl
@[simp] theorem modIntake_straps (f : Intake → Intake) (s : State) : (s.modIntake f).straps = s.straps := rfl
@[simp] theorem modIntake_link (f : Intake → Intake) (s : State) : (s.modIntake f).link = s.link := rfl
@[simp] theorem modIntake_intake (f : Intake → Intake) (s : State) : (s.modIntake f).intake = f s.intake := rfl
@[simp] theorem modIntake_staging (f : Intake → Intake) (s : State) : (s.modIntake f).staging = s.staging := rfl
@[simp] theorem modIntake_flash (f : Intake → Intake) (s : State) : (s.modIntake f).flash = s.flash := rfl
@[simp] theorem modIntake_store (f : Intake → Intake) (s : State) : (s.modIntake f).store = s.store := rfl
@[simp] theorem modIntake_retr (f : Intake → Intake) (s : State) : (s.modIntake f).retr = s.retr := rfl
@[simp] theorem modIntake_motion (f : Intake → Intake) (s : State) : (s.modIntake f).motion = s.motion := rfl
@[simp] theorem modIntake_gauge (f : Intake → Intake) (s : State) : (s.modIntake f).gauge = s.gauge := rfl
@[simp] theorem modIntake_power (f : Intake → Intake) (s : State) : (s.modIntake f).power = s.power := rfl
@[simp] theorem modIntake_settings (f : Intake → Intake) (s : State) : (s.modIntake f).settings = s.settings := rfl

/-! ## modStaging -/

@[simp] theorem modStaging_pending (f : Staging → Staging) (s : State) : (s.modStaging f).pending = s.pending := rfl
@[simp] theorem modStaging_straps (f : Staging → Staging) (s : State) : (s.modStaging f).straps = s.straps := rfl
@[simp] theorem modStaging_link (f : Staging → Staging) (s : State) : (s.modStaging f).link = s.link := rfl
@[simp] theorem modStaging_intake (f : Staging → Staging) (s : State) : (s.modStaging f).intake = s.intake := rfl
@[simp] theorem modStaging_staging (f : Staging → Staging) (s : State) : (s.modStaging f).staging = f s.staging := rfl
@[simp] theorem modStaging_flash (f : Staging → Staging) (s : State) : (s.modStaging f).flash = s.flash := rfl
@[simp] theorem modStaging_store (f : Staging → Staging) (s : State) : (s.modStaging f).store = s.store := rfl
@[simp] theorem modStaging_retr (f : Staging → Staging) (s : State) : (s.modStaging f).retr = s.retr := rfl
@[simp] theorem modStaging_motion (f : Staging → Staging) (s : State) : (s.modStaging f).motion = s.motion := rfl
@[simp] theorem modStaging_gauge (f : Staging → Staging) (s : State) : (s.modStaging f).gauge = s.gauge := rfl
@[simp] theorem modStaging_power (f : Staging → Staging) (s : State) : (s.modStaging f).power = s.power := rfl
@[simp] theorem modStaging_settings (f : Staging → Staging) (s : State) : (s.modStaging f).settings = s.settings := rfl

/-! ## modFlash -/

@[simp] theorem modFlash_pending (f : Flash → Flash) (s : State) : (s.modFlash f).pending = s.pending := rfl
@[simp] theorem modFlash_straps (f : Flash → Flash) (s : State) : (s.modFlash f).straps = s.straps := rfl
@[simp] theorem modFlash_link (f : Flash → Flash) (s : State) : (s.modFlash f).link = s.link := rfl
@[simp] theorem modFlash_intake (f : Flash → Flash) (s : State) : (s.modFlash f).intake = s.intake := rfl
@[simp] theorem modFlash_staging (f : Flash → Flash) (s : State) : (s.modFlash f).staging = s.staging := rfl
@[simp] theorem modFlash_flash (f : Flash → Flash) (s : State) : (s.modFlash f).flash = f s.flash := rfl
@[simp] theorem modFlash_store (f : Flash → Flash) (s : State) : (s.modFlash f).store = s.store := rfl
@[simp] theorem modFlash_retr (f : Flash → Flash) (s : State) : (s.modFlash f).retr = s.retr := rfl
@[simp] theorem modFlash_motion (f : Flash → Flash) (s : State) : (s.modFlash f).motion = s.motion := rfl
@[simp] theorem modFlash_gauge (f : Flash → Flash) (s : State) : (s.modFlash f).gauge = s.gauge := rfl
@[simp] theorem modFlash_power (f : Flash → Flash) (s : State) : (s.modFlash f).power = s.power := rfl
@[simp] theorem modFlash_settings (f : Flash → Flash) (s : State) : (s.modFlash f).settings = s.settings := rfl

/-! ## modStore -/

@[simp] theorem modStore_pending (f : LineStore → LineStore) (s : State) : (s.modStore f).pending = s.pending := rfl
@[simp] theorem modStore_straps (f : LineStore → LineStore) (s : State) : (s.modStore f).straps = s.straps := rfl
@[simp] theorem modStore_link (f : LineStore → LineStore) (s : State) : (s.modStore f).link = s.link := rfl
@[simp] theorem modStore_intake (f : LineStore → LineStore) (s : State) : (s.modStore f).intake = s.intake := rfl
@[simp] theorem modStore_staging (f : LineStore → LineStore) (s : State) : (s.modStore f).staging = s.staging := rfl
@[simp] theorem modStore_flash (f : LineStore → LineStore) (s : State) : (s.modStore f).flash = s.flash := rfl
@[simp] theorem modStore_store (f : LineStore → LineStore) (s : State) : (s.modStore f).store = f s.store := rfl
@[simp] theorem modStore_retr (f : LineStore → LineStore) (s : State) : (s.modStore f).retr = s.retr := rfl
@[simp] theorem modStore_motion (f : LineStore → LineStore) (s : State) : (s.modStore f).motion = s.motion := rfl
@[simp] theorem modStore_gauge (f : LineStore → LineStore) (s : State) : (s.modStore f).gauge = s.gauge := rfl
@[simp] theorem modStore_power (f : LineStore → LineStore) (s : State) : (s.modStore f).power = s.power := rfl
@[simp] theorem modStore_settings (f : LineStore → LineStore) (s : State) : (s.modStore f).settings = s.settings := rfl

/-! ## modRetr -/

@[simp] theorem modRetr_pending (f : Retrieval → Retrieval) (s : State) : (s.modRetr f).pending = s.pending := rfl
@[simp] theorem modRetr_straps (f : Retrieval → Retrieval) (s : State) : (s.modRetr f).straps = s.straps := rfl
@[simp] theorem modRetr_link (f : Retrieval → Retrieval) (s : State) : (s.modRetr f).link = s.link := rfl
@[simp] theorem modRetr_intake (f : Retrieval → Retrieval) (s : State) : (s.modRetr f).intake = s.intake := rfl
@[simp] theorem modRetr_staging (f : Retrieval → Retrieval) (s : State) : (s.modRetr f).staging = s.staging := rfl
@[simp] theorem modRetr_flash (f : Retrieval → Retrieval) (s : State) : (s.modRetr f).flash = s.flash := rfl
@[simp] theorem modRetr_store (f : Retrieval → Retrieval) (s : State) : (s.modRetr f).store = s.store := rfl
@[simp] theorem modRetr_retr (f : Retrieval → Retrieval) (s : State) : (s.modRetr f).retr = f s.retr := rfl
@[simp] theorem modRetr_motion (f : Retrieval → Retrieval) (s : State) : (s.modRetr f).motion = s.motion := rfl
@[simp] theorem modRetr_gauge (f : Retrieval → Retrieval) (s : State) : (s.modRetr f).gauge = s.gauge := rfl
@[simp] theorem modRetr_power (f : Retrieval → Retrieval) (s : State) : (s.modRetr f).power = s.power := rfl
@[simp] theorem modRetr_settings (f : Retrieval → Retrieval) (s : State) : (s.modRetr f).settings = s.settings := rfl

/-! ## modMotion -/

@[simp] theorem modMotion_pending (f : Motion → Motion) (s : State) : (s.modMotion f).pending = s.pending := rfl
@[simp] theorem modMotion_straps (f : Motion → Motion) (s : State) : (s.modMotion f).straps = s.straps := rfl
@[simp] theorem modMotion_link (f : Motion → Motion) (s : State) : (s.modMotion f).link = s.link := rfl
@[simp] theorem modMotion_intake (f : Motion → Motion) (s : State) : (s.modMotion f).intake = s.intake := rfl
@[simp] theorem modMotion_staging (f : Motion → Motion) (s : State) : (s.modMotion f).staging = s.staging := rfl
@[simp] theorem modMotion_flash (f : Motion → Motion) (s : State) : (s.modMotion f).flash = s.flash := rfl
@[simp] theorem modMotion_store (f : Motion → Motion) (s : State) : (s.modMotion f).store = s.store := rfl
@[simp] theorem modMotion_retr (f : Motion → Motion) (s : State) : (s.modMotion f).retr = s.retr := rfl
@[simp] theorem modMotion_motion (f : Motion → Motion) (s : State) : (s.modMotion f).motion = f s.motion := rfl
@[simp] theorem modMotion_gauge (f : Motion → Motion) (s : State) : (s.modMotion f).gauge = s.gauge := rfl
@[simp] theorem modMotion_power (f : Motion → Motion) (s : State) : (s.modMotion f).power = s.power := rfl
@[simp] theorem modMotion_settings (f : Motion → Motion) (s : State) : (s.modMotion f).settings = s.settings := rfl

/-! ## modGauge -/

@[simp] theorem modGauge_pending (f : Gauge → Gauge) (s : State) : (s.modGauge f).pending = s.pending := rfl
@[simp] theorem modGauge_straps (f : Gauge → Gauge) (s : State) : (s.modGauge f).straps = s.straps := rfl
@[simp] theorem modGauge_link (f : Gauge → Gauge) (s : State) : (s.modGauge f).link = s.link := rfl
@[simp] theorem modGauge_intake (f : Gauge → Gauge) (s : State) : (s.modGauge f).intake = s.intake := rfl
@[simp] theorem modGauge_staging (f : Gauge → Gauge) (s : State) : (s.modGauge f).staging = s.staging := rfl
@[simp] theorem modGauge_flash (f : Gauge → Gauge) (s : State) : (s.modGauge f).flash = s.flash := rfl
@[simp] theorem modGauge_store (f : Gauge → Gauge) (s : State) : (s.modGauge f).store = s.store := rfl
@[simp] theorem modGauge_retr (f : Gauge → Gauge) (s : State) : (s.modGauge f).retr = s.retr := rfl
@[simp] theorem modGauge_motion (f : Gauge → Gauge) (s : State) : (s.modGauge f).motion = s.motion := rfl
@[simp] theorem modGauge_gauge (f : Gauge → Gauge) (s : State) : (s.modGauge f).gauge = f s.gauge := rfl
@[simp] theorem modGauge_power (f : Gauge → Gauge) (s : State) : (s.modGauge f).power = s.power := rfl
@[simp] theorem modGauge_settings (f : Gauge → Gauge) (s : State) : (s.modGauge f).settings = s.settings := rfl

/-! ## modPower -/

@[simp] theorem modPower_pending (f : Power → Power) (s : State) : (s.modPower f).pending = s.pending := rfl
@[simp] theorem modPower_straps (f : Power → Power) (s : State) : (s.modPower f).straps = s.straps := rfl
@[simp] theorem modPower_link (f : Power → Power) (s : State) : (s.modPower f).link = s.link := rfl
@[simp] theorem modPower_intake (f : Power → Power) (s : State) : (s.modPower f).intake = s.intake := rfl
@[simp] theorem modPower_staging (f : Power → Power) (s : State) : (s.modPower f).staging = s.staging := rfl
@[simp] theorem modPower_flash (f : Power → Power) (s : State) : (s.modPower f).flash = s.flash := rfl
@[simp] theorem modPower_store (f : Power → Power) (s : State) : (s.modPower f).store = s.store := rfl
@[simp] theorem modPower_retr (f : Power → Power) (s : State) : (s.modPower f).retr = s.retr := rfl
@[simp] theorem modPower_motion (f : Power → Power) (s : State) : (s.modPower f).motion = s.motion := rfl
@[simp] theorem modPower_gauge (f : Power → Power) (s : State) : (s.modPower f).gauge = s.gauge := rfl
@[simp] theorem modPower_power (f : Power → Power) (s : State) : (s.modPower f).power = f s.power := rfl
@[simp] theorem modPower_settings (f : Power → Power) (s : State) : (s.modPower f).settings = s.settings := rfl

/-! ## modSettings -/

@[simp] theorem modSettings_pending (f : Settings → Settings) (s : State) : (s.modSettings f).pending = s.pending := rfl
@[simp] theorem modSettings_straps (f : Settings → Settings) (s : State) : (s.modSettings f).straps = s.straps := rfl
@[simp] theorem modSettings_link (f : Settings → Settings) (s : State) : (s.modSettings f).link = s.link := rfl
@[simp] theorem modSettings_intake (f : Settings → Settings) (s : State) : (s.modSettings f).intake = s.intake := rfl
@[simp] theorem modSettings_staging (f : Settings → Settings) (s : State) : (s.modSettings f).staging = s.staging := rfl
@[simp] theorem modSettings_flash (f : Settings → Settings) (s : State) : (s.modSettings f).flash = s.flash := rfl
@[simp] theorem modSettings_store (f : Settings → Settings) (s : State) : (s.modSettings f).store = s.store := rfl
@[simp] theorem modSettings_retr (f : Settings → Settings) (s : State) : (s.modSettings f).retr = s.retr := rfl
@[simp] theorem modSettings_motion (f : Settings → Settings) (s : State) : (s.modSettings f).motion = s.motion := rfl
@[simp] theorem modSettings_gauge (f : Settings → Settings) (s : State) : (s.modSettings f).gauge = s.gauge := rfl
@[simp] theorem modSettings_power (f : Settings → Settings) (s : State) : (s.modSettings f).power = s.power := rfl
@[simp] theorem modSettings_settings (f : Settings → Settings) (s : State) : (s.modSettings f).settings = f s.settings := rfl

end Sys2Proof.Machine
end

