-- ==== Sys2Proof/Laws/Kept.lean ====
section
/-!
SUPPORT. The frame of the store's follow-up work: none of the operations below changes `State.kept`. One lemma per operation,
in the order the operations are built on each other; the provers cite these instead of unfolding them.
-/
namespace Sys2Proof.Machine

/-! ## One block's state at a time -/

@[simp] theorem kept_modStaging (f : Staging → Staging) (s : State) : (s.modStaging f).kept = s.kept := rfl
@[simp] theorem kept_modStore (f : LineStore → LineStore) (s : State) : (s.modStore f).kept = s.kept := rfl
@[simp] theorem kept_modRetr (f : Retrieval → Retrieval) (s : State) : (s.modRetr f).kept = s.kept := rfl

/-- A change of the link unit that moves its queues alone. -/
@[simp] theorem kept_modLink (f : LinkUnit → LinkUnit) (s : State)
    (h : ∀ l, (f l).parser = l.parser ∧ (f l).discard = l.discard ∧ (f l).errCrc = l.errCrc ∧ (f l).errLen = l.errLen ∧
      (f l).errTime = l.errTime ∧ (f l).dropped = l.dropped ∧ (f l).strap = l.strap ∧ (f l).rate3M = l.rate3M) :
    (s.modLink f).kept = s.kept := by
  obtain ⟨h1, h2, h3, h4, h5, h6, h7, h8⟩ := h s.link
  simp only [State.kept, State.modLink, h1, h2, h3, h4, h5, h6, h7, h8]

/-- A change of the intake unit that moves its slots and the wait line alone. -/
@[simp] theorem kept_modIntake (f : Intake → Intake) (s : State)
    (h : ∀ i, (f i).parser = i.parser ∧ (f i).hunt = i.hunt ∧ (f i).appends = i.appends ∧ (f i).openReq = i.openReq ∧
      (f i).lq = i.lq ∧ (f i).linkState = i.linkState ∧ (f i).elapsed = i.elapsed ∧
      (f i).intervalLen = i.intervalLen ∧ (f i).errored = i.errored ∧ (f i).lostClock = i.lostClock ∧
      (f i).counters = i.counters) :
    (s.modIntake f).kept = s.kept := by
  obtain ⟨h1, h2, h3, h4, h5, h6, h7, h8, h9, h10, h11⟩ := h s.intake
  simp only [State.kept, State.modIntake, h1, h2, h3, h4, h5, h6, h7, h8, h9, h10, h11]

/-- A change of the power manager that moves its power state and its own sequences alone. -/
@[simp] theorem kept_modPower (f : Power → Power) (s : State)
    (h : ∀ p, (f p).store = p.store ∧ (f p).closeout = p.closeout ∧ (f p).lastCause = p.lastCause ∧
      (f p).resetCause = p.resetCause ∧ (f p).wake = p.wake ∧ (f p).resume = p.resume ∧ (f p).clock = p.clock) :
    (s.modPower f).kept = s.kept := by
  obtain ⟨h1, h2, h3, h4, h5, h6, h7⟩ := h s.power
  simp only [State.kept, State.modPower, h1, h2, h3, h4, h5, h6, h7]

/-- A change of the flash controller that leaves every die READY or not, and with its operation. -/
@[simp] theorem kept_modFlash (f : Flash → Flash) (s : State)
    (h : ∀ fl, (f fl).dies.map Die.kept = fl.dies.map Die.kept) : (s.modFlash f).kept = s.kept := by
  simp only [State.kept, State.modFlash, h]

@[simp] theorem kept_modDie (d : Nat) (f : Die → Die) (s : State) (h : ∀ x, (f x).kept = x.kept) :
    (s.modDie d f).kept = s.kept := by
  refine kept_modFlash _ _ fun fl => ?_
  apply List.ext_getElem? fun n => ?_
  simp only [List.getElem?_map, List.getElem?_modify]
  split <;> cases fl.dies[n]? <;> simp [h]

/-- Work done one element after the other. -/
@[simp] theorem kept_foldl {α : Type} (f : State → α → State) (h : ∀ s a, (f s a).kept = s.kept) (l : List α)
    (s : State) : (l.foldl f s).kept = s.kept := by
  induction l generalizing s with
  | nil => rfl
  | cons a l ih => simp [ih, h]

@[simp] theorem kept_ite (c : Prop) [Decidable c] (s t : State) :
    (if c then s else t).kept = if c then s.kept else t.kept := by split <;> rfl

/-! ## The transmitter -/

@[simp] theorem choose_parser (stopped : Bool) (l : LinkUnit) :
    (l.choose stopped).parser = l.parser := by
  unfold LinkUnit.choose; split <;> [rfl; (split <;> [rfl; (split <;> rfl)])]
@[simp] theorem choose_discard (stopped : Bool) (l : LinkUnit) :
    (l.choose stopped).discard = l.discard := by
  unfold LinkUnit.choose; split <;> [rfl; (split <;> [rfl; (split <;> rfl)])]
@[simp] theorem choose_errCrc (stopped : Bool) (l : LinkUnit) :
    (l.choose stopped).errCrc = l.errCrc := by
  unfold LinkUnit.choose; split <;> [rfl; (split <;> [rfl; (split <;> rfl)])]
@[simp] theorem choose_errLen (stopped : Bool) (l : LinkUnit) :
    (l.choose stopped).errLen = l.errLen := by
  unfold LinkUnit.choose; split <;> [rfl; (split <;> [rfl; (split <;> rfl)])]
@[simp] theorem choose_errTime (stopped : Bool) (l : LinkUnit) :
    (l.choose stopped).errTime = l.errTime := by
  unfold LinkUnit.choose; split <;> [rfl; (split <;> [rfl; (split <;> rfl)])]
@[simp] theorem choose_dropped (stopped : Bool) (l : LinkUnit) :
    (l.choose stopped).dropped = l.dropped := by
  unfold LinkUnit.choose; split <;> [rfl; (split <;> [rfl; (split <;> rfl)])]
@[simp] theorem choose_strap (stopped : Bool) (l : LinkUnit) :
    (l.choose stopped).strap = l.strap := by
  unfold LinkUnit.choose; split <;> [rfl; (split <;> [rfl; (split <;> rfl)])]
@[simp] theorem choose_rate3M (stopped : Bool) (l : LinkUnit) :
    (l.choose stopped).rate3M = l.rate3M := by
  unfold LinkUnit.choose; split <;> [rfl; (split <;> [rfl; (split <;> rfl)])]
@[simp] theorem enter_parser (stopped : Bool) (m : Message) (l : LinkUnit) :
    (l.enter stopped m).parser = l.parser := by
  simp [LinkUnit.enter]
@[simp] theorem enter_discard (stopped : Bool) (m : Message) (l : LinkUnit) :
    (l.enter stopped m).discard = l.discard := by
  simp [LinkUnit.enter]
@[simp] theorem enter_errCrc (stopped : Bool) (m : Message) (l : LinkUnit) :
    (l.enter stopped m).errCrc = l.errCrc := by
  simp [LinkUnit.enter]
@[simp] theorem enter_errLen (stopped : Bool) (m : Message) (l : LinkUnit) :
    (l.enter stopped m).errLen = l.errLen := by
  simp [LinkUnit.enter]
@[simp] theorem enter_errTime (stopped : Bool) (m : Message) (l : LinkUnit) :
    (l.enter stopped m).errTime = l.errTime := by
  simp [LinkUnit.enter]
@[simp] theorem enter_dropped (stopped : Bool) (m : Message) (l : LinkUnit) :
    (l.enter stopped m).dropped = l.dropped := by
  simp [LinkUnit.enter]
@[simp] theorem enter_strap (stopped : Bool) (m : Message) (l : LinkUnit) :
    (l.enter stopped m).strap = l.strap := by
  simp [LinkUnit.enter]
@[simp] theorem enter_rate3M (stopped : Bool) (m : Message) (l : LinkUnit) :
    (l.enter stopped m).rate3M = l.rate3M := by
  simp [LinkUnit.enter]
@[simp] theorem raise_parser (clock : Nat) (k : NoticeKind) (d : List Byte) (l : LinkUnit) :
    (l.raise clock k d).parser = l.parser := rfl
@[simp] theorem raise_discard (clock : Nat) (k : NoticeKind) (d : List Byte) (l : LinkUnit) :
    (l.raise clock k d).discard = l.discard := rfl
@[simp] theorem raise_errCrc (clock : Nat) (k : NoticeKind) (d : List Byte) (l : LinkUnit) :
    (l.raise clock k d).errCrc = l.errCrc := rfl
@[simp] theorem raise_errLen (clock : Nat) (k : NoticeKind) (d : List Byte) (l : LinkUnit) :
    (l.raise clock k d).errLen = l.errLen := rfl
@[simp] theorem raise_errTime (clock : Nat) (k : NoticeKind) (d : List Byte) (l : LinkUnit) :
    (l.raise clock k d).errTime = l.errTime := rfl
@[simp] theorem raise_dropped (clock : Nat) (k : NoticeKind) (d : List Byte) (l : LinkUnit) :
    (l.raise clock k d).dropped = l.dropped := rfl
@[simp] theorem raise_strap (clock : Nat) (k : NoticeKind) (d : List Byte) (l : LinkUnit) :
    (l.raise clock k d).strap = l.strap := rfl
@[simp] theorem raise_rate3M (clock : Nat) (k : NoticeKind) (d : List Byte) (l : LinkUnit) :
    (l.raise clock k d).rate3M = l.rate3M := rfl

/-! ## The operations -/

@[simp] theorem kept_modLine (n : Nat) (f : Line → Line) (s : State) :
    (State.modLine n f s).kept = s.kept := by simp [State.modLine]

@[simp] theorem kept_flagLine (n : Nat) (f : LineFlags → LineFlags) (s : State) :
    (State.flagLine n f s).kept = s.kept := by simp [State.flagLine]

@[simp] theorem kept_modBlock (b : Blk) (f : BlockRec → BlockRec) (s : State) :
    (State.modBlock b f s).kept = s.kept := by simp [State.modBlock]

@[simp] theorem kept_takeOut (b : Blk) (st : BlockState) (s : State) : (takeOut b st s).kept = s.kept := by simp [takeOut]

@[simp] theorem kept_modBuf (b : Nat) (f : Buf → Buf) (s : State) : (State.modBuf b f s).kept = s.kept := by simp [State.modBuf]

@[simp] theorem kept_modCtx (f : RetrCtx → RetrCtx) (s : State) : (State.modCtx f s).kept = s.kept := by simp [State.modCtx]

@[simp] theorem kept_modMount (f : Mount → Mount) (s : State) : (State.modMount f s).kept = s.kept := by simp [State.modMount]

@[simp] theorem kept_setBuf (b : Nat) (x : Option Buf) (s : State) : (State.setBuf b x s).kept = s.kept := by simp [State.setBuf]

@[simp] theorem kept_setPhase (ph : MountPhase) (s : State) : (State.setPhase ph s).kept = s.kept := by simp [State.setPhase]

@[simp] theorem kept_setSlot (i : Nat) (x : Option Slot) (s : State) :
    (State.setSlot i x s).kept = s.kept := by simp [State.setSlot]

@[simp] theorem kept_requestRead (a : Addr) (p : Purpose) (s : State) :
    (requestRead a p s).kept = s.kept := by simp [requestRead]

@[simp] theorem kept_startRootRewrite (n : Nat) (s : State) : (startRootRewrite n s).kept = s.kept := by
  unfold startRootRewrite
  (repeat' split) <;> simp

@[simp] theorem kept_addDone (d : SegDone) (s : State) : (addDone d s).kept = s.kept := by simp [addDone]

@[simp] theorem kept_updateWait (s : State) : (updateWait s).kept = s.kept := by simp [updateWait]

@[simp] theorem kept_raiseNotice (k : NoticeKind) (d : List Byte) (s : State) :
    (raiseNotice k d s).kept = s.kept := by simp [raiseNotice]

@[simp] theorem kept_raiseSpace (low : Bool) (s : State) : (raiseSpace low s).kept = s.kept := by simp [raiseSpace]

@[simp] theorem kept_judgeSpace (s : State) : (judgeSpace s).kept = s.kept := by simp [judgeSpace]

@[simp] theorem kept_joinFree (b : Blk) (s : State) : (joinFree b s).kept = s.kept := by simp [joinFree]

@[simp] theorem kept_releasePending (s : State) : (releasePending s).kept = s.kept := by simp [releasePending]

@[simp] theorem kept_finalPlaced (c : StoreCmd) (f : Final) (s : State) :
    (finalPlaced c f s).kept = s.kept := by
  unfold finalPlaced
  split <;> simp

@[simp] theorem kept_endCommand (code : Code) (content : List Byte) (s : State) :
    (endCommand code content s).kept = s.kept := by
  unfold endCommand
  split
  · rfl
  · dsimp only
    split <;> simp

@[simp] theorem kept_endIf (k : CmdKind) (code : Code) (content : List Byte) (s : State) :
    (endIf k code content s).kept = s.kept := by
  unfold endIf
  split <;> simp

@[simp] theorem kept_settingsUnwritten (s : State) : (settingsUnwritten s).kept = s.kept := by simp [settingsUnwritten]

@[simp] theorem kept_settingsDue (s : State) : (settingsDue s).kept = s.kept := by
  unfold settingsDue
  split
  · rfl
  · dsimp only
    rw [kept_modDie]
    · simp
    · intro x
      repeat' split
      all_goals rfl

@[simp] theorem kept_putImage (b : Nat) (im : Image) (s : State) : (putImage b im s).kept = s.kept := by simp [putImage]

@[simp] theorem kept_giveBuffer (b : Nat) (im : Image) (t : LineStore) (s : State) :
    (giveBuffer b im t s).kept = s.kept := by simp [giveBuffer]

@[simp] theorem kept_addRequest (n : Nat) (q : ImageReq) (s : State) : (addRequest n q s).kept = s.kept := by
  induction n generalizing q s with
  | zero => simp [addRequest]
  | succ n ih =>
    unfold addRequest
    repeat' (first | (simp [ih]; done) | split | simp)

@[simp] theorem kept_requestImage (q : ImageReq) (s : State) : (requestImage q s).kept = s.kept := by simp [requestImage]

@[simp] theorem kept_handOver (b : Nat) (qs : List ImageReq) (s : State) : (handOver b qs s).kept = s.kept := by
  induction qs generalizing s with
  | nil => simp [handOver]
  | cons q qs ih =>
    unfold handOver
    repeat' (first | (simp [ih]; done) | split | simp)

@[simp] theorem kept_addWaiter (w : Option Waiter) (s : State) : (addWaiter w s).kept = s.kept := by
  unfold addWaiter
  split <;> simp

@[simp] theorem kept_refUp (a : Addr) (s : State) : (refUp a s).kept = s.kept := by simp [refUp]

@[simp] theorem kept_attach (counted : Bool) (made : Bool) (p : ReadPage) (s : State) :
    (attach counted made p s).kept = s.kept := by
  unfold attach
  repeat' (first | (simp; done) | split | dsimp only)

@[simp] theorem kept_countNew (p : Repl) (s : State) : (countNew p s).kept = s.kept := by
  unfold countNew
  split <;> simp

@[simp] theorem kept_setRefresh (bs : List Blk) (s : State) : (s.setRefresh bs).kept = s.kept := by simp [State.setRefresh]

@[simp] theorem kept_leaveRefresh (b : Blk) (s : State) : (leaveRefresh b s).kept = s.kept := by simp [leaveRefresh]

@[simp] theorem kept_reclaim (b : Blk) (s : State) : (reclaim b s).kept = s.kept := by simp [reclaim]

@[simp] theorem kept_refDown (a : Addr) (s : State) : (refDown a s).kept = s.kept := by
  unfold refDown
  split <;> simp

@[simp] theorem kept_dropLoc (a : Option Addr) (s : State) : (dropLoc a s).kept = s.kept := by
  unfold dropLoc
  split <;> simp

@[simp] theorem kept_enterPool (p : Repl) (x : PoolEnt) (s : State) : (enterPool p x s).kept = s.kept := by simp [enterPool]

@[simp] theorem kept_replacePool (p : Repl) (x : PoolEnt) (s : State) :
    (replacePool p x s).kept = s.kept := by simp [replacePool]

@[simp] theorem kept_uncountNew (p : Repl) (s : State) : (uncountNew p s).kept = s.kept := by
  unfold uncountNew
  split <;> simp

@[simp] theorem kept_removePending (p : Repl) (s : State) : (removePending p s).kept = s.kept := by simp [removePending]

@[simp] theorem kept_startSegRewrite (n : Nat) (k : Nat) (r : SegRef) (s : State) :
    (startSegRewrite n k r s).kept = s.kept := by
  unfold startSegRewrite
  split <;> simp

@[simp] theorem kept_assignPending (refs : List SegRef) (p : Repl) (s : State) :
    (assignPending refs p s).kept = s.kept := by
  unfold assignPending
  split <;> simp

@[simp] theorem kept_servePending (p : Repl) (s : State) : (servePending p s).kept = s.kept := by
  unfold servePending
  (repeat' split) <;> simp

@[simp] theorem kept_replaceCopy (p : Repl) (s : State) : (replaceCopy p s).kept = s.kept := by
  unfold replaceCopy
  (repeat' split) <;> simp

@[simp] theorem kept_setLoad (n : Nat) (ld : Load) (s : State) : (setLoad n ld s).kept = s.kept := by simp [setLoad]

@[simp] theorem kept_requestFlush (n : Nat) (pressure : Bool) (s : State) :
    (requestFlush n pressure s).kept = s.kept := by
  unfold requestFlush
  split <;> simp

@[simp] theorem kept_closeAdvance (n : Nat) (s : State) : (closeAdvance n s).kept = s.kept := by
  unfold closeAdvance
  split <;> simp

@[simp] theorem kept_servePendings (n : Nat) (s : State) : (servePendings n s).kept = s.kept := by simp [servePendings]

@[simp] theorem kept_loadEnd (n : Nat) (s : State) : (loadEnd n s).kept = s.kept := by simp [loadEnd]

@[simp] theorem kept_loadRootLost (n : Nat) (s : State) : (loadRootLost n s).kept = s.kept := by simp [loadRootLost]

@[simp] theorem kept_startRootLoad (n : Nat) (s : State) : (startRootLoad n s).kept = s.kept := by
  unfold startRootLoad
  split <;> simp

@[simp] theorem kept_beginLoad (n : Nat) (s : State) : (beginLoad n s).kept = s.kept := by simp [beginLoad]

@[simp] theorem kept_applyData (snap : Nat) (p : ReadPage) (s : State) :
    (applyData snap p s).kept = s.kept := by
  unfold applyData
  repeat' (first | (simp; done) | split | dsimp only)

@[simp] theorem kept_queueFilling (b : Nat) (s : State) : (queueFilling b s).kept = s.kept := by simp [queueFilling]

@[simp] theorem kept_queueSlot (i : Nat) (s : State) : (queueSlot i s).kept = s.kept := by
  unfold queueSlot
  split <;> simp

@[simp] theorem kept_raiseLineClosed (n : Nat) (r : CloseReason) (s : State) :
    (raiseLineClosed n r s).kept = s.kept := by simp [raiseLineClosed]

@[simp] theorem kept_requestClose (n : Nat) (r : CloseReason) (cut : Bool) (s : State) :
    (requestClose n r cut s).kept = s.kept := by
  unfold requestClose
  (repeat' split) <;> simp

@[simp] theorem kept_rootCut (s : State) : (rootCut s).kept = s.kept := by
  unfold rootCut
  split <;> simp

@[simp] theorem kept_flushLine (n : Nat) (pressure : Bool) (s : State) :
    (flushLine n pressure s).kept = s.kept := by
  unfold flushLine
  split <;> simp

@[simp] theorem kept_judgePressure (s : State) : (judgePressure s).kept = s.kept := by
  unfold judgePressure
  (repeat' split) <;> simp

@[simp] theorem kept_withdrawRewrites (hit : SegRewrite → Bool) (s : State) : (withdrawRewrites hit s).kept = s.kept := by
  simp [withdrawRewrites]

@[simp] theorem kept_withdrawRoots (n : Nat) (s : State) : (withdrawRoots n s).kept = s.kept := by simp [withdrawRoots]

@[simp] theorem kept_applySegment (snap : Nat) (p : ReadPage) (s : State) :
    (applySegment snap p s).kept = s.kept := by
  unfold applySegment
  repeat' (first | (simp; done) | split | dsimp only)

@[simp] theorem kept_countCopy (snap : Nat) (r : SegRef) (s : State) :
    (countCopy snap s r).kept = s.kept := by
  unfold countCopy
  split <;> simp

@[simp] theorem kept_applyRoot (snap : Nat) (all : List ReadPage) (p : ReadPage) (s : State) :
    (applyRoot snap all p s).kept = s.kept := by
  unfold applyRoot
  repeat' (first | (simp; done) | split | dsimp only)

@[simp] theorem kept_applyPage (snap : Nat) (all : List ReadPage) (p : ReadPage) (s : State) :
    (applyPage snap all p s).kept = s.kept := by
  unfold applyPage
  split <;> simp

@[simp] theorem kept_freeBuf (b : Nat) (s : State) : (freeBuf b s).kept = s.kept := by
  unfold freeBuf
  repeat' (first | (simp; done) | split | dsimp only)

@[simp] theorem kept_blockFull (b : Blk) (s : State) : (blockFull b s).kept = s.kept := by
  have h : ∀ x : Die, ({ x with
      active := x.active.filter fun t => t.block != b.block, due := x.due.filter (· != b.block) } : Die).kept = x.kept :=
    fun _ => rfl
  unfold blockFull
  repeat' (first | (simp [kept_modDie _ _ _ h]; done) | split | simp)

@[simp] theorem kept_settleBlock (b : Blk) (s : State) : (settleBlock b s).kept = s.kept := by
  unfold settleBlock
  split <;> simp

@[simp] theorem kept_closeBlocks (s : State) : (closeBlocks s).kept = s.kept := by
  unfold closeBlocks
  refine (kept_foldl _ (fun s b => kept_settleBlock b s) _ _).trans (kept_modFlash _ _ fun fl => ?_)
  apply List.ext_getElem? fun n => ?_
  simp only [List.getElem?_map, List.getElem?_mapIdx]
  cases fl.dies[n]? <;> rfl

@[simp] theorem kept_endWalk (s : State) : (endWalk s).kept = s.kept := by simp [endWalk]

@[simp] theorem kept_settlePage (w : Walk) (s : State) : (settlePage w s).kept = s.kept := by simp [settlePage]

@[simp] theorem kept_retryPage (w : Walk) (s : State) : (retryPage w s).kept = s.kept := by simp [retryPage]

@[simp] theorem kept_relocSegment (b : Nat) (a : Addr) (h : PageHdr) (d : List Byte) (s : State) :
    (relocSegment b a h d s).kept = s.kept := by simp [relocSegment]

@[simp] theorem kept_relocLive (w : Walk) (h : PageHdr) (d : List Byte) (s : State) :
    (relocLive w h d s).kept = s.kept := by
  unfold relocLive
  split
  · simp
  · simp
  · simp
  · split <;> simp

@[simp] theorem kept_continueJudging (w : Walk) (h : PageHdr) (d : List Byte) (s : State) :
    (continueJudging w h d s).kept = s.kept := by
  unfold continueJudging
  repeat' (first | (simp; done) | split | dsimp only)

@[simp] theorem kept_markDamaged (n : Nat) (s : State) : (markDamaged n s).kept = s.kept := by simp [markDamaged]

@[simp] theorem kept_loadLast (n : Nat) (s : State) : (loadLast n s).kept = s.kept := by
  unfold loadLast
  (repeat' split) <;> simp

@[simp] theorem kept_cutLine (bad : Bool) (n : Nat) (s : State) : (cutLine bad n s).kept = s.kept := by
  unfold cutLine
  repeat' (first | (simp; done) | split | dsimp only)

@[simp] theorem kept_placeMsg (c : RetrCtx) (m : HeldMsg) (s : State) : (placeMsg c m s).kept = s.kept := by simp [placeMsg]

@[simp] theorem kept_placeDamaged (c : RetrCtx) (a : Nat) (b : Nat) (s : State) :
    (placeDamaged c a b s).kept = s.kept := by simp [placeDamaged]

@[simp] theorem kept_dataDone (c : RetrCtx) (e : PageEntry) (r : ReadResult) (s : State) :
    (dataDone c e r s).kept = s.kept := by
  unfold dataDone
  split <;> simp

@[simp] theorem kept_requestRetr (a : Addr) (p : RetrPurpose) (s : State) :
    (requestRetr a p s).kept = s.kept := by simp [requestRetr]

@[simp] theorem kept_dealEntry (c : RetrCtx) (e : PageEntry) (s : State) :
    (dealEntry c e s).kept = s.kept := by
  unfold dealEntry
  (repeat' split) <;> simp

@[simp] theorem kept_endRetr (c : RetrCtx) (code : Code) (s : State) : (endRetr c code s).kept = s.kept := by simp [endRetr]

@[simp] theorem kept_dealPool (c : RetrCtx) (s : State) : (dealPool c s).kept = s.kept := by
  unfold dealPool
  split <;> simp

@[simp] theorem kept_refreshAdd (b : Blk) (s : State) : (refreshAdd b s).kept = s.kept := by
  unfold refreshAdd
  split <;> simp

@[simp] theorem kept_judgeRefresh (a : Addr) (r : ReadResult) (s : State) :
    (judgeRefresh a r s).kept = s.kept := by
  unfold judgeRefresh
  split <;> simp

@[simp] theorem kept_raiseMedia (b : Blk) (e : MediaEvent) (s : State) :
    (raiseMedia b e s).kept = s.kept := by simp [raiseMedia]

@[simp] theorem kept_noteRead (a : Addr) (r : ReadResult) (s : State) : (noteRead a r s).kept = s.kept := by simp [noteRead]

@[simp] theorem kept_readHeldRoot (c : RetrCtx) (s : State) : (readHeldRoot c s).kept = s.kept := by
  unfold readHeldRoot
  split <;> simp

theorem kept_dealSegment (c : RetrCtx) (es : List PageEntry) (s t : State) (h : dealSegment c es s = some t) :
    t.kept = s.kept := by
  unfold dealSegment at h
  split at h
  · cases h
  · split at h
    · split at h <;> (cases h; simp)
    · cases h; simp

@[simp] theorem kept_searchSegs (c : RetrCtx) (k : Nat) (rs : List SegRef) (s : State) :
    (searchSegs c k rs s).kept = s.kept := by
  induction rs generalizing k s with
  | nil => simp [searchSegs]
  | cons r rs ih =>
    unfold searchSegs
    repeat' (first | (simp [ih]; done) | split | (rename_i h; rw [kept_dealSegment _ _ _ _ h]) | dsimp only)

@[simp] theorem kept_walkStep (c : RetrCtx) (s : State) : (walkStep c s).kept = s.kept := by simp [walkStep]

@[simp] theorem kept_walk (n : Nat) (s : State) : (walk n s).kept = s.kept := by
  induction n generalizing s with
  | zero => rfl
  | succ n ih =>
    unfold walk
    repeat' (first | (simp [ih]; done) | split | simp)

@[simp] theorem kept_runWalk (s : State) : (runWalk s).kept = s.kept := by
  unfold runWalk
  split <;> simp

@[simp] theorem kept_rootDone (c : RetrCtx) (r : ReadResult) (s : State) :
    (rootDone c r s).kept = s.kept := by
  unfold rootDone
  split <;> simp

@[simp] theorem kept_segmentDone (c : RetrCtx) (k : Nat) (ref : SegRef) (stale : Bool) (a : Addr) (r : ReadResult)
    (s : State) : (segmentDone c k ref stale a r s).kept = s.kept := by
  unfold segmentDone
  split
  · simp
  · dsimp only
    split
    · rename_i h
      rw [kept_dealSegment _ _ _ _ h]
      split <;> simp
    · split <;> (repeat' (first | (simp; done) | split))

@[simp] theorem kept_retrReadDone (a : Addr) (r : ReadResult) (s : State) :
    (retrReadDone a r s).kept = s.kept := by
  unfold retrReadDone
  repeat' (first | (simp; done) | split | dsimp only)

@[simp] theorem kept_loseEntry (n : Nat) (e : PageEntry) (s : State) : (loseEntry n e s).kept = s.kept := by simp [loseEntry]

@[simp] theorem kept_loseSegment (n : Nat) (k : Nat) (wseq : Nat) (s : State) :
    (loseSegment n k wseq s).kept = s.kept := by
  unfold loseSegment
  (repeat' split) <;> simp

@[simp] theorem kept_loadCheck (n : Nat) (s : State) : (loadCheck n s).kept = s.kept := by
  unfold loadCheck
  split <;> simp

@[simp] theorem kept_loseRoot (n : Nat) (s : State) : (loseRoot n s).kept = s.kept := by
  unfold loseRoot
  split <;> simp

@[simp] theorem kept_searchLines (w : Walk) (ns : List Nat) (s : State) : (searchLines w ns s).kept = s.kept := by
  induction ns with
  | nil => simp [searchLines]
  | cons n ns ih =>
    unfold searchLines
    repeat' (first | (simp [ih]; done) | split | simp)

@[simp] theorem kept_lostPage (w : Walk) (s : State) : (lostPage w s).kept = s.kept := by
  unfold lostPage
  repeat' (first | (simp; done) | split | dsimp only)

@[simp] theorem kept_walkRead (a : Addr) (r : ReadResult) (s : State) : (walkRead a r s).kept = s.kept := by
  unfold walkRead
  (repeat' split) <;> simp

@[simp] theorem kept_judgeRootRead (a : Addr) (r : ReadResult) (s : State) :
    (judgeRootRead a r s).kept = s.kept := by
  unfold judgeRootRead
  (repeat' split) <;> simp

@[simp] theorem kept_judgeSegmentRead (a : Addr) (r : ReadResult) (s : State) :
    (judgeSegmentRead a r s).kept = s.kept := by
  unfold judgeSegmentRead
  (repeat' split) <;> simp

@[simp] theorem kept_searchSegments (w : Walk) (ns : List Nat) (n k : Nat) (rs : List SegRef) (s : State) :
    (searchSegments w ns n k rs s).kept = s.kept := by
  induction rs generalizing k with
  | nil => simp [searchSegments]
  | cons r rs ih =>
    unfold searchSegments
    repeat' (first | (simp [ih]; done) | split | simp)

@[simp] theorem kept_searchRootRead (a : Addr) (r : ReadResult) (s : State) :
    (searchRootRead a r s).kept = s.kept := by
  unfold searchRootRead
  (repeat' split) <;> simp

@[simp] theorem kept_searchSegmentRead (r : ReadResult) (s : State) :
    (searchSegmentRead r s).kept = s.kept := by
  unfold searchSegmentRead
  (repeat' split) <;> simp

@[simp] theorem kept_locateRead (n : Nat) (a : Addr) (r : ReadResult) (s : State) :
    (locateRead n a r s).kept = s.kept := by
  unfold locateRead
  (repeat' split) <;> simp

@[simp] theorem kept_rewriteLost (w : SegRewrite) (s : State) : (rewriteLost w s).kept = s.kept := by simp [rewriteLost]

@[simp] theorem kept_segmentRead (w : SegRewrite) (es : List PageEntry) (s : State) :
    (segmentRead w es s).kept = s.kept := by simp [segmentRead]

@[simp] theorem kept_rewriteSegmentRead (n : Nat) (k : Nat) (a : Addr) (r : ReadResult) (s : State) :
    (rewriteSegmentRead n k a r s).kept = s.kept := by
  unfold rewriteSegmentRead
  repeat' (first | (simp; done) | split | dsimp only)

@[simp] theorem kept_returnRepls (ps : List Repl) (s : State) : (returnRepls ps s).kept = s.kept := by simp [returnRepls]

@[simp] theorem kept_rewriteRootRead (n : Nat) (a : Addr) (r : ReadResult) (s : State) :
    (rewriteRootRead n a r s).kept = s.kept := by
  unfold rewriteRootRead
  (repeat' split) <;> simp

@[simp] theorem kept_refDownAll (as : List Addr) (s : State) : (refDownAll as s).kept = s.kept := by simp [refDownAll]

@[simp] theorem kept_settleDone (n : Nat) (s : State) : (settleDone n s).kept = s.kept := by simp [settleDone]

@[simp] theorem kept_rootLoaded (n : Nat) (refs : List SegRef) (s : State) :
    (rootLoaded n refs s).kept = s.kept := by simp [rootLoaded]

@[simp] theorem kept_loadRootRead (n : Nat) (a : Addr) (r : ReadResult) (s : State) :
    (loadRootRead n a r s).kept = s.kept := by
  unfold loadRootRead
  (repeat' split) <;> simp

@[simp] theorem kept_placeSegment (n : Nat) (es : List PageEntry) (s : State) :
    (placeSegment n es s).kept = s.kept := by simp [placeSegment]

@[simp] theorem kept_segmentLoaded (n : Nat) (es : Option (List PageEntry)) (s : State) :
    (segmentLoaded n es s).kept = s.kept := by
  unfold segmentLoaded
  split <;> simp

@[simp] theorem kept_loadSegmentRead (n : Nat) (a : Addr) (r : ReadResult) (s : State) :
    (loadSegmentRead n a r s).kept = s.kept := by
  unfold loadSegmentRead
  (repeat' split) <;> simp

theorem kept_flushStep (acc : List Nat × List Nat × State) (n : Nat) : (flushStep acc n).2.2.kept = acc.2.2.kept := by
  unfold flushStep
  repeat' (first | (simp; done) | split | dsimp only)

theorem kept_flushSteps (ns : List Nat) (acc : List Nat × List Nat × State) :
    (ns.foldl flushStep acc).2.2.kept = acc.2.2.kept := by
  induction ns generalizing acc with
  | nil => rfl
  | cons n ns ih => rw [List.foldl_cons, ih, kept_flushStep]

@[simp] theorem kept_runFlushes (ns wait : List Nat) (s : State) : (runFlushes ns wait s).kept = s.kept := by
  unfold runFlushes
  exact kept_flushSteps ns ([], wait, s)

@[simp] theorem kept_startCheckpoint (s : State) : (startCheckpoint s).kept = s.kept := by simp [startCheckpoint]

@[simp] theorem kept_requestCheckpoint (w : Option Waiter) (s : State) :
    (requestCheckpoint w s).kept = s.kept := by
  unfold requestCheckpoint
  repeat' (first | (simp; done) | split | dsimp only)

@[simp] theorem kept_eraseAdvance (n : Nat) (s : State) : (eraseAdvance n s).kept = s.kept := by
  induction n generalizing s with
  | zero => rfl
  | succ n ih =>
    unfold eraseAdvance
    repeat' (first | (simp [ih]; done) | split | simp)

@[simp] theorem kept_runErase (s : State) : (runErase s).kept = s.kept := by
  unfold runErase
  split <;> simp

@[simp] theorem kept_eraseRootRead (r : ReadResult) (s : State) : (eraseRootRead r s).kept = s.kept := by
  unfold eraseRootRead
  repeat' (first | (simp; done) | split | dsimp only)

@[simp] theorem kept_eraseSegmentRead (a : Addr) (r : ReadResult) (s : State) :
    (eraseSegmentRead a r s).kept = s.kept := by
  unfold eraseSegmentRead
  repeat' (first | (simp; done) | split | dsimp only)

@[simp] theorem kept_mountRootRead (n : Nat) (news : List (SegRef × List PageEntry)) (a : Addr) (r : ReadResult)
    (s : State) : (mountRootRead n news a r s).kept = s.kept := by
  unfold mountRootRead
  simp only [kept_refDown]
  split
  · rfl
  · apply kept_foldl
    intro s k
    repeat' (first | (simp; done) | split)

@[simp] theorem kept_mountSegmentRead (n : Nat) (k : Nat) (es : List PageEntry) (pool : Bool) (a : Addr) (r : ReadResult)
    (s : State) : (mountSegmentRead n k es pool a r s).kept = s.kept := by simp [mountSegmentRead]

@[simp] theorem kept_indexReadDone (q : ReadReq) (r : ReadResult) (s : State) :
    (indexReadDone q r s).kept = s.kept := by
  unfold indexReadDone
  split <;> simp

@[simp] theorem kept_drainDead (n : Nat) (s : State) : (drainDead n s).kept = s.kept := by
  induction n generalizing s with
  | zero => rfl
  | succ n ih =>
    unfold drainDead
    repeat' (first | (simp [ih]; done) | split | simp)

@[simp] theorem kept_removeWaiting (c : StoreCmd) (s : State) : (removeWaiting c s).kept = s.kept := by simp [removeWaiting]

@[simp] theorem kept_stopRetr (q : StopReq) (s : State) : (stopRetr q s).kept = s.kept := by
  unfold stopRetr
  split <;> simp

@[simp] theorem kept_forgetCommand (s : State) : (forgetCommand s).kept = s.kept := by simp [forgetCommand]

@[simp] theorem kept_stopRunning (code : Code) (q : StopReq) (s : State) :
    (stopRunning code q s).kept = s.kept := by
  unfold stopRunning
  split <;> simp

@[simp] theorem kept_enterLowHalt (s : State) : (enterLowHalt s).kept = s.kept := by simp [enterLowHalt]

@[simp] theorem kept_lowHaltCheck (s : State) : (lowHaltCheck s).kept = s.kept := by simp [lowHaltCheck]

@[simp] theorem kept_endStuckPause (s : State) : (endStuckPause s).kept = s.kept := by
  unfold endStuckPause
  repeat' (first | (simp; done) | split)

@[simp] theorem kept_judgePause (s : State) : (judgePause s).kept = s.kept := by
  unfold judgePause
  split <;> simp

@[simp] theorem kept_mountClose (s : State) : (mountClose s).kept = s.kept := by
  unfold mountClose
  split <;> simp

@[simp] theorem kept_finishScan (m : Mount) (s : State) : (finishScan m s).kept = s.kept := by simp [finishScan]

theorem kept_applyPages (snap : Nat) (all ps : List ReadPage) (s : State) :
    (applyPages snap all ps s).2.kept = s.kept := by
  induction ps generalizing s with
  | nil => rfl
  | cons p ps ih =>
    unfold applyPages
    split
    · rfl
    · rw [ih, kept_applyPage]

@[simp] theorem kept_mountApply (m : Mount) (s : State) : (mountApply m s).kept = s.kept := by
  unfold mountApply
  split
  · dsimp only
    split <;> simp [kept_applyPages]
  all_goals rfl

@[simp] theorem kept_mountPump (s : State) : (mountPump s).kept = s.kept := by
  unfold mountPump
  split <;> simp

@[simp] theorem kept_startWalk (s : State) : (startWalk s).kept = s.kept := by
  unfold startWalk
  dsimp only
  split <;> split <;> simp

@[simp] theorem kept_finish (s : State) : (finish s).kept = s.kept := by simp [finish]

@[simp] theorem kept_kick (s : State) : (State.kick s).kept = s.kept := by simp [State.kick]

@[simp] theorem kept_modSlot (i : Nat) (f : Slot → Slot) (s : State) :
    (State.modSlot i f s).kept = s.kept := by simp [State.modSlot]

@[simp] theorem kept_modWalk (f : Walk → Walk) (s : State) : (State.modWalk f s).kept = s.kept := by simp [State.modWalk]

@[simp] theorem kept_setVerifying (b : Nat) (s : State) : (State.setVerifying b s).kept = s.kept := by simp [State.setVerifying]

@[simp] theorem kept_setRetained (b : Nat) (s : State) : (State.setRetained b s).kept = s.kept := by simp [State.setRetained]

@[simp] theorem kept_raiseMounted (s : State) : (raiseMounted s).kept = s.kept := by simp [raiseMounted]

@[simp] theorem kept_closePause (s : State) : (closePause s).kept = s.kept := by
  unfold closePause
  split <;> simp

@[simp] theorem kept_dropCheckpointImages (s : State) : (dropCheckpointImages s).kept = s.kept := by simp [dropCheckpointImages]

@[simp] theorem kept_dropCheckpoint (s : State) : (dropCheckpoint s).kept = s.kept := by simp [dropCheckpoint]

@[simp] theorem kept_raiseRefused (r : RefuseReason) (n : Nat) (s : State) :
    (raiseRefused r n s).kept = s.kept := by simp [raiseRefused]

@[simp] theorem kept_packInto (b : Nat) (n : Nat) (r : Rec) (s : State) :
    (packInto b n r s).kept = s.kept := by simp [packInto]

@[simp] theorem kept_freeASlot (s : State) : (freeASlot s).kept = s.kept := by
  unfold freeASlot
  (repeat' split) <;> simp

@[simp] theorem kept_degradeOpened (n : Nat) (s : State) : (degradeOpened n s).kept = s.kept := by simp [degradeOpened]

@[simp] theorem kept_setFilter (i : Nat) (st : FilterState) (s : State) :
    (setFilter i st s).kept = s.kept := by simp [setFilter]

@[simp] theorem kept_raiseCareful (old : Bool) (s : State) : (raiseCareful old s).kept = s.kept := by simp [raiseCareful]

@[simp] theorem kept_startRetr (body : List Byte) (s : State) : (startRetr body s).kept = s.kept := by
  unfold startRetr
  repeat' (first | (simp; done) | split | dsimp only)

@[simp] theorem kept_lineClose (n : Nat) (s : State) : (lineClose n s).kept = s.kept := by
  unfold lineClose
  split <;> simp

@[simp] theorem kept_lockChange (n : Nat) (st : LineState) (s : State) :
    (lockChange n st s).kept = s.kept := by simp [lockChange]

@[simp] theorem kept_lineLock (n : Nat) (s : State) : (lineLock n s).kept = s.kept := by
  unfold lineLock
  (repeat' split) <;> simp

@[simp] theorem kept_lineUnlock (n : Nat) (s : State) : (lineUnlock n s).kept = s.kept := by
  unfold lineUnlock
  (repeat' split) <;> simp

@[simp] theorem kept_invalidateLine (n : Nat) (s : State) : (invalidateLine n s).kept = s.kept := by simp [invalidateLine]

@[simp] theorem kept_removeLines (lo : Nat) (hi : Nat) (s : State) :
    (removeLines lo hi s).kept = s.kept := by simp [removeLines]

@[simp] theorem kept_lineErase (lo : Nat) (hi : Nat) (s : State) : (lineErase lo hi s).kept = s.kept := by simp [lineErase]

@[simp] theorem kept_saveSettings (s : State) : (saveSettings s).kept = s.kept := by simp [saveSettings]

@[simp] theorem kept_discardImages (s : State) : (discardImages s).kept = s.kept := by simp [discardImages]

@[simp] theorem kept_startFormat (s : State) : (startFormat s).kept = s.kept := by simp [startFormat]

@[simp] theorem kept_startPause (s : State) : (startPause s).kept = s.kept := by simp [startPause]

@[simp] theorem kept_raiseBattery (s : State) : (raiseBattery s).kept = s.kept := by simp [raiseBattery]

@[simp] theorem kept_freeSettings (s : State) : (freeSettings s).kept = s.kept := by simp [freeSettings]

@[simp] theorem kept_dropSettings (s : State) : (dropSettings s).kept = s.kept := by simp [dropSettings]

@[simp] theorem kept_loseSettings (s : State) : (loseSettings s).kept = s.kept := by simp [loseSettings]

@[simp] theorem kept_raiseSettled (st : MotionState) (t : Option SettleType) (s : State) :
    (raiseSettled st t s).kept = s.kept := by simp [raiseSettled]

@[simp] theorem kept_resetFilters (s : State) : (resetFilters s).kept = s.kept := by simp [resetFilters]

@[simp] theorem kept_cancelWaiting (c : StoreCmd) (s : State) : (cancelWaiting c s).kept = s.kept := by simp [cancelWaiting]

@[simp] theorem kept_releaseDie (d : Nat) (s : State) : (releaseDie s d).kept = s.kept := by
  unfold releaseDie
  split <;> simp

@[simp] theorem kept_countErase (b : Blk) (s : State) : (countErase b s).kept = s.kept := by simp [countErase]

@[simp] theorem kept_drawLower (a : Addr) (s : State) : (drawLower a s).kept = s.kept := by
  unfold drawLower
  (repeat' split) <;> simp

@[simp] theorem kept_dropHeldBuffers (s : State) : (dropHeldBuffers s).kept = s.kept := by simp [dropHeldBuffers]

@[simp] theorem kept_endScan (s : State) : (endScan s).kept = s.kept := by
  unfold endScan
  split <;> simp

@[simp] theorem kept_settingsErased (pass : Bool) (s : State) : (settingsErased pass s).kept = s.kept := by simp [settingsErased]

@[simp] theorem kept_placeFinal (s : State) : (placeFinal s).kept = s.kept := by
  unfold placeFinal
  (repeat' split) <;> simp

@[simp] theorem kept_heldEnters (s : State) : (heldEnters s).kept = s.kept := by
  unfold heldEnters
  (repeat' split) <;> simp

@[simp] theorem kept_flushHanded (n : Nat) (s : State) : (flushHanded n s).kept = s.kept := by
  unfold flushHanded
  split <;> simp

@[simp] theorem kept_newEntry (h : PageHdr) (a : Addr) (s : State) : (newEntry h a s).kept = s.kept := by simp [newEntry]

@[simp] theorem kept_handData (h : PageHdr) (a : Addr) (copy : Option Nat) (s : State) :
    (handData h a copy s).kept = s.kept := by
  unfold handData
  (repeat' split) <;> simp

@[simp] theorem kept_invalidateSeg (n : Nat) (k : Nat) (s : State) :
    (invalidateSeg n k s).kept = s.kept := by simp [invalidateSeg]

@[simp] theorem kept_restartRewrite (n : Nat) (k : Nat) (r : SegRef) (s : State) :
    (restartRewrite n k r s).kept = s.kept := by simp [restartRewrite]

@[simp] theorem kept_startPoolRewrite (n k : Nat) (r : SegRef) (es : List PageEntry) (news : List Addr) (f : Option FlushOut)
    (s : State) : (startPoolRewrite n k r es news f s).kept = s.kept := by simp [startPoolRewrite]

@[simp] theorem kept_endSegRewrite (w : SegRewrite) (ref : SegRef) (s : State) :
    (endSegRewrite w ref s).kept = s.kept := by simp [endSegRewrite]

@[simp] theorem kept_rewriteAgain (w : SegRewrite) (ref : SegRef) (s : State) : (rewriteAgain w ref s).kept = s.kept := by
  simp [rewriteAgain]

@[simp] theorem kept_handRewrite (l : Line) (w : SegRewrite) (x : Buf) (a : Addr) (s : State) :
    (handRewrite l w x a s).kept = s.kept := by
  unfold handRewrite
  repeat' (first | (simp; done) | split | dsimp only)

@[simp] theorem kept_handSegRewrite (n : Nat) (k : Nat) (old : Nat) (x : Buf) (a : Addr) (s : State) :
    (handSegRewrite n k old x a s).kept = s.kept := by
  unfold handSegRewrite
  split <;> simp

@[simp] theorem kept_handFlush (n : Nat) (seg : Nat) (x : Buf) (a : Addr) (s : State) :
    (handFlush n seg x a s).kept = s.kept := by
  unfold handFlush
  (repeat' split) <;> simp

@[simp] theorem kept_handSegCopy (n : Nat) (k : Nat) (old : Nat) (news drops : List Addr) (ps : List Repl) (x : Buf) (a : Addr) (s : State) :
    (handSegCopy n k old news drops ps x a s).kept = s.kept := by
  unfold handSegCopy
  (repeat' split) <;> simp

@[simp] theorem kept_handSegReloc (n : Nat) (k : Nat) (old : Nat) (x : Buf) (a : Addr) (s : State) :
    (handSegReloc n k old x a s).kept = s.kept := by
  unfold handSegReloc
  split <;> simp

@[simp] theorem kept_rewriteFromPool (n : Nat) (l : Line) (s : State) :
    (rewriteFromPool n l s).kept = s.kept := by
  unfold rewriteFromPool
  repeat' (first | (simp; done) | split | dsimp only)

@[simp] theorem kept_handCloseRoot (n : Nat) (x : Buf) (a : Addr) (s : State) :
    (handCloseRoot n x a s).kept = s.kept := by
  unfold handCloseRoot
  split <;> simp

@[simp] theorem kept_handRootRewrite (n : Nat) (old : Nat) (x : Buf) (a : Addr) (s : State) :
    (handRootRewrite n old x a s).kept = s.kept := by
  unfold handRootRewrite
  split <;> simp

@[simp] theorem kept_handRootCopy (n : Nat) (old : Nat) (x : Buf) (a : Addr) (s : State) :
    (handRootCopy n old x a s).kept = s.kept := by
  unfold handRootCopy
  split <;> simp

@[simp] theorem kept_handLinePage (x : Buf) (a : Addr) (first : Bool) (s : State) :
    (handLinePage x a first s).kept = s.kept := by
  unfold handLinePage
  repeat' (first | (simp; done) | split | dsimp only)

@[simp] theorem kept_requeueBuf (b : Nat) (s : State) : (requeueBuf b s).kept = s.kept := by
  unfold requeueBuf
  split <;> simp

@[simp] theorem kept_requeueMany (bs : List Nat) (s : State) : (requeueMany bs s).kept = s.kept := by simp [requeueMany]

@[simp] theorem kept_refreshHead (b : Blk) (s : State) : (refreshHead b s).kept = s.kept := by simp [refreshHead]

@[simp] theorem kept_retryWalk (s : State) : (retryWalk s).kept = s.kept := by
  unfold retryWalk
  (repeat' split) <;> simp

@[simp] theorem kept_poolLoad (n : Nat) (s : State) : (poolLoad n s).kept = s.kept := by
  unfold poolLoad
  split <;> simp

@[simp] theorem kept_pauseQuiet (s : State) : (pauseQuiet s).kept = s.kept := by
  unfold pauseQuiet
  (repeat' split) <;> simp

@[simp] theorem kept_noteSeq (p : Option ReadPage) (s : State) : (noteSeq p s).kept = s.kept := by
  unfold noteSeq
  split <;> simp

@[simp] theorem kept_keepPage (p : ReadPage) (s : State) : (keepPage p s).kept = s.kept := by simp [keepPage]

@[simp] theorem kept_scanPage (a : Addr) (r : ReadResult) (s : State) : (scanPage a r s).kept = s.kept := by
  unfold scanPage
  split <;> simp

end Sys2Proof.Machine
end

