-- ==== Sys2Proof/Laws/Link.lean ====
section
/-!
SUPPORT. What the transmitter, the notice queue and a wake leave alone.
-/
namespace Sys2Proof.Machine

/-! ## The choice of the next message moves the FIFO, the notice queue and the message being sent -/

@[simp] theorem choose_running (b : Bool) (l : LinkUnit) : (l.choose b).running = l.running := by
  unfold LinkUnit.choose
  repeat' (first | rfl | split)

@[simp] theorem choose_waiting (b : Bool) (l : LinkUnit) : (l.choose b).waiting = l.waiting := by
  unfold LinkUnit.choose
  repeat' (first | rfl | split)

@[simp] theorem choose_removed (b : Bool) (l : LinkUnit) : (l.choose b).removed = l.removed := by
  unfold LinkUnit.choose
  repeat' (first | rfl | split)

theorem choose_fifo_length (b : Bool) (l : LinkUnit) : (l.choose b).fifo.length ≤ l.fifo.length := by
  unfold LinkUnit.choose
  split
  · rfl
  · split
    · rename_i h
      simp [h]
    · split <;> rfl

/-- The choice does not look at the running position. -/
theorem choose_run (b : Bool) (l : LinkUnit) (r : Option Running) :
    { l.choose b with running := r } = ({ l with running := r } : LinkUnit).choose b := by
  unfold LinkUnit.choose
  dsimp only
  split
  · rfl
  · split
    · rfl
    · split <;> rfl

/-! ## A notice raised -/

@[simp] theorem raiseNotice_parser (k : NoticeKind) (d : List Byte) (s : State) :
    (raiseNotice k d s).link.parser = s.link.parser := by simp [raiseNotice, LinkUnit.raise]

@[simp] theorem raiseNotice_discard (k : NoticeKind) (d : List Byte) (s : State) :
    (raiseNotice k d s).link.discard = s.link.discard := by simp [raiseNotice, LinkUnit.raise]

@[simp] theorem raiseNotice_running (k : NoticeKind) (d : List Byte) (s : State) :
    (raiseNotice k d s).link.running = s.link.running := by simp [raiseNotice, LinkUnit.raise]

@[simp] theorem raiseNotice_waiting (k : NoticeKind) (d : List Byte) (s : State) :
    (raiseNotice k d s).link.waiting = s.link.waiting := by simp [raiseNotice, LinkUnit.raise]

@[simp] theorem raiseNotice_removed (k : NoticeKind) (d : List Byte) (s : State) :
    (raiseNotice k d s).link.removed = s.link.removed := by simp [raiseNotice, LinkUnit.raise]

@[simp] theorem raiseNotice_errCrc (k : NoticeKind) (d : List Byte) (s : State) :
    (raiseNotice k d s).link.errCrc = s.link.errCrc := by simp [raiseNotice, LinkUnit.raise]

@[simp] theorem raiseNotice_errLen (k : NoticeKind) (d : List Byte) (s : State) :
    (raiseNotice k d s).link.errLen = s.link.errLen := by simp [raiseNotice, LinkUnit.raise]

@[simp] theorem raiseNotice_errTime (k : NoticeKind) (d : List Byte) (s : State) :
    (raiseNotice k d s).link.errTime = s.link.errTime := by simp [raiseNotice, LinkUnit.raise]

@[simp] theorem raiseNotice_dropped (k : NoticeKind) (d : List Byte) (s : State) :
    (raiseNotice k d s).link.dropped = s.link.dropped := by simp [raiseNotice, LinkUnit.raise]

@[simp] theorem raiseNotice_strap (k : NoticeKind) (d : List Byte) (s : State) :
    (raiseNotice k d s).link.strap = s.link.strap := by simp [raiseNotice, LinkUnit.raise]

@[simp] theorem raiseNotice_rate3M (k : NoticeKind) (d : List Byte) (s : State) :
    (raiseNotice k d s).link.rate3M = s.link.rate3M := by simp [raiseNotice, LinkUnit.raise]

@[simp] theorem raiseNotice_intake (k : NoticeKind) (d : List Byte) (s : State) : (raiseNotice k d s).intake = s.intake := rfl

@[simp] theorem raiseNotice_staging (k : NoticeKind) (d : List Byte) (s : State) : (raiseNotice k d s).staging = s.staging := rfl

@[simp] theorem raiseNotice_flash (k : NoticeKind) (d : List Byte) (s : State) : (raiseNotice k d s).flash = s.flash := rfl

@[simp] theorem raiseNotice_store (k : NoticeKind) (d : List Byte) (s : State) : (raiseNotice k d s).store = s.store := rfl

@[simp] theorem raiseNotice_retr (k : NoticeKind) (d : List Byte) (s : State) : (raiseNotice k d s).retr = s.retr := rfl

@[simp] theorem raiseNotice_motion (k : NoticeKind) (d : List Byte) (s : State) : (raiseNotice k d s).motion = s.motion := rfl

@[simp] theorem raiseNotice_gauge (k : NoticeKind) (d : List Byte) (s : State) : (raiseNotice k d s).gauge = s.gauge := rfl

@[simp] theorem raiseNotice_power (k : NoticeKind) (d : List Byte) (s : State) : (raiseNotice k d s).power = s.power := rfl

@[simp] theorem raiseNotice_settings (k : NoticeKind) (d : List Byte) (s : State) : (raiseNotice k d s).settings = s.settings := rfl

@[simp] theorem raiseNotice_pending (k : NoticeKind) (d : List Byte) (s : State) : (raiseNotice k d s).pending = s.pending := rfl

/-! ## The wait line re-derived -/

@[simp] theorem updateWait_link (s : State) : (updateWait s).link = s.link := rfl

@[simp] theorem updateWait_staging (s : State) : (updateWait s).staging = s.staging := rfl

@[simp] theorem updateWait_flash (s : State) : (updateWait s).flash = s.flash := rfl

@[simp] theorem updateWait_store (s : State) : (updateWait s).store = s.store := rfl

@[simp] theorem updateWait_retr (s : State) : (updateWait s).retr = s.retr := rfl

@[simp] theorem updateWait_motion (s : State) : (updateWait s).motion = s.motion := rfl

@[simp] theorem updateWait_gauge (s : State) : (updateWait s).gauge = s.gauge := rfl

@[simp] theorem updateWait_power (s : State) : (updateWait s).power = s.power := rfl

@[simp] theorem updateWait_settings (s : State) : (updateWait s).settings = s.settings := rfl

@[simp] theorem updateWait_pending (s : State) : (updateWait s).pending = s.pending := rfl

@[simp] theorem updateWait_intake_parser (s : State) : (updateWait s).intake.parser = s.intake.parser := rfl

@[simp] theorem updateWait_intake_hunt (s : State) : (updateWait s).intake.hunt = s.intake.hunt := rfl

@[simp] theorem updateWait_intake_slots (s : State) : (updateWait s).intake.slots = s.intake.slots := rfl

@[simp] theorem updateWait_intake_appends (s : State) : (updateWait s).intake.appends = s.intake.appends := rfl

@[simp] theorem updateWait_intake_openReq (s : State) : (updateWait s).intake.openReq = s.intake.openReq := rfl

@[simp] theorem updateWait_intake_lq (s : State) : (updateWait s).intake.lq = s.intake.lq := rfl

@[simp] theorem updateWait_intake_linkState (s : State) : (updateWait s).intake.linkState = s.intake.linkState := rfl

@[simp] theorem updateWait_intake_elapsed (s : State) : (updateWait s).intake.elapsed = s.intake.elapsed := rfl

@[simp] theorem updateWait_intake_intervalLen (s : State) : (updateWait s).intake.intervalLen = s.intake.intervalLen := rfl

@[simp] theorem updateWait_intake_errored (s : State) : (updateWait s).intake.errored = s.intake.errored := rfl

@[simp] theorem updateWait_intake_lostClock (s : State) : (updateWait s).intake.lostClock = s.intake.lostClock := rfl

@[simp] theorem updateWait_intake_counters (s : State) : (updateWait s).intake.counters = s.intake.counters := rfl

/-! ## A wake (R179) -/

@[simp] theorem wake_parser (c : WakeCause) (s : State) : (wake c s).link.parser = s.link.parser := by
  unfold wake
  split <;> simp

@[simp] theorem wake_discard (c : WakeCause) (s : State) : (wake c s).link.discard = s.link.discard := by
  unfold wake
  split <;> simp

@[simp] theorem wake_running (c : WakeCause) (s : State) : (wake c s).link.running = s.link.running := by
  unfold wake
  split <;> simp

@[simp] theorem wake_waiting (c : WakeCause) (s : State) : (wake c s).link.waiting = s.link.waiting := by
  unfold wake
  split <;> simp

@[simp] theorem wake_removed (c : WakeCause) (s : State) : (wake c s).link.removed = s.link.removed := by
  unfold wake
  split <;> simp

@[simp] theorem wake_errCrc (c : WakeCause) (s : State) : (wake c s).link.errCrc = s.link.errCrc := by
  unfold wake
  split <;> simp

@[simp] theorem wake_errLen (c : WakeCause) (s : State) : (wake c s).link.errLen = s.link.errLen := by
  unfold wake
  split <;> simp

@[simp] theorem wake_errTime (c : WakeCause) (s : State) : (wake c s).link.errTime = s.link.errTime := by
  unfold wake
  split <;> simp

@[simp] theorem wake_dropped (c : WakeCause) (s : State) : (wake c s).link.dropped = s.link.dropped := by
  unfold wake
  split <;> simp

@[simp] theorem wake_strap (c : WakeCause) (s : State) : (wake c s).link.strap = s.link.strap := by
  unfold wake
  split <;> simp

@[simp] theorem wake_rate3M (c : WakeCause) (s : State) : (wake c s).link.rate3M = s.link.rate3M := by
  unfold wake
  split <;> simp

@[simp] theorem wake_staging (c : WakeCause) (s : State) : (wake c s).staging = s.staging := by
  unfold wake
  split <;> rfl

@[simp] theorem wake_flash (c : WakeCause) (s : State) : (wake c s).flash = s.flash := by
  unfold wake
  split <;> rfl

@[simp] theorem wake_store (c : WakeCause) (s : State) : (wake c s).store = s.store := by
  unfold wake
  split <;> rfl

@[simp] theorem wake_retr (c : WakeCause) (s : State) : (wake c s).retr = s.retr := by
  unfold wake
  split <;> rfl

@[simp] theorem wake_gauge (c : WakeCause) (s : State) : (wake c s).gauge = s.gauge := by
  unfold wake
  split <;> rfl

@[simp] theorem wake_settings (c : WakeCause) (s : State) : (wake c s).settings = s.settings := by
  unfold wake
  split <;> rfl

@[simp] theorem wake_pending (c : WakeCause) (s : State) : (wake c s).pending = s.pending := by
  unfold wake
  split <;> rfl

@[simp] theorem wake_intake_parser (c : WakeCause) (s : State) : (wake c s).intake.parser = s.intake.parser := by
  unfold wake
  split <;> rfl

@[simp] theorem wake_intake_hunt (c : WakeCause) (s : State) : (wake c s).intake.hunt = s.intake.hunt := by
  unfold wake
  split <;> rfl

@[simp] theorem wake_intake_slots (c : WakeCause) (s : State) : (wake c s).intake.slots = s.intake.slots := by
  unfold wake
  split <;> rfl

@[simp] theorem wake_intake_appends (c : WakeCause) (s : State) : (wake c s).intake.appends = s.intake.appends := by
  unfold wake
  split <;> rfl

@[simp] theorem wake_intake_openReq (c : WakeCause) (s : State) : (wake c s).intake.openReq = s.intake.openReq := by
  unfold wake
  split <;> rfl

@[simp] theorem wake_intake_lq (c : WakeCause) (s : State) : (wake c s).intake.lq = s.intake.lq := by
  unfold wake
  split <;> rfl

@[simp] theorem wake_intake_linkState (c : WakeCause) (s : State) : (wake c s).intake.linkState = s.intake.linkState := by
  unfold wake
  split <;> rfl

@[simp] theorem wake_intake_elapsed (c : WakeCause) (s : State) : (wake c s).intake.elapsed = s.intake.elapsed := by
  unfold wake
  split <;> rfl

@[simp] theorem wake_intake_intervalLen (c : WakeCause) (s : State) : (wake c s).intake.intervalLen = s.intake.intervalLen := by
  unfold wake
  split <;> rfl

@[simp] theorem wake_intake_errored (c : WakeCause) (s : State) : (wake c s).intake.errored = s.intake.errored := by
  unfold wake
  split <;> rfl

@[simp] theorem wake_intake_lostClock (c : WakeCause) (s : State) : (wake c s).intake.lostClock = s.intake.lostClock := by
  unfold wake
  split <;> rfl

@[simp] theorem wake_intake_counters (c : WakeCause) (s : State) : (wake c s).intake.counters = s.intake.counters := by
  unfold wake
  split <;> rfl

theorem wake_power (c : WakeCause) (s : State) :
    (wake c s).power = { s.power with st := .run, wake := c, resume := true, pauseMark := none } := by
  unfold wake
  split <;> rfl

@[simp] theorem controlWake_parser (s : State) : (controlWake s).link.parser = s.link.parser := by
  unfold controlWake
  split <;> simp

@[simp] theorem controlWake_discard (s : State) : (controlWake s).link.discard = s.link.discard := by
  unfold controlWake
  split <;> simp

/-- A taken frame is judged by an awake part. -/
theorem heard_paused (s : State) : s.heard.paused = false := by
  unfold State.heard controlWake
  split
  · simp [State.setCtl, State.paused, PowerState.paused, wake_power]
  · rename_i h
    simpa [State.setCtl, State.paused] using h

/-! ## Replies and frames (R3, R7, R11, R17) -/

/-- An immediate-class message enters the FIFO, or is dropped and counted. -/
theorem sendImmediate_enters (m : Message) (u : State) : EntersFifo m u (sendImmediate m u) := by
  refine ⟨rfl, fun h => ?_, fun h => ?_⟩
  · simp [sendImmediate, LinkUnit.immediate, Config.immediateLimit, h, LinkUnit.enter]
  · simp [sendImmediate, LinkUnit.immediate, Config.immediateLimit, Nat.not_lt.2 h, satInc, Config.max16]

theorem reply_enters (k t : Byte) (c : Code) (l : List Byte) (u : State) :
    EntersFifo (immediateReply k t c l) u (reply k t c l u) := sendImmediate_enters _ _

theorem commandFrame_discarded (k : CmdKind) (tag : Byte) (body : List Byte) (s : State) (h : s.link.discard = true) :
    commandFrame k tag body s = s := by simp [commandFrame, h]

theorem commandFrame_taken (k : CmdKind) (tag : Byte) (body : List Byte) (s : State) (h : s.link.discard = false) :
    commandFrame k tag body s = takeCommand k tag body s.heard := by simp [commandFrame, h, State.heard]

theorem commandFrame_refused (k : CmdKind) (tag : Byte) (body : List Byte) (s : State) (c : Code)
    (h : s.link.discard = false) (hc : checkCommand k tag body s.heard = some c) :
    commandFrame k tag body s = reply k.code tag c [] s.heard := by
  simp [commandFrame_taken k tag body s h, takeCommand, hc]

theorem commandFrame_served (k : CmdKind) (tag : Byte) (body : List Byte) (s : State)
    (h : s.link.discard = false) (hc : checkCommand k tag body s.heard = none) :
    commandFrame k tag body s = serve k tag body s.heard := by
  simp [commandFrame_taken k tag body s h, takeCommand, hc]

@[simp] theorem heard_staging (s : State) : s.heard.staging = s.staging := by
  unfold State.heard controlWake
  split <;> simp [State.setCtl]

@[simp] theorem heard_flash (s : State) : s.heard.flash = s.flash := by
  unfold State.heard controlWake
  split <;> simp [State.setCtl]

@[simp] theorem heard_store (s : State) : s.heard.store = s.store := by
  unfold State.heard controlWake
  split <;> simp [State.setCtl]

@[simp] theorem heard_retr (s : State) : s.heard.retr = s.retr := by
  unfold State.heard controlWake
  split <;> simp [State.setCtl]

@[simp] theorem heard_gauge (s : State) : s.heard.gauge = s.gauge := by
  unfold State.heard controlWake
  split <;> simp [State.setCtl]

@[simp] theorem heard_settings (s : State) : s.heard.settings = s.settings := by
  unfold State.heard controlWake
  split <;> simp [State.setCtl]

@[simp] theorem heard_pending (s : State) : s.heard.pending = s.pending := by
  unfold State.heard controlWake
  split <;> simp [State.setCtl]

@[simp] theorem heard_intake_hunt (s : State) : s.heard.intake.hunt = s.intake.hunt := by
  unfold State.heard controlWake
  split <;> simp [State.setCtl]

@[simp] theorem heard_intake_slots (s : State) : s.heard.intake.slots = s.intake.slots := by
  unfold State.heard controlWake
  split <;> simp [State.setCtl]

@[simp] theorem heard_intake_appends (s : State) : s.heard.intake.appends = s.intake.appends := by
  unfold State.heard controlWake
  split <;> simp [State.setCtl]

@[simp] theorem heard_intake_openReq (s : State) : s.heard.intake.openReq = s.intake.openReq := by
  unfold State.heard controlWake
  split <;> simp [State.setCtl]

@[simp] theorem heard_intake_lq (s : State) : s.heard.intake.lq = s.intake.lq := by
  unfold State.heard controlWake
  split <;> simp [State.setCtl]

@[simp] theorem heard_intake_linkState (s : State) : s.heard.intake.linkState = s.intake.linkState := by
  unfold State.heard controlWake
  split <;> simp [State.setCtl]

@[simp] theorem heard_intake_elapsed (s : State) : s.heard.intake.elapsed = s.intake.elapsed := by
  unfold State.heard controlWake
  split <;> simp [State.setCtl]

@[simp] theorem heard_intake_intervalLen (s : State) : s.heard.intake.intervalLen = s.intake.intervalLen := by
  unfold State.heard controlWake
  split <;> simp [State.setCtl]

@[simp] theorem heard_intake_errored (s : State) : s.heard.intake.errored = s.intake.errored := by
  unfold State.heard controlWake
  split <;> simp [State.setCtl]

@[simp] theorem heard_intake_lostClock (s : State) : s.heard.intake.lostClock = s.intake.lostClock := by
  unfold State.heard controlWake
  split <;> simp [State.setCtl]

@[simp] theorem heard_intake_counters (s : State) : s.heard.intake.counters = s.intake.counters := by
  unfold State.heard controlWake
  split <;> simp [State.setCtl]

@[simp] theorem heard_discard (s : State) : s.heard.link.discard = s.link.discard := by
  unfold State.heard controlWake
  split <;> simp [State.setCtl]

@[simp] theorem heard_running (s : State) : s.heard.link.running = s.link.running := by
  unfold State.heard controlWake
  split <;> simp [State.setCtl]

@[simp] theorem heard_waiting (s : State) : s.heard.link.waiting = s.link.waiting := by
  unfold State.heard controlWake
  split <;> simp [State.setCtl]

@[simp] theorem heard_removed (s : State) : s.heard.link.removed = s.link.removed := by
  unfold State.heard controlWake
  split <;> simp [State.setCtl]

@[simp] theorem heard_errCrc (s : State) : s.heard.link.errCrc = s.link.errCrc := by
  unfold State.heard controlWake
  split <;> simp [State.setCtl]

@[simp] theorem heard_errLen (s : State) : s.heard.link.errLen = s.link.errLen := by
  unfold State.heard controlWake
  split <;> simp [State.setCtl]

@[simp] theorem heard_errTime (s : State) : s.heard.link.errTime = s.link.errTime := by
  unfold State.heard controlWake
  split <;> simp [State.setCtl]

@[simp] theorem heard_dropped (s : State) : s.heard.link.dropped = s.link.dropped := by
  unfold State.heard controlWake
  split <;> simp [State.setCtl]

@[simp] theorem heard_strap (s : State) : s.heard.link.strap = s.link.strap := by
  unfold State.heard controlWake
  split <;> simp [State.setCtl]

@[simp] theorem heard_rate3M (s : State) : s.heard.link.rate3M = s.link.rate3M := by
  unfold State.heard controlWake
  split <;> simp [State.setCtl]

end Sys2Proof.Machine
end

