-- ==== Sys2Proof/Laws/Finish.lean ====
section
/-!
SUPPORT. The judgements after an event change nothing but the wait line where no follow-up work stands.
-/
namespace Sys2Proof.Machine

theorem startWalk_idle (s : State) (h : WalkStill s) : startWalk s = s := by
  unfold WalkStill at h
  unfold startWalk
  cases hw : s.store.walk with
  | none =>
    rw [hw] at h
    have e : s.walkStale = false := by simp [State.walkStale, hw]
    have h : s.flash.refresh = [] := h
    simp [e, hw, h]
  | some w =>
    rw [hw] at h
    have e : s.walkStale = false := by
      simp only [State.walkStale, hw]
      split
      · rename_i hp
        rcases h with h | h
        · exact absurd hp h
        · simp [State.walkStopped, hw, h.1, h.2]
      all_goals rfl
    simp [e, hw]

/-- No read waits on a die that is not READY: none ends at once (R83). -/
theorem drainDead_ready (n : Nat) (s : State)
    (hr : ∀ q, s.retr.ctx.bind RetrCtx.read = some q → s.dieReady q.addr.die = true)
    (hf : ∀ q ∈ s.flash.reads, s.dieReady q.addr.die = true) : drainDead n s = s := by
  cases n with
  | zero => rfl
  | succ n =>
    unfold drainDead
    have h1 : ((s.retr.ctx.bind RetrCtx.read).filter fun q => !q.started && !s.dieReady q.addr.die) = none := by
      cases e : s.retr.ctx.bind RetrCtx.read with
      | none => rfl
      | some q => simp [Option.filter, hr q e]
    have h2 : (s.flash.reads.find? fun q => !s.dieReady q.addr.die) = none := by
      simp only [List.find?_eq_none, Bool.not_eq_true', Bool.not_eq_false]
      exact hf
    simp only [h1, h2]

theorem mountPump_none (s : State) (h : s.power.mount = none) : mountPump s = s := by
  unfold mountPump
  rw [h]

theorem judgePause_none (s : State) (h : s.isRunning .pause = false) : judgePause s = s := by
  simp [judgePause, h]

theorem lowHaltCheck_calm (s : State) (h : s.emergency = false) : lowHaltCheck s = s := by
  simp [lowHaltCheck, State.lowHaltDue, h]

/-- Where no follow-up work stands, the judgements after an event re-derive the wait line alone (R34). -/
theorem finish_still (s : State) (h : Still s) : finish s = updateWait s := by
  obtain ⟨h1, h2, h3, h4, h5, h6⟩ := h
  unfold finish
  rw [startWalk_idle s h1, drainDead_ready _ s h2 h3, mountPump_none s h4, judgePause_none s h5, lowHaltCheck_calm s h6]

/-- What `Still` reads stands as it was. -/
theorem still_congr {s t : State} (h : Still s) (h1 : t.store.walk = s.store.walk) (h2 : t.flash.refresh = s.flash.refresh)
    (h3 : t.retr.ctx = s.retr.ctx) (h4 : t.flash.reads = s.flash.reads) (h5 : ∀ d, t.dieReady d = s.dieReady d)
    (h6 : t.power.mount = s.power.mount) (h7 : t.isRunning .pause = false) (h8 : t.emergency = s.emergency) : Still t := by
  obtain ⟨a, b, c, d, _, f⟩ := h
  refine ⟨by unfold WalkStill at a ⊢; rw [h1, h2]; exact a, fun q hq => ?_, fun q hq => ?_, h6.trans d, h7, h8.trans f⟩
  · rw [h5]; rw [h3] at hq; exact b q hq
  · rw [h5]; rw [h4] at hq; exact c q hq

end Sys2Proof.Machine
end

