-- ==== Sys2Proof/Laws/Staging.lean ====
section
/-!
SUPPORT. What the operations over staging buffers leave alone, and what a close leaves of a line.
-/
namespace Sys2Proof.Machine

/-! ## Lines under a change of one -/

theorem find_mapIf_same (n m : Nat) (f : Line → Line) (hf : ∀ l, (f l).num = l.num) (ls : List Line) :
    (mapIf (fun l => l.num == n) f ls).find? (fun l => l.num == m) =
      (ls.find? fun l => l.num == m).map fun l => if l.num == n then f l else l := by
  induction ls with
  | nil => rfl
  | cons a ls ih =>
    simp only [mapIf, List.map_cons, List.find?_cons] at ih ⊢
    have e : (if (a.num == n) = true then f a else a).num = a.num := by split <;> simp [hf]
    rw [e]
    split
    · rfl
    · exact ih

/-- One line changed under its own number. -/
theorem line_modLine (n m : Nat) (f : Line → Line) (hf : ∀ l, (f l).num = l.num) (s : State) :
    (s.modLine n f).line m = (s.line m).map fun l => if l.num == n then f l else l :=
  find_mapIf_same n m f hf s.store.lines

theorem line_num {s : State} {n : Nat} {l : Line} (h : s.line n = some l) : l.num = n := by
  have := List.find?_some h
  simpa using this

theorem map_mapIf_same {α β : Type} (p : α → Bool) (f : α → α) (g : α → β) (h : ∀ x, g (f x) = g x) (l : List α) :
    (mapIf p f l).map g = l.map g := by
  simp only [mapIf, List.map_map]
  congr 1
  funext x
  dsimp only [Function.comp]
  split <;> simp [h]

/-! ## Staging operations change staging, the images in flight, the wait line and the erase of anchor block 0 -/

/-- A die without its due erases. -/
def Die.undue (d : Die) : Die := { d with due := [] }

/-- A line without how far its flushes and its root have come. -/
def Line.bare (l : Line) : Line :=
  { l with
    pool := l.pool.map fun p => { p with out := false }, rewrite := false, flush := none, rootOut := false, late := [] }

/-- The line store without how far its images have come. -/
def LineStore.unbuilt (t : LineStore) : LineStore :=
  { t with lines := t.lines.map Line.bare, pendings := [], segRw := [], segDone := [], rootRw := [] }

/-- The state without staging, how far the store's images have come, the wait line and what the settings position makes
due (R56, R90). -/
def State.unstaged (s : State) : State :=
  { s with
    staging := .reset, store := s.store.unbuilt, intake := { s.intake with wait := true },
    flash := { s.flash with erase0 := false, dies := s.flash.dies.map Die.undue } }

@[simp] theorem bare_flushing (es : List PageEntry) (l : Line) : (l.flushing es).bare = l.bare := by
  simp only [Line.flushing, Line.bare, List.map_map]
  congr 2
  funext p
  dsimp only [Function.comp]
  split <;> rfl

/-- A request that is built changes nothing of the line store but how far its images have come (R56). -/
theorem unbuilt_of_build {q : ImageReq} {s : State} {im : Image} {t : LineStore}
    (h : buildRequest q s = some (im, t)) : t.unbuilt = s.store.unbuilt := by
  cases q with
  | flush n =>
    simp only [buildRequest, buildFlush] at h
    split at h
    · simp at h
    · split at h
      · simp at h
      · simp only [Option.some.injEq, Prod.mk.injEq] at h
        rw [← h.2]
        simp only [LineStore.unbuilt, map_mapIf_same _ _ Line.bare (bare_flushing _)]
  | segRewrite n k =>
    simp only [buildRequest, buildSegRewrite] at h
    split at h
    · simp at h
    · split at h
      · simp at h
      · simp at h
      · simp only [Option.some.injEq, Prod.mk.injEq] at h
        rw [← h.2]
        rfl
  | closeRoot n =>
    simp only [buildRequest, buildCloseRoot] at h
    split at h
    · simp at h
    · split at h
      · simp only [Option.some.injEq, Prod.mk.injEq] at h
        rw [← h.2]
        simp only [LineStore.unbuilt, map_mapIf_same (fun l => l.num == n) (fun l => { l with late := [] }) Line.bare fun _ => rfl]
      · simp at h
  | rootRewrite n =>
    simp only [buildRequest, buildRootRewrite] at h
    split at h
    · split at h
      · simp at h
      · simp at h
      · simp only [Option.some.injEq, Prod.mk.injEq] at h
        rw [← h.2]
        rfl
    · simp at h
  | checkpoint i =>
    simp only [buildRequest, buildCheckpoint] at h
    split at h
    · split at h
      · simp only [Option.some.injEq, Prod.mk.injEq] at h
        rw [← h.2]
      · simp at h
    · simp at h
    · simp at h
  | settings body =>
    simp only [buildRequest, Option.some.injEq, Prod.mk.injEq] at h
    rw [← h.2]

@[simp] theorem unstaged_updateWait (s : State) : (updateWait s).unstaged = s.unstaged := rfl

@[simp] theorem unstaged_modStaging (f : Staging → Staging) (s : State) : (s.modStaging f).unstaged = s.unstaged := rfl

@[simp] theorem unstaged_setBuf (b : Nat) (x : Option Buf) (s : State) : (s.setBuf b x).unstaged = s.unstaged := rfl

@[simp] theorem unstaged_modBuf (b : Nat) (f : Buf → Buf) (s : State) : (s.modBuf b f).unstaged = s.unstaged := rfl

theorem map_modify_same {α β : Type} (f : α → α) (g : α → β) (h : ∀ x, g (f x) = g x) (l : List α) (i : Nat) :
    (l.modify i f).map g = l.map g := by
  induction l generalizing i with
  | nil => simp
  | cons a l ih => cases i <;> simp [h, ih]

@[simp] theorem unstaged_settingsDue (s : State) : (settingsDue s).unstaged = s.unstaged := by
  unfold settingsDue
  split
  · rfl
  · simp only [State.unstaged, State.modDie, State.modFlash]
    congr 2
    refine map_modify_same _ _ (fun d => ?_) _ _
    split <;> split <;> rfl

@[simp] theorem unstaged_putImage (b : Nat) (im : Image) (s : State) : (putImage b im s).unstaged = s.unstaged := by
  unfold putImage
  dsimp only
  split <;> simp

theorem unstaged_giveBuffer {q : ImageReq} {s : State} {im : Image} {t : LineStore}
    (h : buildRequest q s = some (im, t)) (b : Nat) : (giveBuffer b im t s).unstaged = s.unstaged := by
  refine (unstaged_putImage _ _ _).trans ?_
  simp only [State.unstaged, State.modStore, unbuilt_of_build h]

/-- What comes of an image that is returned unwritten: SAVE-SETTINGS may end, which moves the link unit and how far the power
manager's own sequences have come (R83, R197). -/
theorem settingsUnwritten_eq (s : State) : settingsUnwritten s = s ∨
    ∃ l, settingsUnwritten s = { s with link := l, power := { s.power with pause := .none, fmt := .none } } := by
  unfold settingsUnwritten endIf
  split
  · rename_i r hr
    split
    · rename_i hc
      have hk : r.cmd.kind = .saveSettings := by
        simp only [Bool.and_eq_true, beq_iff_eq] at hc
        exact hc.1.2
      refine Or.inr ?_
      unfold endCommand
      rw [hr]
      dsimp only
      split
      · simp only [finalPlaced, hk]
        exact ⟨_, rfl⟩
      · exact ⟨_, rfl⟩
    · exact Or.inl rfl
  · exact Or.inl rfl

/-- Only a checkpoint asks for a further image. -/
theorem nextRequest_notSettings {q q' : ImageReq} {s : State} (h : nextRequest q s = some q') : q'.isSettings = false := by
  unfold nextRequest at h
  split at h
  · split at h
    · cases h; rfl
    · cases h
  · cases h

theorem writable_of_notSettings {q : ImageReq} (s : State) (h : q.isSettings = false) : s.unwritable q = false := by
  simp [State.unwritable, h]

theorem unstaged_addRequest (n : Nat) (q : ImageReq) (s : State) (hq : q.isSettings = false ∨ s.dieReady 0 = true) :
    (addRequest n q s).unstaged = s.unstaged := by
  induction n generalizing q s with
  | zero => rfl
  | succ n ih =>
    have hw : s.unwritable q = false := by rcases hq with h | h <;> simp [State.unwritable, h]
    unfold addRequest
    split
    · simp only [hw, Bool.false_eq_true, if_false]
      split
      · rfl
      · rename_i im t h
        split
        · rename_i hn
          exact (ih _ _ (.inl (nextRequest_notSettings hn))).trans (unstaged_giveBuffer h _)
        · exact unstaged_giveBuffer h _
    · rfl

theorem unstaged_requestImage (q : ImageReq) (s : State) (hq : q.isSettings = false ∨ s.dieReady 0 = true) :
    (requestImage q s).unstaged = s.unstaged := unstaged_addRequest _ _ _ hq

/-- What a request builds does not depend on the requests that wait behind it. -/
theorem buildRequest_requests (q : ImageReq) (qs : List ImageReq) (s : State) :
    buildRequest q (s.modStaging fun t => { t with requests := qs }) = buildRequest q s := by
  cases q <;> rfl

/-- No image of the list is a SETTINGS image, or die 0 can take one. -/
def State.writable (s : State) (qs : List ImageReq) : Prop := s.dieReady 0 = true ∨ ∀ q ∈ qs, q.isSettings = false

theorem unstaged_handOver (b : Nat) (qs : List ImageReq) (s : State) (hq : s.writable qs) :
    (handOver b qs s).unstaged = s.unstaged := by
  induction qs generalizing s with
  | nil => rfl
  | cons q qs ih =>
    have hw : s.unwritable q = false := by
      rcases hq with h | h
      · simp [State.unwritable, h]
      · exact writable_of_notSettings s (h q (by simp))
    unfold handOver
    simp only [hw, Bool.false_eq_true, if_false]
    split
    · exact ih s (hq.imp_right fun h q hm => h q (by simp [hm]))
    · rename_i im t h
      rw [← buildRequest_requests q qs s] at h
      split
      · rename_i hn
        exact (unstaged_requestImage _ _ (.inl (nextRequest_notSettings hn))).trans (unstaged_giveBuffer h _)
      · exact unstaged_giveBuffer h _

theorem unstaged_freeBuf (b : Nat) (s : State) (hq : s.writable s.staging.requests) : (freeBuf b s).unstaged = s.unstaged := by
  unfold freeBuf
  split
  · rfl
  · exact unstaged_handOver _ _ _ hq

/-- The state without what a buffer that becomes FREE may move, the end of a SAVE-SETTINGS with it (R56, R83). -/
def State.unfreed (s : State) : State :=
  { s.unstaged with link := .reset false, power := { s.power with pause := .none, fmt := .none } }

theorem unfreed_of_unstaged {s t : State} (h : t.unstaged = s.unstaged) : t.unfreed = s.unfreed := by
  have hp : t.unstaged.power = s.unstaged.power := congrArg State.power h
  have hp : t.power = s.power := hp
  simp only [State.unfreed, h, hp]

@[simp] theorem unfreed_settingsUnwritten (s : State) : (settingsUnwritten s).unfreed = s.unfreed := by
  rcases settingsUnwritten_eq s with h | ⟨l, h⟩
  · rw [h]
  · rw [h]; rfl

@[simp] theorem unfreed_handOver (b : Nat) (qs : List ImageReq) (s : State) : (handOver b qs s).unfreed = s.unfreed := by
  induction qs generalizing s with
  | nil => rfl
  | cons q qs ih =>
    unfold handOver
    split
    · exact (unfreed_settingsUnwritten _).trans (ih s)
    · split
      · exact ih s
      · rename_i im t h
        rw [← buildRequest_requests q qs s] at h
        refine unfreed_of_unstaged ?_
        dsimp only
        split
        · rename_i hn
          exact (unstaged_requestImage _ _ (.inl (nextRequest_notSettings hn))).trans (unstaged_giveBuffer h _)
        · exact unstaged_giveBuffer h _

@[simp] theorem unfreed_freeBuf (b : Nat) (s : State) : (freeBuf b s).unfreed = s.unfreed := by
  unfold freeBuf
  split
  · rfl
  · exact unfreed_handOver _ _ _

theorem unfreed_foldl {α : Type} (f : State → α → State) (hf : ∀ s a, (f s a).unfreed = s.unfreed) (l : List α)
    (s : State) : (l.foldl f s).unfreed = s.unfreed := by
  induction l generalizing s with
  | nil => rfl
  | cons a l ih => exact (ih _).trans (hf s a)

@[simp] theorem unstaged_queueFilling (b : Nat) (s : State) : (queueFilling b s).unstaged = s.unstaged := rfl

@[simp] theorem unstaged_queueSlot (i : Nat) (s : State) : (queueSlot i s).unstaged = s.unstaged := by
  unfold queueSlot
  split <;> rfl

@[simp] theorem unfreed_requeueBuf (b : Nat) (s : State) : (requeueBuf b s).unfreed = s.unfreed := by
  unfold requeueBuf
  split
  · rfl
  · split
    · simp
    · refine unfreed_of_unstaged ?_
      dsimp only
      split <;> simp

@[simp] theorem unfreed_requeueMany (bs : List Nat) (s : State) : (requeueMany bs s).unfreed = s.unfreed :=
  unfreed_foldl _ (fun s b => unfreed_requeueBuf b s) _ _

@[simp] theorem unstaged_setVerifying (b : Nat) (s : State) : (s.setVerifying b).unstaged = s.unstaged := rfl

/-! ## What follows for the parts that `unstaged` keeps whole -/

section
variable {s t : State} (h : t.unstaged = s.unstaged)
include h

theorem link_of_unstaged : t.link = s.link := by
  have e := congrArg (fun u : State => u.link) h
  exact e
theorem walk_of_unstaged : t.store.walk = s.store.walk := by
  have e := congrArg (fun u : State => u.store.walk) h
  exact e
theorem counters_of_unstaged : t.intake.counters = s.intake.counters := by
  have e := congrArg (fun u : State => u.intake.counters) h
  exact e
theorem retr_of_unstaged : t.retr = s.retr := by
  have e := congrArg (fun u : State => u.retr) h
  exact e
theorem motion_of_unstaged : t.motion = s.motion := by
  have e := congrArg (fun u : State => u.motion) h
  exact e
theorem gauge_of_unstaged : t.gauge = s.gauge := by
  have e := congrArg (fun u : State => u.gauge) h
  exact e
theorem power_of_unstaged : t.power = s.power := by
  have e := congrArg (fun u : State => u.power) h
  exact e
theorem settings_of_unstaged : t.settings = s.settings := by
  have e := congrArg (fun u : State => u.settings) h
  exact e
theorem slots_of_unstaged : t.intake.slots = s.intake.slots := by
  have e := congrArg (fun u : State => u.intake.slots) h
  exact e
theorem openReq_of_unstaged : t.intake.openReq = s.intake.openReq := by
  have e := congrArg (fun u : State => u.intake.openReq) h
  exact e
theorem reads_of_unstaged : t.flash.reads = s.flash.reads := by
  have e := congrArg (fun u : State => u.flash.reads) h
  exact e
theorem refresh_of_unstaged : t.flash.refresh = s.flash.refresh := by
  have e := congrArg (fun u : State => u.flash.refresh) h
  exact e

theorem dieReady_of_unstaged (d : Nat) : t.dieReady d = s.dieReady d := by
  have e : (t.flash.dies.map Die.undue)[d]? = (s.flash.dies.map Die.undue)[d]? :=
    congrArg (fun u : State => u.flash.dies[d]?) h
  simp only [List.getElem?_map] at e
  simp only [State.dieReady, State.die]
  cases ht : t.flash.dies[d]? <;> cases hs : s.flash.dies[d]? <;> simp_all [Die.undue]

/-- Each line keeps its state. -/
theorem lineState_of_unstaged (m : Nat) : (t.line m).map Line.st = (s.line m).map Line.st := by
  have key : ∀ ls : List Line, (ls.map Line.bare).find? (fun l => l.num == m) =
      (ls.find? fun l => l.num == m).map Line.bare := by
    intro ls
    induction ls with
    | nil => rfl
    | cons a ls ih =>
      simp only [List.map_cons, List.find?_cons]
      have e : a.bare.num = a.num := rfl
      rw [e]
      split
      · rfl
      · exact ih
  have e : (t.store.lines.map Line.bare).find? (fun l => l.num == m) =
      (s.store.lines.map Line.bare).find? (fun l => l.num == m) :=
    congrArg (fun u : State => u.store.lines.find? fun l => l.num == m) h
  rw [key, key] at e
  have e2 := congrArg (Option.map Line.st) e
  simp only [Option.map_map] at e2
  exact e2

/-- Staging operations bring about no follow-up work. -/
theorem still_of_unstaged (hs : Still s) : Still t := by
  have hl := link_of_unstaged h
  refine still_congr hs (walk_of_unstaged h) (refresh_of_unstaged h) (by rw [retr_of_unstaged h])
    (reads_of_unstaged h) (dieReady_of_unstaged h) (by rw [power_of_unstaged h]) ?_ ?_
  · have := hs.2.2.2.2.1
    simp only [State.isRunning, hl] at this ⊢
    exact this
  · simp only [State.emergency, power_of_unstaged h]

end

/-! ## Flushes and the step of a close change staging and the line's own images (R102, R106, R107) -/

theorem unstaged_modLine (n : Nat) (f : Line → Line) (hb : ∀ l, (f l).bare = l.bare) (s : State) :
    (s.modLine n f).unstaged = s.unstaged := by
  simp only [State.unstaged, State.modLine, State.modStore, LineStore.unbuilt, map_mapIf_same _ _ Line.bare hb]

@[simp] theorem unstaged_requestFlush (n : Nat) (pressure : Bool) (s : State) :
    (requestFlush n pressure s).unstaged = s.unstaged := by
  unfold requestFlush
  split
  · rfl
  · extract_lets p
    split
    · rfl
    · exact (unstaged_requestImage _ _ (.inl rfl)).trans (by apply unstaged_modLine; intro l; rfl)

@[simp] theorem unstaged_closeAdvance (n : Nat) (s : State) : (closeAdvance n s).unstaged = s.unstaged := by
  unfold closeAdvance
  split
  · rfl
  · split
    · rfl
    · split
      · exact unstaged_requestFlush _ _ _
      · split
        · rfl
        · exact (unstaged_requestImage _ _ (.inl rfl)).trans (by apply unstaged_modLine; intro l; rfl)

end Sys2Proof.Machine
end

