-- ==== Sys2Proof/Laws/Close.lean ====
section
/-!
SUPPORT. What a close request does (R106): it moves its line to CLOSING, releases its slot, raises a notice, and otherwise
moves staging and the line's own images alone.
-/
namespace Sys2Proof.Machine

/-- A notice raised moves the link unit alone: no reply enters the FIFO. -/
theorem raiseNotice_link (k : NoticeKind) (d : List Byte) (s : State) :
    ∃ l, raiseNotice k d s = { s with link := l } ∧ l.fifo.length ≤ s.link.fifo.length ∧ l.running = s.link.running ∧
      l.waiting = s.link.waiting := by
  refine ⟨_, rfl, ?_, ?_, ?_⟩
  · exact choose_fifo_length _ _
  · simp [LinkUnit.raise]
  · simp [LinkUnit.raise]

/-- Replies that wait keep their places as a notice is raised: a transmitter that is idle has none to send (R18). -/
theorem raiseNotice_fifo (k : NoticeKind) (d : List Byte) (s : State) (h : s.link.sending ≠ none ∨ s.link.fifo = []) :
    (raiseNotice k d s).link.fifo = s.link.fifo ∧
      ((raiseNotice k d s).link.sending ≠ none ∨ (raiseNotice k d s).link.fifo = []) := by
  unfold raiseNotice LinkUnit.raise LinkUnit.choose
  simp only [modLink_link]
  split
  · exact ⟨rfl, h⟩
  · next hi =>
    have h : s.link.fifo = [] := h.resolve_left fun k => hi (by simp [Option.isSome_iff_ne_none.2 k])
    rw [h]
    dsimp only
    split <;> simp

/-- What a close request of line `n` leaves (R40, R106). -/
structure ClosedFrom (n : Nat) (s t : State) : Prop where
  state : (t.line n).map Line.st = some .closing
  others : ∀ m, m ≠ n → (t.line m).map Line.st = (s.line m).map Line.st
  slots : t.intake.slots = match s.slotOf n with
    | some i => s.intake.slots.set i none
    | none => s.intake.slots
  openReq : t.intake.openReq = s.intake.openReq
  counters : t.intake.counters = s.intake.counters
  running : t.link.running = s.link.running
  waiting : t.link.waiting = s.link.waiting
  fifo : t.link.fifo.length ≤ s.link.fifo.length
  power : t.power = s.power
  retr : t.retr = s.retr
  walk : t.store.walk = s.store.walk
  reads : t.flash.reads = s.flash.reads
  refresh : t.flash.refresh = s.flash.refresh
  blocks : t.flash.blocks = s.flash.blocks
  dies : ∀ d, t.dieReady d = s.dieReady d
  settings : t.settings = s.settings
  gauge : t.gauge = s.gauge
  motion : t.motion = s.motion

/-- A close request of an OPEN line. -/
theorem requestClose_opened {n : Nat} {s : State} {l : Line} (r : CloseReason) (cut : Bool) (h : s.line n = some l)
    (ho : l.st = .opened) : ClosedFrom n s (requestClose n r cut s) := by
  let slots := match s.slotOf n with
    | some i => s.intake.slots.set i none
    | none => s.intake.slots
  let w : State := { s with intake := { s.intake with slots := slots } }
  let close : Line → Line := fun l => { l with
    st := .closing, flags := { l.flags with limit := l.flags.limit || r == .limit, cut := l.flags.cut || cut } }
  obtain ⟨u, hu, e⟩ : ∃ u : State, u.unstaged = w.unstaged ∧
      requestClose n r cut s = closeAdvance n (raiseLineClosed n r (u.modLine n close)) := by
    simp only [requestClose, h, ho, w, slots]
    cases e : s.slotOf n with
    | none => exact ⟨s, rfl, by simp [close]⟩
    | some i => exact ⟨(queueSlot i s).setSlot i none, congrArg (fun u : State => u.setSlot i none) (unstaged_queueSlot i s),
        by simp [close]⟩
  obtain ⟨l', e1, e2, e3, e4⟩ := raiseNotice_link .lineClosed (le2 n ++ le1 r.code) (u.modLine n close)
  have e1 : raiseLineClosed n r (u.modLine n close) = { u.modLine n close with link := l' } := e1
  have hl : u.link = s.link := link_of_unstaged (s := w) hu
  have hc := unstaged_closeAdvance n (raiseLineClosed n r (u.modLine n close))
  rw [← e, e1] at hc
  have key : ∀ m, ((requestClose n r cut s).line m).map Line.st =
      ((s.line m).map fun l => if l.num == n then close l else l).map Line.st := by
    intro m
    rw [lineState_of_unstaged hc m]
    have hm : ∀ v : State, ({ v with link := l' } : State).line m = v.line m := fun _ => rfl
    rw [hm, line_modLine n m close (fun _ => rfl) u]
    have g : ∀ o : Option Line, (o.map fun l => if l.num == n then close l else l).map Line.st =
        o.bind fun l => if l.num == n then some .closing else some l.st := by
      intro o
      cases o with
      | none => rfl
      | some x =>
        simp only [Option.map_some, Option.bind_some]
        split <;> rfl
    have hw : (u.line m).map Line.st = (s.line m).map Line.st := lineState_of_unstaged (s := w) hu m
    rw [g, g]
    cases hx : u.line m with
    | none =>
      cases hy : s.line m with
      | none => rfl
      | some y => simp [hx, hy] at hw
    | some x =>
      cases hy : s.line m with
      | none => simp [hx, hy] at hw
      | some y =>
        simp only [hx, hy, Option.map_some, Option.some.injEq] at hw
        simp only [Option.bind_some, line_num hx, line_num hy, hw]
  exact
    { state := by rw [key n, h]; simp [line_num h, close]
      others := fun m hm => by
        rw [key m]
        cases hx : s.line m with
        | none => rfl
        | some x =>
          have : (x.num == n) = false := by simp [line_num hx, hm]
          simp only [Option.map_some, this, Bool.false_eq_true, if_false]
      slots := (slots_of_unstaged hc).trans (slots_of_unstaged (s := w) (t := u) hu)
      openReq := (openReq_of_unstaged hc).trans (openReq_of_unstaged (s := w) (t := u) hu)
      counters := (counters_of_unstaged hc).trans (counters_of_unstaged (s := w) (t := u) hu)
      running := (congrArg (·.running) (link_of_unstaged hc)).trans (e3.trans (congrArg (·.running) hl))
      waiting := (congrArg (·.waiting) (link_of_unstaged hc)).trans (e4.trans (congrArg (·.waiting) hl))
      fifo := (congrArg (·.fifo.length) (link_of_unstaged hc)).trans_le (e2.trans_eq (congrArg (·.fifo.length) hl))
      power := (power_of_unstaged hc).trans (power_of_unstaged (s := w) (t := u) hu)
      retr := (retr_of_unstaged hc).trans (retr_of_unstaged (s := w) (t := u) hu)
      walk := (walk_of_unstaged hc).trans (walk_of_unstaged (s := w) (t := u) hu)
      reads := (reads_of_unstaged hc).trans (reads_of_unstaged (s := w) (t := u) hu)
      refresh := (refresh_of_unstaged hc).trans (refresh_of_unstaged (s := w) (t := u) hu)
      blocks := by
        have a := congrArg (fun v : State => v.flash.blocks) hc
        have b := congrArg (fun v : State => v.flash.blocks) hu
        exact a.trans b
      dies := fun d => (dieReady_of_unstaged hc d).trans (dieReady_of_unstaged (s := w) (t := u) hu d)
      settings := (settings_of_unstaged hc).trans (settings_of_unstaged (s := w) (t := u) hu)
      gauge := (gauge_of_unstaged hc).trans (gauge_of_unstaged (s := w) (t := u) hu)
      motion := (motion_of_unstaged hc).trans (motion_of_unstaged (s := w) (t := u) hu) }

/-- A close request brings about no follow-up work. -/
theorem ClosedFrom.still {n : Nat} {s t : State} (h : ClosedFrom n s t) (hs : Still s) : Still t := by
  refine still_congr hs h.walk h.refresh (by rw [h.retr]) h.reads h.dies (by rw [h.power]) ?_ ?_
  · have := hs.2.2.2.2.1
    simpa only [State.isRunning, h.running] using this
  · simp only [State.emergency, h.power]

end Sys2Proof.Machine
end

