-- ==== Sys2Proof/Laws/Holds.lean ====
section
/-!
SUPPORT. What every operation does to the queue of commands and to the invariant: `Holds q P s.kept` says that the queue of `s` is
`q`, and under `P` that the invariant holds of `s`. With `P` false it speaks of the queue alone, with `P` true of both. One
lemma per operation that moves more than `State.kept` leaves out.
-/
namespace Sys2Proof.Machine

/-- The queue is `q`, and under `P` the bounds hold; both read `State.kept` alone. -/
def Holds (q : List Instr) (P : Prop) (k : State) : Prop := k.pending = q ∧ (P → Bounds k)

variable {q : List Instr} {P : Prop}

/-! ## One block's state at a time -/

@[simp] theorem holds_modLink (f : LinkUnit → LinkUnit) (s : State) (h : Holds q P s.kept) :
    Holds q P (s.modLink f).kept := h

@[simp] theorem holds_modFlash (f : Flash → Flash) (s : State) (h : Holds q P s.kept) :
    Holds q P (s.modFlash f).kept := h

@[simp] theorem holds_modDie (d : Nat) (f : Die → Die) (s : State) (h : Holds q P s.kept) :
    Holds q P (s.modDie d f).kept := h

@[simp] theorem holds_modIntake (f : Intake → Intake) (s : State) (hf : ∀ i, (f i).lq = i.lq)
    (h : Holds q P s.kept) : Holds q P (s.modIntake f).kept := by
  refine ⟨h.1, fun p => ?_⟩
  obtain ⟨a, b, c, d, e, g⟩ := h.2 p
  exact ⟨a, b, c, d, (hf s.intake).trans_le e, g⟩

@[simp] theorem holds_modPower (f : Power → Power) (s : State) (hf : ∀ p, (f p).clock = p.clock)
    (h : Holds q P s.kept) : Holds q P (s.modPower f).kept := by
  refine ⟨h.1, fun p => ?_⟩
  obtain ⟨a, b, c, d, e, g⟩ := h.2 p
  exact ⟨a, b, c, d, e, (hf s.power).trans_lt g⟩

@[simp] theorem holds_modMotion (f : Motion → Motion) (s : State)
    (hf : ∀ m, (f m).score = m.score ∧ (f m).log = m.log) (h : Holds q P s.kept) :
    Holds q P (s.modMotion f).kept := by
  refine ⟨h.1, fun p => ?_⟩
  obtain ⟨a, b, c, d, e, g⟩ := h.2 p
  refine ⟨a, b, (hf s.motion).1.trans_le c, ?_, e, g⟩
  exact (congrArg List.length (hf s.motion).2).trans_le d

@[simp] theorem holds_modSettings (f : Settings → Settings) (s : State) (hf : ∀ c, (f c).items = c.items)
    (h : Holds q P s.kept) : Holds q P (s.modSettings f).kept := by
  refine ⟨h.1, fun p => ?_⟩
  obtain ⟨a, b, c, d, e, g⟩ := h.2 p
  have hd : (s.modSettings f).design = s.design := by
    simp only [State.design, State.designMah, State.item, Settings.item, modSettings_settings, hf]
  refine ⟨?_, ?_, c, d, e, g⟩
  · have := hf s.settings
    rw [show (s.modSettings f).kept.settings.items = s.settings.items from this]
    exact a
  · rw [show (s.modSettings f).kept.design = s.design from hd]
    exact b

/-- A change of the gauge that keeps its bounds. -/
theorem holds_modGauge_ok (f : Gauge → Gauge) (s : State) (hf : s.gauge.ok s.design → (f s.gauge).ok s.design)
    (h : Holds q P s.kept) : Holds q P (s.modGauge f).kept := by
  refine ⟨h.1, fun p => ?_⟩
  obtain ⟨a, b, c, d, e, g⟩ := h.2 p
  exact ⟨a, hf b, c, d, e, g⟩

@[simp] theorem holds_modGauge (f : Gauge → Gauge) (s : State)
    (hf : ∀ g, (f g).rc = g.rc ∧ (f g).fcc = g.fcc ∧ (f g).soc = g.soc) (h : Holds q P s.kept) :
    Holds q P (s.modGauge f).kept := by
  refine holds_modGauge_ok f s (fun b => ?_) h
  obtain ⟨h1, h2, h3⟩ := hf s.gauge
  unfold Gauge.ok at b ⊢
  rw [h1, h2, h3]
  exact b

theorem holds_foldl {α : Type} (f : State → α → State) (hf : ∀ s a, Holds q P s.kept → Holds q P (f s a).kept)
    (l : List α) (s : State) (h : Holds q P s.kept) : Holds q P (l.foldl f s).kept := by
  induction l generalizing s with
  | nil => exact h
  | cons a l ih => exact ih _ (hf s a h)

@[simp] theorem holds_ite (c : Prop) [Decidable c] (k l : State) :
    Holds q P (if c then k else l) ↔ (c → Holds q P k) ∧ (¬c → Holds q P l) := by split <;> simp_all

@[simp] theorem enter_score (st : MotionState) (m : Motion) : (m.enter st).score = m.score := rfl

@[simp] theorem enter_log (st : MotionState) (m : Motion) : (m.enter st).log = m.log := rfl

@[simp] theorem newEvent_score (clock fall : Nat) (m : Motion) : (m.newEvent clock fall).score = m.score := rfl

@[simp] theorem newEvent_log (clock fall : Nat) (m : Motion) : (m.newEvent clock fall).log = m.log := rfl

@[simp] theorem takePeak_score (mag : Nat) (axis : Axis) (m : Motion) : (m.takePeak mag axis).score = m.score := by
  unfold Motion.takePeak
  split <;> rfl

@[simp] theorem takePeak_log (mag : Nat) (axis : Axis) (m : Motion) : (m.takePeak mag axis).log = m.log := by
  unfold Motion.takePeak
  split <;> rfl

/-! ## The settings and the gauge -/

theorem settingsOk_defaults : SettingsOk Settings.defaults := by
  refine ⟨rfl, fun i => ?_, by decide, by decide, by decide⟩
  rcases Nat.lt_or_ge i 42 with h | h
  · interval_cases i <;> rfl
  · have h1 : Settings.defaults[i]? = none := List.getElem?_eq_none (by simpa [Settings.defaults] using h)
    have h2 : itemRanges[i]? = none := List.getElem?_eq_none (by simpa [itemRanges] using h)
    simp [clampItem, List.getD, h1, h2]

theorem gauge_ok_reset : Gauge.reset.ok (Settings.reset.item 33 * Config.qPerMah) := by
  unfold Gauge.ok
  decide

theorem lockedCharge_le (fcc : Nat) (t : Int) : lockedCharge fcc t ≤ fcc := by
  unfold lockedCharge
  apply Nat.div_le_of_le_mul
  rw [Nat.mul_comm]
  exact Nat.mul_le_mul_right _ (Nat.sub_le _ _)

theorem socOf_le (rc fcc u : Nat) : socOf rc fcc u ≤ 100 := by
  unfold socOf
  split
  · exact Nat.zero_le _
  · exact Nat.min_le_left _ _

theorem clampNat_bounds {lo hi : Nat} (v : Nat) (h : lo ≤ hi) : lo ≤ clampNat lo hi v ∧ clampNat lo hi v ≤ hi := by
  unfold clampNat
  split
  · exact ⟨le_rfl, h⟩
  · split <;> omega

theorem clampInt_bounds {lo hi : Int} (v : Int) (h : lo ≤ hi) : lo ≤ clampInt lo hi v ∧ clampInt lo hi v ≤ hi := by
  unfold clampInt
  split
  · exact ⟨le_rfl, h⟩
  · split <;> omega

theorem mul_div_le_of_le {a b c : Nat} (h : a ≤ c) : a * b / c ≤ b :=
  Nat.div_le_of_le_mul (Nat.mul_le_mul_right b h)

theorem estimateFrom_le (v i : Nat) (ps : List Nat) (h : i + ps.length ≤ 11) : estimateFrom v i ps ≤ 100 := by
  induction ps generalizing i with
  | nil => simp [estimateFrom]
  | cons a ps ih =>
    cases ps with
    | nil => simp [estimateFrom]
    | cons b ps =>
      unfold estimateFrom
      split
      · rename_i hv
        have h1 : 10 * (v - a) / (b - a) ≤ 10 := by
          rw [Nat.mul_comm]
          exact mul_div_le_of_le (by omega)
        simp only [List.length_cons] at h
        omega
      · exact ih (i + 1) (by simp only [List.length_cons] at h ⊢; omega)

theorem estimateOf_le (v : Nat) : estimateOf v ≤ 100 := by
  unfold estimateOf
  split
  · exact Nat.zero_le _
  · exact estimateFrom_le v 0 openCircuit (by decide)

variable {design : Nat} {g : Gauge}

theorem ok_report (h : g.ok design) : g.report.ok design :=
  ⟨h.1, h.2.1, h.2.2.1, socOf_le _ _ _⟩

theorem ok_reportAt (anchored : Bool) (h : g.ok design) : (g.reportAt anchored).ok design := by
  have r := ok_report h
  unfold Gauge.reportAt
  split
  · exact ⟨r.1, r.2.1, r.2.2.1, r.2.2.2⟩
  · exact r

theorem ok_countStep (cells : Nat) (x : PackSample) (h : g.ok design) : (g.countStep cells x).ok design := by
  obtain ⟨h1, h2, h3, h4⟩ := h
  unfold Gauge.countStep
  split
  · refine ⟨?_, h2, h3, h4⟩
    have := clampInt_bounds ((g.rc : Int) - x.i) (Int.natCast_nonneg g.fcc)
    show (clampInt 0 g.fcc (g.rc - x.i)).toNat ≤ g.fcc
    omega
  · refine ⟨?_, h2, h3, h4⟩
    apply Nat.div_le_of_le_mul
    rw [Nat.mul_comm]
    exact Nat.mul_le_mul_right _ (estimateOf_le _)

theorem ok_emptyAnchor (t : Int) (h : g.ok design) : (g.emptyAnchor design t).ok design := by
  obtain ⟨h1, h2, h3, h4⟩ := h
  have hl : design / 2 ≤ (g.learnCapacity design).fcc ∧ (g.learnCapacity design).fcc ≤ design ∧
      (g.learnCapacity design).soc = g.soc := by
    unfold Gauge.learnCapacity
    split
    · split
      · have := clampNat_bounds ((3 * g.fcc + ((‹Discharge›).drawn + g.locked)) / 4) (Nat.div_le_self design 2)
        exact ⟨this.1, this.2, rfl⟩
      · exact ⟨h2, h3, rfl⟩
    · exact ⟨h2, h3, rfl⟩
  exact ⟨lockedCharge_le _ _, hl.1, hl.2.1, hl.2.2.trans_le h4⟩

theorem ok_emptyStep (cutoff : Nat) (x : PackSample) (h : g.ok design) : (g.emptyStep design cutoff x).ok design := by
  unfold Gauge.emptyStep
  dsimp only
  split
  · exact ok_emptyAnchor _ h
  · exact h

theorem ok_reserveStep (peak cutoff margin permille : Nat) (x : PackSample) (h : g.ok design) :
    (g.reserveStep peak cutoff margin permille x).ok design := by
  unfold Gauge.reserveStep
  dsimp only
  repeat' split
  all_goals exact h

theorem ok_collapseStep (cutoff : Nat) (x : PackSample) (h : g.ok design) : (g.collapseStep cutoff x).ok design := by
  unfold Gauge.collapseStep
  split <;> exact h

theorem ok_recoveryStep (low : Bool) (cutoff : Nat) (x : PackSample) (h : g.ok design) :
    (g.recoveryStep low cutoff x).ok design := by
  unfold Gauge.recoveryStep
  split <;> exact h

theorem ok_learnStep (prev : Option PackSample) (x : PackSample) (h : g.ok design) : (g.learnStep prev x).ok design := by
  unfold Gauge.learnStep
  split
  · split <;> exact h
  · exact h

theorem ok_fullAnchor (clock : Nat) (t : Int) (h : g.ok design) : (g.fullAnchor clock t).ok design :=
  ⟨le_rfl, h.2.1, h.2.2.1, h.2.2.2⟩

theorem ok_redesign (new : Nat) (h : g.ok design) : (g.redesign design new).ok new := by
  refine ⟨?_, ?_, ?_, socOf_le _ _ _⟩
  · exact mul_div_le_of_le (h.1.trans h.2.2.1)
  · exact Nat.div_le_self new 2
  · exact le_rfl

/-! ## A PUT and a load keep the settings whole (R194, R195) -/

theorem clampItem_idem (i v : Nat) : clampItem i (clampItem i v) = clampItem i v := by
  rcases Nat.lt_or_ge i 42 with h | h
  · interval_cases i <;> (simp only [clampItem, itemRanges, List.cons_append, List.nil_append,
      List.getElem?_cons_zero, List.getElem?_cons_succ, clampNat]; split_ifs <;> omega)
  · have h2 : itemRanges[i]? = none := List.getElem?_eq_none (by simpa [itemRanges] using h)
    simp [clampItem, h2]

theorem settings_length {items : List Nat} (h : SettingsOk items) : items.length = 42 := h.1

theorem getD_mapIdx (f : Nat → Nat → Nat) (l : List Nat) (i : Nat) (h : i < l.length) :
    (l.mapIdx f).getD i 0 = f i (l.getD i 0) := by
  simp [List.getD, List.getElem?_mapIdx, List.getElem?_eq_getElem h]

theorem getD_past {l : List Nat} {i : Nat} (h : l.length ≤ i) : l.getD i 0 = 0 := by
  simp [List.getD, List.getElem?_eq_none h]

theorem clampItem_zero {i : Nat} (h : 42 ≤ i) (v : Nat) : clampItem i v = v := by
  have h2 : itemRanges[i]? = none := List.getElem?_eq_none (by simpa [itemRanges] using h)
  simp [clampItem, h2]

theorem putItems_getD (first : Nat) (vs items : List Nat) (i : Nat) (h : i < items.length) :
    (putItems first vs items).getD i 0 =
      if putWrites first vs items i then (putCandidate first vs items).getD i 0 else items.getD i 0 := by
  unfold putItems
  rw [getD_mapIdx _ _ _ h]
  split
  · have : i < (putCandidate first vs items).length := by simpa [putCandidate] using h
    simp [List.getD, List.getElem?_eq_getElem this]
  · rfl

theorem putCandidate_getD (first : Nat) (vs items : List Nat) (i : Nat) (h : i < items.length) :
    (putCandidate first vs items).getD i 0 =
      if placed first vs.length i then clampItem i (vs.getD (i - first) 0) else items.getD i 0 := by
  unfold putCandidate
  rw [getD_mapIdx _ _ _ h]

theorem settingsOk_putItems (first : Nat) (vs : List Nat) {items : List Nat} (h : SettingsOk items) :
    SettingsOk (putItems first vs items) := by
  obtain ⟨hl, hc, h15, h18, h30⟩ := h
  have hg := fun i (hi : i < 42) => putItems_getD first vs items i (hl.symm ▸ hi)
  refine ⟨by simpa [putItems] using hl, fun i => ?_, ?_, ?_, ?_⟩
  · rcases Nat.lt_or_ge i 42 with hi | hi
    · rw [hg i hi]
      split
      · rw [putCandidate_getD _ _ _ _ (hl.symm ▸ hi)]
        split
        · exact clampItem_idem _ _
        · exact hc i
      · exact hc i
    · exact clampItem_zero hi _
  · simp only [constraintOk, hg 15 (by decide), hg 16 (by decide)]
    by_cases hw : first ≤ 15 ∧ 17 ≤ first + vs.length ∧ constraintOk 15 (putCandidate first vs items) = true
    · have e : constraintOk 15 (putCandidate first vs items) = true := hw.2.2
      have w : putWrites first vs items 15 = true ∧ putWrites first vs items 16 = true := by
        simp [putWrites, placed, groupOf, groups, e]; omega
      simpa [w, constraintOk] using e
    · have w : putWrites first vs items 15 = false ∧ putWrites first vs items 16 = false := by
        simp [putWrites, groupOf, groups]; grind
      simpa [w, constraintOk] using h15
  · simp only [constraintOk, hg 18 (by decide), hg 19 (by decide)]
    by_cases hw : first ≤ 18 ∧ 20 ≤ first + vs.length ∧ constraintOk 18 (putCandidate first vs items) = true
    · have e : constraintOk 18 (putCandidate first vs items) = true := hw.2.2
      have w : putWrites first vs items 18 = true ∧ putWrites first vs items 19 = true := by
        simp [putWrites, placed, groupOf, groups, e]; omega
      simpa [w, constraintOk] using e
    · have w : putWrites first vs items 18 = false ∧ putWrites first vs items 19 = false := by
        simp [putWrites, groupOf, groups]; grind
      simpa [w, constraintOk] using h18
  · simp only [constraintOk, hg 30 (by decide), hg 31 (by decide), hg 32 (by decide)]
    by_cases hw : first ≤ 30 ∧ 33 ≤ first + vs.length ∧ constraintOk 30 (putCandidate first vs items) = true
    · have e : constraintOk 30 (putCandidate first vs items) = true := hw.2.2
      have w : putWrites first vs items 30 = true ∧ putWrites first vs items 31 = true ∧
          putWrites first vs items 32 = true := by
        simp [putWrites, placed, groupOf, groups, e]; omega
      simpa [w, constraintOk] using e
    · have w : putWrites first vs items 30 = false ∧ putWrites first vs items 31 = false ∧
          putWrites first vs items 32 = false := by
        simp [putWrites, groupOf, groups]; grind
      simpa [w, constraintOk] using h30

theorem loadedItems_getD (vs : List Nat) (i : Nat) (h : i < vs.length) :
    (loadedItems vs).getD i 0 = match groupOf i with
      | some g => if constraintOk g.1 (vs.mapIdx clampItem) then (vs.mapIdx clampItem).getD i 0 else Settings.defaults.getD i 0
      | none => (vs.mapIdx clampItem).getD i 0 := by
  unfold loadedItems
  refine (getD_mapIdx _ _ _ (by simpa using h)).trans ?_
  cases groupOf i <;> rfl

theorem settingsOk_loaded {vs : List Nat} (hl : vs.length = 42) : SettingsOk (loadedItems vs) := by
  have hg := fun i (hi : i < 42) => loadedItems_getD vs i (hl.symm ▸ hi)
  have hd := settingsOk_defaults
  refine ⟨by simpa [loadedItems] using hl, fun i => ?_, ?_, ?_, ?_⟩
  · rcases Nat.lt_or_ge i 42 with hi | hi
    · have hm : clampItem i ((vs.mapIdx clampItem).getD i 0) = (vs.mapIdx clampItem).getD i 0 := by
        rw [getD_mapIdx _ _ _ (hl.symm ▸ hi)]
        exact clampItem_idem _ _
      rw [hg i hi]
      split
      · split
        · exact hm
        · exact hd.2.1 i
      · exact hm
    · exact clampItem_zero hi _
  · by_cases e : constraintOk 15 (vs.mapIdx clampItem) = true
    · have a := hg 15 (by decide)
      have b := hg 16 (by decide)
      simp only [show groupOf 15 = some (15, 2) from rfl, show groupOf 16 = some (15, 2) from rfl] at a b
      rw [if_pos e] at a b
      simp only [constraintOk, a, b]
      simpa [constraintOk] using e
    · have a := hg 15 (by decide)
      have b := hg 16 (by decide)
      simp only [show groupOf 15 = some (15, 2) from rfl, show groupOf 16 = some (15, 2) from rfl] at a b
      rw [if_neg e] at a b
      simp only [constraintOk, a, b]
      simp; decide
  · by_cases e : constraintOk 18 (vs.mapIdx clampItem) = true
    · have a := hg 18 (by decide)
      have b := hg 19 (by decide)
      simp only [show groupOf 18 = some (18, 2) from rfl, show groupOf 19 = some (18, 2) from rfl] at a b
      rw [if_pos e] at a b
      simp only [constraintOk, a, b]
      simpa [constraintOk] using e
    · have a := hg 18 (by decide)
      have b := hg 19 (by decide)
      simp only [show groupOf 18 = some (18, 2) from rfl, show groupOf 19 = some (18, 2) from rfl] at a b
      rw [if_neg e] at a b
      simp only [constraintOk, a, b]
      simp; decide
  · by_cases e : constraintOk 30 (vs.mapIdx clampItem) = true
    · have a := hg 30 (by decide)
      have b := hg 31 (by decide)
      have c := hg 32 (by decide)
      simp only [show groupOf 30 = some (30, 3) from rfl, show groupOf 31 = some (30, 3) from rfl, show groupOf 32 = some (30, 3) from rfl] at a b c
      rw [if_pos e] at a b c
      simp only [constraintOk, a, b, c]
      simpa [constraintOk] using e
    · have a := hg 30 (by decide)
      have b := hg 31 (by decide)
      have c := hg 32 (by decide)
      simp only [show groupOf 30 = some (30, 3) from rfl, show groupOf 31 = some (30, 3) from rfl, show groupOf 32 = some (30, 3) from rfl] at a b c
      rw [if_neg e] at a b c
      simp only [constraintOk, a, b, c]
      simp; decide

/-! ## The operations -/

@[simp] theorem holds_takeOut (b : Blk) (st : BlockState) (s : State) (h : Holds q P s.kept) :
    Holds q P (takeOut b st s).kept := by
  simp (maxDischargeDepth := 30) [takeOut, h]

@[simp] theorem holds_count (f : IntakeCounters → IntakeCounters) (s : State) (h : Holds q P s.kept) :
    Holds q P (State.count f s).kept := by
  simp (maxDischargeDepth := 30) [State.count, h]

@[simp] theorem holds_setAcq (p : AcqParser) (s : State) (h : Holds q P s.kept) :
    Holds q P (State.setAcq p s).kept := by
  simp (maxDischargeDepth := 30) [State.setAcq, h]

@[simp] theorem holds_setCtl (p : CtlParser) (s : State) (h : Holds q P s.kept) :
    Holds q P (State.setCtl p s).kept := by
  simp (maxDischargeDepth := 30) [State.setCtl, h]

@[simp] theorem holds_endOrderly (abandoned : Bool) (s : State) (h : Holds q P s.kept) :
    Holds q P (endOrderly abandoned s).kept := by
  unfold endOrderly
  repeat' (first | (simp (maxDischargeDepth := 30) [h]; done) | split)

@[simp] theorem holds_endMount (st : StoreState) (s : State) (h : Holds q P s.kept) :
    Holds q P (endMount st s).kept := by
  simp (maxDischargeDepth := 30) [endMount, h]

@[simp] theorem holds_beginOrderly (cause : CloseoutCause) (s : State) (h : Holds q P s.kept) :
    Holds q P (beginOrderly cause s).kept := by
  simp (maxDischargeDepth := 30) [beginOrderly, h]

@[simp] theorem holds_openStore (s : State) (h : Holds q P s.kept) : Holds q P (openStore s).kept := by
  simp (maxDischargeDepth := 30) [openStore, h]

@[simp] theorem holds_waiterFails (w : Waiter) (s : State) (h : Holds q P s.kept) :
    Holds q P (waiterFails w s).kept := by
  unfold waiterFails
  split <;> simp (maxDischargeDepth := 30) [h]

@[simp] theorem holds_abandonCheckpoint (s : State) (h : Holds q P s.kept) : Holds q P (abandonCheckpoint s).kept :=
  holds_foldl _ (fun s w h => holds_waiterFails w.1 s h) _ _ (by simpa using h)

@[simp] theorem holds_sendImmediate (m : Message) (s : State) (h : Holds q P s.kept) :
    Holds q P (sendImmediate m s).kept := by
  simp (maxDischargeDepth := 30) [sendImmediate, h]

@[simp] theorem holds_reply (kind : Byte) (tag : Byte) (c : Code) (content : List Byte) (s : State) (h : Holds q P s.kept) :
    Holds q P (reply kind tag c content s).kept := by
  simp (maxDischargeDepth := 30) [reply, h]

@[simp] theorem holds_ackResume (tag : Byte) (s : State) (h : Holds q P s.kept) :
    Holds q P (ackResume tag s).kept := by
  simp (maxDischargeDepth := 30) [ackResume, h]

@[simp] theorem holds_markErrored (s : State) (h : Holds q P s.kept) : Holds q P (markErrored s).kept := by
  simp (maxDischargeDepth := 30) [markErrored, h]

@[simp] theorem holds_discardByte (s : State) (h : Holds q P s.kept) : Holds q P (discardByte s).kept := by
  simp (maxDischargeDepth := 30) [discardByte, h]

@[simp] theorem holds_resumed (s : State) (h : Holds q P s.kept) : Holds q P (s.modMotion Motion.resumed).kept :=
  holds_modMotion _ _ (fun _ => ⟨rfl, rfl⟩) h

@[simp] theorem holds_wake (cause : WakeCause) (s : State) (h : Holds q P s.kept) : Holds q P (wake cause s).kept := by
  unfold wake
  split <;> simp (maxDischargeDepth := 30) [h]

@[simp] theorem holds_huntByte (b : Byte) (s : State) (h : Holds q P s.kept) :
    Holds q P (huntByte b s).kept := by
  simp (maxDischargeDepth := 30) [huntByte, h]

@[simp] theorem holds_headerByte (b : Byte) (p : AcqParser) (s : State) (h : Holds q P s.kept) :
    Holds q P (headerByte b p s).kept := by
  simp (maxDischargeDepth := 30) [headerByte, h]

@[simp] theorem holds_payloadByte (b : Byte) (p : AcqParser) (s : State) (h : Holds q P s.kept) :
    Holds q P (payloadByte b p s).kept := by
  simp (maxDischargeDepth := 30) [payloadByte, h]

@[simp] theorem holds_malformed (s : State) (h : Holds q P s.kept) : Holds q P (malformed s).kept := by
  simp (maxDischargeDepth := 30) [malformed, h]

@[simp] theorem holds_refuseOpen (r : RefuseReason) (n : Nat) (s : State) (h : Holds q P s.kept) :
    Holds q P (refuseOpen r n s).kept := by
  simp (maxDischargeDepth := 30) [refuseOpen, h]

@[simp] theorem holds_advanceOrdinal (i : Nat) (s : State) (h : Holds q P s.kept) :
    Holds q P (advanceOrdinal i s).kept := by
  simp (maxDischargeDepth := 30) [advanceOrdinal, h]

@[simp] theorem holds_slotStored (i : Nat) (d : Draft) (s : State) (h : Holds q P s.kept) :
    Holds q P (slotStored i d s).kept := by
  simp (maxDischargeDepth := 30) [slotStored, h]

theorem holds_bindAndPack (i n : Nat) (l : Line) (r : Rec) (s : State) (h : Holds q P s.kept) :
    Holds q P (bindAndPack i n l r s).1.kept := by
  unfold bindAndPack
  repeat' (first | (simp [*]; done) | split)

theorem holds_placeRecord (i : Nat) (d : Draft) (s : State) (h : Holds q P s.kept) :
    Holds q P (placeRecord i d s).1.kept := by
  unfold placeRecord
  repeat' (first | (simp [*]; done) | split | dsimp only | apply holds_bindAndPack)

@[simp] theorem holds_overrun (n : Nat) (s : State) (h : Holds q P s.kept) : Holds q P (overrun n s).kept := by
  unfold overrun
  dsimp only
  split <;> simp (maxDischargeDepth := 30) [h]

@[simp] theorem holds_limitDrop (n : Nat) (s : State) (h : Holds q P s.kept) : Holds q P (limitDrop n s).kept := by
  simp (maxDischargeDepth := 30) [limitDrop, h]

theorem holds_appendInstrument (i n : Nat) (d : Draft) (s : State) (h : Holds q P s.kept) :
    Holds q P (appendInstrument i n d s).1.kept := by
  have h2 := holds_placeRecord i d s h
  unfold appendInstrument
  generalize placeRecord i d s = r at h2 ⊢
  obtain ⟨t, x⟩ := r
  cases x <;> simp (maxDischargeDepth := 30) [h2]

@[simp] theorem holds_repeatOpen (f : AcqFrame) (s : State) (h : Holds q P s.kept) : Holds q P (repeatOpen f s).kept := by
  unfold repeatOpen
  split
  · exact holds_appendInstrument _ _ _ _ h
  · exact h

@[simp] theorem holds_takeSlot (f : AcqFrame) (s : State) (h : Holds q P s.kept) : Holds q P (takeSlot f s).kept := by
  unfold takeSlot
  split
  · exact h
  · rename_i i _
    dsimp only
    generalize hs : s.setSlot i _ = u
    have hu : Holds q P u.kept := by rw [← hs]; simpa using h
    have h2 := holds_appendInstrument i f.line (draftOf .header false f 0) u hu
    split <;> (rename_i e; rw [e] at h2; simp (maxDischargeDepth := 30) [h2])

@[simp] theorem holds_reopen (f : AcqFrame) (s : State) (h : Holds q P s.kept) :
    Holds q P (reopen f s).kept := by
  simp (maxDischargeDepth := 30) [reopen, h]

@[simp] theorem holds_openNew (f : AcqFrame) (s : State) (h : Holds q P s.kept) :
    Holds q P (openNew f s).kept := by
  simp (maxDischargeDepth := 30) [openNew, h]

@[simp] theorem holds_handleOpen (f : AcqFrame) (s : State) (h : Holds q P s.kept) :
    Holds q P (handleOpen f s).kept := by
  unfold handleOpen
  repeat' (first | (simp (maxDischargeDepth := 30) [h]; done) | split)

@[simp] theorem holds_orphan (s : State) (h : Holds q P s.kept) : Holds q P (orphan s).kept := by
  simp (maxDischargeDepth := 30) [orphan, h]

@[simp] theorem holds_appendPlain (k : RecordKind) (short : Bool) (f : AcqFrame) (s : State) (h : Holds q P s.kept) :
    Holds q P (appendPlain k short f s).kept := by
  unfold appendPlain
  split
  · exact holds_appendInstrument _ _ _ _ h
  · simp [h]

@[simp] theorem holds_appendStatus (short : Bool) (f : AcqFrame) (s : State) (h : Holds q P s.kept) :
    Holds q P (appendStatus short f s).kept := by
  unfold appendStatus
  repeat' (first | (simp (maxDischargeDepth := 30) [*]; done) | apply holds_appendInstrument | split | dsimp only)

@[simp] theorem holds_handleClose (f : AcqFrame) (s : State) (h : Holds q P s.kept) :
    Holds q P (handleClose f s).kept := by
  unfold handleClose
  split <;> simp (maxDischargeDepth := 30) [h]

@[simp] theorem holds_handleFrame (k : FrameKind) (f : AcqFrame) (s : State) (h : Holds q P s.kept) :
    Holds q P (handleFrame k f s).kept := by
  unfold handleFrame
  split <;> simp (maxDischargeDepth := 30) [h]

@[simp] theorem holds_checkFrame (k : Option FrameKind) (f : AcqFrame) (s : State) (h : Holds q P s.kept) :
    Holds q P (checkFrame k f s).kept := by
  unfold checkFrame
  repeat' (first | (simp (maxDischargeDepth := 30) [h]; done) | split)

@[simp] theorem holds_acqFrame (k : Option FrameKind) (f : AcqFrame) (s : State) (h : Holds q P s.kept) :
    Holds q P (acqFrame k f s).kept := by
  simp (maxDischargeDepth := 30) [acqFrame, h]

@[simp] theorem holds_acqCrcFail (s : State) (h : Holds q P s.kept) : Holds q P (acqCrcFail s).kept := by
  simp (maxDischargeDepth := 30) [acqCrcFail, h]

@[simp] theorem holds_checkByte (b : Byte) (p : AcqParser) (s : State) (h : Holds q P s.kept) :
    Holds q P (checkByte b p s).kept := by
  simp (maxDischargeDepth := 30) [checkByte, h]

@[simp] theorem holds_acqByte (b : Byte) (s : State) (h : Holds q P s.kept) :
    Holds q P (acqByte b s).kept := by
  unfold acqByte
  repeat' (first | (simp (maxDischargeDepth := 30) [*]; done) | split | dsimp only)

@[simp] theorem holds_acqTimedOut (s : State) (h : Holds q P s.kept) : Holds q P (acqTimedOut s).kept := by
  simp (maxDischargeDepth := 30) [acqTimedOut, h]

@[simp] theorem holds_actOnReserve (s : State) (h : Holds q P s.kept) : Holds q P (actOnReserve s).kept := by
  unfold actOnReserve
  repeat' (first | (simp (maxDischargeDepth := 30) [h]; done) | split)

@[simp] theorem holds_judgeLatch (s : State) (h : Holds q P s.kept) : Holds q P (judgeLatch s).kept := by
  simp (maxDischargeDepth := 30) [judgeLatch, h]

@[simp] theorem holds_addPoints (n : Nat) (s : State) (h : Holds q P s.kept) : Holds q P (addPoints n s).kept := by
  have h1 : Holds q P (s.modMotion fun m => { m with score := min 1023 (s.motion.score + n) }).kept := by
    refine ⟨h.1, fun p => ?_⟩
    obtain ⟨a, b, c, d, e, g⟩ := h.2 p
    exact ⟨a, b, Nat.min_le_left _ _, d, e, g⟩
  unfold addPoints
  dsimp only
  split <;> simp (maxDischargeDepth := 30) [h1]

@[simp] theorem holds_permitLoad (body : List Byte) (s : State) (h : Holds q P s.kept) :
    Holds q P (permitLoad body s).kept := by
  simp (maxDischargeDepth := 30) [permitLoad, h]

@[simp] theorem holds_startCloseout (s : State) (h : Holds q P s.kept) : Holds q P (startCloseout s).kept := by
  simp (maxDischargeDepth := 30) [startCloseout, h]

@[simp] theorem holds_runOwner (c : StoreCmd) (s : State) (h : Holds q P s.kept) :
    Holds q P (runOwner c s).kept := by
  unfold runOwner
  split <;> simp (maxDischargeDepth := 30) [h]

@[simp] theorem holds_handRunning (s : State) (h : Holds q P s.kept) : Holds q P (handRunning s).kept := by
  unfold handRunning
  repeat' (first | (simp (maxDischargeDepth := 30) [h]; done) | split)

@[simp] theorem holds_moveUp (c : StoreCmd) (s : State) (h : Holds q P s.kept) :
    Holds q P (moveUp c s).kept := by
  simp (maxDischargeDepth := 30) [moveUp, h]

@[simp] theorem holds_admit (c : StoreCmd) (s : State) (h : Holds q P s.kept) :
    Holds q P (admitCmd c s).kept := by
  simp (maxDischargeDepth := 30) [admitCmd, h]

/-- The settings of the new working copy with the gauge still at the old design capacity (R171). -/
theorem holds_newDesign (items : List Nat) (s : State) (hi : P → SettingsOk items) (h : Holds q P s.kept) :
    Holds q P (designChange s.design (s.modSettings fun c => { c with items := items })).kept := by
  unfold designChange
  split
  · rename_i e
    refine ⟨h.1, fun p => ?_⟩
    obtain ⟨a, b, c, d, e', g⟩ := h.2 p
    refine ⟨hi p, ?_, c, d, e', g⟩
    exact Eq.mpr (congrArg (fun n => s.gauge.ok n) e) b
  · dsimp only
    have hg : ∀ n, n = (s.modSettings fun c => { c with items := items }).design →
        Holds q P ((s.modSettings fun c => { c with items := items }).modGauge (Gauge.redesign s.design n)).kept := by
      rintro n rfl
      refine ⟨h.1, fun p => ?_⟩
      obtain ⟨a, b, c, d, e', g⟩ := h.2 p
      exact ⟨hi p, ok_redesign _ b, c, d, e', g⟩
    split <;> simp (maxDischargeDepth := 30) [hg]

@[simp] theorem holds_keepInterval (s : State) (h : Holds q P s.kept) : Holds q P (keepInterval s).kept := by
  simp (maxDischargeDepth := 30) [keepInterval, h]

theorem holds_adoptItems (items : List Nat) (s : State) (hi : P → SettingsOk items) (h : Holds q P s.kept) :
    Holds q P (adoptItems items s).kept := by
  have key := holds_newDesign items (keepInterval s) hi (holds_keepInterval s h)
  unfold adoptItems
  extract_lets s' old bounds u v w
  have hw : Holds q P w.kept := by
    show Holds q P (if _ then _ else _ : State).kept
    split
    · exact key
    · exact holds_judgeLatch _ key
  simpa using hw

@[simp] theorem holds_advancePosition (d : Nat) (k : PageKind) (s : State) (h : Holds q P s.kept) :
    Holds q P (advancePosition d k s).kept := by
  unfold advancePosition
  split <;> simp (maxDischargeDepth := 30) [h]

@[simp] theorem holds_anchorLost (s : State) (h : Holds q P s.kept) : Holds q P (anchorLost s).kept := by
  simp (maxDischargeDepth := 30) [anchorLost, h]

@[simp] theorem holds_wakeBy (cause : WakeCause) (s : State) (h : Holds q P s.kept) :
    Holds q P (wakeBy cause s).kept := by
  simp (maxDischargeDepth := 30) [wakeBy, h]

@[simp] theorem holds_anchorSteps (x : PackSample) (s : State) (h : Holds q P s.kept) :
    Holds q P (anchorSteps x s).kept := by
  unfold anchorSteps
  extract_lets rises u v
  have hu : Holds q P u.kept := by simpa [u] using holds_modGauge _ s (by simp) h
  have hv : Holds q P v.kept := by
    show Holds q P (if _ then _ else _ : State).kept
    split
    · exact holds_wakeBy _ _ (holds_modGauge_ok _ _ (ok_fullAnchor _ _) hu)
    · exact hu
  exact holds_modGauge_ok _ _ (fun b => ok_reportAt _ (ok_emptyStep _ _ b)) hv

@[simp] theorem holds_judgeFault (differs : Bool) (s : State) (h : Holds q P s.kept) :
    Holds q P (judgeFault differs s).kept := by
  simp (maxDischargeDepth := 30) [judgeFault, h]

@[simp] theorem holds_handleLine (r : ImpactRec) (i : Nat) (s : State) (h : Holds q P s.kept) :
    Holds q P (handleLine r s i).kept := by
  unfold handleLine
  split
  · exact h
  · rename_i t _
    dsimp only
    generalize hs : s.flagLine t.line _ = u
    have hu : Holds q P u.kept := by rw [← hs]; simpa using h
    generalize hd : Draft.mk _ _ _ _ _ _ _ = d
    have h2 := holds_placeRecord i d u hu
    split <;> (rename_i e; rw [e] at h2; simp (maxDischargeDepth := 30) [h2])

@[simp] theorem holds_handlingRecords (r : ImpactRec) (s : State) (h : Holds q P s.kept) :
    Holds q P (handlingRecords r s).kept := by
  have := holds_foldl (handleLine r) (fun s i h => holds_handleLine r i s h) (List.range Config.openSlots) s h
  simpa [handlingRecords] using this

theorem logAppend_length (log : List ImpactRec) (r : ImpactRec) (h : log.length ≤ Config.impactLog) :
    (logAppend log r).length ≤ Config.impactLog := by
  simp only [logAppend, Config.impactLog, List.length_append, List.length_drop, List.length_cons, List.length_nil] at h ⊢
  omega

@[simp] theorem holds_completeEvent (r : ImpactRec) (s : State) (h : Holds q P s.kept) :
    Holds q P (completeEvent r s).kept := by
  refine holds_handlingRecords _ _ (holds_addPoints _ _ ⟨h.1, fun p => ?_⟩)
  obtain ⟨a, b, c, d, e, g⟩ := h.2 p
  exact ⟨a, b, c, logAppend_length _ _ d, e, g⟩

@[simp] theorem holds_endEvent (s : State) (h : Holds q P s.kept) : Holds q P (endEvent s).kept := by
  unfold endEvent
  split <;> simp (maxDischargeDepth := 30) [h]

@[simp] theorem holds_enterFault (s : State) (h : Holds q P s.kept) : Holds q P (enterFault s).kept := by
  simp (maxDischargeDepth := 30) [enterFault, h]

@[simp] theorem holds_impactWake (s : State) (h : Holds q P s.kept) : Holds q P (impactWake s).kept := by
  simp (maxDischargeDepth := 30) [impactWake, h]

@[simp] theorem holds_exposePrograms (s : State) (h : Holds q P s.kept) : Holds q P (exposePrograms s).kept := by
  unfold exposePrograms
  exact holds_modMotion _ _ (fun _ => ⟨rfl, rfl⟩) (by simpa using h)

@[simp] theorem holds_enterImpact (mag : Nat) (axis : Axis) (s : State) (h : Holds q P s.kept) :
    Holds q P (enterImpact mag axis s).kept := by
  simp (maxDischargeDepth := 30) [enterImpact, h]

@[simp] theorem holds_startImpact (mag : Nat) (axis : Axis) (s : State) (h : Holds q P s.kept) :
    Holds q P (startImpact mag axis s).kept := by
  simp (maxDischargeDepth := 30) [startImpact, h]

@[simp] theorem holds_enterFalling (s : State) (h : Holds q P s.kept) : Holds q P (enterFalling s).kept := by
  simp (maxDischargeDepth := 30) [enterFalling, h]

@[simp] theorem holds_judgeCalm (c : SampleClass) (mag : Nat) (axis : Axis) (s : State) (h : Holds q P s.kept) :
    Holds q P (judgeCalm c mag axis s).kept := by
  simp (maxDischargeDepth := 30) [judgeCalm, h]

@[simp] theorem holds_settleEvent (impact : Bool) (s : State) (h : Holds q P s.kept) :
    Holds q P (settleEvent impact s).kept := by
  simp (maxDischargeDepth := 30) [settleEvent, h]

@[simp] theorem holds_judgeFalling (c : SampleClass) (mag : Nat) (axis : Axis) (s : State) (h : Holds q P s.kept) :
    Holds q P (judgeFalling c mag axis s).kept := by
  unfold judgeFalling
  split <;> simp (maxDischargeDepth := 30) [h]

@[simp] theorem holds_judgeImpact (c : SampleClass) (mag : Nat) (axis : Axis) (s : State) (h : Holds q P s.kept) :
    Holds q P (judgeImpact c mag axis s).kept := by
  simp (maxDischargeDepth := 30) [judgeImpact, h]

@[simp] theorem holds_enterCalm (t : SettleType) (s : State) (h : Holds q P s.kept) :
    Holds q P (enterCalm t s).kept := by
  simp (maxDischargeDepth := 30) [enterCalm, h]

@[simp] theorem holds_judgeSettling (c : SampleClass) (mag : Nat) (axis : Axis) (s : State) (h : Holds q P s.kept) :
    Holds q P (judgeSettling c mag axis s).kept := by
  simp (maxDischargeDepth := 30) [judgeSettling, h]

@[simp] theorem holds_judgeSample (t : Triple) (s : State) (h : Holds q P s.kept) :
    Holds q P (judgeSample t s).kept := by
  unfold judgeSample
  split <;> simp (maxDischargeDepth := 30) [h]

@[simp] theorem holds_answered (raw : Triple) (s : State) (h : Holds q P s.kept) :
    Holds q P (answered raw s).kept := by
  unfold answered
  repeat' (first | (simp (maxDischargeDepth := 30) [*]; done) | split | dsimp only)

@[simp] theorem holds_beginEmergency (s : State) (h : Holds q P s.kept) :
    Holds q P (beginEmergency s).kept := by
  simp (maxDischargeDepth := 30) [beginEmergency, h]

@[simp] theorem holds_collapseHanded (v : Nat) (s : State) (h : Holds q P s.kept) :
    Holds q P (collapseHanded v s).kept := by
  simp (maxDischargeDepth := 30) [collapseHanded, h]

@[simp] theorem holds_reserveChange (s : State) (h : Holds q P s.kept) : Holds q P (reserveChange s).kept := by
  simp (maxDischargeDepth := 30) [reserveChange, h]

@[simp] theorem holds_reserveSteps (x : PackSample) (s : State) (h : Holds q P s.kept) :
    Holds q P (reserveSteps x s).kept := by
  have key := holds_modGauge_ok (Gauge.reserveStep s.closeoutPeak s.cutoffMv s.marginMv s.floorPermille x) s
    (ok_reserveStep _ _ _ _ _) h
  unfold reserveSteps
  dsimp only
  split
  · exact key
  · exact holds_reserveChange _ key

@[simp] theorem holds_judgeBattery (conf : Confidence) (s : State) (h : Holds q P s.kept) :
    Holds q P (judgeBattery conf s).kept := by
  simp (maxDischargeDepth := 30) [judgeBattery, h]

@[simp] theorem holds_batteryStep (first : Bool) (conf : Confidence) (s : State) (h : Holds q P s.kept) :
    Holds q P (batteryStep first conf s).kept := by
  simp (maxDischargeDepth := 30) [batteryStep, h]

/-- A reset of another cause than POWER-ON keeps the settings, the gauge's bounds and the clock (R174, R175, R194). -/
@[simp] theorem holds_warmReset (cause : ResetCause) (strap : Bool) (s : State) (h : Holds q P s.kept) :
    Holds q P (warmReset cause strap s).kept := by
  refine ⟨h.1, fun p => ?_⟩
  obtain ⟨a, b, c, d, e, g⟩ := h.2 p
  refine ⟨a, b, Nat.zero_le _, Nat.zero_le _, Nat.zero_le _, ?_⟩
  show (powerAfter _ _ _).clock < _
  unfold powerAfter
  dsimp only
  split <;> exact g

@[simp] theorem holds_sampledReset (cause : ResetCause) (s : State) (h : Holds q P s.kept) :
    Holds q P (sampledReset cause s).kept :=
  holds_warmReset cause _ _ h

/-- Step 9 of a sample. -/
theorem holds_collapseStep (x : PackSample) (s : State) (h : Holds q P s.kept) :
    Holds q P (collapseStep x s).1.kept := by
  have key : ∀ low c, Holds q P (s.modGauge fun g => (g.recoveryStep low c x).collapseStep c x).kept := fun low c =>
    holds_modGauge_ok _ _ (fun b => ok_collapseStep _ _ (ok_recoveryStep _ _ _ b)) h
  unfold collapseStep
  dsimp only
  repeat' (first | (simp (maxDischargeDepth := 30) [key]; done) | split)

@[simp] theorem holds_answeredSample (r : PackRead) (s : State) (h : Holds q P s.kept) :
    Holds q P (answeredSample r s).kept := by
  unfold answeredSample
  extract_lets x prev first conf u
  have hu : Holds q P u.kept := holds_modGauge_ok _ _ (fun b => ok_countStep (g := { s.gauge with
    last := some x, prevOk := true, answered := satInc Config.max32 s.gauge.answered }) _ _ b) h
  have h2 := holds_collapseStep x _ (holds_reserveSteps x _ (holds_anchorSteps x _ hu))
  generalize collapseStep x (reserveSteps x (anchorSteps x u)) = y at h2 ⊢
  obtain ⟨t, recovered⟩ := y
  dsimp only at h2 ⊢
  have h3 := holds_batteryStep first conf _ (holds_modGauge_ok _ _ (ok_learnStep prev x) h2)
  split
  · exact holds_warmReset _ _ _ h3
  · simpa using h3

@[simp] theorem holds_cancelRunning (tag : Byte) (r : Running) (s : State) (h : Holds q P s.kept) :
    Holds q P (cancelRunning tag r s).kept := by
  unfold cancelRunning
  cases r.final <;> simp (maxDischargeDepth := 30) [h]

@[simp] theorem holds_cancelCommand (tag : Byte) (target : Byte) (s : State) (h : Holds q P s.kept) :
    Holds q P (cancelCommand tag target s).kept := by
  unfold cancelCommand
  repeat' (first | (simp (maxDischargeDepth := 30) [h]; done) | split)

@[simp] theorem holds_clearOp (d : Nat) (s : State) (h : Holds q P s.kept) : Holds q P (clearOp d s).kept := by
  simp (maxDischargeDepth := 30) [clearOp, h]

@[simp] theorem holds_intakeReply (tag : Byte) (s : State) (h : Holds q P s.kept) :
    Holds q P (intakeReply tag s).kept := by
  simp (maxDischargeDepth := 30) [intakeReply, h]

@[simp] theorem holds_closeIntake (tag : Byte) (s : State) (h : Holds q P s.kept) :
    Holds q P (closeIntake tag s).kept := by
  simp (maxDischargeDepth := 30) [closeIntake, h]

@[simp] theorem holds_closeoutRelease (s : State) (h : Holds q P s.kept) :
    Holds q P (closeoutRelease s).kept := by
  unfold closeoutRelease
  repeat' (first | (simp (maxDischargeDepth := 30) [h]; done) | split)

@[simp] theorem holds_gaugeRead (r : Option PackRead) (s : State) (h : Holds q P s.kept) :
    Holds q P (gaugeRead r s).kept := by
  unfold gaugeRead
  split
  · exact h
  · split
    · exact holds_answeredSample _ _ h
    · exact holds_modGauge_ok _ _ (fun b => b) h

@[simp] theorem holds_gaugeRow (p : State → State → Bool) (r : Option PackRead) (s : State) (h : Holds q P s.kept) :
    Holds q P (gaugeRow p r s).kept := by
  simp (maxDischargeDepth := 30) [gaugeRow, h]

@[simp] theorem holds_collapseRecovery (r : Option PackRead) (s : State) (h : Holds q P s.kept) :
    Holds q P (collapseRecovery r s).kept := by
  simp (maxDischargeDepth := 30) [collapseRecovery, h]

@[simp] theorem holds_collapseRow (r : Option PackRead) (s : State) (h : Holds q P s.kept) :
    Holds q P (collapseRow r s).kept := by
  simp (maxDischargeDepth := 30) [collapseRow, h]

@[simp] theorem holds_commandAnchor (s : State) (h : Holds q P s.kept) : Holds q P (commandAnchor s).kept := by
  refine holds_judgeBattery _ _ (holds_modGauge_ok _ _ (fun b => ok_report (ok_fullAnchor _ _ b)) h)

@[simp] theorem holds_getSettings (tag : Byte) (body : List Byte) (s : State) (h : Holds q P s.kept) :
    Holds q P (getSettings tag body s).kept := by
  simp (maxDischargeDepth := 30) [getSettings, h]

@[simp] theorem holds_putSettings (tag : Byte) (body : List Byte) (s : State) (h : Holds q P s.kept) :
    Holds q P (putSettings tag body s).kept :=
  holds_reply _ _ _ _ _ (holds_adoptItems _ _ (fun p => settingsOk_putItems _ _ (h.2 p).1) h)

@[simp] theorem holds_lineInfo (tag : Byte) (n : Nat) (s : State) (h : Holds q P s.kept) :
    Holds q P (lineInfo tag n s).kept := by
  unfold lineInfo
  split <;> simp (maxDischargeDepth := 30) [h]

@[simp] theorem holds_openIntake (tag : Byte) (s : State) (h : Holds q P s.kept) :
    Holds q P (openIntake tag s).kept := by
  have key : Holds q P (s.modPower fun p => if p.store = .closedOut then { p with store := .ready, lastCause := none } else p).kept :=
    holds_modPower _ _ (fun p => by split <;> rfl) h
  unfold openIntake
  split <;> simp (maxDischargeDepth := 30) [h, key]

@[simp] theorem holds_filterResetCmd (tag : Byte) (s : State) (h : Holds q P s.kept) :
    Holds q P (filterResetCmd tag s).kept := by
  simp (maxDischargeDepth := 30) [filterResetCmd, h]

@[simp] theorem holds_gaugeAnchor (tag : Byte) (s : State) (h : Holds q P s.kept) :
    Holds q P (gaugeAnchor tag s).kept := by
  simp (maxDischargeDepth := 30) [gaugeAnchor, h]

@[simp] theorem holds_resetCommand (tag : Byte) (s : State) (h : Holds q P s.kept) :
    Holds q P (resetCommand tag s).kept := by
  simp (maxDischargeDepth := 30) [resetCommand, h]

@[simp] theorem holds_serve (k : CmdKind) (tag : Byte) (body : List Byte) (s : State) (h : Holds q P s.kept) :
    Holds q P (serve k tag body s).kept := by
  unfold serve
  split <;> simp (maxDischargeDepth := 30) [h]

@[simp] theorem holds_takeCommand (k : CmdKind) (tag : Byte) (body : List Byte) (s : State) (h : Holds q P s.kept) :
    Holds q P (takeCommand k tag body s).kept := by
  unfold takeCommand
  split <;> simp (maxDischargeDepth := 30) [h]

@[simp] theorem holds_controlWake (s : State) (h : Holds q P s.kept) : Holds q P (controlWake s).kept := by
  simp (maxDischargeDepth := 30) [controlWake, h]

@[simp] theorem holds_commandFrame (k : CmdKind) (tag : Byte) (body : List Byte) (s : State) (h : Holds q P s.kept) :
    Holds q P (commandFrame k tag body s).kept := by
  simp (maxDischargeDepth := 30) [commandFrame, h]

@[simp] theorem holds_waiterDone (w : Waiter) (s : State) (h : Holds q P s.kept) :
    Holds q P (waiterDone w s).kept := by
  unfold waiterDone
  repeat' (first | (simp (maxDischargeDepth := 30) [h]; done) | split)

@[simp] theorem holds_completeCheckpoint (snap : Snapshot) (s : State) (h : Holds q P s.kept) :
    Holds q P (completeCheckpoint snap s).kept := by
  unfold completeCheckpoint
  extract_lets done u v
  have hv : Holds q P v.kept := holds_foldl _ (fun s w h => holds_waiterDone w.1 s h) _ _ (by simpa [u] using h)
  split <;> simp [hv]

@[simp] theorem holds_linkError (reason : Nat) (content : List Byte) (s : State) (h : Holds q P s.kept) :
    Holds q P (linkError reason content s).kept := by
  simp (maxDischargeDepth := 30) [linkError, h]

@[simp] theorem holds_lengthError (len : Nat) (s : State) (h : Holds q P s.kept) :
    Holds q P (lengthError len s).kept := by
  simp (maxDischargeDepth := 30) [lengthError, h]

@[simp] theorem holds_ctlHeader (b : Byte) (p : CtlParser) (s : State) (h : Holds q P s.kept) :
    Holds q P (ctlHeader b p s).kept := by
  simp (maxDischargeDepth := 30) [ctlHeader, h]

@[simp] theorem holds_ctlBody (b : Byte) (p : CtlParser) (s : State) (h : Holds q P s.kept) :
    Holds q P (ctlBody b p s).kept := by
  simp (maxDischargeDepth := 30) [ctlBody, h]

@[simp] theorem holds_takeFrame (kind : Byte) (tag : Byte) (body : List Byte) (s : State) (h : Holds q P s.kept) :
    Holds q P (takeFrame kind tag body s).kept := by
  unfold takeFrame
  split <;> simp (maxDischargeDepth := 30) [h]

@[simp] theorem holds_crcError (kind : Byte) (tag : Byte) (s : State) (h : Holds q P s.kept) :
    Holds q P (crcError kind tag s).kept := by
  simp (maxDischargeDepth := 30) [crcError, h]

@[simp] theorem holds_ctlCheck (b : Byte) (p : CtlParser) (s : State) (h : Holds q P s.kept) :
    Holds q P (ctlCheck b p s).kept := by
  simp (maxDischargeDepth := 30) [ctlCheck, h]

@[simp] theorem holds_parseByte (b : Byte) (s : State) (h : Holds q P s.kept) :
    Holds q P (parseByte b s).kept := by
  unfold parseByte
  repeat' (first | (simp (maxDischargeDepth := 30) [*]; done) | split | dsimp only)

@[simp] theorem holds_controlByte (b : Byte) (s : State) (h : Holds q P s.kept) :
    Holds q P (controlByte b s).kept := by
  simp (maxDischargeDepth := 30) [controlByte, h]

@[simp] theorem holds_timeoutError (p : CtlParser) (s : State) (h : Holds q P s.kept) :
    Holds q P (timeoutError p s).kept := by
  simp (maxDischargeDepth := 30) [timeoutError, h]

@[simp] theorem holds_controlTimedOut (s : State) (h : Holds q P s.kept) :
    Holds q P (controlTimedOut s).kept := by
  simp (maxDischargeDepth := 30) [controlTimedOut, h]

@[simp] theorem holds_crcFrame (kind : Byte) (tag : Byte) (s : State) (h : Holds q P s.kept) :
    Holds q P (crcFrame kind tag s).kept := by
  simp (maxDischargeDepth := 30) [crcFrame, h]

@[simp] theorem holds_retire (b : Blk) (s : State) (h : Holds q P s.kept) : Holds q P (retire b s).kept := by
  simp (maxDischargeDepth := 30) [retire, h]

theorem holds_takeBlock (d : Nat) (s : State) (h : Holds q P s.kept) : Holds q P ((takeBlock d s).getD s).kept := by
  unfold takeBlock
  split <;> simp [h]

@[simp] theorem holds_takeBlockIf (d : Nat) (s : State) (h : Holds q P s.kept) : Holds q P (takeBlockIf d s).kept := by
  unfold takeBlockIf
  dsimp only
  split
  · exact holds_takeBlock d s h
  · exact h

@[simp] theorem holds_dataErased (b : Blk) (pass : Bool) (s : State) (h : Holds q P s.kept) :
    Holds q P (dataErased b pass s).kept := by
  simp (maxDischargeDepth := 30) [dataErased, h]

@[simp] theorem holds_decayScore (s : State) (h : Holds q P s.kept) : Holds q P (decayScore s).kept := by
  refine holds_judgeLatch _ ⟨h.1, fun p => ?_⟩
  obtain ⟨a, b, c, d, e, g⟩ := h.2 p
  refine ⟨a, b, ?_, d, e, g⟩
  show decayed s.motion.score ≤ 1023
  have : s.motion.score ≤ 1023 := c
  unfold decayed
  split <;> omega

@[simp] theorem holds_deepStop (s : State) (h : Holds q P s.kept) : Holds q P (deepStop s).kept := by
  simp (maxDischargeDepth := 30) [deepStop, h]

@[simp] theorem holds_startOp (d : Nat) (k : OpKind) (s : State) (h : Holds q P s.kept) :
    Holds q P (startOp d k s).kept := by
  simp (maxDischargeDepth := 30) [startOp, h]

@[simp] theorem holds_enterMediaFault (s : State) (h : Holds q P s.kept) :
    Holds q P (enterMediaFault s).kept := by
  simp (maxDischargeDepth := 30) [enterMediaFault, h]

@[simp] theorem holds_takeSequence (a : Addr) (s : State) (h : Holds q P s.kept) :
    Holds q P (takeSequence a s).kept := by
  simp (maxDischargeDepth := 30) [takeSequence, h]

@[simp] theorem holds_startProgram (d : Nat) (b : Nat) (x : Buf) (s : State) (h : Holds q P s.kept) :
    Holds q P (startProgram d b x s).kept := by
  simp (maxDischargeDepth := 30) [startProgram, h]

@[simp] theorem holds_offerQueue (d : Nat) (s : State) (h : Holds q P s.kept) : Holds q P (offerQueue d s).kept := by
  unfold offerQueue
  repeat' (first | (simp [*]; done) | split)

@[simp] theorem holds_dispatchReads (d : Nat) (s : State) (h : Holds q P s.kept) :
    Holds q P (dispatchReads d s).kept := by
  unfold dispatchReads
  repeat' (first | (simp (maxDischargeDepth := 30) [h]; done) | split)

@[simp] theorem holds_dispatchDie (d : Nat) (s : State) (h : Holds q P s.kept) : Holds q P (dispatchDie d s).kept := by
  have key : ∀ ds : List Nat, Holds q P (ds.foldl (fun s e => offerQueue e s) (startWalk s)).kept := fun ds =>
    holds_foldl _ (fun s e h => holds_offerQueue e s h) _ _ (by simpa using h)
  unfold dispatchDie
  repeat' (first | (simp (maxDischargeDepth := 30) [*]; done) | split | dsimp only)

@[simp] theorem holds_dueErase (d : Nat) (block : Nat) (s : State) (h : Holds q P s.kept) :
    Holds q P (dueErase d block s).kept := by
  simp (maxDischargeDepth := 30) [dueErase, h]

@[simp] theorem holds_emptyAnchorRow (r : Option PackRead) (s : State) (h : Holds q P s.kept) :
    Holds q P (emptyAnchorRow r s).kept := by
  simp (maxDischargeDepth := 30) [emptyAnchorRow, h]

@[simp] theorem holds_enterPause (p : PowerState) (s : State) (h : Holds q P s.kept) :
    Holds q P (enterPause p s).kept := by
  simp (maxDischargeDepth := 30) [enterPause, h]

@[simp] theorem holds_ringAdvance (s : State) (h : Holds q P s.kept) : Holds q P (ringAdvance s).kept := by
  simp (maxDischargeDepth := 30) [ringAdvance, h]

@[simp] theorem holds_ringErased (b : Nat) (pass : Bool) (s : State) (h : Holds q P s.kept) :
    Holds q P (ringErased b pass s).kept := by
  simp (maxDischargeDepth := 30) [ringErased, h]

@[simp] theorem holds_eraseDone (d : Nat) (pass : Bool) (s : State) (h : Holds q P s.kept) :
    Holds q P (eraseDone d pass s).kept := by
  unfold eraseDone
  repeat' (first | (simp (maxDischargeDepth := 30) [h]; done) | split)

@[simp] theorem holds_linkReset (s : State) (h : Holds q P s.kept) : Holds q P (linkReset s).kept := by
  simp (maxDischargeDepth := 30) [linkReset, h]

@[simp] theorem holds_storeAdvance (s : State) (h : Holds q P s.kept) : Holds q P (storeAdvance s).kept := by
  unfold storeAdvance
  repeat' (first | (simp (maxDischargeDepth := 30) [h]; done) | split)

@[simp] theorem holds_pauseEntry (s : State) (h : Holds q P s.kept) : Holds q P (pauseEntry s).kept := by
  unfold pauseEntry
  split <;> simp (maxDischargeDepth := 30) [h]

@[simp] theorem holds_messageSent (s : State) (h : Holds q P s.kept) : Holds q P (messageSent s).kept := by
  simp (maxDischargeDepth := 30) [messageSent, h]

@[simp] theorem holds_powerOnReset (strap : Bool) (s : State) (h : Holds q P s.kept) :
    Holds q P (powerOnReset strap s).kept :=
  ⟨h.1, fun _ => ⟨settingsOk_defaults, gauge_ok_reset, Nat.zero_le _, Nat.zero_le _, Nat.zero_le _, Nat.two_pow_pos 32⟩⟩

@[simp] theorem holds_huntMarkByte (b : Byte) (s : State) (h : Holds q P s.kept) :
    Holds q P (huntMarkByte b s).kept := by
  simp (maxDischargeDepth := 30) [huntMarkByte, h]

@[simp] theorem holds_takenFrame (k : Option FrameKind) (f : AcqFrame) (s : State) (h : Holds q P s.kept) :
    Holds q P (takenFrame k f s).kept := by
  simp (maxDischargeDepth := 30) [takenFrame, h]

@[simp] theorem holds_gapLine (payload : List Byte) (i : Nat) (s : State) (h : Holds q P s.kept) :
    Holds q P (gapLine payload s i).kept := by
  unfold gapLine
  split
  · exact h
  · rename_i t _
    dsimp only
    generalize hd : Draft.mk _ _ _ _ _ _ _ = d
    have h2 := holds_placeRecord i d s h
    split <;> (rename_i e; rw [e] at h2; simp (maxDischargeDepth := 30) [h2])

@[simp] theorem holds_gapRecords (payload : List Byte) (s : State) (h : Holds q P s.kept) :
    Holds q P (gapRecords payload s).kept := holds_foldl _ (fun s i h => holds_gapLine payload i s h) _ _ h

@[simp] theorem holds_linkChange (old : LinkState) (new : LinkState) (s : State) (h : Holds q P s.kept) :
    Holds q P (linkChange old new s).kept := by
  simp (maxDischargeDepth := 30) [linkChange, h]

@[simp] theorem holds_intervalEnd (s : State) (h : Holds q P s.kept) : Holds q P (intervalEnd s).kept := by
  unfold intervalEnd
  split
  · exact h
  · extract_lets lq old new u
    have hu : Holds q P u.kept := by
      refine ⟨h.1, fun p => ?_⟩
      obtain ⟨a, b, c, d, e, g⟩ := h.2 p
      refine ⟨a, b, c, d, ?_, g⟩
      show lq ≤ 255
      have : s.intake.lq ≤ 255 := e
      simp only [lq]
      split <;> omega
    split <;> simp [hu]

@[simp] theorem holds_missedRead (s : State) (h : Holds q P s.kept) : Holds q P (missedRead s).kept := by
  unfold missedRead
  repeat' (first | (simp (maxDischargeDepth := 30) [*]; done) | split | dsimp only)

@[simp] theorem holds_motionRead (r : Option Triple) (s : State) (h : Holds q P s.kept) :
    Holds q P (motionRead r s).kept := by
  unfold motionRead
  repeat' (first | (simp (maxDischargeDepth := 30) [h]; done) | split)

@[simp] theorem holds_motionRow (p : MotionState → MotionState → Bool) (r : Option Triple) (s : State) (h : Holds q P s.kept) :
    Holds q P (motionRow p r s).kept := by
  simp (maxDischargeDepth := 30) [motionRow, h]

@[simp] theorem holds_fallStart (r : Option Triple) (s : State) (h : Holds q P s.kept) :
    Holds q P (fallStart r s).kept := by
  simp (maxDischargeDepth := 30) [fallStart, h]

@[simp] theorem holds_fallEnd (r : Option Triple) (s : State) (h : Holds q P s.kept) :
    Holds q P (fallEnd r s).kept := by
  simp (maxDischargeDepth := 30) [fallEnd, h]

@[simp] theorem holds_impactEnd (r : Option Triple) (s : State) (h : Holds q P s.kept) :
    Holds q P (impactEnd r s).kept := by
  simp (maxDischargeDepth := 30) [impactEnd, h]

@[simp] theorem holds_settle (r : Option Triple) (s : State) (h : Holds q P s.kept) :
    Holds q P (settle r s).kept := by
  simp (maxDischargeDepth := 30) [settle, h]

@[simp] theorem holds_roughSettle (r : Option Triple) (s : State) (h : Holds q P s.kept) :
    Holds q P (roughSettle r s).kept := by
  simp (maxDischargeDepth := 30) [roughSettle, h]

@[simp] theorem holds_sensorFault (r : Option Triple) (s : State) (h : Holds q P s.kept) :
    Holds q P (sensorFault r s).kept := by
  simp (maxDischargeDepth := 30) [sensorFault, h]

@[simp] theorem holds_sensorRecovery (r : Option Triple) (s : State) (h : Holds q P s.kept) :
    Holds q P (sensorRecovery r s).kept := by
  simp (maxDischargeDepth := 30) [sensorRecovery, h]

@[simp] theorem holds_handlingDecay (s : State) (h : Holds q P s.kept) : Holds q P (handlingDecay s).kept := by
  simp (maxDischargeDepth := 30) [handlingDecay, h]

@[simp] theorem holds_reserveRaise (r : Option PackRead) (s : State) (h : Holds q P s.kept) :
    Holds q P (reserveRaise r s).kept := by
  simp (maxDischargeDepth := 30) [reserveRaise, h]

@[simp] theorem holds_reserveClear (r : Option PackRead) (s : State) (h : Holds q P s.kept) :
    Holds q P (reserveClear r s).kept := by
  simp (maxDischargeDepth := 30) [reserveClear, h]

@[simp] theorem holds_handCheckpointPage (hdr : PageHdr) (a : Addr) (s : State) (h : Holds q P s.kept) :
    Holds q P (handCheckpointPage hdr a s).kept := by
  unfold handCheckpointPage
  split
  · split
    · exact h
    · dsimp only
      split
      · exact holds_completeCheckpoint _ _ (by simpa using h)
      · simpa using h
  · exact h
  · exact h

@[simp] theorem holds_handSettings (a : Addr) (s : State) (h : Holds q P s.kept) :
    Holds q P (handSettings a s).kept := by
  simp (maxDischargeDepth := 30) [handSettings, h]

@[simp] theorem holds_handPage (x : Buf) (a : Addr) (first : Bool) (s : State) (h : Holds q P s.kept) :
    Holds q P (handPage x a first s).kept := by
  unfold handPage
  dsimp only
  split <;> (try split) <;> simp (maxDischargeDepth := 30) [h]

@[simp] theorem holds_releaseWritten (b : Nat) (a : Addr) (s : State) (h : Holds q P s.kept) :
    Holds q P (releaseWritten b a s).kept := by
  unfold releaseWritten
  repeat' (first | (simp (maxDischargeDepth := 30) [*]; done) | split | dsimp only)

@[simp] theorem holds_writtenPoint (b : Nat) (s : State) (h : Holds q P s.kept) :
    Holds q P (writtenPoint b s).kept := by
  unfold writtenPoint
  repeat' (first | (simp (maxDischargeDepth := 30) [*]; done) | split | dsimp only)

@[simp] theorem holds_programPass (b : Nat) (x : Buf) (a : Addr) (s : State) (h : Holds q P s.kept) :
    Holds q P (programPass b x a s).kept := by
  simp (maxDischargeDepth := 30) [programPass, h]

@[simp] theorem holds_ringRoom (s : State) (h : Holds q P s.kept) : Holds q P (ringRoom s).kept := by
  unfold ringRoom
  split <;> simp (maxDischargeDepth := 30) [h]

@[simp] theorem holds_programFail (b : Nat) (a : Addr) (s : State) (h : Holds q P s.kept) :
    Holds q P (programFail b a s).kept := by
  simp (maxDischargeDepth := 30) [programFail, h]

@[simp] theorem holds_programDone (d : Nat) (pass : Bool) (s : State) (h : Holds q P s.kept) :
    Holds q P (programDone d pass s).kept := by
  unfold programDone
  repeat' (first | (simp (maxDischargeDepth := 30) [*]; done) | split | dsimp only)

@[simp] theorem holds_voidPage (b : Nat) (a : Addr) (s : State) (h : Holds q P s.kept) :
    Holds q P (voidPage b a s).kept := by
  unfold voidPage
  repeat' (first | (simp (maxDischargeDepth := 30) [h]; done) | split)

@[simp] theorem holds_readbackDone (d : Nat) (r : ReadResult) (s : State) (h : Holds q P s.kept) :
    Holds q P (readbackDone d r s).kept := by
  unfold readbackDone
  repeat' (first | (simp (maxDischargeDepth := 30) [*]; done) | split | dsimp only)

@[simp] theorem holds_retrievalDone (d : Nat) (r : ReadResult) (s : State) (h : Holds q P s.kept) :
    Holds q P (retrievalDone d r s).kept := by
  unfold retrievalDone
  repeat' (first | (simp (maxDischargeDepth := 30) [h]; done) | split)

@[simp] theorem holds_relocationDone (walk : Bool) (d : Nat) (r : ReadResult) (s : State) (h : Holds q P s.kept) :
    Holds q P (relocationDone walk d r s).kept := by
  unfold relocationDone
  repeat' (first | (simp (maxDischargeDepth := 30) [h]; done) | split)

@[simp] theorem holds_dropWalkRead (d : Nat) (s : State) (h : Holds q P s.kept) :
    Holds q P (dropWalkRead d s).kept := by
  simp (maxDischargeDepth := 30) [dropWalkRead, h]

@[simp] theorem holds_faultDie (d : Nat) (s : State) (h : Holds q P s.kept) :
    Holds q P (faultDie d s).kept := by
  simp (maxDischargeDepth := 30) [faultDie, h]

@[simp] theorem holds_judgeDies (s : State) (h : Holds q P s.kept) : Holds q P (judgeDies s).kept := by
  simp (maxDischargeDepth := 30) [judgeDies, h]

@[simp] theorem holds_timeoutOp (d : Nat) (o : Op) (s : State) (h : Holds q P s.kept) :
    Holds q P (timeoutOp d o s).kept := by
  unfold timeoutOp
  split <;> simp (maxDischargeDepth := 30) [h]

@[simp] theorem holds_mountBlank (m : Mount) (ps : List ReadPage) (s : State) (h : Holds q P s.kept) :
    Holds q P (mountBlank m ps s).kept := by
  simp (maxDischargeDepth := 30) [mountBlank, h]

@[simp] theorem holds_restoreMotion (t : List Byte) (s : State) (h : Holds q P s.kept) :
    Holds q P (restoreMotion t s).kept := by
  refine holds_judgeLatch _ ⟨h.1, fun p => ?_⟩
  obtain ⟨a, b, c, d, e, g⟩ := h.2 p
  refine ⟨a, b, Nat.min_le_left _ _, ?_, e, g⟩
  show (List.drop _ _).length ≤ _
  rw [List.length_drop]
  omega

@[simp] theorem holds_gaugeRestore (fcc res : Nat) (s : State) (h : Holds q P s.kept) :
    Holds q P (gaugeRestore fcc res s).kept := by
  refine holds_modGauge_ok _ s (fun b => ?_) h
  have := clampNat_bounds fcc (Nat.div_le_self s.design 2)
  exact ⟨mul_div_le_of_le b.1, this.1, this.2, b.2.2.2⟩

@[simp] theorem holds_restoreCheckpoint (n : Nat) (pages : List ReadPage) (s : State) (h : Holds q P s.kept) :
    Holds q P (restoreCheckpoint n pages s).kept := by
  unfold restoreCheckpoint
  repeat' (first | (simp (maxDischargeDepth := 30) [*]; done) | split | dsimp only)

@[simp] theorem holds_probeDies (ds : List Nat) (s : State) (h : Holds q P s.kept) : Holds q P (probeDies ds s).kept := by
  induction ds with
  | nil => simp [probeDies, h]
  | cons d ds ih =>
    unfold probeDies
    repeat' (first | (simp [*]; done) | split)

@[simp] theorem holds_scanNext (bs : List Blk) (s : State) (h : Holds q P s.kept) : Holds q P (scanNext bs s).kept := by
  induction bs with
  | nil => simp [scanNext, h]
  | cons b bs ih =>
    unfold scanNext
    split <;> simp [*]

@[simp] theorem holds_ringRead (ps : List ReadPage) (blanks : List (Nat × Nat)) (s : State) (h : Holds q P s.kept) :
    Holds q P (ringRead ps blanks s).kept := by
  unfold ringRead
  repeat' (first | (simp (maxDischargeDepth := 30) [h]; done) | split)

@[simp] theorem holds_mountDead (s : State) (h : Holds q P s.kept) : Holds q P (mountDead s).kept := by
  unfold mountDead
  split <;> simp (maxDischargeDepth := 30) [h]

theorem parseMany_length {α : Type} (f : List Byte → Nat → α) (w n : Nat) (bs : List Byte) (off : Nat) :
    (parseMany f w n bs off).length = n := by
  induction n generalizing off with
  | zero => rfl
  | succ n ih => simp [parseMany, ih]

/-- The gauge's starting values with a whole working copy (R173). -/
theorem holds_gaugeStart (items : List Nat) (s : State) (hx : SettingsOk items) (h : Holds q P s.kept) :
    Holds q P (gaugeStart (s.modSettings fun c => { c with items := items })).kept := by
  refine ⟨h.1, fun p => ?_⟩
  obtain ⟨a, b, c, d, e, g⟩ := h.2 p
  exact ⟨hx, ⟨Nat.zero_le _, Nat.div_le_self _ 2, le_rfl, b.2.2.2⟩, c, d, e, g⟩

/-- The settings step puts a whole working copy in force, and after a POWER-ON reset the gauge's starting values (R173). -/
@[simp] theorem holds_loadSettings (best : Option ReadPage) (s : State) (h : Holds q P s.kept) :
    Holds q P (loadSettings best s).kept := by
  have key : ∀ (items : List Nat) (s : State), SettingsOk items → Holds q P s.kept →
      Holds q P (if s.power.resetCause = .powerOn then
        let bounds := (s.carefulOn, s.carefulOff)
        let s := gaugeStart (s.modSettings fun c => { c with items := items })
        updateWait (if (s.carefulOn, s.carefulOff) = bounds then s else judgeLatch s)
      else adoptItems items (s.modGauge fun g => { g with sampling := true })).kept := by
    intro items s hx h
    have h1 := holds_gaugeStart items s hx h
    have h2 := holds_adoptItems items (s.modGauge fun g => { g with sampling := true }) (fun _ => hx)
      (holds_modGauge_ok _ s (fun b => b) h)
    split
    · dsimp only
      split <;> simp [h1]
    · exact h2
  unfold loadSettings
  cases best with
  | none => exact key _ _ settingsOk_defaults (holds_modSettings _ _ (fun _ => rfl) h)
  | some p =>
    exact key _ _ (settingsOk_loaded (parseMany_length _ _ _ _ _)) (holds_modSettings _ _ (fun _ => rfl) h)

@[simp] theorem holds_settingsRead (pos : Nat) (best : Option ReadPage) (s : State) (h : Holds q P s.kept) :
    Holds q P (settingsRead pos best s).kept := by
  unfold settingsRead
  dsimp only
  rw [kept_setPhase]
  exact holds_loadSettings _ _ (by simpa using h)

@[simp] theorem holds_mountSkip (ph : MountPhase) (s : State) (h : Holds q P s.kept) :
    Holds q P (mountSkip ph s).kept := by
  unfold mountSkip
  split <;> simp (maxDischargeDepth := 30) [h]

@[simp] theorem holds_mountTimeout (d : Nat) (s : State) (h : Holds q P s.kept) :
    Holds q P (mountTimeout d s).kept := by
  unfold mountTimeout
  repeat' (first | (simp (maxDischargeDepth := 30) [h]; done) | split)

@[simp] theorem holds_operationTimeout (d : Nat) (s : State) (h : Holds q P s.kept) :
    Holds q P (operationTimeout d s).kept := by
  unfold operationTimeout
  split <;> simp (maxDischargeDepth := 30) [h]

@[simp] theorem holds_snapshot (s : State) (h : Holds q P s.kept) : Holds q P (snapshot s).kept := by
  unfold snapshot
  repeat' (first | (simp (maxDischargeDepth := 30) [*]; done) | split | dsimp only)

@[simp] theorem holds_formatFlash (s : State) (h : Holds q P s.kept) : Holds q P (formatFlash s).kept := by
  simp (maxDischargeDepth := 30) [formatFlash, h]

@[simp] theorem holds_formatEvent (s : State) (h : Holds q P s.kept) : Holds q P (formatEvent s).kept := by
  simp (maxDischargeDepth := 30) [formatEvent, h]

@[simp] theorem holds_ringNext (block : Nat) (pos : Nat) (ps : List ReadPage) (blanks : List (Nat × Nat)) (done : Bool) (s : State) (h : Holds q P s.kept) :
    Holds q P (ringNext block pos ps blanks done s).kept := by
  simp (maxDischargeDepth := 30) [ringNext, h]

@[simp] theorem holds_probeNext (todo : List Blk) (passed : Nat) (dies : List Nat) (s : State) (h : Holds q P s.kept) :
    Holds q P (probeNext todo passed dies s).kept := by
  unfold probeNext
  split <;> simp (maxDischargeDepth := 30) [h]

@[simp] theorem holds_mountPage (ph : MountPhase) (r : ReadResult) (s : State) (h : Holds q P s.kept) :
    Holds q P (mountPage ph r s).kept := by
  unfold mountPage
  repeat' (first | (simp (maxDischargeDepth := 30) [*]; done) | split | dsimp only)

@[simp] theorem holds_mountRead (r : MountAnswer) (s : State) (h : Holds q P s.kept) :
    Holds q P (mountRead r s).kept := by
  unfold mountRead
  repeat' (first | (simp (maxDischargeDepth := 30) [h]; done) | split)

@[simp] theorem holds_tickInterval (s : State) (h : Holds q P s.kept) : Holds q P (tickInterval s).kept := by
  unfold tickInterval
  repeat' (first | (simp (maxDischargeDepth := 30) [*]; done) | split | dsimp only)

@[simp] theorem holds_tickDecay (s : State) (h : Holds q P s.kept) : Holds q P (tickDecay s).kept := by
  simp (maxDischargeDepth := 30) [tickDecay, h]

@[simp] theorem holds_tick (s : State) (h : Holds q P s.kept) : Holds q P (tick s).kept := by
  refine holds_tickInterval _ (holds_tickDecay _ ⟨h.1, fun p => ?_⟩)
  obtain ⟨a, b, c, d, e, g⟩ := h.2 p
  exact ⟨a, b, c, d, e, Nat.mod_lt _ (by decide)⟩

end Sys2Proof.Machine
end

