-- ==== Sys2Proof/Laws/Rows.lean ====
section
/-!
SUPPORT. How the command rows come to their meanings: what a command that passes R7 satisfies, and a store command that runs
at once.
-/
namespace Sys2Proof.Machine

theorem field_one (bs : List Byte) (i : Nat) : field 1 bs i = (byteAt bs i).toNat := by
  simp [field, byteAt]

/-- What a command that passes every check of R7 satisfies. -/
theorem checkCommand_none {k : CmdKind} {tag : Byte} {body : List Byte} {s : State}
    (h : checkCommand k tag body s = none) :
    tag ≠ 0 ∧ lengthOk k body = true ∧ s.tagInUse tag = false ∧ refusedBy k s.power.st s.power.store = none ∧
      argumentBad k body s = false := by
  unfold checkCommand at h
  split at h
  · cases h
  · rename_i h1
    split at h
    · cases h
    · rename_i h2
      split at h
      · cases h
      · rename_i h3
        cases e : refusedBy k s.power.st s.power.store with
        | some c => rw [e] at h; cases h
        | none =>
          rw [e] at h
          dsimp only at h
          split at h
          · cases h
          · rename_i h4
            exact ⟨h1, by simpa using h2, by simpa using h3, rfl, by simpa using h4⟩

@[simp] theorem heard_mount (s : State) : s.heard.power.mount = s.power.mount := by
  unfold State.heard controlWake
  split <;> simp [State.setCtl, wake_power]

@[simp] theorem heard_store_state (s : State) : s.heard.power.store = s.power.store := by
  unfold State.heard controlWake
  split <;> simp [State.setCtl, wake_power]

@[simp] theorem heard_clock (s : State) : s.heard.power.clock = s.power.clock := by
  unfold State.heard controlWake
  split <;> simp [State.setCtl, wake_power]

@[simp] theorem heard_closeout (s : State) : s.heard.power.closeout = s.power.closeout := by
  unfold State.heard controlWake
  split <;> simp [State.setCtl, wake_power]

@[simp] theorem heard_emergency (s : State) : s.heard.emergency = s.emergency := by simp [State.emergency]

@[simp] theorem heard_dieReady (s : State) (d : Nat) : s.heard.dieReady d = s.dieReady d := by
  simp [State.dieReady, State.die]

@[simp] theorem heard_line (s : State) (n : Nat) : s.heard.line n = s.line n := by simp [State.line]

theorem heard_still {s : State} (h : Still s) : Still s.heard :=
  still_congr h (by simp) (by simp) (by simp) (by simp) (by simp) (by simp) (by simpa [State.isRunning] using h.2.2.2.2.1)
    (by simp)

/-- A store command as its frame brings it. -/
def frameCmd (k : CmdKind) (tag : Byte) (body : List Byte) : StoreCmd :=
  { kind := k, tag := tag, body := body, cancelled := false }

/-- The state in which a store command that runs at once is at its owner. -/
def State.atOwner (k : CmdKind) (tag : Byte) (body : List Byte) (s : State) : State :=
  s.heard.modLink fun l => { l with running := some { cmd := frameCmd k tag body, handed := true, final := none } }

/-- A store command that runs at once is handed to its owner (R12, R13). -/
theorem commandFrame_runs {k : CmdKind} {tag : Byte} {body : List Byte} {s : State} (h : Runs k tag body s) :
    commandFrame k tag body s = finish (runOwner (frameCmd k tag body) (s.atOwner k tag body)) := by
  obtain ⟨h1, h2, h3, h4, h5, h6, h7⟩ := h
  rw [commandFrame_served _ _ _ _ h1 h3]
  have hr := (checkCommand_none h3).2.2.2.1
  have hs : s.heard.pausing = false := by simp [State.pausing, heard_paused, h6]
  have e : ∀ u : State, u = s.heard →
      admitCmd (frameCmd k tag body) u = runOwner (frameCmd k tag body) (s.atOwner k tag body) := by
    rintro u rfl
    simp only [admitCmd, heard_running, heard_waiting, h4, h5, Option.isNone_none, List.isEmpty_nil, Bool.and_self, if_true,
      moveUp, handRunning, modLink_link, modLink_power, frameCmd, hr]
    have hs' : ∀ f, (s.heard.modLink f).pausing = false := fun _ => hs
    simp only [hs', Bool.or_self, Option.isSome_none, Bool.false_eq_true, if_false]
    rfl
  cases k <;> simp [CmdKind.isStore] at h2 <;> exact congrArg finish (e _ rfl)

@[simp] theorem atOwner_heard (k : CmdKind) (tag : Byte) (body : List Byte) (s : State) :
    (s.atOwner k tag body).store = s.store ∧ (s.atOwner k tag body).flash = s.flash ∧
      (s.atOwner k tag body).staging = s.staging ∧ (s.atOwner k tag body).retr = s.retr ∧
      (s.atOwner k tag body).settings = s.settings ∧ (s.atOwner k tag body).gauge = s.gauge ∧
      (s.atOwner k tag body).intake.slots = s.intake.slots ∧ (s.atOwner k tag body).power = s.heard.power := by
  simp [State.atOwner]

/-- The running command ends where the reply FIFO has room: its final reply enters behind what stands (R13, R17). -/
theorem endCommand_atOwner {k : CmdKind} {tag : Byte} {body : List Byte} {s : State} (h : Runs k tag body s) (c : Code)
    (content : List Byte) (u : State) (hl : u.link = (s.atOwner k tag body).link) (hp : u.paused = false)
    (hk : k ∈ [CmdKind.lineClose, .lineLock, .lineUnlock, .lineErase, .permitLoad, .saveSettings, .closeout]) :
    ∃ l, endCommand c content u = { u with link := l, power := { u.power with pause := .none, fmt := .none } } ∧
      Finished k tag c content s.heard.link l := by
  obtain ⟨h1, h2, h3, h4, h5, h6, h7⟩ := h
  have hf : u.link.fifo.length < Config.replyFifo := by rw [hl]; exact h7
  have hr : u.link.running = some { cmd := frameCmd k tag body, handed := true, final := none } := by rw [hl]; rfl
  refine ⟨_, ?_, rfl⟩
  have e : ∀ v : State, finalPlaced (frameCmd k tag body) ⟨c, content⟩ v =
      v.modLink fun l => { l with running := none } := by
    intro v
    simp only [List.mem_cons, List.not_mem_nil, or_false] at hk
    rcases hk with h | h | h | h | h | h | h <;> simp [finalPlaced, frameCmd, h]
  have hp' : (u.modPower fun p => { p with pause := .none, fmt := .none }).paused = false := hp
  simp only [endCommand, hr, modPower_link, hf, if_true, e, hp']
  simp only [State.modLink, State.modPower, LinkUnit.enter, choose_run, hl]
  rfl

@[simp] theorem atOwner_line (k : CmdKind) (tag : Byte) (body : List Byte) (s : State) (n : Nat) :
    (s.atOwner k tag body).line n = s.line n := by simp [State.line]

/-- A store command that ends as it starts, in a state that brings about no follow-up work. -/
theorem finish_ended {k : CmdKind} {tag : Byte} {body : List Byte} {s : State} (h : Runs k tag body s) (hs : Still s)
    (c : Code) (content : List Byte) (u : State) (hl : u.link = (s.atOwner k tag body).link) (hp : u.paused = false)
    (hk : k ∈ [CmdKind.lineClose, .lineLock, .lineUnlock, .lineErase, .permitLoad, .saveSettings, .closeout])
    (a1 : u.store.walk = s.store.walk) (a2 : u.flash.refresh = s.flash.refresh) (a3 : u.retr.ctx = s.retr.ctx)
    (a4 : u.flash.reads = s.flash.reads) (a5 : ∀ d, u.dieReady d = s.dieReady d) (a6 : u.power.mount = s.power.mount)
    (a7 : u.emergency = s.emergency) :
    ∃ l, finish (endCommand c content u) =
        updateWait { u with link := l, power := { u.power with pause := .none, fmt := .none } } ∧
      Finished k tag c content s.heard.link l := by
  obtain ⟨l, e, f⟩ := endCommand_atOwner h c content u hl hp hk
  refine ⟨l, ?_, f⟩
  rw [e, finish_still]
  refine still_congr hs a1 a2 a3 a4 a5 a6 ?_ a7
  have : l.running = none := by
    rw [f]
    simp
  simp [State.isRunning, this]

/-- A store command that ends with no other effect. -/
theorem finish_ended_at_once {k : CmdKind} {tag : Byte} {body : List Byte} {s : State} (h : Runs k tag body s)
    (hs : Still s) (c : Code) (content : List Byte)
    (hk : k ∈ [CmdKind.lineClose, .lineLock, .lineUnlock, .lineErase, .permitLoad, .saveSettings, .closeout]) :
    ∃ l, finish (endCommand c content (s.atOwner k tag body)) =
        updateWait { s.atOwner k tag body with link := l, power := { s.heard.power with pause := .none, fmt := .none } } ∧
      Finished k tag c content s.heard.link l := by
  have := finish_ended h hs c content (s.atOwner k tag body) rfl (heard_paused s) hk (by simp) (by simp) (by simp) (by simp)
    (fun d => by simp [State.dieReady, State.die]) (by simp) (by simp [State.emergency])
  simpa using this

end Sys2Proof.Machine
end

