-- ==== Sys2Proof/Laws/Sound.lean ====
section
/-!
SUPPORT. Every operation keeps the queues, lists and tables well formed: `Sound`. One lemma per operation, in the order the
operations are built on each other; those of the first part are the ones that move something that `Sound` speaks of.
-/
namespace Sys2Proof.Machine

/-! ## One block's state at a time -/

@[simp] theorem sound_modIntake (f : Intake → Intake) (s : State) (h : Sound s) : Sound (s.modIntake f) := h
@[simp] theorem sound_modRetr (f : Retrieval → Retrieval) (s : State) (h : Sound s) : Sound (s.modRetr f) := h
@[simp] theorem sound_modMotion (f : Motion → Motion) (s : State) (h : Sound s) : Sound (s.modMotion f) := h
@[simp] theorem sound_modGauge (f : Gauge → Gauge) (s : State) (h : Sound s) : Sound (s.modGauge f) := h
@[simp] theorem sound_modPower (f : Power → Power) (s : State) (h : Sound s) : Sound (s.modPower f) := h
@[simp] theorem sound_modSettings (f : Settings → Settings) (s : State) (h : Sound s) : Sound (s.modSettings f) := h
@[simp] theorem sound_modDie (d : Nat) (f : Die → Die) (s : State) (h : Sound s) : Sound (s.modDie d f) := h

/-- A change of the link unit that keeps its bounds. -/
theorem sound_modLink_ok (f : LinkUnit → LinkUnit) (s : State) (hf : s.link.ok → (f s.link).ok) (h : Sound s) :
    Sound (s.modLink f) := ⟨hf h.1, h.2⟩

/-- A change of the link unit that lets nothing into its queues. -/
@[simp] theorem sound_modLink (f : LinkUnit → LinkUnit) (s : State)
    (hf : ∀ l, (f l).fifo.length ≤ l.fifo.length ∧ (f l).waiting.length ≤ l.waiting.length) (h : Sound s) :
    Sound (s.modLink f) :=
  sound_modLink_ok f s (fun k => ⟨(hf s.link).1.trans k.1, (hf s.link).2.trans k.2⟩) h

/-- A change of staging that leaves every buffer in its state, and the program queue. -/
@[simp] theorem sound_modStaging (f : Staging → Staging) (s : State)
    (hf : ∀ t, (f t).bufs.map (Option.map Buf.st) = t.bufs.map (Option.map Buf.st) ∧ (f t).queue = t.queue)
    (h : Sound s) : Sound (s.modStaging f) := by
  obtain ⟨hl, ⟨h1, h2, h3⟩, hr⟩ := h
  obtain ⟨e1, e2⟩ := hf s.staging
  have hlen := congrArg List.length e1
  have hget : ∀ b, ((f s.staging).bufs.getD b none).map Buf.st = (s.staging.bufs.getD b none).map Buf.st := by
    intro b
    have := congrArg (fun l => l[b]?) e1
    simp only [List.getElem?_map] at this
    simp only [List.getD]
    cases h4 : (f s.staging).bufs[b]? <;> cases h5 : s.staging.bufs[b]? <;> simp_all
  refine ⟨hl, ⟨?_, ?_, fun b => ?_⟩, hr⟩
  · simpa [h1] using hlen
  · simpa [e2] using h2
  · simp only [modStaging_staging, e2, hget]
    exact h3 b

/-- The line table with other contents under the same numbers. -/
@[simp] theorem sound_modStore (f : LineStore → LineStore) (s : State)
    (hf : ∀ t, (f t).lines.map Line.num = t.lines.map Line.num) (h : Sound s) : Sound (s.modStore f) := by
  obtain ⟨hl, ht, hfl, h1, h2⟩ := h
  have e := hf s.store
  refine ⟨hl, ht, hfl, ?_, ?_⟩
  · have := congrArg List.length e
    simp only [List.length_map] at this
    exact this.trans_le h1
  · exact e ▸ h2

@[simp] theorem num_mapIf (p : Line → Bool) (f : Line → Line) (ls : List Line) (h : ∀ l, (f l).num = l.num) :
    (mapIf p f ls).map Line.num = ls.map Line.num := map_mapIf_same p f Line.num h ls

@[simp] theorem sound_modLine (n : Nat) (f : Line → Line) (s : State) (hf : ∀ l, (f l).num = l.num) (h : Sound s) :
    Sound (s.modLine n f) :=
  sound_modStore _ _ (fun t => num_mapIf _ f t.lines hf) h

@[simp] theorem sound_modBuf (b : Nat) (f : Buf → Buf) (s : State) (hf : ∀ x, (f x).st = x.st) (h : Sound s) :
    Sound (s.modBuf b f) :=
  sound_modStaging _ _ (fun t => ⟨map_modify_same _ _ (fun x => by cases x <;> simp [hf]) _ _, rfl⟩) h

theorem sound_foldl {α : Type} (f : State → α → State) (hf : ∀ s a, Sound s → Sound (f s a)) (l : List α) (s : State)
    (h : Sound s) : Sound (l.foldl f s) := by
  induction l generalizing s with
  | nil => exact h
  | cons a l ih => exact ih _ (hf s a h)

@[simp] theorem sound_ite (c : Prop) [Decidable c] (s t : State) :
    Sound (if c then s else t) ↔ (c → Sound s) ∧ (¬c → Sound t) := by split <;> simp_all

/-! ## The block table -/

/-- What the block table records of each block, without the counts. -/
def BlockRec.key (r : BlockRec) : Blk × BlockState := (r.id, r.st)

theorem stateOf_key (f : Flash) (b : Blk) :
    f.stateOf b = ((f.blocks.map BlockRec.key).find? fun k => k.1 == b).map Prod.snd := by
  rw [List.find?_map]
  simp only [Flash.stateOf, Option.map_map]
  rfl

theorem stateOf_congr {f g : Flash} (h : f.blocks.map BlockRec.key = g.blocks.map BlockRec.key) (b : Blk) :
    f.stateOf b = g.stateOf b := by
  rw [stateOf_key, stateOf_key, h]

theorem ids_congr {f g : Flash} (h : f.blocks.map BlockRec.key = g.blocks.map BlockRec.key) :
    f.blocks.map BlockRec.id = g.blocks.map BlockRec.id := by
  have := congrArg (List.map Prod.fst) h
  simpa [BlockRec.key, Function.comp_def] using this

theorem flash_ok_congr {f g : Flash} (hb : g.blocks.map BlockRec.key = f.blocks.map BlockRec.key)
    (hl : g.freeList = f.freeList) (hp : g.pendingRec = f.pendingRec) (h : f.ok) : g.ok := by
  obtain ⟨h1, h2, h3, h4, h5⟩ := h
  refine ⟨ids_congr hb ▸ h1, hl ▸ h2, fun b => ?_, hp ▸ h4, fun b hm => ?_⟩
  · rw [hl, stateOf_congr hb]
    exact h3 b
  · rw [stateOf_congr hb]
    exact h5 b (hp ▸ hm)

/-- A change of the flash controller that leaves every block in its state, the free list and the pending order. -/
@[simp] theorem sound_modFlash (f : Flash → Flash) (s : State)
    (hf : ∀ fl, (f fl).blocks.map BlockRec.key = fl.blocks.map BlockRec.key ∧ (f fl).freeList = fl.freeList ∧
      (f fl).pendingRec = fl.pendingRec) (h : Sound s) : Sound (s.modFlash f) :=
  ⟨h.1, h.2.1, flash_ok_congr (hf _).1 (hf _).2.1 (hf _).2.2 h.2.2.1, h.2.2.2⟩

@[simp] theorem sound_modBlock (b : Blk) (f : BlockRec → BlockRec) (s : State)
    (hf : ∀ r, (f r).id = r.id ∧ (f r).st = r.st) (h : Sound s) : Sound (s.modBlock b f) :=
  sound_modFlash _ _ (fun fl => ⟨map_mapIf_same _ f BlockRec.key (fun r => by simp [BlockRec.key, hf]) _, rfl, rfl⟩) h

theorem stateOf_block (s : State) (b : Blk) : s.flash.stateOf b = (s.block b).map BlockRec.st := rfl

/-- The block table with one block in another state. -/
theorem stateOf_set (f : Flash) (b c : Blk) (g : BlockRec → BlockRec) (st : BlockState) (hi : ∀ r, (g r).id = r.id)
    (hs : ∀ r, (g r).st = st) :
    ((mapIf (fun r => r.id == b) g f.blocks).find? fun r => r.id == c).map BlockRec.st =
      if c = b then (f.stateOf b).map fun _ => st else f.stateOf c := by
  unfold Flash.stateOf
  induction f.blocks with
  | nil => simp [mapIf]
  | cons r rs ih =>
    simp only [mapIf, List.map_cons, List.find?_cons] at ih ⊢
    by_cases hb : r.id = b
    · subst hb
      by_cases hc : c = r.id
      · subst hc
        simp [hi, hs]
      · have hc' : (r.id == c) = false := by simpa using fun e => hc e.symm
        simp only [beq_self_eq_true, if_true, hi, hc']
        simpa [hc] using ih
    · have hb' : (r.id == b) = false := by simpa using hb
      simp only [hb', Bool.false_eq_true, if_false]
      by_cases hc : c = r.id
      · subst hc
        simp [hb]
      · have hc' : (r.id == c) = false := by simpa using fun e => hc e.symm
        simp only [hc']
        exact ih

theorem ids_set (b : Blk) (g : BlockRec → BlockRec) (hi : ∀ r, (g r).id = r.id) {rs : List BlockRec}
    (h : (rs.map BlockRec.id).Nodup) : ((mapIf (fun r => r.id == b) g rs).map BlockRec.id).Nodup := by
  rw [map_mapIf_same _ g _ hi rs]
  exact h

/-- A FULL block, or one that the lists do not name, joins the free list (R73). -/
theorem flash_ok_join {f : Flash} {b : Blk} {x : BlockState} (n : Nat) (h : f.ok) (hx : f.stateOf b = some x)
    (hn : x ≠ .free) (hp : b ∉ f.pendingRec) :
    ({ f with
      blocks := mapIf (fun r => r.id == b) (fun r => { r with st := .free, seq := n }) f.blocks,
      freeList := f.freeList ++ [b], freeCtr := n } : Flash).ok := by
  obtain ⟨h1, h2, h3, h4, h5⟩ := h
  have hs := fun c => stateOf_set f b c (fun r => { r with st := .free, seq := n }) .free (fun _ => rfl) (fun _ => rfl)
  have hb : b ∉ f.freeList := by
    rw [h3, hx]
    simpa using hn
  refine ⟨ids_set b (fun r => { r with st := .free, seq := n }) (fun _ => rfl) h1, ?_, fun c => ?_, h4, fun c hc => ?_⟩
  · exact List.nodup_append.2 ⟨h2, List.nodup_singleton _, by rintro a ha c hc rfl; simp at hc; exact hb (hc ▸ ha)⟩
  · rw [Flash.stateOf, hs c, List.mem_append, List.mem_singleton]
    split
    · rename_i e
      simp [e, hx]
    · rename_i e
      simp [e, h3]
  · rw [Flash.stateOf, hs c, if_neg (by rintro rfl; exact hp hc)]
    exact h5 c hc

/-- A FULL block becomes RECLAIM-PENDING (R89). -/
theorem flash_ok_pend {f : Flash} {b : Blk} (h : f.ok) (hx : f.stateOf b = some .full) :
    ({ f with
      blocks := mapIf (fun r => r.id == b) (fun r => { r with st := .reclaimPending }) f.blocks,
      pendingRec := f.pendingRec ++ [b] } : Flash).ok := by
  obtain ⟨h1, h2, h3, h4, h5⟩ := h
  have hs := fun c => stateOf_set f b c (fun r => { r with st := .reclaimPending }) .reclaimPending (fun _ => rfl) (fun _ => rfl)
  have hb : b ∉ f.pendingRec := fun hm => by simp [h5 b hm] at hx
  refine ⟨ids_set b (fun r => { r with st := .reclaimPending }) (fun _ => rfl) h1, h2, fun c => ?_, ?_, fun c hc => ?_⟩
  · rw [Flash.stateOf, hs c, h3]
    split
    · rename_i e
      simp [e, hx]
    · rfl
  · exact List.nodup_append.2 ⟨h4, List.nodup_singleton _, by rintro a ha c hc rfl; simp at hc; exact hb (hc ▸ ha)⟩
  · rw [Flash.stateOf, hs c]
    split
    · simp [hx]
    · rename_i e
      rw [List.mem_append, List.mem_singleton] at hc
      exact h5 c (hc.resolve_right e)

/-- A block leaves the lists for a state that neither of them names (R73, R89). -/
@[simp] theorem sound_takeOut (b : Blk) (st : BlockState) (s : State) (h1 : st ≠ .free) (h : Sound s) :
    Sound (takeOut b st s) := by
  obtain ⟨hl, ht, ⟨a1, a2, a3, a4, a5⟩, hr⟩ := h
  have hs := fun c => stateOf_set s.flash b c (fun r => { r with st := st }) st (fun _ => rfl) (fun _ => rfl)
  refine ⟨hl, ht, ⟨ids_set b (fun r => { r with st := st }) (fun _ => rfl) a1, a2.filter _, fun c => ?_, a4.filter _, fun c hc => ?_⟩, hr⟩
  · show c ∈ s.flash.freeList.filter (· != b) ↔ _
    rw [show (takeOut b st s).flash.stateOf c = _ from hs c, List.mem_filter, a3]
    split
    · rename_i e
      subst e
      cases s.flash.stateOf c <;> simp [h1]
    · rename_i e
      simp [e]
  · have hc' : c ∈ s.flash.pendingRec.filter (· != b) := hc
    rw [List.mem_filter] at hc'
    refine (hs c).trans ?_
    rw [if_neg (by simpa using hc'.2)]
    exact a5 c hc'.1

/-- An ACTIVE block becomes FULL (R70). -/
theorem flash_ok_full {f : Flash} {b : Blk} (h : f.ok) (hx : f.stateOf b = some .active) :
    ({ f with blocks := mapIf (fun r => r.id == b) (fun r => { r with st := .full }) f.blocks } : Flash).ok := by
  obtain ⟨h1, h2, h3, h4, h5⟩ := h
  have hs := fun c => stateOf_set f b c (fun r => { r with st := .full }) .full (fun _ => rfl) (fun _ => rfl)
  refine ⟨ids_set b (fun r => { r with st := .full }) (fun _ => rfl) h1, h2, fun c => ?_, h4, fun c hc => ?_⟩
  · rw [Flash.stateOf, hs c, h3]
    split
    · rename_i e
      simp [e, hx]
    · rfl
  · rw [Flash.stateOf, hs c]
    have := h5 c hc
    split
    · rename_i e
      simp [← e, this] at hx
    · exact this

/-! ## Notices, the wait line and the space conditions -/

theorem choose_le (b : Bool) (l : LinkUnit) :
    (l.choose b).fifo.length ≤ l.fifo.length ∧ (l.choose b).waiting.length ≤ l.waiting.length :=
  ⟨choose_fifo_length b l, by simp⟩

@[simp] theorem sound_kick (s : State) (h : Sound s) : Sound s.kick :=
  sound_modLink _ _ (fun l => choose_le _ l) h

@[simp] theorem sound_raiseNotice (k : NoticeKind) (d : List Byte) (s : State) (h : Sound s) : Sound (raiseNotice k d s) :=
  sound_modLink _ _ (fun l => choose_le _ (l.raise _ _ _)) h

/-- A message enters a FIFO that has room for a final reply (R17). -/
@[simp] theorem sound_enter (b : Bool) (m : Message) (s : State) (hr : s.link.fifo.length < Config.replyFifo) (h : Sound s) :
    Sound (s.modLink fun l => l.enter b m) := by
  refine sound_modLink_ok _ s (fun k => ?_) h
  have hc := choose_le b { s.link with fifo := s.link.fifo ++ [m] }
  refine ⟨hc.1.trans ?_, hc.2.trans k.2⟩
  simp only [List.length_append, List.length_cons, List.length_nil]
  omega

@[simp] theorem sound_sendImmediate (m : Message) (s : State) (h : Sound s) : Sound (sendImmediate m s) := by
  refine sound_modLink_ok _ s (fun k => ?_) h
  unfold LinkUnit.immediate
  split
  · rename_i hr
    exact (sound_enter s.paused m s (hr.trans (by decide)) h).1
  · exact k

@[simp] theorem sound_updateWait (s : State) (h : Sound s) : Sound (updateWait s) := h

/-- What the judging of the space conditions leaves alone (R75). -/
theorem judgeSpace_frame (s : State) :
    (judgeSpace s).staging = s.staging ∧ (judgeSpace s).store = s.store ∧ (judgeSpace s).flash.blocks = s.flash.blocks ∧
      (judgeSpace s).flash.freeList = s.flash.freeList ∧ (judgeSpace s).flash.pendingRec = s.flash.pendingRec := by
  unfold judgeSpace
  dsimp only
  split
  · exact ⟨rfl, rfl, rfl, rfl, rfl⟩
  · split <;> split <;> exact ⟨rfl, rfl, rfl, rfl, rfl⟩

@[simp] theorem sound_judgeSpace (s : State) (h : Sound s) : Sound (judgeSpace s) := by
  simp (maxDischargeDepth := 30) [judgeSpace, raiseSpace, h]

/-! ## The free list and references -/

theorem sound_joinFree (b : Blk) (s : State) (x : BlockState) (h : Sound s) (hx : s.flash.stateOf b = some x)
    (hn : x ≠ .free) (hp : b ∉ s.flash.pendingRec) : Sound (joinFree b s) :=
  sound_judgeSpace _ ⟨h.1, h.2.1, flash_ok_join _ h.2.2.1 hx hn hp, h.2.2.2⟩

@[simp] theorem sound_setRefresh (bs : List Blk) (s : State) (h : Sound s) : Sound (s.setRefresh bs) :=
  sound_modStore _ _ (fun _ => rfl) (sound_modFlash _ _ (fun _ => ⟨rfl, rfl, rfl⟩) h)

@[simp] theorem sound_leaveRefresh (b : Blk) (s : State) (h : Sound s) : Sound (leaveRefresh b s) :=
  sound_setRefresh _ s h

theorem sound_reclaim (b : Blk) (s : State) (h : Sound s) (hx : s.flash.stateOf b = some .full) : Sound (reclaim b s) := by
  have h' := sound_leaveRefresh b s h
  unfold reclaim
  dsimp only
  split
  · exact ⟨h'.1, h'.2.1, flash_ok_pend h'.2.2.1 hx, h'.2.2.2⟩
  · refine sound_joinFree b _ .full h' hx (by decide) fun hm => ?_
    have := h'.2.2.1.2.2.2.2 b hm
    rw [show (leaveRefresh b s).flash.stateOf b = some .full from hx] at this
    simp at this

/-- A block joins the free list, and the others stay in their state. -/
theorem stateOf_joinFree (b c : Blk) (s : State) (h : c ≠ b) : (joinFree b s).flash.stateOf c = s.flash.stateOf c := by
  unfold joinFree
  dsimp only
  rw [Flash.stateOf, (judgeSpace_frame _).2.2.1]
  exact (stateOf_set s.flash b c (fun r => { r with st := .free, seq := _ }) .free (fun _ => rfl) (fun _ => rfl)).trans (if_neg h)

theorem sound_joinAll (bs : List Blk) (s : State) (h : Sound s) (hn : bs.Nodup)
    (hx : ∀ b ∈ bs, s.flash.stateOf b = some .reclaimPending) (hp : s.flash.pendingRec = []) :
    Sound (bs.foldl (fun s b => joinFree b s) s) := by
  induction bs generalizing s with
  | nil => exact h
  | cons b bs ih =>
    have hb := List.nodup_cons.1 hn
    refine ih _ (sound_joinFree b s _ h (hx b (by simp)) (by decide) (by simp [hp])) hb.2 (fun c hc => ?_) ?_
    · rw [stateOf_joinFree b c s (by rintro rfl; exact hb.1 hc)]
      exact hx c (by simp [hc])
    · exact (judgeSpace_frame _).2.2.2.2.trans hp

@[simp] theorem sound_releasePending (s : State) (h : Sound s) : Sound (releasePending s) := by
  obtain ⟨hl, ht, ⟨h1, h2, h3, h4, h5⟩, hr⟩ := h
  refine sound_joinAll _ _ ⟨hl, ht, ⟨h1, h2, h3, List.nodup_nil, by simp⟩, hr⟩ h4 h5 rfl

@[simp] theorem sound_refUp (a : Addr) (s : State) (h : Sound s) : Sound (refUp a s) := by
  simp [refUp, h]

@[simp] theorem sound_refDown (a : Addr) (s : State) (h : Sound s) : Sound (refDown a s) := by
  unfold refDown
  split
  · exact h
  · rename_i r hr
    split
    · exact h
    · have hm : Sound (s.modBlock a.blk fun r => { r with live := r.live - 1 }) := by simp [h]
      dsimp only
      split
      · split
        · rename_i hf
          refine sound_reclaim _ _ hm ?_
          refine (stateOf_congr (g := s.flash) (map_mapIf_same (fun q : BlockRec => q.id == a.blk)
            (fun r => { r with live := r.live - 1 }) BlockRec.key (fun _ => rfl) _) _).trans ?_
          rw [stateOf_block, hr]
          simp only [Bool.and_eq_true, decide_eq_true_eq] at hf
          exact congrArg some hf.1
        · simp [hm]
      · exact hm

@[simp] theorem sound_refDownAll (as : List Addr) (s : State) (h : Sound s) : Sound (refDownAll as s) :=
  sound_foldl _ (fun s a h => sound_refDown a s h) as s h

/-! ## Staging buffers -/

/-- Buffer `b` is one of the 24 and FREE. -/
def State.isFree (s : State) (b : Nat) : Prop := b < s.staging.bufs.length ∧ s.buf b = none

theorem buf_lt {s : State} {b : Nat} {x : Buf} (h : s.buf b = some x) : b < s.staging.bufs.length := by
  by_contra hb
  simp [State.buf, List.getD, List.getElem?_eq_none (Nat.le_of_not_lt hb)] at h

theorem isFree_of_freeBuffer {s : State} {b : Nat} (h : s.freeBuffer = some b) : s.isFree b := by
  unfold State.freeBuffer at h
  rw [List.findIdx?_eq_some_iff_getElem] at h
  obtain ⟨hb, hn, _⟩ := h
  refine ⟨hb, ?_⟩
  simpa [State.buf, List.getD, List.getElem?_eq_getElem hb] using hn

theorem getD_set {α : Type} (l : List α) (b c : Nat) (x d : α) (hb : b < l.length) :
    (l.set b x).getD c d = if c = b then x else l.getD c d := by
  simp only [List.getD, List.getElem?_set]
  split
  · rename_i e
    subst e
    simp
  · rename_i e
    rw [if_neg (Ne.symm e)]

/-- One buffer in another state, with the program queue to match. -/
theorem staging_ok_set {t : Staging} {b : Nat} (x : Option Buf) (q : List Nat) (v : List Nat) (r : List ImageReq)
    (hb : b < t.bufs.length) (h : t.ok) (hq : q.Nodup)
    (hx : ∀ c, c ∈ q ↔ if c = b then x.map Buf.st = some .queued else c ∈ t.queue) :
    ({ bufs := t.bufs.set b x, queue := q, verifying := v, requests := r } : Staging).ok := by
  obtain ⟨h1, _, h3⟩ := h
  refine ⟨by simpa using h1, hq, fun c => ?_⟩
  show c ∈ q ↔ ((t.bufs.set b x).getD c none).map Buf.st = some .queued
  rw [hx c, getD_set _ _ _ _ _ hb]
  split
  · rfl
  · exact h3 c

theorem mem_without (q : List Nat) (b c : Nat) : c ∈ q.filter (· != b) ↔ c ∈ q ∧ c ≠ b := by simp

/-- Buffer `b` leaves the program queue for a state other than QUEUED. -/
theorem staging_ok_leave {t : Staging} {b : Nat} (x : Option Buf) (v : List Nat) (r : List ImageReq)
    (hb : b < t.bufs.length) (h : t.ok) (hx : x.map Buf.st ≠ some .queued) :
    ({ bufs := t.bufs.set b x, queue := t.queue.filter (· != b), verifying := v, requests := r } : Staging).ok :=
  staging_ok_set x _ v r hb h (h.2.1.filter _) fun c => by
    rw [mem_without]
    split
    · rename_i e
      simp [e, hx]
    · rename_i e
      simp [e]

/-- Buffer `b` is written over in the same state. -/
theorem sound_setBuf_same {s : State} {b : Nat} {x : Buf} (y : Buf) (hb : s.buf b = some x) (hst : y.st = x.st)
    (h : Sound s) : Sound (s.setBuf b (some y)) := by
  refine ⟨h.1, ?_, h.2.2⟩
  refine staging_ok_set (some y) _ _ _ (buf_lt hb) h.2.1 h.2.1.2.1 fun c => ?_
  split
  · rename_i e
    subst e
    rw [h.2.1.2.2 c]
    show (s.buf c).map Buf.st = some .queued ↔ _
    simp [hb, hst]
  · rfl

theorem modify_eq_set {α : Type} (l : List α) (b : Nat) (f : α → α) (d : α) (hb : b < l.length) :
    l.modify b f = l.set b (f (l.getD b d)) := by
  apply List.ext_getElem? fun i => ?_
  simp only [List.getElem?_modify, List.getElem?_set, List.getD]
  split
  · rename_i e
    subst e
    simp [hb]
  · simp

/-- A buffer changed by number and taken out of the program queue, in a state other than QUEUED. -/
theorem sound_leaveQueue (b : Nat) (f : Buf → Buf) (g : List Nat → List Nat) (s : State) (hf : ∀ x, (f x).st ≠ .queued)
    (h : Sound s) :
    Sound ((s.modBuf b f).modStaging fun t => { t with queue := t.queue.filter (· != b), verifying := g t.verifying }) := by
  refine ⟨h.1, ?_, h.2.2⟩
  by_cases hb : b < s.staging.bufs.length
  · show ({ bufs := s.staging.bufs.modify b (Option.map f), queue := _, verifying := _, requests := _ } : Staging).ok
    rw [modify_eq_set _ _ _ none hb]
    refine staging_ok_leave _ _ _ hb h.2.1 ?_
    cases s.staging.bufs.getD b none <;> simp [hf]
  · obtain ⟨h1, h2, h3⟩ := h.2.1
    have hn : b ∉ s.staging.queue := fun hm => by
      have := (h3 b).1 hm
      simp [List.getD, List.getElem?_eq_none (Nat.le_of_not_lt hb)] at this
    have hq : s.staging.queue.filter (· != b) = s.staging.queue :=
      List.filter_eq_self.2 fun c hc => by
        simp only [bne_iff_ne, ne_eq]
        rintro rfl
        exact hn hc
    have hm : s.staging.bufs.modify b (Option.map f) = s.staging.bufs := List.modify_eq_self (Nat.le_of_not_lt hb)
    refine ⟨?_, ?_, fun c => ?_⟩
    · show (s.staging.bufs.modify b (Option.map f)).length = _
      rw [hm]; exact h1
    · show (s.staging.queue.filter (· != b)).Nodup
      rw [hq]; exact h2
    · show c ∈ s.staging.queue.filter (· != b) ↔ ((s.staging.bufs.modify b (Option.map f)).getD c none).map Buf.st = _
      rw [hm, hq]; exact h3 c

@[simp] theorem sound_setVerifying (b : Nat) (s : State) (h : Sound s) : Sound (s.setVerifying b) :=
  sound_leaveQueue b _ (fun v => v ++ [b]) s (fun _ => by simp) h

@[simp] theorem sound_setRetained (b : Nat) (s : State) (h : Sound s) : Sound (s.setRetained b) :=
  sound_leaveQueue b _ (fun v => v.filter (· != b)) s (fun _ => by simp) h

/-- A FREE buffer takes an image that is QUEUED (R56). -/
theorem sound_setQueued {s : State} {b : Nat} {x : Buf} (hb : s.isFree b) (hx : x.st = .queued) (h : Sound s) :
    Sound ((s.setBuf b (some x)).modStaging fun t => { t with queue := t.queue ++ [b] }) := by
  have hn : b ∉ s.staging.queue := fun hm => by
    have := (h.2.1.2.2 b).1 hm
    rw [show s.staging.bufs.getD b none = none from hb.2] at this
    simp at this
  refine ⟨h.1, ?_, h.2.2⟩
  refine staging_ok_set (some x) _ _ _ hb.1 h.2.1 ?_ fun c => ?_
  · exact List.nodup_append.2 ⟨h.2.1.2.1, List.nodup_singleton _, by rintro a ha c hc rfl; simp at hc; exact hn (hc ▸ ha)⟩
  · show c ∈ s.staging.queue ++ [b] ↔ _
    rw [List.mem_append, List.mem_singleton]
    split
    · rename_i e
      simp [e, hx]
    · rename_i e
      simp [e]

@[simp] theorem sound_settingsDue (s : State) (h : Sound s) : Sound (settingsDue s) := by
  unfold settingsDue
  split
  · exact h
  · exact sound_modDie _ _ _ (sound_modFlash _ _ (fun _ => ⟨rfl, rfl, rfl⟩) h)

theorem sound_putImage (b : Nat) (im : Image) (s : State) (hb : s.isFree b) (h : Sound s) : Sound (putImage b im s) := by
  unfold putImage
  extract_lets x u v
  have hv : Sound v := sound_setQueued hb rfl h
  split
  · exact sound_settingsDue _ hv
  · exact hv

/-- The numbers of the line table are those of the table without how far its images have come. -/
theorem nums_of_unbuilt {t u : LineStore} (h : t.unbuilt = u.unbuilt) : t.lines.map Line.num = u.lines.map Line.num := by
  have := congrArg (fun v => v.lines.map Line.num) h
  simpa [LineStore.unbuilt, Line.bare, Function.comp_def] using this

theorem sound_giveBuffer {q : ImageReq} {s u : State} {im : Image} {t : LineStore} (hq : buildRequest q u = some (im, t))
    (hu : u.store = s.store) (b : Nat) (hb : s.isFree b) (h : Sound s) : Sound (giveBuffer b im t s) := by
  refine sound_putImage b im _ hb ?_
  refine ⟨h.1, h.2.1, h.2.2.1, ?_⟩
  have e := nums_of_unbuilt (unbuilt_of_build hq)
  rw [hu] at e
  have hl := congrArg List.length e
  simp only [List.length_map] at hl
  exact ⟨hl.trans_le h.2.2.2.1, e ▸ h.2.2.2.2⟩

@[simp] theorem sound_finalPlaced (c : StoreCmd) (f : Final) (s : State) (h : Sound s) : Sound (finalPlaced c f s) := by
  have hm : Sound (s.modLink fun l => { l with running := none }) := by simp [h]
  unfold finalPlaced
  dsimp only
  repeat' (first | (simp [*]; done) | split)

@[simp] theorem sound_endCommand (code : Code) (content : List Byte) (s : State) (h : Sound s) :
    Sound (endCommand code content s) := by
  unfold endCommand
  split
  · exact h
  · rename_i r _
    dsimp only
    split
    · rename_i hr
      exact sound_finalPlaced _ _ _ (sound_enter _ _ _ hr (sound_modPower _ _ h))
    · simp [h]

@[simp] theorem sound_endIf (k : CmdKind) (code : Code) (content : List Byte) (s : State) (h : Sound s) :
    Sound (endIf k code content s) := by
  unfold endIf
  split <;> simp (maxDischargeDepth := 30) [h]

@[simp] theorem sound_settingsUnwritten (s : State) (h : Sound s) : Sound (settingsUnwritten s) :=
  sound_endIf _ _ _ _ h

theorem sound_addRequest (n : Nat) (q : ImageReq) (s : State) (h : Sound s) : Sound (addRequest n q s) := by
  induction n generalizing q s with
  | zero => exact sound_modStaging _ _ (fun _ => ⟨rfl, rfl⟩) h
  | succ n ih =>
    unfold addRequest
    split
    · rename_i b _ hb
      split
      · exact sound_settingsUnwritten _ h
      · split
        · exact h
        · rename_i im t hq
          have hg := sound_giveBuffer hq rfl b (isFree_of_freeBuffer hb) h
          dsimp only
          split
          · exact ih _ _ hg
          · exact hg
    · exact sound_modStaging _ _ (fun _ => ⟨rfl, rfl⟩) h

@[simp] theorem sound_requestImage (q : ImageReq) (s : State) (h : Sound s) : Sound (requestImage q s) :=
  sound_addRequest _ _ _ h

theorem sound_handOver (b : Nat) (qs : List ImageReq) (s : State) (hb : s.isFree b) (h : Sound s) :
    Sound (handOver b qs s) := by
  induction qs generalizing s with
  | nil => exact sound_modStaging (fun t => { t with requests := [] }) _ (fun _ => ⟨rfl, rfl⟩) h
  | cons q qs ih =>
    unfold handOver
    split
    · exact sound_settingsUnwritten _ (ih s hb h)
    · split
      · exact ih s hb h
      · rename_i im t hq
        have hg := sound_giveBuffer (s := s.modStaging fun t => { t with requests := qs }) hq rfl b hb
          (sound_modStaging _ _ (fun _ => ⟨rfl, rfl⟩) h)
        dsimp only
        split
        · exact sound_requestImage _ _ hg
        · exact hg

@[simp] theorem sound_freeBuf (b : Nat) (s : State) (h : Sound s) : Sound (freeBuf b s) := by
  unfold freeBuf
  split
  · exact h
  · rename_i hn
    obtain ⟨x, hx⟩ : ∃ x, s.buf b = some x := by
      cases hb : s.buf b with
      | none => simp [hb] at hn
      | some x => exact ⟨x, rfl⟩
    have hb := buf_lt hx
    refine sound_handOver b _ _ ⟨?_, ?_⟩ ⟨h.1, ?_, h.2.2⟩
    · show b < (s.staging.bufs.set b none).length
      simpa using hb
    · show (s.staging.bufs.set b none).getD b none = none
      rw [getD_set _ _ _ _ _ hb]
      simp
    · exact staging_ok_leave none _ _ hb h.2.1 (by simp)

theorem sound_queueFilling (b : Nat) (s : State) {x : Buf} (hx : s.buf b = some x) (hs : x.st = .filling) (h : Sound s) :
    Sound (queueFilling b s) := by
  have hb := buf_lt hx
  have hx' : s.staging.bufs.getD b none = some x := hx
  have hn : b ∉ s.staging.queue := fun hm => by
    have := (h.2.1.2.2 b).1 hm
    rw [hx'] at this
    simp [hs] at this
  refine ⟨h.1, ?_, h.2.2⟩
  show ({ bufs := s.staging.bufs.modify b _, queue := _, verifying := _, requests := _ } : Staging).ok
  rw [modify_eq_set _ _ _ none hb]
  refine staging_ok_set _ _ _ _ hb h.2.1 ?_ fun c => ?_
  · exact List.nodup_append.2 ⟨h.2.1.2.1, List.nodup_singleton _, by rintro a ha c hc rfl; simp at hc; exact hn (hc ▸ ha)⟩
  · show c ∈ s.staging.queue ++ [b] ↔ _
    rw [List.mem_append, List.mem_singleton]
    split
    · rename_i e
      rw [hx']
      simp [e]
    · rename_i e
      simp [e]

theorem fillingOf_buf {s : State} {i b : Nat} (h : s.fillingOf i = some b) : ∃ x, s.buf b = some x ∧ x.st = .filling := by
  unfold State.fillingOf at h
  rw [List.findIdx?_eq_some_iff_getElem] at h
  obtain ⟨hb, hp, _⟩ := h
  cases hx : s.staging.bufs[b] with
  | none => simp [hx] at hp
  | some x =>
    refine ⟨x, ?_, ?_⟩
    · simp [State.buf, List.getD, List.getElem?_eq_getElem hb, hx]
    · simp [hx] at hp
      exact hp.1

theorem sound_queueFillingOf {s : State} {i b : Nat} (hi : s.fillingOf i = some b) (h : Sound s) :
    Sound (queueFilling b s) := by
  obtain ⟨x, hx, hs⟩ := fillingOf_buf hi
  exact sound_queueFilling b s hx hs h

@[simp] theorem sound_queueSlot (i : Nat) (s : State) (h : Sound s) : Sound (queueSlot i s) := by
  unfold queueSlot
  split
  · rename_i b hb
    exact sound_queueFillingOf hb h
  · exact h

@[simp] theorem sound_requeueBuf (b : Nat) (s : State) (h : Sound s) : Sound (requeueBuf b s) := by
  unfold requeueBuf
  split
  · exact h
  · rename_i x hx
    split
    · exact sound_freeBuf b s h
    · extract_lets _ u v
      have hv : Sound v := by
        refine ⟨h.1, ?_, h.2.2⟩
        refine staging_ok_set (some _) _ _ _ (buf_lt hx) h.2.1 ?_ fun c => ?_
        · exact List.nodup_cons.2 ⟨by simp, h.2.1.2.1.filter _⟩
        · rw [List.mem_cons]
          split
          · rename_i e
            simp [e]
          · rename_i e
            exact (by simp [e] : c = b ∨ c ∈ s.staging.queue.filter (· != b) ↔ c ∈ s.staging.queue)
      split
      · exact sound_settingsDue _ hv
      · exact hv

@[simp] theorem sound_requeueMany (bs : List Nat) (s : State) (h : Sound s) : Sound (requeueMany bs s) :=
  sound_foldl _ (fun s b h => sound_requeueBuf b s h) _ s h

@[simp] theorem sound_freeMany (bs : List Nat) (s : State) (h : Sound s) : Sound (bs.foldl (fun s b => freeBuf b s) s) :=
  sound_foldl _ (fun s b h => sound_freeBuf b s h) bs s h

/-! ## Block states that follow from programs and reads -/

theorem stateOf_unfreed {s t : State} (h : t.unfreed = s.unfreed) (b : Blk) : t.flash.stateOf b = s.flash.stateOf b := by
  have : t.flash.blocks = s.flash.blocks := congrArg (fun u => u.flash.blocks) h
  simp only [Flash.stateOf, this]

@[simp] theorem sound_blockFull (b : Blk) (s : State) (h : Sound s) : Sound (blockFull b s) := by
  unfold blockFull
  split
  · exact h
  · rename_i r hr
    split
    · exact h
    · rename_i ha
      have ha' : s.flash.stateOf b = some .active := by
        rw [stateOf_block, hr]
        simpa using ha
      extract_lets u v w
      have hv : Sound v := ⟨h.1, h.2.1, flash_ok_full (f := s.flash) h.2.2.1 ha', h.2.2.2⟩
      have hw : Sound w := sound_freeMany _ _ hv
      split
      · refine sound_reclaim b w hw ?_
        rw [stateOf_unfreed (unfreed_foldl _ (fun s n => unfreed_freeBuf n s) _ v)]
        refine (stateOf_set s.flash b b (fun r => { r with st := .full }) .full (fun _ => rfl) (fun _ => rfl)).trans ?_
        simp [ha']
      · exact hw

@[simp] theorem sound_refreshAdd (b : Blk) (s : State) (h : Sound s) : Sound (refreshAdd b s) := by
  unfold refreshAdd
  split
  · exact h
  · split
    · exact sound_blockFull _ _ (sound_modFlash _ _ (fun _ => ⟨rfl, rfl, rfl⟩) h)
    · exact h

/-! ## The end of a store command -/

/-! ## The operations -/

@[simp] theorem sound_flagLine (n : Nat) (f : LineFlags → LineFlags) (s : State) (h : Sound s) :
    Sound (State.flagLine n f s) := by
  simp (maxDischargeDepth := 30) [State.flagLine, h]

@[simp] theorem sound_modCtx (f : RetrCtx → RetrCtx) (s : State) (h : Sound s) : Sound (State.modCtx f s) := by
  simp (maxDischargeDepth := 30) [State.modCtx, h]

@[simp] theorem sound_modMount (f : Mount → Mount) (s : State) (h : Sound s) : Sound (State.modMount f s) := by
  simp (maxDischargeDepth := 30) [State.modMount, h]

--@ pre_attach
@[simp] theorem num_scanTimes (made : Bool) (rs : List Rec) (lo hi : Bool) (l : Line) :
    (l.scanTimes made rs lo hi).num = l.num := by
  unfold Line.scanTimes
  split <;> rfl

@[simp] theorem sound_addEntry (n : Nat) (e : PageEntry) (s : State) (h : Sound s) :
    Sound (s.modLine n fun l => l.addEntry e) := sound_modLine _ _ _ (fun _ => rfl) h

@[simp] theorem sound_setPhase (ph : MountPhase) (s : State) (h : Sound s) : Sound (State.setPhase ph s) := by
  simp (maxDischargeDepth := 30) [State.setPhase, h]

@[simp] theorem sound_setSlot (i : Nat) (x : Option Slot) (s : State) (h : Sound s) : Sound (State.setSlot i x s) := by
  simp (maxDischargeDepth := 30) [State.setSlot, h]

@[simp] theorem sound_requestRead (a : Addr) (p : Purpose) (s : State) (h : Sound s) : Sound (requestRead a p s) := by
  simp (maxDischargeDepth := 30) [requestRead, h]

@[simp] theorem sound_startRootRewrite (n : Nat) (s : State) (h : Sound s) : Sound (startRootRewrite n s) := by
  unfold startRootRewrite
  (repeat' split) <;> simp (maxDischargeDepth := 30) [h]

@[simp] theorem sound_addDone (d : SegDone) (s : State) (h : Sound s) : Sound (addDone d s) := by
  simp (maxDischargeDepth := 30) [addDone, h]

@[simp] theorem sound_addWaiter (w : Option Waiter) (s : State) (h : Sound s) : Sound (addWaiter w s) := by
  unfold addWaiter
  split <;> simp (maxDischargeDepth := 30) [h]

@[simp] theorem sound_count (f : IntakeCounters → IntakeCounters) (s : State) (h : Sound s) :
    Sound (State.count f s) := by
  simp (maxDischargeDepth := 30) [State.count, h]

@[simp] theorem sound_attach (counted : Bool) (made : Bool) (p : ReadPage) (s : State) (h : Sound s) :
    Sound (attach counted made p s) := by
  unfold attach
  extract_lets hd e
  split
  · exact h
  · extract_lets lo hi u
    have hu : Sound u := sound_modLine _ _ _ (fun l => num_scanTimes _ _ _ _ _) h
    repeat' (first | (simp (maxDischargeDepth := 30) [hu]; done) | split)

@[simp] theorem sound_countNew (p : Repl) (s : State) (h : Sound s) : Sound (countNew p s) := by
  unfold countNew
  split <;> simp (maxDischargeDepth := 30) [h]

@[simp] theorem sound_raiseSpace (low : Bool) (s : State) (h : Sound s) : Sound (raiseSpace low s) := by
  simp (maxDischargeDepth := 30) [raiseSpace, h]

@[simp] theorem sound_dropLoc (a : Option Addr) (s : State) (h : Sound s) : Sound (dropLoc a s) := by
  unfold dropLoc
  split <;> simp (maxDischargeDepth := 30) [h]

@[simp] theorem sound_enterPool (p : Repl) (x : PoolEnt) (s : State) (h : Sound s) : Sound (enterPool p x s) := by
  simp (maxDischargeDepth := 30) [enterPool, h]

@[simp] theorem sound_replacePool (p : Repl) (x : PoolEnt) (s : State) (h : Sound s) : Sound (replacePool p x s) := by
  simp (maxDischargeDepth := 30) [replacePool, h]

@[simp] theorem sound_uncountNew (p : Repl) (s : State) (h : Sound s) : Sound (uncountNew p s) := by
  unfold uncountNew
  split <;> simp (maxDischargeDepth := 30) [h]

@[simp] theorem sound_removePending (p : Repl) (s : State) (h : Sound s) : Sound (removePending p s) := by
  simp (maxDischargeDepth := 30) [removePending, h]

@[simp] theorem sound_startSegRewrite (n : Nat) (k : Nat) (r : SegRef) (s : State) (h : Sound s) :
    Sound (startSegRewrite n k r s) := by
  unfold startSegRewrite
  split <;> simp (maxDischargeDepth := 30) [h]

@[simp] theorem sound_assignPending (refs : List SegRef) (p : Repl) (s : State) (h : Sound s) :
    Sound (assignPending refs p s) := by
  unfold assignPending
  split <;> simp (maxDischargeDepth := 30) [h]

@[simp] theorem sound_servePending (p : Repl) (s : State) (h : Sound s) : Sound (servePending p s) := by
  unfold servePending
  (repeat' split) <;> simp (maxDischargeDepth := 30) [h]

@[simp] theorem sound_replaceCopy (p : Repl) (s : State) (h : Sound s) : Sound (replaceCopy p s) := by
  unfold replaceCopy
  (repeat' split) <;> simp (maxDischargeDepth := 30) [h]

@[simp] theorem sound_setLoad (n : Nat) (ld : Load) (s : State) (h : Sound s) : Sound (setLoad n ld s) := by
  simp (maxDischargeDepth := 30) [setLoad, h]

@[simp] theorem sound_requestFlush (n : Nat) (pressure : Bool) (s : State) (h : Sound s) :
    Sound (requestFlush n pressure s) := by
  unfold requestFlush
  split <;> simp (maxDischargeDepth := 30) [h]

@[simp] theorem sound_closeAdvance (n : Nat) (s : State) (h : Sound s) : Sound (closeAdvance n s) := by
  unfold closeAdvance
  split <;> simp (maxDischargeDepth := 30) [h]

@[simp] theorem sound_servePendings (n : Nat) (s : State) (h : Sound s) : Sound (servePendings n s) :=
  sound_foldl _ (fun s p h => sound_servePending p s h) _ s h

@[simp] theorem sound_loadEnd (n : Nat) (s : State) (h : Sound s) : Sound (loadEnd n s) := by
  simp (maxDischargeDepth := 30) [loadEnd, h]

@[simp] theorem sound_loadRootLost (n : Nat) (s : State) (h : Sound s) : Sound (loadRootLost n s) := by
  simp (maxDischargeDepth := 30) [loadRootLost, h]

@[simp] theorem sound_startRootLoad (n : Nat) (s : State) (h : Sound s) : Sound (startRootLoad n s) := by
  unfold startRootLoad
  split <;> simp (maxDischargeDepth := 30) [h]

@[simp] theorem sound_beginLoad (n : Nat) (s : State) (h : Sound s) : Sound (beginLoad n s) := by
  simp (maxDischargeDepth := 30) [beginLoad, h]

/-- A line of a number that the table does not hold is entered where there is room (R94). -/
theorem insertLine_perm (l : Line) (ls : List Line) : (insertLine l ls).Perm (l :: ls) := by
  induction ls with
  | nil => exact List.Perm.refl _
  | cons m ms ih =>
    unfold insertLine
    split
    · exact List.Perm.refl _
    · exact (ih.cons m).trans (List.Perm.swap l m ms)

theorem sound_insertLine (n : Nat) (s : State) (hn : n ∉ s.store.lines.map Line.num)
    (hr : s.store.lines.length < Config.lineTableEntries) (h : Sound s) :
    Sound (s.modStore fun t => { t with lines := insertLine (freshLine n) t.lines }) := by
  have hp := insertLine_perm (freshLine n) s.store.lines
  refine ⟨h.1, h.2.1, h.2.2.1, ?_, ?_⟩
  · exact hp.length_eq.trans_le hr
  · exact ((hp.map Line.num).nodup_iff).2 (List.nodup_cons.2 ⟨hn, h.2.2.2.2⟩)

theorem num_of_line_none {s : State} {n : Nat} (h : s.line n = none) : n ∉ s.store.lines.map Line.num := by
  unfold State.line at h
  rw [List.find?_eq_none] at h
  intro hm
  obtain ⟨l, hl, e⟩ := List.mem_map.1 hm
  exact h l hl (by simpa using e)

@[simp] theorem sound_applyData (snap : Nat) (p : ReadPage) (s : State) (h : Sound s) : Sound (applyData snap p s) := by
  unfold applyData
  extract_lets hd counted
  split
  · rename_i hn
    split
    · rename_i hr
      exact sound_attach _ _ _ _ (sound_modMount _ _ (sound_insertLine _ s (num_of_line_none hn) hr.2 h))
    · exact h
  · repeat' (first | (simp (maxDischargeDepth := 30) [h]; done) | split | dsimp only)

@[simp] theorem sound_raiseLineClosed (n : Nat) (r : CloseReason) (s : State) (h : Sound s) :
    Sound (raiseLineClosed n r s) := by
  simp (maxDischargeDepth := 30) [raiseLineClosed, h]

@[simp] theorem sound_requestClose (n : Nat) (r : CloseReason) (cut : Bool) (s : State) (h : Sound s) :
    Sound (requestClose n r cut s) := by
  unfold requestClose
  (repeat' split) <;> simp (maxDischargeDepth := 30) [h]

@[simp] theorem sound_rootCut (s : State) (h : Sound s) : Sound (rootCut s) := by
  unfold rootCut
  split <;> simp (maxDischargeDepth := 30) [h]

@[simp] theorem sound_flushLine (n : Nat) (pressure : Bool) (s : State) (h : Sound s) :
    Sound (flushLine n pressure s) := by
  unfold flushLine
  split <;> simp (maxDischargeDepth := 30) [h]

@[simp] theorem sound_judgePressure (s : State) (h : Sound s) : Sound (judgePressure s) := by
  unfold judgePressure
  (repeat' split) <;> simp (maxDischargeDepth := 30) [h]

@[simp] theorem sound_withdrawRewrites (hit : SegRewrite → Bool) (s : State) (h : Sound s) :
    Sound (withdrawRewrites hit s) := by
  simp (maxDischargeDepth := 30) [withdrawRewrites, h]

@[simp] theorem sound_withdrawRoots (n : Nat) (s : State) (h : Sound s) : Sound (withdrawRoots n s) :=
  sound_foldl _ (fun s d h => sound_dropLoc d.loc s h) _ _ (sound_modStore _ _ (fun _ => rfl) h)

@[simp] theorem sound_applySegment (snap : Nat) (p : ReadPage) (s : State) (h : Sound s) :
    Sound (applySegment snap p s) := by
  unfold applySegment
  repeat' (first | (simp (maxDischargeDepth := 30) [h]; done) | split | dsimp only)

@[simp] theorem sound_countCopy (snap : Nat) (r : SegRef) (s : State) (h : Sound s) : Sound (countCopy snap s r) := by
  unfold countCopy
  split <;> simp (maxDischargeDepth := 30) [h]

theorem sound_countCopies (snap : Nat) (refs : List SegRef) (s : State) (h : Sound s) :
    Sound (refs.foldl (countCopy snap) s) :=
  sound_foldl _ (fun s r h => sound_countCopy snap r s h) refs s h

@[simp] theorem sound_applyRoot (snap : Nat) (all : List ReadPage) (p : ReadPage) (s : State) (h : Sound s) :
    Sound (applyRoot snap all p s) := by
  unfold applyRoot
  repeat' (first | (simp (maxDischargeDepth := 30) [h, sound_countCopies]; done) | split | dsimp only)

@[simp] theorem sound_applyPage (snap : Nat) (all : List ReadPage) (p : ReadPage) (s : State) (h : Sound s) :
    Sound (applyPage snap all p s) := by
  unfold applyPage
  split <;> simp (maxDischargeDepth := 30) [h]

@[simp] theorem sound_settleBlock (b : Blk) (s : State) (h : Sound s) : Sound (settleBlock b s) := by
  unfold settleBlock
  split
  · exact h
  · rename_i r hr
    split
    · rename_i hf
      refine sound_reclaim b s h ?_
      rw [stateOf_block, hr]
      exact congrArg some hf.1
    · exact sound_blockFull b s h

@[simp] theorem sound_closeBlocks (s : State) (h : Sound s) : Sound (closeBlocks s) :=
  sound_foldl _ (fun s b h => sound_settleBlock b s h) _ _ (sound_modFlash _ _ (fun _ => ⟨rfl, rfl, rfl⟩) h)

@[simp] theorem sound_requestRetr (a : Addr) (p : RetrPurpose) (s : State) (h : Sound s) :
    Sound (requestRetr a p s) := by
  simp (maxDischargeDepth := 30) [requestRetr, h]

@[simp] theorem sound_endRetr (c : RetrCtx) (code : Code) (s : State) (h : Sound s) : Sound (endRetr c code s) := by
  simp (maxDischargeDepth := 30) [endRetr, h]

@[simp] theorem sound_placeMsg (c : RetrCtx) (m : HeldMsg) (s : State) (h : Sound s) : Sound (placeMsg c m s) := by
  unfold placeMsg
  split
  · rename_i hr
    exact sound_modCtx _ _ (sound_enter _ _ s (hr.trans (by decide)) h)
  · simp (maxDischargeDepth := 30) [h]

@[simp] theorem sound_markDamaged (n : Nat) (s : State) (h : Sound s) : Sound (markDamaged n s) := by
  simp (maxDischargeDepth := 30) [markDamaged, h]

@[simp] theorem sound_placeDamaged (c : RetrCtx) (a : Nat) (b : Nat) (s : State) (h : Sound s) :
    Sound (placeDamaged c a b s) := by
  simp (maxDischargeDepth := 30) [placeDamaged, h]

@[simp] theorem sound_dealEntry (c : RetrCtx) (e : PageEntry) (s : State) (h : Sound s) : Sound (dealEntry c e s) := by
  unfold dealEntry
  (repeat' split) <;> simp (maxDischargeDepth := 30) [h]

@[simp] theorem sound_dealPool (c : RetrCtx) (s : State) (h : Sound s) : Sound (dealPool c s) := by
  unfold dealPool
  split <;> simp (maxDischargeDepth := 30) [h]

theorem sound_dealSegment (c : RetrCtx) (es : List PageEntry) (s t : State) (ht : dealSegment c es s = some t)
    (h : Sound s) : Sound t := by
  unfold dealSegment at ht
  split at ht
  · cases ht
  · split at ht
    · split at ht <;> (cases ht; simp (maxDischargeDepth := 30) [h])
    · cases ht; simp (maxDischargeDepth := 30) [h]

@[simp] theorem sound_searchSegs (c : RetrCtx) (k : Nat) (rs : List SegRef) (s : State) (h : Sound s) :
    Sound (searchSegs c k rs s) := by
  induction rs generalizing k s with
  | nil => simp [searchSegs, h]
  | cons r rs ih =>
    unfold searchSegs
    repeat' (first | (simp (maxDischargeDepth := 30) [ih, h]; done) | split | (rename_i h2; refine sound_dealSegment _ _ _ _ h2 ?_) | dsimp only)

@[simp] theorem sound_readHeldRoot (c : RetrCtx) (s : State) (h : Sound s) : Sound (readHeldRoot c s) := by
  unfold readHeldRoot
  split <;> simp (maxDischargeDepth := 30) [h]

@[simp] theorem sound_walkStep (c : RetrCtx) (s : State) (h : Sound s) : Sound (walkStep c s) := by
  simp (maxDischargeDepth := 30) [walkStep, h]

@[simp] theorem sound_walk (n : Nat) (s : State) (h : Sound s) : Sound (walk n s) := by
  induction n generalizing s with
  | zero => exact h
  | succ n ih =>
    unfold walk
    repeat' (first | (simp (maxDischargeDepth := 30) [ih, h]; done) | split | dsimp only | apply ih)

@[simp] theorem sound_endWalk (s : State) (h : Sound s) : Sound (endWalk s) := by
  simp (maxDischargeDepth := 30) [endWalk, h]

@[simp] theorem sound_settlePage (w : Walk) (s : State) (h : Sound s) : Sound (settlePage w s) := by
  simp (maxDischargeDepth := 30) [settlePage, h]

@[simp] theorem sound_retryPage (w : Walk) (s : State) (h : Sound s) : Sound (retryPage w s) := by
  simp (maxDischargeDepth := 30) [retryPage, h]

/-- Uncounting copies leaves staging alone (R98). -/
@[simp] theorem staging_reclaim (b : Blk) (s : State) : (reclaim b s).staging = s.staging := by
  unfold reclaim
  dsimp only
  split
  · rfl
  · exact (judgeSpace_frame _).1

@[simp] theorem staging_refDown (a : Addr) (s : State) : (refDown a s).staging = s.staging := by
  unfold refDown
  repeat' (first | rfl | exact staging_reclaim _ _ | split | dsimp only)

@[simp] theorem staging_uncountNew (p : Repl) (s : State) : (uncountNew p s).staging = s.staging := by
  unfold uncountNew
  repeat' (first | rfl | (simp; done) | split)

theorem staging_uncountAll (ps : List Repl) (s : State) : (ps.foldl (fun s p => uncountNew p s) s).staging = s.staging := by
  induction ps generalizing s with
  | nil => rfl
  | cons p ps ih => exact (ih _).trans (by simp)

theorem sound_uncountAll (ps : List Repl) (s : State) (h : Sound s) : Sound (ps.foldl (fun s p => uncountNew p s) s) :=
  sound_foldl _ (fun s p h => sound_uncountNew p s h) ps s h

theorem isFree_congr {s t : State} {b : Nat} (ht : t.staging = s.staging) (h : s.isFree b) : t.isFree b := by
  unfold State.isFree State.buf at *
  rwa [ht]

theorem sound_relocSegment (b : Nat) (a : Addr) (hd : PageHdr) (d : List Byte) (s : State) (hb : s.isFree b)
    (h : Sound s) : Sound (relocSegment b a hd d s) := by
  unfold relocSegment
  dsimp only
  split
  · exact sound_putImage _ _ _ hb h
  · exact sound_putImage _ _ _ (isFree_congr (staging_uncountAll _ _) hb)
      (sound_uncountAll _ _ (sound_modStore _ _ (fun _ => rfl) h))

@[simp] theorem sound_relocLive (w : Walk) (hd : PageHdr) (d : List Byte) (s : State) (h : Sound s) :
    Sound (relocLive w hd d s) := by
  unfold relocLive
  split
  · simp (maxDischargeDepth := 30) [h]
  · simp (maxDischargeDepth := 30) [h]
  · simp (maxDischargeDepth := 30) [h]
  · split
    · simp (maxDischargeDepth := 30) [h]
    · rename_i b hb
      have hb := isFree_of_freeBuffer hb
      split
      · simp (maxDischargeDepth := 30) [h]
      · split
        · exact sound_settlePage _ _ (sound_relocSegment _ _ _ _ _ hb h)
        · exact sound_settlePage _ _ (sound_putImage _ _ _ hb h)

@[simp] theorem sound_continueJudging (w : Walk) (hd : PageHdr) (d : List Byte) (s : State) (h : Sound s) :
    Sound (continueJudging w hd d s) := by
  unfold continueJudging
  dsimp only
  split <;> simp (maxDischargeDepth := 30) [h]

@[simp] theorem sound_loadLast (n : Nat) (s : State) (h : Sound s) : Sound (loadLast n s) := by
  unfold loadLast
  (repeat' split) <;> simp (maxDischargeDepth := 30) [h]

@[simp] theorem sound_cutLine (bad : Bool) (n : Nat) (s : State) (h : Sound s) : Sound (cutLine bad n s) := by
  unfold cutLine
  repeat' (first | (simp (maxDischargeDepth := 30) [h]; done) | split | dsimp only)

@[simp] theorem sound_dataDone (c : RetrCtx) (e : PageEntry) (r : ReadResult) (s : State) (h : Sound s) :
    Sound (dataDone c e r s) := by
  unfold dataDone
  split <;> simp (maxDischargeDepth := 30) [h]

@[simp] theorem sound_judgeRefresh (a : Addr) (r : ReadResult) (s : State) (h : Sound s) :
    Sound (judgeRefresh a r s) := by
  unfold judgeRefresh
  split <;> simp (maxDischargeDepth := 30) [h]

@[simp] theorem sound_raiseMedia (b : Blk) (e : MediaEvent) (s : State) (h : Sound s) : Sound (raiseMedia b e s) := by
  simp (maxDischargeDepth := 30) [raiseMedia, h]

@[simp] theorem sound_noteRead (a : Addr) (r : ReadResult) (s : State) (h : Sound s) : Sound (noteRead a r s) := by
  simp (maxDischargeDepth := 30) [noteRead, h]

@[simp] theorem sound_runWalk (s : State) (h : Sound s) : Sound (runWalk s) := by
  unfold runWalk
  split <;> simp (maxDischargeDepth := 30) [h]

@[simp] theorem sound_rootDone (c : RetrCtx) (r : ReadResult) (s : State) (h : Sound s) : Sound (rootDone c r s) := by
  unfold rootDone
  split <;> simp (maxDischargeDepth := 30) [h]

@[simp] theorem sound_segmentDone (c : RetrCtx) (k : Nat) (ref : SegRef) (stale : Bool) (a : Addr) (r : ReadResult)
    (s : State) (h : Sound s) : Sound (segmentDone c k ref stale a r s) := by
  unfold segmentDone
  split
  · simp (maxDischargeDepth := 30) [h]
  · dsimp only
    split
    · rename_i h2
      refine sound_dealSegment _ _ _ _ h2 ?_
      split <;> simp (maxDischargeDepth := 30) [h]
    · repeat' (first | (simp (maxDischargeDepth := 30) [h]; done) | split)

@[simp] theorem sound_retrReadDone (a : Addr) (r : ReadResult) (s : State) (h : Sound s) :
    Sound (retrReadDone a r s) := by
  unfold retrReadDone
  repeat' (first | (simp (maxDischargeDepth := 30) [h]; done) | split | dsimp only)

@[simp] theorem sound_loseEntry (n : Nat) (e : PageEntry) (s : State) (h : Sound s) : Sound (loseEntry n e s) := by
  simp (maxDischargeDepth := 30) [loseEntry, h]

@[simp] theorem sound_loseSegment (n : Nat) (k : Nat) (wseq : Nat) (s : State) (h : Sound s) :
    Sound (loseSegment n k wseq s) := by
  unfold loseSegment
  (repeat' split) <;> simp (maxDischargeDepth := 30) [h]

@[simp] theorem sound_loadCheck (n : Nat) (s : State) (h : Sound s) : Sound (loadCheck n s) := by
  unfold loadCheck
  split <;> simp (maxDischargeDepth := 30) [h]

@[simp] theorem sound_loseRoot (n : Nat) (s : State) (h : Sound s) : Sound (loseRoot n s) := by
  unfold loseRoot
  split <;> simp (maxDischargeDepth := 30) [h]

@[simp] theorem sound_searchLines (w : Walk) (ns : List Nat) (s : State) (h : Sound s) : Sound (searchLines w ns s) := by
  induction ns with
  | nil => simp [searchLines, h]
  | cons n ns ih =>
    unfold searchLines
    repeat' (first | (simp (maxDischargeDepth := 30) [ih, h]; done) | split)

@[simp] theorem sound_lostPage (w : Walk) (s : State) (h : Sound s) : Sound (lostPage w s) := by
  unfold lostPage
  repeat' (first | (simp (maxDischargeDepth := 30) [h]; done) | split | dsimp only)

@[simp] theorem sound_walkRead (a : Addr) (r : ReadResult) (s : State) (h : Sound s) : Sound (walkRead a r s) := by
  unfold walkRead
  repeat' (first | (simp (maxDischargeDepth := 30) [h]; done) | split)

@[simp] theorem sound_judgeRootRead (a : Addr) (r : ReadResult) (s : State) (h : Sound s) :
    Sound (judgeRootRead a r s) := by
  unfold judgeRootRead
  (repeat' split) <;> simp (maxDischargeDepth := 30) [h]

@[simp] theorem sound_judgeSegmentRead (a : Addr) (r : ReadResult) (s : State) (h : Sound s) :
    Sound (judgeSegmentRead a r s) := by
  unfold judgeSegmentRead
  (repeat' split) <;> simp (maxDischargeDepth := 30) [h]

@[simp] theorem sound_searchSegments (w : Walk) (ns : List Nat) (n k : Nat) (rs : List SegRef) (s : State) (h : Sound s) :
    Sound (searchSegments w ns n k rs s) := by
  induction rs generalizing k with
  | nil => simp [searchSegments, h]
  | cons r rs ih =>
    unfold searchSegments
    repeat' (first | (simp (maxDischargeDepth := 30) [ih, h]; done) | split)

@[simp] theorem sound_searchRootRead (a : Addr) (r : ReadResult) (s : State) (h : Sound s) :
    Sound (searchRootRead a r s) := by
  unfold searchRootRead
  (repeat' split) <;> simp (maxDischargeDepth := 30) [h]

@[simp] theorem sound_searchSegmentRead (r : ReadResult) (s : State) (h : Sound s) : Sound (searchSegmentRead r s) := by
  unfold searchSegmentRead
  (repeat' split) <;> simp (maxDischargeDepth := 30) [h]

@[simp] theorem sound_locateRead (n : Nat) (a : Addr) (r : ReadResult) (s : State) (h : Sound s) :
    Sound (locateRead n a r s) := by
  unfold locateRead
  repeat' (first | (simp (maxDischargeDepth := 30) [h]; done) | split)
  exact sound_loadCheck _ _ (sound_foldl _ (fun s p h => sound_assignPending _ p s h) _ s h)

@[simp] theorem sound_rewriteLost (w : SegRewrite) (s : State) (h : Sound s) : Sound (rewriteLost w s) := by
  simp (maxDischargeDepth := 30) [rewriteLost, h]

@[simp] theorem sound_segmentRead (w : SegRewrite) (es : List PageEntry) (s : State) (h : Sound s) :
    Sound (segmentRead w es s) := by
  unfold segmentRead
  dsimp only
  split
  · exact sound_loadCheck _ _ (sound_closeAdvance _ _ (sound_modStore _ _ (fun _ => rfl)
      (sound_uncountAll _ _ (sound_modStore _ _ (fun _ => rfl) h))))
  · simp (maxDischargeDepth := 30) [h]

@[simp] theorem sound_rewriteSegmentRead (n : Nat) (k : Nat) (a : Addr) (r : ReadResult) (s : State) (h : Sound s) :
    Sound (rewriteSegmentRead n k a r s) := by
  unfold rewriteSegmentRead
  repeat' (first | (simp (maxDischargeDepth := 30) [h]; done) | split | dsimp only)

@[simp] theorem sound_returnRepls (ps : List Repl) (s : State) (h : Sound s) : Sound (returnRepls ps s) := by
  simp (maxDischargeDepth := 30) [returnRepls, h]

@[simp] theorem sound_rewriteRootRead (n : Nat) (a : Addr) (r : ReadResult) (s : State) (h : Sound s) :
    Sound (rewriteRootRead n a r s) := by
  have hv : ∀ (c : Carried) (t : State), Sound t → Sound (c.void.foldl (fun s d => dropLoc d.loc s) t) := fun c t ht =>
    sound_foldl _ (fun s d h => sound_dropLoc d.loc s h) _ t ht
  unfold rewriteRootRead
  repeat' (first | (simp (maxDischargeDepth := 30) [h, hv]; done) | split | dsimp only)

@[simp] theorem sound_settleDone (n : Nat) (s : State) (h : Sound s) : Sound (settleDone n s) := by
  refine sound_foldl _ (fun s d h => ?_) _ _ (sound_modStore _ _ (fun _ => rfl) h)
  dsimp only
  split <;> simp (maxDischargeDepth := 30) [h]

@[simp] theorem sound_rootLoaded (n : Nat) (refs : List SegRef) (s : State) (h : Sound s) :
    Sound (rootLoaded n refs s) := by
  simp (maxDischargeDepth := 30) [rootLoaded, h]

@[simp] theorem sound_loadRootRead (n : Nat) (a : Addr) (r : ReadResult) (s : State) (h : Sound s) :
    Sound (loadRootRead n a r s) := by
  unfold loadRootRead
  (repeat' split) <;> simp (maxDischargeDepth := 30) [h]

@[simp] theorem sound_placeSegment (n : Nat) (es : List PageEntry) (s : State) (h : Sound s) :
    Sound (placeSegment n es s) := by
  simp (maxDischargeDepth := 30) [placeSegment, h]

@[simp] theorem sound_segmentLoaded (n : Nat) (es : Option (List PageEntry)) (s : State) (h : Sound s) :
    Sound (segmentLoaded n es s) := by
  unfold segmentLoaded
  split <;> simp (maxDischargeDepth := 30) [h]

@[simp] theorem sound_loadSegmentRead (n : Nat) (a : Addr) (r : ReadResult) (s : State) (h : Sound s) :
    Sound (loadSegmentRead n a r s) := by
  unfold loadSegmentRead
  (repeat' split) <;> simp (maxDischargeDepth := 30) [h]

theorem sound_flushStep (acc : List Nat × List Nat × State) (n : Nat) (h : Sound acc.2.2) : Sound (flushStep acc n).2.2 := by
  unfold flushStep
  repeat' (first | (simp (maxDischargeDepth := 30) [h]; done) | split | dsimp only)

theorem sound_flushSteps (ns : List Nat) (acc : List Nat × List Nat × State) (h : Sound acc.2.2) :
    Sound (ns.foldl flushStep acc).2.2 := by
  induction ns generalizing acc with
  | nil => exact h
  | cons n ns ih => exact ih _ (sound_flushStep acc n h)

@[simp] theorem sound_runFlushes (ns wait : List Nat) (s : State) (h : Sound s) : Sound (runFlushes ns wait s) :=
  sound_modStore _ _ (fun _ => rfl) (sound_flushSteps ns ([], wait, s) h)

@[simp] theorem sound_startCheckpoint (s : State) (h : Sound s) : Sound (startCheckpoint s) := by
  simp (maxDischargeDepth := 30) [startCheckpoint, h]

@[simp] theorem sound_requestCheckpoint (w : Option Waiter) (s : State) (h : Sound s) :
    Sound (requestCheckpoint w s) := by
  unfold requestCheckpoint
  repeat' (first | (simp (maxDischargeDepth := 30) [h]; done) | split | dsimp only)

@[simp] theorem sound_eraseAdvance (n : Nat) (s : State) (h : Sound s) : Sound (eraseAdvance n s) := by
  induction n generalizing s with
  | zero => exact h
  | succ n ih =>
    unfold eraseAdvance
    repeat' (first | (simp (maxDischargeDepth := 30) [ih, h]; done) | split)

@[simp] theorem sound_runErase (s : State) (h : Sound s) : Sound (runErase s) := by
  unfold runErase
  split <;> simp (maxDischargeDepth := 30) [h]

@[simp] theorem sound_eraseRootRead (r : ReadResult) (s : State) (h : Sound s) : Sound (eraseRootRead r s) := by
  unfold eraseRootRead
  repeat' (first | (simp (maxDischargeDepth := 30) [h]; done) | split | dsimp only)

@[simp] theorem sound_eraseSegmentRead (a : Addr) (r : ReadResult) (s : State) (h : Sound s) :
    Sound (eraseSegmentRead a r s) := by
  unfold eraseSegmentRead
  repeat' (first | (simp (maxDischargeDepth := 30) [h]; done) | split | dsimp only)

@[simp] theorem sound_mountRootRead (n : Nat) (news : List (SegRef × List PageEntry)) (a : Addr) (r : ReadResult)
    (s : State) (h : Sound s) : Sound (mountRootRead n news a r s) := by
  unfold mountRootRead
  refine sound_refDown _ _ ?_
  split
  · exact h
  · refine sound_foldl _ (fun s k h => ?_) _ _ h
    repeat' (first | (simp (maxDischargeDepth := 30) [h]; done) | split)

@[simp] theorem sound_mountSegmentRead (n : Nat) (k : Nat) (es : List PageEntry) (pool : Bool) (a : Addr) (r : ReadResult) (s : State) (h : Sound s) :
    Sound (mountSegmentRead n k es pool a r s) := by
  simp (maxDischargeDepth := 30) [mountSegmentRead, h]

@[simp] theorem sound_indexReadDone (q : ReadReq) (r : ReadResult) (s : State) (h : Sound s) :
    Sound (indexReadDone q r s) := by
  unfold indexReadDone
  split <;> simp (maxDischargeDepth := 30) [h]

@[simp] theorem sound_drainDead (n : Nat) (s : State) (h : Sound s) : Sound (drainDead n s) := by
  induction n generalizing s with
  | zero => exact h
  | succ n ih =>
    unfold drainDead
    repeat' (first | (simp (maxDischargeDepth := 30) [ih, h]; done) | split)

@[simp] theorem sound_removeWaiting (c : StoreCmd) (s : State) (h : Sound s) : Sound (removeWaiting c s) := by
  unfold removeWaiting
  split
  · rename_i hr
    simp only [Bool.and_eq_true, decide_eq_true_eq] at hr
    exact sound_enter _ _ s hr.2 h
  · simp (maxDischargeDepth := 30) [h]

@[simp] theorem sound_stopRetr (q : StopReq) (s : State) (h : Sound s) : Sound (stopRetr q s) := by
  unfold stopRetr
  split <;> simp (maxDischargeDepth := 30) [h]

@[simp] theorem sound_forgetCommand (s : State) (h : Sound s) : Sound (forgetCommand s) := by
  simp (maxDischargeDepth := 30) [forgetCommand, h]

@[simp] theorem sound_stopRunning (code : Code) (q : StopReq) (s : State) (h : Sound s) :
    Sound (stopRunning code q s) := by
  unfold stopRunning
  split <;> simp (maxDischargeDepth := 30) [h]

@[simp] theorem sound_enterLowHalt (s : State) (h : Sound s) : Sound (enterLowHalt s) := by
  unfold enterLowHalt
  refine sound_updateWait _ (sound_stopRunning _ _ _ (sound_foldl _ (fun s c h => sound_removeWaiting c s h) _ _ ?_))
  exact sound_modLink (fun l => { l with waiting := [] }) _ (fun l => ⟨le_rfl, Nat.zero_le _⟩) (sound_modPower _ _ h)

@[simp] theorem sound_lowHaltCheck (s : State) (h : Sound s) : Sound (lowHaltCheck s) := by
  simp (maxDischargeDepth := 30) [lowHaltCheck, h]

@[simp] theorem sound_endStuckPause (s : State) (h : Sound s) : Sound (endStuckPause s) := by
  unfold endStuckPause
  (repeat' split) <;> simp (maxDischargeDepth := 30) [h]

@[simp] theorem sound_judgePause (s : State) (h : Sound s) : Sound (judgePause s) := by
  unfold judgePause
  (repeat' split) <;> simp (maxDischargeDepth := 30) [h]

@[simp] theorem sound_mountClose (s : State) (h : Sound s) : Sound (mountClose s) := by
  unfold mountClose
  split <;> simp (maxDischargeDepth := 30) [h]

@[simp] theorem sound_finishScan (m : Mount) (s : State) (h : Sound s) : Sound (finishScan m s) :=
  sound_closeBlocks _ (sound_foldl _ (fun s n h => sound_cutLine m.badPage n s h) _ _ (sound_setPhase _ _ h))

theorem sound_applyPages (snap : Nat) (all ps : List ReadPage) (s : State) (h : Sound s) :
    Sound (applyPages snap all ps s).2 := by
  induction ps generalizing s with
  | nil => exact h
  | cons p ps ih =>
    unfold applyPages
    split
    · exact h
    · exact ih _ (sound_applyPage _ _ _ _ h)

@[simp] theorem sound_mountApply (m : Mount) (s : State) (h : Sound s) : Sound (mountApply m s) := by
  unfold mountApply
  split
  · have := fun todo => sound_applyPages m.snapSeq m.pages todo s h
    dsimp only
    split <;> simp [this]
  all_goals exact h

@[simp] theorem sound_mountPump (s : State) (h : Sound s) : Sound (mountPump s) := by
  unfold mountPump
  split <;> simp (maxDischargeDepth := 30) [h]

@[simp] theorem sound_startWalk (s : State) (h : Sound s) : Sound (startWalk s) := by
  unfold startWalk
  repeat' (first | (simp (maxDischargeDepth := 30) [h]; done) | split | dsimp only)

@[simp] theorem sound_finish (s : State) (h : Sound s) : Sound (finish s) := by
  simp (maxDischargeDepth := 30) [finish, h]

@[simp] theorem sound_modSlot (i : Nat) (f : Slot → Slot) (s : State) (h : Sound s) : Sound (State.modSlot i f s) := by
  simp (maxDischargeDepth := 30) [State.modSlot, h]

@[simp] theorem sound_modWalk (f : Walk → Walk) (s : State) (h : Sound s) : Sound (State.modWalk f s) := by
  simp (maxDischargeDepth := 30) [State.modWalk, h]

@[simp] theorem sound_raiseMounted (s : State) (h : Sound s) : Sound (raiseMounted s) := by
  simp (maxDischargeDepth := 30) [raiseMounted, h]

@[simp] theorem sound_closePause (s : State) (h : Sound s) : Sound (closePause s) := by
  unfold closePause
  split <;> simp (maxDischargeDepth := 30) [h]

@[simp] theorem sound_dropCheckpointImages (s : State) (h : Sound s) : Sound (dropCheckpointImages s) := by
  simp (maxDischargeDepth := 30) [dropCheckpointImages, h]

@[simp] theorem sound_dropCheckpoint (s : State) (h : Sound s) : Sound (dropCheckpoint s) := by
  simp (maxDischargeDepth := 30) [dropCheckpoint, h]

@[simp] theorem sound_raiseRefused (r : RefuseReason) (n : Nat) (s : State) (h : Sound s) :
    Sound (raiseRefused r n s) := by
  simp (maxDischargeDepth := 30) [raiseRefused, h]

@[simp] theorem sound_packInto (b : Nat) (n : Nat) (r : Rec) (s : State) (h : Sound s) : Sound (packInto b n r s) := by
  unfold packInto
  exact sound_modLine _ _ _ (fun _ => rfl) (sound_modBuf _ _ _ (fun _ => rfl) h)

@[simp] theorem sound_freeASlot (s : State) (h : Sound s) : Sound (freeASlot s) := by
  unfold freeASlot
  (repeat' split) <;> simp (maxDischargeDepth := 30) [h]

@[simp] theorem sound_degradeOpened (n : Nat) (s : State) (h : Sound s) : Sound (degradeOpened n s) := by
  simp (maxDischargeDepth := 30) [degradeOpened, h]

@[simp] theorem sound_setFilter (i : Nat) (st : FilterState) (s : State) (h : Sound s) : Sound (setFilter i st s) := by
  simp (maxDischargeDepth := 30) [setFilter, h]

@[simp] theorem sound_raiseCareful (old : Bool) (s : State) (h : Sound s) : Sound (raiseCareful old s) := by
  simp (maxDischargeDepth := 30) [raiseCareful, h]

@[simp] theorem sound_startRetr (body : List Byte) (s : State) (h : Sound s) : Sound (startRetr body s) := by
  unfold startRetr
  repeat' (first | (simp (maxDischargeDepth := 30) [h]; done) | split | dsimp only)

@[simp] theorem sound_lineClose (n : Nat) (s : State) (h : Sound s) : Sound (lineClose n s) := by
  unfold lineClose
  split <;> simp (maxDischargeDepth := 30) [h]

@[simp] theorem sound_lockChange (n : Nat) (st : LineState) (s : State) (h : Sound s) : Sound (lockChange n st s) := by
  simp (maxDischargeDepth := 30) [lockChange, h]

@[simp] theorem sound_lineLock (n : Nat) (s : State) (h : Sound s) : Sound (lineLock n s) := by
  unfold lineLock
  (repeat' split) <;> simp (maxDischargeDepth := 30) [h]

@[simp] theorem sound_lineUnlock (n : Nat) (s : State) (h : Sound s) : Sound (lineUnlock n s) := by
  unfold lineUnlock
  (repeat' split) <;> simp (maxDischargeDepth := 30) [h]

@[simp] theorem sound_invalidateLine (n : Nat) (s : State) (h : Sound s) : Sound (invalidateLine n s) := by
  simp (maxDischargeDepth := 30) [invalidateLine, h]

@[simp] theorem sound_removeLines (lo : Nat) (hi : Nat) (s : State) (h : Sound s) : Sound (removeLines lo hi s) := by
  unfold removeLines
  have hd : ∀ x, (deadFlush lo hi x).st = x.st := fun x => by
    unfold deadFlush
    repeat' (first | rfl | split)
  refine sound_foldl _ (fun s l h => sound_invalidateLine _ s h) _ _ (sound_modStaging _ _ (fun t => ⟨?_, rfl⟩) ?_)
  · rw [List.map_map]
    exact List.map_congr_left fun x _ => by cases x <;> simp [hd]
  refine ⟨h.1, h.2.1, h.2.2.1, (List.length_filter_le _ _).trans h.2.2.2.1, ?_⟩
  exact h.2.2.2.2.sublist ((List.filter_sublist (l := s.store.lines)).map _)

@[simp] theorem sound_lineErase (lo : Nat) (hi : Nat) (s : State) (h : Sound s) : Sound (lineErase lo hi s) := by
  simp (maxDischargeDepth := 30) [lineErase, h]

@[simp] theorem sound_saveSettings (s : State) (h : Sound s) : Sound (saveSettings s) := by
  simp (maxDischargeDepth := 30) [saveSettings, h]

@[simp] theorem sound_discardImages (s : State) (h : Sound s) : Sound (discardImages s) := by
  simp (maxDischargeDepth := 30) [discardImages, h]

@[simp] theorem sound_startFormat (s : State) (h : Sound s) : Sound (startFormat s) := by
  simp (maxDischargeDepth := 30) [startFormat, h]

@[simp] theorem sound_startPause (s : State) (h : Sound s) : Sound (startPause s) := by
  simp (maxDischargeDepth := 30) [startPause, h]

@[simp] theorem sound_raiseBattery (s : State) (h : Sound s) : Sound (raiseBattery s) := by
  simp (maxDischargeDepth := 30) [raiseBattery, h]

@[simp] theorem sound_freeSettings (s : State) (h : Sound s) : Sound (freeSettings s) := by
  simp (maxDischargeDepth := 30) [freeSettings, h]

@[simp] theorem sound_dropSettings (s : State) (h : Sound s) : Sound (dropSettings s) := by
  simp (maxDischargeDepth := 30) [dropSettings, h]

@[simp] theorem sound_loseSettings (s : State) (h : Sound s) : Sound (loseSettings s) := by
  simp (maxDischargeDepth := 30) [loseSettings, h]

@[simp] theorem sound_raiseSettled (st : MotionState) (t : Option SettleType) (s : State) (h : Sound s) :
    Sound (raiseSettled st t s) := by
  simp (maxDischargeDepth := 30) [raiseSettled, h]

@[simp] theorem sound_resetFilters (s : State) (h : Sound s) : Sound (resetFilters s) := by
  simp (maxDischargeDepth := 30) [resetFilters, h]

@[simp] theorem sound_cancelWaiting (c : StoreCmd) (s : State) (h : Sound s) : Sound (cancelWaiting c s) := by
  unfold cancelWaiting
  split
  · rename_i hr
    refine sound_enter _ _ _ hr (sound_modLink (fun l => { l with waiting := l.waiting.filter _ }) s
      (fun l => ⟨le_rfl, List.length_filter_le _ _⟩) h)
  · refine sound_modLink _ s (fun l => ⟨le_rfl, ?_⟩) h
    simp [mapIf]

@[simp] theorem sound_releaseDie (d : Nat) (s : State) (h : Sound s) : Sound (releaseDie s d) := by
  unfold releaseDie
  split <;> simp (maxDischargeDepth := 30) [h]

@[simp] theorem sound_countErase (b : Blk) (s : State) (h : Sound s) : Sound (countErase b s) := by
  simp (maxDischargeDepth := 30) [countErase, h]

@[simp] theorem sound_drawLower (a : Addr) (s : State) (h : Sound s) : Sound (drawLower a s) := by
  unfold drawLower
  (repeat' split) <;> simp (maxDischargeDepth := 30) [h]

@[simp] theorem sound_dropHeldBuffers (s : State) (h : Sound s) : Sound (dropHeldBuffers s) := by
  simp (maxDischargeDepth := 30) [dropHeldBuffers, h]

@[simp] theorem sound_endScan (s : State) (h : Sound s) : Sound (endScan s) := by
  unfold endScan
  split <;> simp (maxDischargeDepth := 30) [h]

@[simp] theorem sound_settingsErased (pass : Bool) (s : State) (h : Sound s) : Sound (settingsErased pass s) := by
  simp (maxDischargeDepth := 30) [settingsErased, h]

@[simp] theorem sound_placeFinal (s : State) (h : Sound s) : Sound (placeFinal s) := by
  unfold placeFinal
  split
  · exact h
  · rename_i hr
    have hr := Nat.lt_of_not_le hr
    split
    · exact sound_enter _ _ _ hr (sound_modLink (fun l => { l with removed := _ }) s (fun l => ⟨le_rfl, le_rfl⟩) h)
    · split
      · exact h
      · split
        · exact h
        · exact sound_finish _ (sound_finalPlaced _ _ _ (sound_enter _ _ s hr h))

@[simp] theorem sound_heldEnters (s : State) (h : Sound s) : Sound (heldEnters s) := by
  unfold heldEnters
  (repeat' split) <;> simp (maxDischargeDepth := 30) [h]

@[simp] theorem sound_flushHanded (n : Nat) (s : State) (h : Sound s) : Sound (flushHanded n s) := by
  unfold flushHanded
  split <;> simp (maxDischargeDepth := 30) [h]

@[simp] theorem sound_newEntry (hd : PageHdr) (a : Addr) (s : State) (h : Sound s) : Sound (newEntry hd a s) := by
  simp (maxDischargeDepth := 30) [newEntry, h]

@[simp] theorem sound_handData (hd : PageHdr) (a : Addr) (copy : Option Nat) (s : State) (h : Sound s) :
    Sound (handData hd a copy s) := by
  unfold handData
  repeat' (first | (simp (maxDischargeDepth := 30) [h]; done) | split)

@[simp] theorem sound_invalidateSeg (n : Nat) (k : Nat) (s : State) (h : Sound s) : Sound (invalidateSeg n k s) := by
  simp (maxDischargeDepth := 30) [invalidateSeg, h]

@[simp] theorem sound_restartRewrite (n : Nat) (k : Nat) (r : SegRef) (s : State) (h : Sound s) :
    Sound (restartRewrite n k r s) := by
  simp (maxDischargeDepth := 30) [restartRewrite, h]

@[simp] theorem sound_startPoolRewrite (n k : Nat) (r : SegRef) (es : List PageEntry) (news : List Addr) (f : Option FlushOut)
    (s : State) (h : Sound s) : Sound (startPoolRewrite n k r es news f s) := by
  simp (maxDischargeDepth := 30) [startPoolRewrite, h]

@[simp] theorem sound_endSegRewrite (w : SegRewrite) (ref : SegRef) (s : State) (h : Sound s) :
    Sound (endSegRewrite w ref s) := by
  simp (maxDischargeDepth := 30) [endSegRewrite, h]

@[simp] theorem sound_rewriteAgain (w : SegRewrite) (ref : SegRef) (s : State) (h : Sound s) :
    Sound (rewriteAgain w ref s) := by
  simp (maxDischargeDepth := 30) [rewriteAgain, h]

@[simp] theorem sound_withCopy (n k : Nat) (a : Addr) (q : Nat) (news drops : List Addr) (s : State) (h : Sound s) :
    Sound (s.modLine n (Line.withCopy k a q news drops)) := sound_modLine _ _ _ (fun _ => rfl) h

@[simp] theorem sound_handRewrite (l : Line) (w : SegRewrite) (x : Buf) (a : Addr) (s : State) (h : Sound s) :
    Sound (handRewrite l w x a s) := by
  unfold handRewrite
  repeat' (first | (simp (maxDischargeDepth := 30) [h]; done) | split | dsimp only)

@[simp] theorem sound_handSegRewrite (n : Nat) (k : Nat) (old : Nat) (x : Buf) (a : Addr) (s : State) (h : Sound s) :
    Sound (handSegRewrite n k old x a s) := by
  unfold handSegRewrite
  split <;> simp (maxDischargeDepth := 30) [h]

@[simp] theorem sound_handFlush (n : Nat) (seg : Nat) (x : Buf) (a : Addr) (s : State) (h : Sound s) :
    Sound (handFlush n seg x a s) := by
  unfold handFlush
  (repeat' split) <;> simp (maxDischargeDepth := 30) [h]

@[simp] theorem sound_handSegCopy (n : Nat) (k : Nat) (old : Nat) (news drops : List Addr) (ps : List Repl) (x : Buf) (a : Addr) (s : State) (h : Sound s) :
    Sound (handSegCopy n k old news drops ps x a s) := by
  unfold handSegCopy
  (repeat' split) <;> simp (maxDischargeDepth := 30) [h]

@[simp] theorem sound_handSegReloc (n : Nat) (k : Nat) (old : Nat) (x : Buf) (a : Addr) (s : State) (h : Sound s) :
    Sound (handSegReloc n k old x a s) := by
  unfold handSegReloc
  split <;> simp (maxDischargeDepth := 30) [h]

@[simp] theorem sound_rewriteFromPool (n : Nat) (l : Line) (s : State) (h : Sound s) :
    Sound (rewriteFromPool n l s) := by
  unfold rewriteFromPool
  repeat' (first | (simp (maxDischargeDepth := 30) [h]; done) | split | dsimp only)

@[simp] theorem sound_handCloseRoot (n : Nat) (x : Buf) (a : Addr) (s : State) (h : Sound s) :
    Sound (handCloseRoot n x a s) := by
  unfold handCloseRoot
  split <;> simp (maxDischargeDepth := 30) [h]

@[simp] theorem sound_handRootRewrite (n : Nat) (old : Nat) (x : Buf) (a : Addr) (s : State) (h : Sound s) :
    Sound (handRootRewrite n old x a s) := by
  unfold handRootRewrite
  split
  · refine sound_loadCheck _ _ (sound_startRootRewrite _ _ (sound_foldl _ (fun s d h => ?_) _ _ ?_))
    · simp (maxDischargeDepth := 30) [h]
    · simp (maxDischargeDepth := 30) [h]
  · exact h

@[simp] theorem sound_handRootCopy (n : Nat) (old : Nat) (x : Buf) (a : Addr) (s : State) (h : Sound s) :
    Sound (handRootCopy n old x a s) := by
  unfold handRootCopy
  split <;> simp (maxDischargeDepth := 30) [h]

@[simp] theorem sound_handLinePage (x : Buf) (a : Addr) (first : Bool) (s : State) (h : Sound s) :
    Sound (handLinePage x a first s) := by
  unfold handLinePage
  extract_lets hd copy u v
  have hu : Sound u := by
    simp only [u]
    repeat' (first | (simp (maxDischargeDepth := 30) [h]; done) | split)
  have hv : Sound v := by
    simp only [v]
    split <;> simp [hu]
  simp [hv]

@[simp] theorem sound_refreshHead (b : Blk) (s : State) (h : Sound s) : Sound (refreshHead b s) := by
  simp (maxDischargeDepth := 30) [refreshHead, h]

@[simp] theorem sound_retryWalk (s : State) (h : Sound s) : Sound (retryWalk s) := by
  unfold retryWalk
  (repeat' split) <;> simp (maxDischargeDepth := 30) [h]

@[simp] theorem sound_poolLoad (n : Nat) (s : State) (h : Sound s) : Sound (poolLoad n s) := by
  unfold poolLoad
  split <;> simp (maxDischargeDepth := 30) [h]

@[simp] theorem sound_pauseQuiet (s : State) (h : Sound s) : Sound (pauseQuiet s) := by
  unfold pauseQuiet
  (repeat' split) <;> simp (maxDischargeDepth := 30) [h]

@[simp] theorem sound_noteSeq (p : Option ReadPage) (s : State) (h : Sound s) : Sound (noteSeq p s) := by
  unfold noteSeq
  split <;> simp (maxDischargeDepth := 30) [h]

@[simp] theorem sound_keepPage (p : ReadPage) (s : State) (h : Sound s) : Sound (keepPage p s) := by
  simp (maxDischargeDepth := 30) [keepPage, h]

@[simp] theorem sound_scanPage (a : Addr) (r : ReadResult) (s : State) (h : Sound s) : Sound (scanPage a r s) := by
  unfold scanPage
  split <;> simp (maxDischargeDepth := 30) [h]

@[simp] theorem sound_setAcq (p : AcqParser) (s : State) (h : Sound s) : Sound (State.setAcq p s) := by
  simp (maxDischargeDepth := 30) [State.setAcq, h]

@[simp] theorem sound_setCtl (p : CtlParser) (s : State) (h : Sound s) : Sound (State.setCtl p s) := by
  simp (maxDischargeDepth := 30) [State.setCtl, h]

@[simp] theorem sound_endOrderly (abandoned : Bool) (s : State) (h : Sound s) : Sound (endOrderly abandoned s) := by
  unfold endOrderly
  (repeat' split) <;> simp (maxDischargeDepth := 30) [h]

@[simp] theorem sound_endMount (st : StoreState) (s : State) (h : Sound s) : Sound (endMount st s) := by
  simp (maxDischargeDepth := 30) [endMount, h]

@[simp] theorem sound_beginOrderly (cause : CloseoutCause) (s : State) (h : Sound s) : Sound (beginOrderly cause s) := by
  unfold beginOrderly
  refine sound_updateWait _ (sound_foldl _ (fun s n h => sound_requestClose n _ _ s h) _ _ ?_)
  simp (maxDischargeDepth := 30) [h]

@[simp] theorem sound_openStore (s : State) (h : Sound s) : Sound (openStore s) := by
  simp (maxDischargeDepth := 30) [openStore, h]

@[simp] theorem sound_waiterFails (w : Waiter) (s : State) (h : Sound s) : Sound (waiterFails w s) := by
  unfold waiterFails
  split <;> simp (maxDischargeDepth := 30) [h]

@[simp] theorem sound_abandonCheckpoint (s : State) (h : Sound s) : Sound (abandonCheckpoint s) :=
  sound_foldl _ (fun s w h => sound_waiterFails w.1 s h) _ _ (by simp (maxDischargeDepth := 30) [h])

@[simp] theorem sound_reply (kind : Byte) (tag : Byte) (c : Code) (content : List Byte) (s : State) (h : Sound s) :
    Sound (reply kind tag c content s) := by
  simp (maxDischargeDepth := 30) [reply, h]

@[simp] theorem sound_ackResume (tag : Byte) (s : State) (h : Sound s) : Sound (ackResume tag s) := by
  simp (maxDischargeDepth := 30) [ackResume, h]

@[simp] theorem sound_markErrored (s : State) (h : Sound s) : Sound (markErrored s) := by
  simp (maxDischargeDepth := 30) [markErrored, h]

@[simp] theorem sound_discardByte (s : State) (h : Sound s) : Sound (discardByte s) := by
  simp (maxDischargeDepth := 30) [discardByte, h]

@[simp] theorem sound_wake (cause : WakeCause) (s : State) (h : Sound s) : Sound (wake cause s) := by
  simp (maxDischargeDepth := 30) [wake, h]

@[simp] theorem sound_huntByte (b : Byte) (s : State) (h : Sound s) : Sound (huntByte b s) := by
  simp (maxDischargeDepth := 30) [huntByte, h]

@[simp] theorem sound_headerByte (b : Byte) (p : AcqParser) (s : State) (h : Sound s) : Sound (headerByte b p s) := by
  simp (maxDischargeDepth := 30) [headerByte, h]

@[simp] theorem sound_payloadByte (b : Byte) (p : AcqParser) (s : State) (h : Sound s) : Sound (payloadByte b p s) := by
  simp (maxDischargeDepth := 30) [payloadByte, h]

@[simp] theorem sound_malformed (s : State) (h : Sound s) : Sound (malformed s) := by
  simp (maxDischargeDepth := 30) [malformed, h]

@[simp] theorem sound_overrun (n : Nat) (s : State) (h : Sound s) : Sound (overrun n s) := by
  simp (maxDischargeDepth := 30) [overrun, h]

@[simp] theorem sound_refuseOpen (r : RefuseReason) (n : Nat) (s : State) (h : Sound s) : Sound (refuseOpen r n s) := by
  simp (maxDischargeDepth := 30) [refuseOpen, h]

@[simp] theorem sound_advanceOrdinal (i : Nat) (s : State) (h : Sound s) : Sound (advanceOrdinal i s) := by
  simp (maxDischargeDepth := 30) [advanceOrdinal, h]

@[simp] theorem sound_slotStored (i : Nat) (d : Draft) (s : State) (h : Sound s) : Sound (slotStored i d s) := by
  simp (maxDischargeDepth := 30) [slotStored, h]

@[simp] theorem sound_limitDrop (n : Nat) (s : State) (h : Sound s) : Sound (limitDrop n s) := by
  simp (maxDischargeDepth := 30) [limitDrop, h]

/-- A FREE buffer is bound to a slot (R54). -/
theorem sound_bind {s : State} {b : Nat} (i n : Nat) (hb : s.freeBuffer = some b) (h : Sound s) :
    Sound (s.setBuf b (some (fillingBuf i n))) := by
  have hf := isFree_of_freeBuffer hb
  refine ⟨h.1, ?_, h.2.2⟩
  refine staging_ok_set _ _ _ _ hf.1 h.2.1 h.2.1.2.1 fun c => ?_
  split
  · rename_i e
    subst e
    rw [h.2.1.2.2 c, show s.staging.bufs.getD c none = none from hf.2]
    simp [fillingBuf]
  · rfl

theorem sound_bindAndPack (i n : Nat) (l : Line) (r : Rec) (s : State) (h : Sound s) : Sound (bindAndPack i n l r s).1 := by
  unfold bindAndPack
  split
  · exact h
  · split
    · exact h
    · rename_i b hb
      exact sound_updateWait _ (sound_packInto _ _ _ _ (sound_bind i n hb h))

theorem sound_placeRecord (i : Nat) (d : Draft) (s : State) (h : Sound s) : Sound (placeRecord i d s).1 := by
  unfold placeRecord
  split
  · exact h
  · split
    · exact h
    · dsimp only
      split
      · rename_i b hb
        split
        · simp (maxDischargeDepth := 30) [h]
        · exact sound_bindAndPack _ _ _ _ _ (sound_queueFillingOf hb h)
      · exact sound_bindAndPack _ _ _ _ _ h

theorem sound_appendInstrument (i n : Nat) (d : Draft) (s : State) (h : Sound s) : Sound (appendInstrument i n d s).1 := by
  have h2 := sound_placeRecord i d s h
  unfold appendInstrument
  generalize placeRecord i d s = r at h2 ⊢
  obtain ⟨t, x⟩ := r
  cases x <;> simp (maxDischargeDepth := 30) [h2]

@[simp] theorem sound_repeatOpen (f : AcqFrame) (s : State) (h : Sound s) : Sound (repeatOpen f s) := by
  unfold repeatOpen
  split
  · exact sound_appendInstrument _ _ _ _ h
  · exact h

@[simp] theorem sound_takeSlot (f : AcqFrame) (s : State) (h : Sound s) : Sound (takeSlot f s) := by
  unfold takeSlot
  split
  · exact h
  · rename_i i _
    dsimp only
    generalize hs : s.setSlot i _ = u
    have hu : Sound u := by rw [← hs]; simp (maxDischargeDepth := 30) [h]
    have h2 := sound_appendInstrument i f.line (draftOf .header false f 0) u hu
    split <;> (rename_i e; rw [e] at h2; simp (maxDischargeDepth := 30) [h2])

@[simp] theorem sound_reopen (f : AcqFrame) (s : State) (h : Sound s) : Sound (reopen f s) := by
  simp (maxDischargeDepth := 30) [reopen, h]

/-- A close leaves the numbers of the line table (R106). -/
theorem nums_requestClose (n : Nat) (r : CloseReason) (cut : Bool) (s : State) :
    (requestClose n r cut s).store.lines.map Line.num = s.store.lines.map Line.num := by
  have hq : ∀ i : Nat, (queueSlot i s).store = s.store := fun i => by
    unfold queueSlot
    split <;> rfl
  unfold requestClose
  split
  · rfl
  · split
    · rfl
    · rw [nums_of_unbuilt (congrArg State.store (unstaged_closeAdvance _ _))]
      refine (num_mapIf (fun l => l.num == n) (fun l => { l with
        st := .closing, flags := { l.flags with limit := l.flags.limit || r == .limit, cut := l.flags.cut || cut } }) _
        (fun _ => rfl)).trans ?_
      split
      · exact congrArg (fun t => t.lines.map Line.num) (hq _)
      · rfl

theorem nums_freeASlot (s : State) : (freeASlot s).store.lines.map Line.num = s.store.lines.map Line.num := by
  unfold freeASlot
  split
  · rfl
  · split
    · exact nums_requestClose _ _ _ _
    · rfl

theorem sound_openNew (f : AcqFrame) (s : State) (hn : s.line f.line = none)
    (hr : s.store.lines.length < Config.lineTableEntries) (h : Sound s) : Sound (openNew f s) := by
  have e := nums_freeASlot s
  have hl := congrArg List.length e
  simp only [List.length_map] at hl
  have hi : Sound ((freeASlot s).modStore fun t => { t with lines := insertLine (freshLine f.line) t.lines }) :=
    sound_insertLine _ _ (e ▸ num_of_line_none hn) (hl.trans_lt hr) (sound_freeASlot s h)
  exact sound_takeSlot _ _ (sound_degradeOpened _ _ hi)

@[simp] theorem sound_handleOpen (f : AcqFrame) (s : State) (h : Sound s) : Sound (handleOpen f s) := by
  unfold handleOpen
  split
  · simp (maxDischargeDepth := 30) [h]
  · split
    · repeat' (first | (simp (maxDischargeDepth := 30) [h]; done) | split)
    · rename_i hn
      split
      · simp (maxDischargeDepth := 30) [h]
      · split
        · simp (maxDischargeDepth := 30) [h]
        · rename_i hr
          exact sound_openNew f s hn (Nat.lt_of_not_le hr) h

@[simp] theorem sound_orphan (s : State) (h : Sound s) : Sound (orphan s) := by
  simp (maxDischargeDepth := 30) [orphan, h]

@[simp] theorem sound_appendPlain (k : RecordKind) (short : Bool) (f : AcqFrame) (s : State) (h : Sound s) :
    Sound (appendPlain k short f s) := by
  unfold appendPlain
  split
  · exact sound_appendInstrument _ _ _ _ h
  · simp (maxDischargeDepth := 30) [h]

@[simp] theorem sound_appendStatus (short : Bool) (f : AcqFrame) (s : State) (h : Sound s) :
    Sound (appendStatus short f s) := by
  unfold appendStatus
  repeat' (first | (simp (maxDischargeDepth := 30) [h]; done) | apply sound_appendInstrument | split | dsimp only)

@[simp] theorem sound_handleClose (f : AcqFrame) (s : State) (h : Sound s) : Sound (handleClose f s) := by
  unfold handleClose
  split <;> simp (maxDischargeDepth := 30) [h]

@[simp] theorem sound_handleFrame (k : FrameKind) (f : AcqFrame) (s : State) (h : Sound s) :
    Sound (handleFrame k f s) := by
  unfold handleFrame
  split <;> simp (maxDischargeDepth := 30) [h]

@[simp] theorem sound_checkFrame (k : Option FrameKind) (f : AcqFrame) (s : State) (h : Sound s) :
    Sound (checkFrame k f s) := by
  unfold checkFrame
  (repeat' split) <;> simp (maxDischargeDepth := 30) [h]

@[simp] theorem sound_acqFrame (k : Option FrameKind) (f : AcqFrame) (s : State) (h : Sound s) :
    Sound (acqFrame k f s) := by
  simp (maxDischargeDepth := 30) [acqFrame, h]

@[simp] theorem sound_acqCrcFail (s : State) (h : Sound s) : Sound (acqCrcFail s) := by
  simp (maxDischargeDepth := 30) [acqCrcFail, h]

@[simp] theorem sound_checkByte (b : Byte) (p : AcqParser) (s : State) (h : Sound s) : Sound (checkByte b p s) := by
  simp (maxDischargeDepth := 30) [checkByte, h]

@[simp] theorem sound_acqByte (b : Byte) (s : State) (h : Sound s) : Sound (acqByte b s) := by
  unfold acqByte
  repeat' (first | (simp (maxDischargeDepth := 30) [h]; done) | split | dsimp only)

@[simp] theorem sound_acqTimedOut (s : State) (h : Sound s) : Sound (acqTimedOut s) := by
  simp (maxDischargeDepth := 30) [acqTimedOut, h]

@[simp] theorem sound_actOnReserve (s : State) (h : Sound s) : Sound (actOnReserve s) := by
  unfold actOnReserve
  (repeat' split) <;> simp (maxDischargeDepth := 30) [h]

@[simp] theorem sound_judgeLatch (s : State) (h : Sound s) : Sound (judgeLatch s) := by
  simp (maxDischargeDepth := 30) [judgeLatch, h]

@[simp] theorem sound_addPoints (n : Nat) (s : State) (h : Sound s) : Sound (addPoints n s) := by
  simp (maxDischargeDepth := 30) [addPoints, h]

@[simp] theorem sound_permitLoad (body : List Byte) (s : State) (h : Sound s) : Sound (permitLoad body s) := by
  simp (maxDischargeDepth := 30) [permitLoad, h]

@[simp] theorem sound_startCloseout (s : State) (h : Sound s) : Sound (startCloseout s) := by
  simp (maxDischargeDepth := 30) [startCloseout, h]

@[simp] theorem sound_getSettings (tag : Byte) (body : List Byte) (s : State) (h : Sound s) :
    Sound (getSettings tag body s) := by
  simp (maxDischargeDepth := 30) [getSettings, h]

@[simp] theorem sound_wakeBy (cause : WakeCause) (s : State) (h : Sound s) : Sound (wakeBy cause s) := by
  simp (maxDischargeDepth := 30) [wakeBy, h]

@[simp] theorem sound_impactWake (s : State) (h : Sound s) : Sound (impactWake s) := by
  simp (maxDischargeDepth := 30) [impactWake, h]

@[simp] theorem sound_exposePrograms (s : State) (h : Sound s) : Sound (exposePrograms s) := by
  unfold exposePrograms
  refine sound_modMotion _ _ (sound_modStaging _ _ (fun t => ⟨?_, rfl⟩) h)
  simp only [List.map_map]
  congr 1
  funext x
  cases x with
  | none => rfl
  | some b =>
    dsimp only [Function.comp, Option.map]
    split <;> rfl

@[simp] theorem sound_enterImpact (mag : Nat) (axis : Axis) (s : State) (h : Sound s) :
    Sound (enterImpact mag axis s) := by
  simp (maxDischargeDepth := 30) [enterImpact, h]

@[simp] theorem sound_startImpact (mag : Nat) (axis : Axis) (s : State) (h : Sound s) :
    Sound (startImpact mag axis s) := by
  simp (maxDischargeDepth := 30) [startImpact, h]

@[simp] theorem sound_enterFalling (s : State) (h : Sound s) : Sound (enterFalling s) := by
  simp (maxDischargeDepth := 30) [enterFalling, h]

@[simp] theorem sound_judgeCalm (c : SampleClass) (mag : Nat) (axis : Axis) (s : State) (h : Sound s) :
    Sound (judgeCalm c mag axis s) := by
  simp (maxDischargeDepth := 30) [judgeCalm, h]

@[simp] theorem sound_handleLine (r : ImpactRec) (i : Nat) (s : State) (h : Sound s) : Sound (handleLine r s i) := by
  unfold handleLine
  split
  · exact h
  · rename_i t _
    dsimp only
    generalize hs : s.flagLine t.line _ = u
    have hu : Sound u := by rw [← hs]; simp (maxDischargeDepth := 30) [h]
    generalize hd : Draft.mk _ _ _ _ _ _ _ = d
    have h2 := sound_placeRecord i d u hu
    split <;> (rename_i e; rw [e] at h2; simp (maxDischargeDepth := 30) [h2])

@[simp] theorem sound_handlingRecords (r : ImpactRec) (s : State) (h : Sound s) : Sound (handlingRecords r s) :=
  sound_resetFilters _ (sound_foldl _ (fun s i h => sound_handleLine r i s h) _ s h)

@[simp] theorem sound_completeEvent (r : ImpactRec) (s : State) (h : Sound s) : Sound (completeEvent r s) := by
  simp (maxDischargeDepth := 30) [completeEvent, h]

@[simp] theorem sound_settleEvent (impact : Bool) (s : State) (h : Sound s) : Sound (settleEvent impact s) := by
  simp (maxDischargeDepth := 30) [settleEvent, h]

@[simp] theorem sound_judgeImpact (c : SampleClass) (mag : Nat) (axis : Axis) (s : State) (h : Sound s) :
    Sound (judgeImpact c mag axis s) := by
  simp (maxDischargeDepth := 30) [judgeImpact, h]

@[simp] theorem sound_enterCalm (t : SettleType) (s : State) (h : Sound s) : Sound (enterCalm t s) := by
  simp (maxDischargeDepth := 30) [enterCalm, h]

@[simp] theorem sound_judgeSettling (c : SampleClass) (mag : Nat) (axis : Axis) (s : State) (h : Sound s) :
    Sound (judgeSettling c mag axis s) := by
  simp (maxDischargeDepth := 30) [judgeSettling, h]

@[simp] theorem sound_judgeFalling (c : SampleClass) (mag : Nat) (axis : Axis) (s : State) (h : Sound s) :
    Sound (judgeFalling c mag axis s) := by
  unfold judgeFalling
  split <;> simp (maxDischargeDepth := 30) [h]

@[simp] theorem sound_judgeSample (t : Triple) (s : State) (h : Sound s) : Sound (judgeSample t s) := by
  unfold judgeSample
  split <;> simp (maxDischargeDepth := 30) [h]

@[simp] theorem sound_endEvent (s : State) (h : Sound s) : Sound (endEvent s) := by
  unfold endEvent
  split <;> simp (maxDischargeDepth := 30) [h]

@[simp] theorem sound_enterFault (s : State) (h : Sound s) : Sound (enterFault s) := by
  simp (maxDischargeDepth := 30) [enterFault, h]

@[simp] theorem sound_judgeFault (differs : Bool) (s : State) (h : Sound s) : Sound (judgeFault differs s) := by
  simp (maxDischargeDepth := 30) [judgeFault, h]

@[simp] theorem sound_answered (raw : Triple) (s : State) (h : Sound s) : Sound (answered raw s) := by
  unfold answered
  repeat' (first | (simp (maxDischargeDepth := 30) [h]; done) | split | dsimp only)

@[simp] theorem sound_missedRead (s : State) (h : Sound s) : Sound (missedRead s) := by
  unfold missedRead
  repeat' (first | (simp (maxDischargeDepth := 30) [h]; done) | split | dsimp only)

@[simp] theorem sound_motionRead (r : Option Triple) (s : State) (h : Sound s) : Sound (motionRead r s) := by
  unfold motionRead
  (repeat' split) <;> simp (maxDischargeDepth := 30) [h]

@[simp] theorem sound_judgeBattery (conf : Confidence) (s : State) (h : Sound s) : Sound (judgeBattery conf s) := by
  simp (maxDischargeDepth := 30) [judgeBattery, h]

@[simp] theorem sound_commandAnchor (s : State) (h : Sound s) : Sound (commandAnchor s) := by
  simp (maxDischargeDepth := 30) [commandAnchor, h]

@[simp] theorem sound_gaugeAnchor (tag : Byte) (s : State) (h : Sound s) : Sound (gaugeAnchor tag s) := by
  simp (maxDischargeDepth := 30) [gaugeAnchor, h]

@[simp] theorem sound_batteryStep (first : Bool) (conf : Confidence) (s : State) (h : Sound s) :
    Sound (batteryStep first conf s) := by
  simp (maxDischargeDepth := 30) [batteryStep, h]

@[simp] theorem sound_reserveChange (s : State) (h : Sound s) : Sound (reserveChange s) := by
  simp (maxDischargeDepth := 30) [reserveChange, h]

@[simp] theorem sound_reserveSteps (x : PackSample) (s : State) (h : Sound s) : Sound (reserveSteps x s) := by
  unfold reserveSteps
  repeat' (first | (simp (maxDischargeDepth := 30) [h]; done) | split | dsimp only)

theorem flash_ok_reset : Flash.reset.ok :=
  ⟨List.nodup_nil, List.nodup_nil, fun _ => by simp [Flash.reset, Flash.stateOf], List.nodup_nil, by simp [Flash.reset]⟩

theorem staging_ok_reset : Staging.reset.ok := by
  refine ⟨by simp [Staging.reset], List.nodup_nil, fun b => ?_⟩
  simp only [Staging.reset, List.not_mem_nil, false_iff, List.getD, List.getElem?_replicate]
  split <;> simp

/-- Every unit that `Sound` speaks of stands as after a reset. -/
theorem sound_of_reset {s : State} (strap : Bool) (h1 : s.link = .reset strap) (h2 : s.staging = .reset)
    (h3 : s.flash = .reset) (h4 : s.store = .reset) : Sound s := by
  refine ⟨h1 ▸ ⟨Nat.zero_le _, Nat.zero_le _⟩, h2 ▸ staging_ok_reset, h3 ▸ flash_ok_reset, h4 ▸ ⟨Nat.zero_le _, List.nodup_nil⟩⟩

@[simp] theorem sound_warmReset (cause : ResetCause) (strap : Bool) (s : State) : Sound (warmReset cause strap s) :=
  sound_of_reset strap rfl rfl rfl rfl

@[simp] theorem sound_sampledReset (cause : ResetCause) (s : State) : Sound (sampledReset cause s) :=
  sound_warmReset cause _ _

@[simp] theorem sound_anchorSteps (x : PackSample) (s : State) (h : Sound s) : Sound (anchorSteps x s) := by
  simp (maxDischargeDepth := 30) [anchorSteps, h]

@[simp] theorem sound_beginEmergency (s : State) (h : Sound s) : Sound (beginEmergency s) := by
  unfold beginEmergency
  split
  · exact h
  · refine sound_lowHaltCheck _ (sound_updateWait _ (sound_closePause _ (sound_foldl _ (fun s i h => sound_queueSlot i s h) _ _ ?_)))
    simp (maxDischargeDepth := 30) [h]

@[simp] theorem sound_collapseHanded (v : Nat) (s : State) (h : Sound s) : Sound (collapseHanded v s) := by
  simp (maxDischargeDepth := 30) [collapseHanded, h]

-- uses sound_collapseHanded
theorem sound_collapseStep (x : PackSample) (s : State) (h : Sound s) : Sound (collapseStep x s).1 := by
  unfold collapseStep
  repeat' (first | (simp (maxDischargeDepth := 30) [h]; done) | split | dsimp only)

@[simp] theorem sound_answeredSample (r : PackRead) (s : State) (h : Sound s) : Sound (answeredSample r s) := by
  unfold answeredSample
  extract_lets x prev first conf u
  have h2 : Sound (collapseStep x (reserveSteps x (anchorSteps x u))).1 := sound_collapseStep _ _ (by simp (maxDischargeDepth := 30) [u, h])
  generalize collapseStep x (reserveSteps x (anchorSteps x u)) = y at h2 ⊢
  obtain ⟨t, recovered⟩ := y
  dsimp only at h2 ⊢
  split <;> simp (maxDischargeDepth := 30) [h2]

@[simp] theorem sound_gaugeRead (r : Option PackRead) (s : State) (h : Sound s) : Sound (gaugeRead r s) := by
  unfold gaugeRead
  (repeat' split) <;> simp (maxDischargeDepth := 30) [h]

@[simp] theorem sound_lineInfo (tag : Byte) (n : Nat) (s : State) (h : Sound s) : Sound (lineInfo tag n s) := by
  unfold lineInfo
  split <;> simp (maxDischargeDepth := 30) [h]

@[simp] theorem sound_keepInterval (s : State) (h : Sound s) : Sound (keepInterval s) := by
  simp (maxDischargeDepth := 30) [keepInterval, h]

-- uses sound_keepInterval sound_judgeLatch sound_raiseBattery
@[simp] theorem sound_designChange (old : Nat) (s : State) (h : Sound s) : Sound (designChange old s) := by
  unfold designChange
  repeat' (first | (simp (maxDischargeDepth := 30) [h]; done) | split | dsimp only)

@[simp] theorem sound_adoptItems (items : List Nat) (s : State) (h : Sound s) : Sound (adoptItems items s) := by
  unfold adoptItems
  repeat' (first | (simp (maxDischargeDepth := 30) [h]; done) | split | dsimp only)

@[simp] theorem sound_putSettings (tag : Byte) (body : List Byte) (s : State) (h : Sound s) :
    Sound (putSettings tag body s) :=
  sound_reply _ _ _ _ _ (sound_adoptItems _ _ h)

@[simp] theorem sound_runOwner (c : StoreCmd) (s : State) (h : Sound s) : Sound (runOwner c s) := by
  unfold runOwner
  split <;> simp (maxDischargeDepth := 30) [h]

@[simp] theorem sound_handRunning (s : State) (h : Sound s) : Sound (handRunning s) := by
  unfold handRunning
  (repeat' split) <;> simp (maxDischargeDepth := 30) [h]

@[simp] theorem sound_moveUp (c : StoreCmd) (s : State) (h : Sound s) : Sound (moveUp c s) := by
  simp (maxDischargeDepth := 30) [moveUp, h]

theorem sound_admit (c : StoreCmd) (s : State) (hr : s.link.waiting.length < 4) (h : Sound s) : Sound (admitCmd c s) := by
  unfold admitCmd
  split
  · simp (maxDischargeDepth := 30) [h]
  · refine sound_modLink_ok _ s (fun k => ⟨k.1, ?_⟩) h
    simp only [List.length_append, List.length_cons, List.length_nil]
    omega

@[simp] theorem sound_advancePosition (d : Nat) (k : PageKind) (s : State) (h : Sound s) :
    Sound (advancePosition d k s) := by
  unfold advancePosition
  split <;> simp (maxDischargeDepth := 30) [h]

@[simp] theorem sound_anchorLost (s : State) (h : Sound s) : Sound (anchorLost s) := by
  simp (maxDischargeDepth := 30) [anchorLost, h]

@[simp] theorem sound_cancelRunning (tag : Byte) (r : Running) (s : State) (h : Sound s) :
    Sound (cancelRunning tag r s) := by
  unfold cancelRunning
  (repeat' split) <;> simp (maxDischargeDepth := 30) [h]

@[simp] theorem sound_cancelCommand (tag : Byte) (target : Byte) (s : State) (h : Sound s) :
    Sound (cancelCommand tag target s) := by
  unfold cancelCommand
  (repeat' split) <;> simp (maxDischargeDepth := 30) [h]

@[simp] theorem sound_clearOp (d : Nat) (s : State) (h : Sound s) : Sound (clearOp d s) := by
  simp (maxDischargeDepth := 30) [clearOp, h]

@[simp] theorem sound_intakeReply (tag : Byte) (s : State) (h : Sound s) : Sound (intakeReply tag s) := by
  simp (maxDischargeDepth := 30) [intakeReply, h]

@[simp] theorem sound_closeIntake (tag : Byte) (s : State) (h : Sound s) : Sound (closeIntake tag s) := by
  simp (maxDischargeDepth := 30) [closeIntake, h]

@[simp] theorem sound_closeoutRelease (s : State) (h : Sound s) : Sound (closeoutRelease s) := by
  unfold closeoutRelease
  repeat' (first | exact h | split)
  refine sound_finish _ (sound_requestCheckpoint _ _ (sound_foldl _ (fun s d h => sound_releaseDie d s h) _ _ ?_))
  simp (maxDischargeDepth := 30) [h]

@[simp] theorem sound_gaugeRow (p : State → State → Bool) (r : Option PackRead) (s : State) (h : Sound s) :
    Sound (gaugeRow p r s) := by
  simp (maxDischargeDepth := 30) [gaugeRow, h]

@[simp] theorem sound_collapseRecovery (r : Option PackRead) (s : State) (h : Sound s) :
    Sound (collapseRecovery r s) := by
  simp (maxDischargeDepth := 30) [collapseRecovery, h]

@[simp] theorem sound_collapseRow (r : Option PackRead) (s : State) (h : Sound s) : Sound (collapseRow r s) := by
  simp (maxDischargeDepth := 30) [collapseRow, h]

@[simp] theorem sound_openIntake (tag : Byte) (s : State) (h : Sound s) : Sound (openIntake tag s) := by
  unfold openIntake
  split <;> simp (maxDischargeDepth := 30) [h]

@[simp] theorem sound_filterResetCmd (tag : Byte) (s : State) (h : Sound s) : Sound (filterResetCmd tag s) := by
  simp (maxDischargeDepth := 30) [filterResetCmd, h]

@[simp] theorem sound_linkReset (s : State) (h : Sound s) : Sound (linkReset s) := by
  simp (maxDischargeDepth := 30) [linkReset, h]

@[simp] theorem sound_resetCommand (tag : Byte) (s : State) (h : Sound s) : Sound (resetCommand tag s) := by
  simp (maxDischargeDepth := 30) [resetCommand, h]

@[simp] theorem sound_serve (k : CmdKind) (tag : Byte) (body : List Byte) (s : State)
    (hr : k.isStore = true → s.link.waiting.length < 4) (h : Sound s) : Sound (serve k tag body s) := by
  unfold serve
  split
  all_goals first | (simp (maxDischargeDepth := 30) [h]; done) | exact sound_finish _ (sound_admit _ s (hr rfl) h)

/-- A store command that passes the checks finds room among those that wait (R7, R12). -/
theorem waiting_of_check {k : CmdKind} {tag : Byte} {body : List Byte} {s : State} (h : s.link.waiting.length ≤ 4)
    (hc : checkCommand k tag body s = none) (hk : k.isStore = true) : s.link.waiting.length < 4 := by
  unfold checkCommand at hc
  have : s.link.waiting.length ≠ 4 := by
    intro e
    repeat' (split at hc)
    all_goals simp_all [Config.waitingCommands]
  omega

@[simp] theorem sound_takeCommand (k : CmdKind) (tag : Byte) (body : List Byte) (s : State) (h : Sound s) :
    Sound (takeCommand k tag body s) := by
  unfold takeCommand
  split
  · simp (maxDischargeDepth := 30) [h]
  · rename_i hc
    exact sound_serve k tag body s (waiting_of_check h.1.2 hc) h

@[simp] theorem sound_controlWake (s : State) (h : Sound s) : Sound (controlWake s) := by
  simp (maxDischargeDepth := 30) [controlWake, h]

@[simp] theorem sound_commandFrame (k : CmdKind) (tag : Byte) (body : List Byte) (s : State) (h : Sound s) :
    Sound (commandFrame k tag body s) := by
  simp (maxDischargeDepth := 30) [commandFrame, h]

@[simp] theorem sound_waiterDone (w : Waiter) (s : State) (h : Sound s) : Sound (waiterDone w s) := by
  unfold waiterDone
  (repeat' split) <;> simp (maxDischargeDepth := 30) [h]

@[simp] theorem sound_completeCheckpoint (snap : Snapshot) (s : State) (h : Sound s) : Sound (completeCheckpoint snap s) := by
  unfold completeCheckpoint
  extract_lets done u v
  have hv : Sound v := sound_foldl _ (fun s w h => sound_waiterDone w.1 s h) _ _ (by simp (maxDischargeDepth := 30) [u, h])
  split <;> simp (maxDischargeDepth := 30) [hv]

@[simp] theorem sound_linkError (reason : Nat) (content : List Byte) (s : State) (h : Sound s) :
    Sound (linkError reason content s) := by
  simp (maxDischargeDepth := 30) [linkError, h]

@[simp] theorem sound_lengthError (len : Nat) (s : State) (h : Sound s) : Sound (lengthError len s) := by
  simp (maxDischargeDepth := 30) [lengthError, h]

@[simp] theorem sound_ctlHeader (b : Byte) (p : CtlParser) (s : State) (h : Sound s) : Sound (ctlHeader b p s) := by
  simp (maxDischargeDepth := 30) [ctlHeader, h]

@[simp] theorem sound_ctlBody (b : Byte) (p : CtlParser) (s : State) (h : Sound s) : Sound (ctlBody b p s) := by
  simp (maxDischargeDepth := 30) [ctlBody, h]

@[simp] theorem sound_takeFrame (kind : Byte) (tag : Byte) (body : List Byte) (s : State) (h : Sound s) :
    Sound (takeFrame kind tag body s) := by
  unfold takeFrame
  split <;> simp (maxDischargeDepth := 30) [h]

@[simp] theorem sound_crcError (kind : Byte) (tag : Byte) (s : State) (h : Sound s) : Sound (crcError kind tag s) := by
  simp (maxDischargeDepth := 30) [crcError, h]

@[simp] theorem sound_ctlCheck (b : Byte) (p : CtlParser) (s : State) (h : Sound s) : Sound (ctlCheck b p s) := by
  simp (maxDischargeDepth := 30) [ctlCheck, h]

@[simp] theorem sound_parseByte (b : Byte) (s : State) (h : Sound s) : Sound (parseByte b s) := by
  unfold parseByte
  repeat' (first | (simp (maxDischargeDepth := 30) [h]; done) | split | dsimp only)

@[simp] theorem sound_controlByte (b : Byte) (s : State) (h : Sound s) : Sound (controlByte b s) := by
  simp (maxDischargeDepth := 30) [controlByte, h]

@[simp] theorem sound_timeoutError (p : CtlParser) (s : State) (h : Sound s) : Sound (timeoutError p s) := by
  simp (maxDischargeDepth := 30) [timeoutError, h]

@[simp] theorem sound_controlTimedOut (s : State) (h : Sound s) : Sound (controlTimedOut s) := by
  simp (maxDischargeDepth := 30) [controlTimedOut, h]

@[simp] theorem sound_crcFrame (kind : Byte) (tag : Byte) (s : State) (h : Sound s) : Sound (crcFrame kind tag s) := by
  simp (maxDischargeDepth := 30) [crcFrame, h]

@[simp] theorem sound_retire (b : Blk) (s : State) (h : Sound s) : Sound (retire b s) := by
  simp (maxDischargeDepth := 30) [retire, h]

theorem sound_takeBlock (d : Nat) (s : State) (h : Sound s) : Sound ((takeBlock d s).getD s) := by
  unfold takeBlock
  split
  · exact h
  · exact sound_judgeSpace _ (sound_modDie _ _ _ (sound_takeOut _ _ _ (by decide) h))

@[simp] theorem sound_takeBlockIf (d : Nat) (s : State) (h : Sound s) : Sound (takeBlockIf d s) := by
  unfold takeBlockIf
  dsimp only
  split
  · exact sound_takeBlock d s h
  · exact h

@[simp] theorem sound_dataErased (b : Blk) (pass : Bool) (s : State) (h : Sound s) : Sound (dataErased b pass s) := by
  simp (maxDischargeDepth := 30) [dataErased, h]

@[simp] theorem sound_decayScore (s : State) (h : Sound s) : Sound (decayScore s) := by
  simp (maxDischargeDepth := 30) [decayScore, h]

@[simp] theorem sound_deepStop (s : State) (h : Sound s) : Sound (deepStop s) := by
  simp (maxDischargeDepth := 30) [deepStop, h]

@[simp] theorem sound_startOp (d : Nat) (k : OpKind) (s : State) (h : Sound s) : Sound (startOp d k s) := by
  simp (maxDischargeDepth := 30) [startOp, h]

@[simp] theorem sound_enterMediaFault (s : State) (h : Sound s) : Sound (enterMediaFault s) := by
  simp (maxDischargeDepth := 30) [enterMediaFault, h]

@[simp] theorem sound_takeSequence (a : Addr) (s : State) (h : Sound s) : Sound (takeSequence a s) := by
  simp (maxDischargeDepth := 30) [takeSequence, h]

theorem sound_startProgram (d : Nat) (b : Nat) (x : Buf) (s : State) (hx : s.buf b = some x) (h : Sound s) :
    Sound (startProgram d b x s) := by
  unfold startProgram
  refine sound_takeSequence _ _ (sound_advancePosition _ _ _ (sound_modDie _ _ _ ⟨h.1, ?_, h.2.2⟩))
  exact staging_ok_leave _ _ _ (buf_lt hx) h.2.1 (by simp)

@[simp] theorem sound_offerQueue (d : Nat) (s : State) (h : Sound s) : Sound (offerQueue d s) := by
  unfold offerQueue
  split
  · exact h
  · split
    · split
      · rename_i x hx
        exact sound_startProgram _ _ x s hx h
      · exact h
    · simp (maxDischargeDepth := 30) [h]

@[simp] theorem sound_dispatchReads (d : Nat) (s : State) (h : Sound s) : Sound (dispatchReads d s) := by
  unfold dispatchReads
  (repeat' split) <;> simp (maxDischargeDepth := 30) [h]

@[simp] theorem sound_dispatchDie (d : Nat) (s : State) (h : Sound s) : Sound (dispatchDie d s) := by
  have key : ∀ ds : List Nat, Sound (ds.foldl (fun s e => offerQueue e s) (startWalk s)) := fun ds =>
    sound_foldl _ (fun s e h => sound_offerQueue e s h) _ _ (by simp (maxDischargeDepth := 30) [h])
  unfold dispatchDie
  repeat' (first | (simp (maxDischargeDepth := 30) [h, key]; done) | split | dsimp only)

@[simp] theorem sound_dueErase (d : Nat) (block : Nat) (s : State) (h : Sound s) : Sound (dueErase d block s) := by
  simp (maxDischargeDepth := 30) [dueErase, h]

@[simp] theorem sound_emptyAnchorRow (r : Option PackRead) (s : State) (h : Sound s) : Sound (emptyAnchorRow r s) := by
  simp (maxDischargeDepth := 30) [emptyAnchorRow, h]

@[simp] theorem sound_enterPause (p : PowerState) (s : State) (h : Sound s) : Sound (enterPause p s) := by
  simp (maxDischargeDepth := 30) [enterPause, h]

@[simp] theorem sound_ringAdvance (s : State) (h : Sound s) : Sound (ringAdvance s) := by
  simp (maxDischargeDepth := 30) [ringAdvance, h]

@[simp] theorem sound_ringErased (b : Nat) (pass : Bool) (s : State) (h : Sound s) : Sound (ringErased b pass s) := by
  simp (maxDischargeDepth := 30) [ringErased, h]

@[simp] theorem sound_eraseDone (d : Nat) (pass : Bool) (s : State) (h : Sound s) : Sound (eraseDone d pass s) := by
  unfold eraseDone
  (repeat' split) <;> simp (maxDischargeDepth := 30) [h]

@[simp] theorem sound_storeAdvance (s : State) (h : Sound s) : Sound (storeAdvance s) := by
  unfold storeAdvance
  refine sound_finish _ ?_
  split
  · simp [h]
  · split
    · rename_i c cs hw
      refine sound_moveUp _ _ (sound_modLink_ok _ s (fun k => ⟨k.1, ?_⟩) h)
      have := k.2
      rw [hw, List.length_cons] at this
      exact (Nat.le_succ _).trans this
    · exact h

@[simp] theorem sound_pauseEntry (s : State) (h : Sound s) : Sound (pauseEntry s) := by
  unfold pauseEntry
  split <;> simp (maxDischargeDepth := 30) [h]

@[simp] theorem sound_messageSent (s : State) (h : Sound s) : Sound (messageSent s) := by
  simp (maxDischargeDepth := 30) [messageSent, h]

@[simp] theorem sound_powerOnReset (strap : Bool) (s : State) : Sound (powerOnReset strap s) :=
  sound_of_reset strap rfl rfl rfl rfl

@[simp] theorem sound_huntMarkByte (b : Byte) (s : State) (h : Sound s) : Sound (huntMarkByte b s) := by
  simp (maxDischargeDepth := 30) [huntMarkByte, h]

@[simp] theorem sound_takenFrame (k : Option FrameKind) (f : AcqFrame) (s : State) (h : Sound s) :
    Sound (takenFrame k f s) := by
  simp (maxDischargeDepth := 30) [takenFrame, h]

@[simp] theorem sound_gapLine (payload : List Byte) (i : Nat) (s : State) (h : Sound s) : Sound (gapLine payload s i) := by
  unfold gapLine
  split
  · exact h
  · rename_i t _
    dsimp only
    generalize hd : Draft.mk _ _ _ _ _ _ _ = d
    have h2 := sound_placeRecord i d s h
    split <;> (rename_i e; rw [e] at h2; simp (maxDischargeDepth := 30) [h2])

@[simp] theorem sound_gapRecords (payload : List Byte) (s : State) (h : Sound s) : Sound (gapRecords payload s) :=
  sound_foldl _ (fun s i h => sound_gapLine payload i s h) _ _ h

@[simp] theorem sound_linkChange (old : LinkState) (new : LinkState) (s : State) (h : Sound s) :
    Sound (linkChange old new s) := by
  simp (maxDischargeDepth := 30) [linkChange, h]

@[simp] theorem sound_intervalEnd (s : State) (h : Sound s) : Sound (intervalEnd s) := by
  simp (maxDischargeDepth := 30) [intervalEnd, h]

@[simp] theorem sound_motionRow (p : MotionState → MotionState → Bool) (r : Option Triple) (s : State) (h : Sound s) :
    Sound (motionRow p r s) := by
  simp (maxDischargeDepth := 30) [motionRow, h]

@[simp] theorem sound_fallStart (r : Option Triple) (s : State) (h : Sound s) : Sound (fallStart r s) := by
  simp (maxDischargeDepth := 30) [fallStart, h]

@[simp] theorem sound_fallEnd (r : Option Triple) (s : State) (h : Sound s) : Sound (fallEnd r s) := by
  simp (maxDischargeDepth := 30) [fallEnd, h]

@[simp] theorem sound_impactEnd (r : Option Triple) (s : State) (h : Sound s) : Sound (impactEnd r s) := by
  simp (maxDischargeDepth := 30) [impactEnd, h]

@[simp] theorem sound_settle (r : Option Triple) (s : State) (h : Sound s) : Sound (settle r s) := by
  simp (maxDischargeDepth := 30) [settle, h]

@[simp] theorem sound_roughSettle (r : Option Triple) (s : State) (h : Sound s) : Sound (roughSettle r s) := by
  simp (maxDischargeDepth := 30) [roughSettle, h]

@[simp] theorem sound_sensorFault (r : Option Triple) (s : State) (h : Sound s) : Sound (sensorFault r s) := by
  simp (maxDischargeDepth := 30) [sensorFault, h]

@[simp] theorem sound_sensorRecovery (r : Option Triple) (s : State) (h : Sound s) : Sound (sensorRecovery r s) := by
  simp (maxDischargeDepth := 30) [sensorRecovery, h]

@[simp] theorem sound_handlingDecay (s : State) (h : Sound s) : Sound (handlingDecay s) := by
  simp (maxDischargeDepth := 30) [handlingDecay, h]

@[simp] theorem sound_reserveRaise (r : Option PackRead) (s : State) (h : Sound s) : Sound (reserveRaise r s) := by
  simp (maxDischargeDepth := 30) [reserveRaise, h]

@[simp] theorem sound_reserveClear (r : Option PackRead) (s : State) (h : Sound s) : Sound (reserveClear r s) := by
  simp (maxDischargeDepth := 30) [reserveClear, h]

@[simp] theorem sound_handCheckpointPage (hdr : PageHdr) (a : Addr) (s : State) (h : Sound s) :
    Sound (handCheckpointPage hdr a s) := by
  unfold handCheckpointPage
  split <;> simp (maxDischargeDepth := 30) [h]

@[simp] theorem sound_handSettings (a : Addr) (s : State) (h : Sound s) : Sound (handSettings a s) := by
  simp (maxDischargeDepth := 30) [handSettings, h]

@[simp] theorem sound_handPage (x : Buf) (a : Addr) (first : Bool) (s : State) (h : Sound s) :
    Sound (handPage x a first s) := by
  unfold handPage
  (repeat' split) <;> simp (maxDischargeDepth := 30) [h]

@[simp] theorem sound_releaseWritten (b : Nat) (a : Addr) (s : State) (h : Sound s) : Sound (releaseWritten b a s) := by
  unfold releaseWritten
  repeat' (first | (simp (maxDischargeDepth := 30) [h]; done) | split | dsimp only)

@[simp] theorem sound_writtenPoint (b : Nat) (s : State) (h : Sound s) : Sound (writtenPoint b s) := by
  unfold writtenPoint
  split
  · exact h
  · rename_i x hx
    split
    · exact h
    · have hm := sound_setBuf_same { x with reported := true, handed := true } hx rfl h
      dsimp only
      split <;> simp [hm]

@[simp] theorem sound_programPass (b : Nat) (x : Buf) (a : Addr) (s : State) (h : Sound s) :
    Sound (programPass b x a s) := by
  simp (maxDischargeDepth := 30) [programPass, h]

@[simp] theorem sound_ringRoom (s : State) (h : Sound s) : Sound (ringRoom s) := by
  unfold ringRoom
  split <;> simp (maxDischargeDepth := 30) [h]

@[simp] theorem sound_programFail (b : Nat) (a : Addr) (s : State) (h : Sound s) : Sound (programFail b a s) := by
  simp (maxDischargeDepth := 30) [programFail, h]

@[simp] theorem sound_programDone (d : Nat) (pass : Bool) (s : State) (h : Sound s) : Sound (programDone d pass s) := by
  unfold programDone
  repeat' (first | (simp (maxDischargeDepth := 30) [h]; done) | split | dsimp only)

@[simp] theorem sound_voidPage (b : Nat) (a : Addr) (s : State) (h : Sound s) : Sound (voidPage b a s) := by
  unfold voidPage
  (repeat' split) <;> simp (maxDischargeDepth := 30) [h]

@[simp] theorem sound_readbackDone (d : Nat) (r : ReadResult) (s : State) (h : Sound s) :
    Sound (readbackDone d r s) := by
  unfold readbackDone
  repeat' (first | (simp (maxDischargeDepth := 30) [h]; done) | split | dsimp only)

@[simp] theorem sound_retrievalDone (d : Nat) (r : ReadResult) (s : State) (h : Sound s) :
    Sound (retrievalDone d r s) := by
  unfold retrievalDone
  (repeat' split) <;> simp (maxDischargeDepth := 30) [h]

@[simp] theorem sound_relocationDone (walk : Bool) (d : Nat) (r : ReadResult) (s : State) (h : Sound s) :
    Sound (relocationDone walk d r s) := by
  unfold relocationDone
  (repeat' split) <;> simp (maxDischargeDepth := 30) [h]

@[simp] theorem sound_dropWalkRead (d : Nat) (s : State) (h : Sound s) : Sound (dropWalkRead d s) := by
  simp (maxDischargeDepth := 30) [dropWalkRead, h]

@[simp] theorem sound_faultDie (d : Nat) (s : State) (h : Sound s) : Sound (faultDie d s) := by
  simp (maxDischargeDepth := 30) [faultDie, h]

@[simp] theorem sound_judgeDies (s : State) (h : Sound s) : Sound (judgeDies s) := by
  simp (maxDischargeDepth := 30) [judgeDies, h]

@[simp] theorem sound_timeoutOp (d : Nat) (o : Op) (s : State) (h : Sound s) : Sound (timeoutOp d o s) := by
  unfold timeoutOp
  split <;> simp (maxDischargeDepth := 30) [h]

@[simp] theorem sound_mountBlank (m : Mount) (ps : List ReadPage) (s : State) (h : Sound s) :
    Sound (mountBlank m ps s) := by
  simp (maxDischargeDepth := 30) [mountBlank, h]

@[simp] theorem sound_restoreMotion (t : List Byte) (s : State) (h : Sound s) : Sound (restoreMotion t s) := by
  simp (maxDischargeDepth := 30) [restoreMotion, h]

@[simp] theorem sound_gaugeRestore (fcc res : Nat) (s : State) (h : Sound s) : Sound (gaugeRestore fcc res s) := by
  simp (maxDischargeDepth := 30) [gaugeRestore, h]

theorem oneEach_nodup (ls : List Line) : ((oneEach ls).map Line.num).Nodup := by
  induction ls with
  | nil => exact List.nodup_nil
  | cons l ls ih =>
    refine List.nodup_cons.2 ⟨fun hm => ?_, ih.sublist (List.filter_sublist.map _)⟩
    obtain ⟨m, hm, e⟩ := List.mem_map.1 hm
    simp [e] at hm

theorem oneEach_length (ls : List Line) : (oneEach ls).length ≤ ls.length := by
  induction ls with
  | nil => exact le_rfl
  | cons l ls ih => exact Nat.succ_le_succ ((List.length_filter_le _ _).trans ih)

theorem dealRefs_nums (ls : List Line) (rs : List SegRef) : (dealRefs ls rs).map Line.num = ls.map Line.num := by
  induction ls generalizing rs with
  | nil => rfl
  | cons l ls ih =>
    unfold dealRefs
    split <;> simp (maxDischargeDepth := 30) [ih]

theorem restoreLines_length (pages : List ReadPage) : (restoreLines pages).length ≤ Config.lineTableEntries := by
  refine (oneEach_length _).trans ?_
  rw [List.length_flatten, List.map_map]
  refine (List.sum_le_card_nsmul _ 256 fun n hn => ?_).trans (by simp [Config.lineTableEntries])
  obtain ⟨i, _, rfl⟩ := List.mem_map.1 hn
  exact (List.length_filterMap_le _ _).trans (by simp)

/-- The recorded blocks as they are restored keep the numbers they are recorded under. -/
theorem addUnlisted_ids (bs : List (Blk × Option BlockRec)) (n : Nat) (h : ∀ p ∈ bs, ∀ r, p.2 = some r → r.id = p.1) :
    (addUnlisted bs n).1.map BlockRec.id = bs.map Prod.fst := by
  induction bs generalizing n with
  | nil => rfl
  | cons p bs ih =>
    obtain ⟨b, o⟩ := p
    have ih := fun n => ih n fun p hp => h p (List.mem_cons_of_mem _ hp)
    cases o with
    | none =>
      unfold addUnlisted
      split <;> simp (maxDischargeDepth := 30) [ih]
    | some r => simp [addUnlisted, ih, h (b, some r) (by simp) r rfl]

theorem restoreDie_ids (pages : List ReadPage) (d : Nat) :
    (restoreDie pages d).map Prod.fst = (List.range 2048).map fun b => ⟨d, b⟩ := by
  rw [show (2048 : Nat) = 1360 + 688 from rfl, List.range_add]
  simp only [restoreDie, List.map_append, List.map_map]
  rfl

theorem blocks_of_dies_nodup (n m : Nat) :
    (((List.range n).map fun d => (List.range m).map fun b => (⟨d, b⟩ : Blk)).flatten).Nodup := by
  rw [List.nodup_flatten]
  refine ⟨fun l hl => ?_, ?_⟩
  · obtain ⟨d, _, rfl⟩ := List.mem_map.1 hl
    exact List.nodup_range.map fun a b e => by simpa using e
  · rw [List.pairwise_map]
    refine (List.nodup_range (n := n)).imp fun hne b hb hc => ?_
    obtain ⟨x, _, rfl⟩ := List.mem_map.1 hb
    obtain ⟨y, _, e⟩ := List.mem_map.1 hc
    exact hne (by simpa using (congrArg Blk.die e).symm)

/-- The state of a block of a table of distinct blocks. -/
theorem stateOf_mem {f : Flash} (h : (f.blocks.map BlockRec.id).Nodup) (b : Blk) (st : BlockState) :
    f.stateOf b = some st ↔ ∃ r ∈ f.blocks, r.id = b ∧ r.st = st := by
  unfold Flash.stateOf
  constructor
  · intro hs
    rw [Option.map_eq_some_iff] at hs
    obtain ⟨r, hr, e⟩ := hs
    exact ⟨r, List.mem_of_find?_eq_some hr, by simpa using List.find?_some hr, e⟩
  · rintro ⟨r, hm, rfl, rfl⟩
    have : (f.blocks.find? fun q => q.id == r.id) = some r := by
      cases hf : f.blocks.find? fun q => q.id == r.id with
      | none =>
        rw [List.find?_eq_none] at hf
        simpa using hf r hm
      | some q =>
        have e : q.id = r.id := by simpa using List.find?_some hf
        exact congrArg some (List.inj_on_of_nodup_map h (List.mem_of_find?_eq_some hf) hm e)
    rw [this]
    rfl

/-- A table of distinct blocks with the FREE ones listed, in whatever order, and nothing pending (R92, R189). -/
theorem flash_ok_built {f : Flash} (h : (f.blocks.map BlockRec.id).Nodup)
    (hf : f.freeList.Perm ((f.blocks.filter fun r => r.st == .free).map BlockRec.id)) (hp : f.pendingRec = []) : f.ok := by
  refine ⟨h, ?_, fun b => ?_, by simp (maxDischargeDepth := 30) [hp], by simp (maxDischargeDepth := 30) [hp]⟩
  · exact (hf.nodup_iff).2 (h.sublist (List.filter_sublist.map _))
  · rw [hf.mem_iff, stateOf_mem h, List.mem_map]
    constructor
    · rintro ⟨r, hr, e⟩
      rw [List.mem_filter] at hr
      exact ⟨r, hr.1, e, by simpa using hr.2⟩
    · rintro ⟨r, hr, e, hs⟩
      exact ⟨r, List.mem_filter.2 ⟨hr, by simpa using hs⟩, e⟩

theorem insertSeq_perm (r : BlockRec) (rs : List BlockRec) : (insertSeq r rs).Perm (r :: rs) := by
  induction rs with
  | nil => exact List.Perm.refl _
  | cons q qs ih =>
    unfold insertSeq
    split
    · exact List.Perm.refl _
    · exact (ih.cons q).trans (List.Perm.swap r q qs)

theorem freeOrder_perm (rs : List BlockRec) :
    (freeOrder rs).Perm ((rs.filter fun r => r.st == .free).map BlockRec.id) := by
  refine List.Perm.map _ ?_
  induction rs.filter fun r => r.st == .free with
  | nil => exact List.Perm.refl _
  | cons r rs ih => exact (insertSeq_perm r _).trans (ih.cons r)

theorem restored_nodup (pages : List ReadPage) (n k : Nat) :
    ((addUnlisted ((List.range n).map (restoreDie pages)).flatten k).1.map BlockRec.id).Nodup := by
  rw [addUnlisted_ids]
  · rw [List.map_flatten, List.map_map]
    obtain ⟨m, hm⟩ : ∃ m, ∀ d, (restoreDie pages d).map Prod.fst = (List.range m).map fun b => (⟨d, b⟩ : Blk) :=
      ⟨2048, restoreDie_ids pages⟩
    rw [show List.map Prod.fst ∘ restoreDie pages = fun d => (List.range m).map fun b => (⟨d, b⟩ : Blk) from by
      funext d
      rw [Function.comp_apply, hm d]]
    exact blocks_of_dies_nodup n m
  · intro p hp r hr
    simp only [List.mem_flatten, List.mem_map, restoreDie] at hp
    obtain ⟨l, ⟨d, _, rfl⟩, hp⟩ := hp
    simp only [List.mem_append, List.mem_map] at hp
    rcases hp with ⟨b, _, rfl⟩ | ⟨b, _, rfl⟩ <;>
    · simp only [parseBlock, Option.map_eq_some_iff] at hr
      obtain ⟨st, _, rfl⟩ := hr
      rfl

@[simp] theorem sound_restoreCheckpoint (n : Nat) (pages : List ReadPage) (s : State) (h : Sound s) :
    Sound (restoreCheckpoint n pages s) := by
  unfold restoreCheckpoint
  extract_lets p0 t l0 l1
  have hn := restored_nodup pages s.flash.dies.length (field 4 p0 76)
  generalize addUnlisted _ _ = y at hn ⊢
  obtain ⟨blocks, ctr⟩ := y
  dsimp only at hn ⊢
  have hl : l1.map Line.num = l0.map Line.num := dealRefs_nums _ _
  have h1 : ∀ used, Sound ((s.modFlash fun fl => { fl with
      blocks := blocks, freeCtr := ctr, freeList := freeOrder blocks, pendingRec := [],
      refresh := (restoreRefresh pages).filter fun b => s.dieReady b.die }).modStore fun l => { l with
      lines := l1, ckptSeq := n, ckptBlocks := used }) := by
    intro used
    refine ⟨h.1, h.2.1, flash_ok_built hn (freeOrder_perm blocks) rfl, ?_, ?_⟩
    · have := congrArg List.length hl
      simp only [List.length_map] at this
      exact this.trans_le (restoreLines_length pages)
    · show (l1.map Line.num).Nodup
      rw [hl]
      exact oneEach_nodup _
  repeat' (first | (simp (maxDischargeDepth := 30) [h1]; done) | split)

@[simp] theorem sound_probeDies (ds : List Nat) (s : State) (h : Sound s) : Sound (probeDies ds s) := by
  induction ds with
  | nil => simp [probeDies, h]
  | cons d ds ih =>
    unfold probeDies
    repeat' (first | (simp (maxDischargeDepth := 30) [ih, h]; done) | split)

@[simp] theorem sound_scanNext (bs : List Blk) (s : State) (h : Sound s) : Sound (scanNext bs s) := by
  induction bs with
  | nil => simp [scanNext, h]
  | cons b bs ih =>
    unfold scanNext
    split <;> simp (maxDischargeDepth := 30) [ih, h]

@[simp] theorem sound_ringRead (ps : List ReadPage) (blanks : List (Nat × Nat)) (s : State) (h : Sound s) :
    Sound (ringRead ps blanks s) := by
  unfold ringRead
  (repeat' split) <;> simp (maxDischargeDepth := 30) [h]

@[simp] theorem sound_mountDead (s : State) (h : Sound s) : Sound (mountDead s) := by
  unfold mountDead
  split <;> simp (maxDischargeDepth := 30) [h]

@[simp] theorem sound_loadSettings (best : Option ReadPage) (s : State) (h : Sound s) : Sound (loadSettings best s) := by
  unfold loadSettings gaugeStart
  repeat' (first | (simp (maxDischargeDepth := 30) [h]; done) | split | dsimp only)

@[simp] theorem sound_settingsRead (pos : Nat) (best : Option ReadPage) (s : State) (h : Sound s) :
    Sound (settingsRead pos best s) := by
  simp (maxDischargeDepth := 30) [settingsRead, h]

@[simp] theorem sound_mountSkip (ph : MountPhase) (s : State) (h : Sound s) : Sound (mountSkip ph s) := by
  unfold mountSkip
  split <;> simp (maxDischargeDepth := 30) [h]

@[simp] theorem sound_mountTimeout (d : Nat) (s : State) (h : Sound s) : Sound (mountTimeout d s) := by
  unfold mountTimeout
  (repeat' split) <;> simp (maxDischargeDepth := 30) [h]

@[simp] theorem sound_operationTimeout (d : Nat) (s : State) (h : Sound s) : Sound (operationTimeout d s) := by
  unfold operationTimeout
  split <;> simp (maxDischargeDepth := 30) [h]

@[simp] theorem sound_snapshot (s : State) (h : Sound s) : Sound (snapshot s) := by
  unfold snapshot
  repeat' (first | (simp (maxDischargeDepth := 30) [h]; done) | split | dsimp only)

theorem numberFree_key (n : Nat) (rs : List BlockRec) : (numberFree n rs).1.map BlockRec.key = rs.map BlockRec.key := by
  induction rs generalizing n with
  | nil => rfl
  | cons r rs ih =>
    unfold numberFree
    split <;> simp (maxDischargeDepth := 30) [ih, BlockRec.key]

theorem formatTable_nodup (s : State) (h : (s.flash.blocks.map BlockRec.id).Nodup) :
    ((formatTable s).map BlockRec.id).Nodup := by
  have hall : (((if s.flash.blocks.isEmpty then newBlocks s.flash.dies.length else s.flash.blocks)).map BlockRec.id).Nodup := by
    split
    · unfold newBlocks
      rw [List.map_flatten, List.map_map]
      have : (List.map BlockRec.id ∘ fun d => (List.range Config.blocksPerDie).map fun b =>
          ({ id := { die := d, block := b }, st := if isAnchor { die := d, block := b } then .anchor else .free, erases := 0,
             live := 0, seq := 0 } : BlockRec)) = fun d => (List.range Config.blocksPerDie).map fun b => (⟨d, b⟩ : Blk) := by
        funext d
        simp [Function.comp_def]
      rw [this]
      exact blocks_of_dies_nodup _ _
    · exact h
  unfold formatTable
  extract_lets a b
  have hi : (b.map (formatBlock s.dieReady)).map BlockRec.id = b.map BlockRec.id := by
    rw [List.map_map]
    rfl
  rw [hi, List.map_flatten, List.map_map, List.nodup_flatten]
  refine ⟨fun l hl => ?_, ?_⟩
  · obtain ⟨d, _, rfl⟩ := List.mem_map.1 hl
    exact hall.sublist (List.filter_sublist.map _)
  · rw [List.pairwise_map]
    refine (List.nodup_range (n := s.flash.dies.length)).imp fun hne x hx hy => ?_
    simp only [Function.comp, List.mem_map, List.mem_filter] at hx hy
    obtain ⟨r, ⟨_, e⟩, rfl⟩ := hx
    obtain ⟨q, ⟨_, e'⟩, e2⟩ := hy
    simp only [beq_iff_eq] at e e'
    exact hne (by rw [← e, ← e', e2])

@[simp] theorem sound_formatFlash (s : State) (h : Sound s) : Sound (formatFlash s) := by
  have hk := numberFree_key s.flash.freeCtr (formatTable s)
  have hn := formatTable_nodup s h.2.2.1.1
  unfold formatFlash
  generalize numberFree s.flash.freeCtr (formatTable s) = y at hk ⊢
  obtain ⟨blocks, ctr⟩ := y
  dsimp only at hk ⊢
  refine ⟨h.1, h.2.1, flash_ok_built ?_ (List.Perm.refl _) rfl, h.2.2.2⟩
  have : blocks.map BlockRec.id = (formatTable s).map BlockRec.id := by
    have := congrArg (List.map Prod.fst) hk
    simpa [BlockRec.key, Function.comp_def] using this
  exact this ▸ hn

@[simp] theorem sound_formatEvent (s : State) (h : Sound s) : Sound (formatEvent s) := by
  unfold formatEvent
  split
  · exact h
  · extract_lets u v w x
    have hu : Sound u := by simp (maxDischargeDepth := 30) [u, h]
    have hv : Sound v := ⟨hu.1, hu.2.1, hu.2.2.1, Nat.zero_le _, List.nodup_nil⟩
    have hx : Sound x := by simp (maxDischargeDepth := 30) [x, w, hv]
    simp (maxDischargeDepth := 30) [hx]

@[simp] theorem sound_ringNext (block : Nat) (pos : Nat) (ps : List ReadPage) (blanks : List (Nat × Nat)) (done : Bool) (s : State) (h : Sound s) :
    Sound (ringNext block pos ps blanks done s) := by
  simp (maxDischargeDepth := 30) [ringNext, h]

@[simp] theorem sound_probeNext (todo : List Blk) (passed : Nat) (dies : List Nat) (s : State) (h : Sound s) :
    Sound (probeNext todo passed dies s) := by
  unfold probeNext
  split <;> simp (maxDischargeDepth := 30) [h]

@[simp] theorem sound_mountPage (ph : MountPhase) (r : ReadResult) (s : State) (h : Sound s) :
    Sound (mountPage ph r s) := by
  unfold mountPage
  repeat' (first | (simp (maxDischargeDepth := 30) [h]; done) | split | dsimp only)

@[simp] theorem sound_mountRead (r : MountAnswer) (s : State) (h : Sound s) : Sound (mountRead r s) := by
  unfold mountRead
  (repeat' split) <;> simp (maxDischargeDepth := 30) [h]

@[simp] theorem sound_tickInterval (s : State) (h : Sound s) : Sound (tickInterval s) := by
  unfold tickInterval
  repeat' (first | (simp (maxDischargeDepth := 30) [h]; done) | split | dsimp only)

@[simp] theorem sound_tickDecay (s : State) (h : Sound s) : Sound (tickDecay s) := by
  simp (maxDischargeDepth := 30) [tickDecay, h]

@[simp] theorem sound_tick (s : State) (h : Sound s) : Sound (tick s) := by
  simp (maxDischargeDepth := 30) [tick, h]

end Sys2Proof.Machine
end

