-- ==== Sys2Proof/Laws/Written.lean ====
section
/-!
SUPPORT. What the written point of a page does where nothing else follows from it: how its buffer moves, and what the line store
does with a DATA page that is handed to it.
-/
namespace Sys2Proof.Machine

/-! ## Buffers freed while no image request waits (R56) -/

/-- From `s` to `t` only staging and the wait line move. -/
def OnlyStaging (s t : State) : Prop :=
  t = { s with staging := t.staging, intake := { s.intake with wait := t.intake.wait } }

theorem OnlyStaging.refl (s : State) : OnlyStaging s s := rfl
theorem OnlyStaging.trans {s t u : State} (h : OnlyStaging s t) (k : OnlyStaging t u) : OnlyStaging s u := by
  unfold OnlyStaging at *; rw [k, h]
theorem OnlyStaging.wait {s t : State} (h : OnlyStaging s t) : OnlyStaging s (updateWait t) := h.trans rfl

theorem freeBuf_quiet (b : Nat) (s : State) (h : s.staging.requests = []) (hb : (s.buf b).isSome = true) :
    freeBuf b s = updateWait { s with staging := { s.staging with
      bufs := s.staging.bufs.set b none, queue := s.staging.queue.filter (· != b),
      verifying := s.staging.verifying.filter (· != b) } } := by
  unfold freeBuf
  have : (s.buf b).isNone = false := by cases hx : s.buf b <;> simp_all
  simp only [this, h, handOver, State.setBuf, State.modStaging]
  simp

/-- A buffer freed while no image request waits. -/
theorem freeBuf_only {b : Nat} {s : State} (h : s.staging.requests = []) (hb : (s.buf b).isSome = true) :
    OnlyStaging s (freeBuf b s) ∧ (freeBuf b s).staging.requests = [] ∧ (freeBuf b s).buf b = none ∧
      (∀ c, c ≠ b → (freeBuf b s).buf c = s.buf c) ∧
      (freeBuf b s).staging.queue = s.staging.queue.filter (· != b) ∧
      (freeBuf b s).staging.verifying = s.staging.verifying.filter (· != b) := by
  rw [freeBuf_quiet b s h hb]
  refine ⟨rfl, h, ?_, fun c hc => ?_, rfl, rfl⟩
  · simp only [State.buf, updateWait, State.modIntake, List.getD_eq_getElem?_getD, List.getElem?_set]
    simp only [if_true]
    split <;> rfl
  · simp only [State.buf, updateWait, State.modIntake, List.getD_eq_getElem?_getD, List.getElem?_set]
    rw [if_neg (fun h => hc h.symm)]

/-- Buffers freed one after another while no image request waits. -/
theorem foldl_freeBuf_only (bs : List Nat) : ∀ {s : State}, s.staging.requests = [] →
    OnlyStaging s (bs.foldl (fun s n => freeBuf n s) s) ∧ (bs.foldl (fun s n => freeBuf n s) s).staging.requests = [] ∧
      (∀ c, s.buf c = none → (bs.foldl (fun s n => freeBuf n s) s).buf c = none) ∧
      (∀ c, c ∈ bs → (bs.foldl (fun s n => freeBuf n s) s).buf c = none) ∧
      (∀ c, c ∉ bs → (bs.foldl (fun s n => freeBuf n s) s).buf c = s.buf c) ∧
      (∀ c, c ∉ s.staging.queue → c ∉ (bs.foldl (fun s n => freeBuf n s) s).staging.queue) ∧
      (∀ c, c ∉ s.staging.verifying → c ∉ (bs.foldl (fun s n => freeBuf n s) s).staging.verifying) := by
  induction bs with
  | nil => intro s h; exact ⟨rfl, h, fun _ h => h, by simp, fun _ _ => rfl, fun _ h => h, fun _ h => h⟩
  | cons b bs ih =>
    intro s h
    by_cases hb : (s.buf b).isSome = true
    · obtain ⟨f1, f2, f3, f4, f5, f6⟩ := freeBuf_only h hb
      obtain ⟨g1, g2, g3, g4, g5, g6, g7⟩ := ih f2
      simp only [List.foldl_cons]
      refine ⟨f1.trans g1, g2, fun c hc => g3 c ?_, fun c hc => ?_, fun c hc => ?_, fun c hc => g6 c ?_, fun c hc => g7 c ?_⟩
      · by_cases k : c = b
        · rw [k]; exact f3
        · rw [f4 c k]; exact hc
      · rcases List.mem_cons.mp hc with rfl | k
        · exact g3 _ f3
        · exact g4 c k
      · simp only [List.mem_cons, not_or] at hc
        rw [g5 c hc.2, f4 c hc.1]
      · rw [f5]; simp [hc]
      · rw [f6]; simp [hc]
    · have e : freeBuf b s = s := by unfold freeBuf; rw [if_pos (by simpa using hb)]
      have hn : s.buf b = none := by simpa using hb
      obtain ⟨g1, g2, g3, g4, g5, g6, g7⟩ := ih h
      simp only [List.foldl_cons, e]
      refine ⟨g1, g2, g3, fun c hc => ?_, fun c hc => ?_, g6, g7⟩
      · rcases List.mem_cons.mp hc with rfl | k
        · exact g3 _ hn
        · exact g4 c k
      · simp only [List.mem_cons, not_or] at hc
        exact g5 c hc.2

/-! ## The written point of a buffer (R61, R62) -/

/-- What the search for a buffer of a page finds. -/
theorem bufAt_some {s : State} {st : BufState} {a : Addr} {l : Nat} (h : s.bufAt st a = some l) :
    ∃ y, s.buf l = some y ∧ y.st = st ∧ y.target = some a := by
  simp only [State.bufAt] at h
  rw [List.findIdx?_eq_some_iff_getElem] at h
  obtain ⟨h1, h2, _⟩ := h
  cases hx : s.staging.bufs[l] with
  | none => simp [hx] at h2
  | some y =>
    simp [hx] at h2
    exact ⟨y, by simp [State.buf, List.getD_eq_getElem?_getD, List.getElem?_eq_getElem h1, hx], h2.1, h2.2⟩

/-- The search finds the same buffer where each place holds such a buffer before and after. -/
theorem bufAt_congr {s t : State} (st : BufState) (a : Addr)
    (hl : t.staging.bufs.length = s.staging.bufs.length)
    (h : ∀ c x y, s.buf c = some x → t.buf c = some y → (y.st = st ∧ y.target = some a ↔ x.st = st ∧ x.target = some a))
    (h0 : ∀ c x, s.buf c = some x → t.buf c = none → ¬(x.st = st ∧ x.target = some a))
    (h1 : ∀ c x, s.buf c = none → t.buf c = some x → ¬(x.st = st ∧ x.target = some a)) :
    t.bufAt st a = s.bufAt st a := by
  unfold State.bufAt
  let p : Option Buf → Bool := fun x => match x with
    | some b => b.st == st && b.target == some a
    | none => false
  have key : ∀ (l m : List (Option Buf)), l.length = m.length → (∀ c, p (l.getD c none) = p (m.getD c none)) →
      l.findIdx? p = m.findIdx? p := by
    intro l
    induction l with
    | nil => intro m hm _; cases m <;> simp_all
    | cons a l ih =>
      intro m hm hp
      cases m with
      | nil => simp at hm
      | cons b m =>
        have e := hp 0
        simp at e
        simp only [List.findIdx?_cons, e]
        rw [ih m (by simpa using hm) (fun c => by simpa using hp (c + 1))]
  refine key _ _ hl fun c => ?_
  have e1 : t.staging.bufs.getD c none = t.buf c := rfl
  have e2 : s.staging.bufs.getD c none = s.buf c := rfl
  rw [e1, e2]
  cases ht : t.buf c <;> cases hs : s.buf c
  · rfl
  · have := h0 c _ hs ht
    simp [p]; intro q; simpa [q] using this
  · have := h1 c _ hs ht
    simp [p]; intro q; simpa [q] using this
  · have := h c _ _ hs ht
    simp only [p]
    rw [Bool.eq_iff_iff]
    simp [this]

theorem length_freeBuf {b : Nat} {s : State} (h : s.staging.requests = []) (hb : (s.buf b).isSome = true) :
    (freeBuf b s).staging.bufs.length = s.staging.bufs.length := by
  rw [freeBuf_quiet b s h hb]; simp [updateWait, State.modIntake]

/-- The buffer of a page leaves its written point while no image request waits (R61, R62). -/
theorem releaseWritten_quiet {b : Nat} {x : Buf} {a : Addr} {s : State} (hq : s.staging.requests = [])
    (hb : s.buf b = some x) (ht : x.target = some a) (hx : x = { x with exposed := false, reported := true, handed := true })
    (ha : isAnchor a.blk = false) :
    OnlyStaging s (releaseWritten b a s) ∧ Released b x a s (releaseWritten b a s) ∧
      (releaseWritten b a s).staging.requests = [] ∧
      ∀ c, c ≠ b → (a.page % 2 = 1 → s.bufAt .retained { a with page := a.page - 1 } ≠ some c) →
        (releaseWritten b a s).buf c = s.buf c := by
  have hlt := buf_lt hb
  have hbs : (s.buf b).isSome = true := by simp [hb]
  have hret : s.retains a = true ↔ a.page % 2 = 0 ∧ ∃ y, (s.die a.die).bind Die.active = some y ∧
      y.block = a.block ∧ y.next = a.page + 1 := by
    unfold State.retains
    cases h : (s.die a.die).bind Die.active with
    | none => simp
    | some y => simp [ha]
  by_cases hr : s.retains a = true
  · have e : releaseWritten b a s = s.setRetained b := by simp [releaseWritten, hr]
    rw [e]
    obtain ⟨hp, hh⟩ := hret.mp hr
    have hbuf : ∀ c, (s.setRetained b).buf c = if c = b then some { x with st := .retained } else s.buf c := by
      intro c
      have hb' : s.staging.bufs[b]? = some (some x) := by
        simp [State.buf, List.getD_eq_getElem?_getD, List.getElem?_eq_getElem hlt] at hb
        simp [List.getElem?_eq_getElem hlt, hb]
      simp only [State.buf, State.setRetained, State.modBuf, State.modStaging, List.getD_eq_getElem?_getD, List.getElem?_modify]
      split
      · next h => subst h; simp [hb']
      · next h => rw [if_neg (fun k => h k.symm)]; simp
    refine ⟨rfl, ⟨fun _ _ => ?_, fun _ h => absurd hh h, fun h => by omega, ?_, ?_⟩, hq, fun c hc _ => ?_⟩
    · rw [hbuf, if_pos rfl]
      congr 1
      rw [hx]
    · simp [State.setRetained, State.modBuf, State.modStaging]
    · simp [State.setRetained, State.modBuf, State.modStaging]
    · rw [hbuf, if_neg hc]
  · obtain ⟨f1, f2, f3, f4, f5, f6⟩ := freeBuf_only hq hbs
    have hr' : s.retains a = false := by simpa using hr
    by_cases hp : a.page % 2 = 1
    · have hcong : (freeBuf b s).bufAt .retained { a with page := a.page - 1 } = s.bufAt .retained { a with page := a.page - 1 } := by
        have hne : some a ≠ some ({ a with page := a.page - 1 } : Addr) := by
          intro h
          have := congrArg (fun q : Option Addr => (q.map Addr.page).getD 0) h
          simp at this
          omega
        refine bufAt_congr _ _ (length_freeBuf hq hbs) (fun c u v hu hv => ?_) (fun c u hu hv => ?_) (fun c u hu hv => ?_)
        · by_cases hc : c = b
          · subst hc; rw [f3] at hv; cases hv
          · rw [f4 c hc, hu] at hv; cases hv; rfl
        · by_cases hc : c = b
          · subst hc; rw [hb] at hu; cases hu; rw [ht]; exact fun h => hne h.2
          · rw [f4 c hc, hu] at hv; cases hv
        · by_cases hc : c = b
          · subst hc; rw [f3] at hv; cases hv
          · rw [f4 c hc, hu] at hv; cases hv
      have e : releaseWritten b a s = match s.bufAt .retained { a with page := a.page - 1 } with
          | some l => freeBuf l (freeBuf b s)
          | none => freeBuf b s := by
        simp only [releaseWritten, hr', hp, hcong]; rfl
      rw [e]
      cases hl : s.bufAt .retained { a with page := a.page - 1 } with
      | none =>
        dsimp only
        refine ⟨f1, ⟨fun h => by omega, fun h => by omega, fun _ => ⟨f3, fun l h => by rw [hl] at h; cases h⟩,
          by rw [f5]; simp, by rw [f6]; simp⟩, f2,
          fun c hc _ => f4 c hc⟩
      | some l =>
        dsimp only
        have hl2 : ((freeBuf b s).buf l).isSome = true := by
          obtain ⟨y, hy, _⟩ := bufAt_some (hcong.trans hl)
          simp [hy]
        obtain ⟨g1, g2, g3, g4, g5, g6⟩ := freeBuf_only f2 hl2
        refine ⟨f1.trans g1, ⟨fun h => by omega, fun h => by omega, fun _ => ⟨?_, fun l' h => ?_⟩,
          by rw [g5, f5]; simp, by rw [g6, f6]; simp⟩, g2,
          fun c hc hc' => ?_⟩
        · by_cases h : b = l
          · cases h; exact g3
          · rw [g4 b h]; exact f3
        · rw [hl] at h; cases h; exact g3
        · rw [g4 c (fun h => hc' hp (by rw [h])), f4 c hc]
    · have e : releaseWritten b a s = freeBuf b s := by simp [releaseWritten, hr', hp]
      rw [e]
      refine ⟨f1, ⟨fun h k => absurd (hret.mpr ⟨h, k⟩) hr, fun _ _ => f3, fun h => absurd h hp,
        by rw [f5]; simp, by rw [f6]; simp⟩, f2,
        fun c hc _ => f4 c hc⟩

/-! ## A DATA page is handed (R96, R98) -/

/-- An entry goes in behind those of no higher first arrival index (R96). -/
theorem insertPool_split (p : PoolEnt) (l : List PoolEnt) : ∃ xs ys, l = xs ++ ys ∧ insertPool p l = xs ++ p :: ys ∧
    (∀ q ∈ xs, q.e.first ≤ p.e.first) ∧ ∀ q, ys.head? = some q → p.e.first < q.e.first := by
  induction l with
  | nil => exact ⟨[], [], rfl, rfl, by simp, by simp⟩
  | cons q qs ih =>
    unfold insertPool
    split
    · next h => exact ⟨[], q :: qs, rfl, rfl, by simp, by simpa using h⟩
    · next h =>
      obtain ⟨xs, ys, e1, e2, h1, h2⟩ := ih
      refine ⟨q :: xs, ys, by rw [e1]; rfl, by rw [e2]; rfl, fun r hr => ?_, h2⟩
      rcases List.mem_cons.mp hr with rfl | hr
      · exact Nat.le_of_not_lt h
      · exact h1 r hr

/-- With 510 entries free there is no pool pressure (R103). -/
theorem judgePressure_room {s : State} (h : 510 ≤ s.poolFree) : judgePressure s = s := by
  unfold judgePressure
  exact if_pos (Or.inl h)

/-- A close whose flush or root is out goes no further (R107). -/
theorem closeAdvance_stays {n : Nat} {s : State}
    (h : ∀ l, s.line n = some l → l.st = .closing → l.flush.isSome = true ∨ l.rootOut = true) : closeAdvance n s = s := by
  unfold closeAdvance
  split
  · rfl
  · next l e =>
    rw [if_pos]
    by_cases hc : l.st = .closing
    · rcases h l e hc with k | k <;> simp [k]
    · exact Or.inl hc

theorem loadCheck_stays {n : Nat} {s : State} (h : ∀ l, s.line n = some l → l.load ≠ .waitRewrites) : loadCheck n s = s := by
  unfold loadCheck
  split
  · next l e => rw [if_neg (fun k => h l e k.1)]
  · rfl

/-- One block's record changed under its own number. -/
theorem block_modBlock (b c : Blk) (f : BlockRec → BlockRec) (hf : ∀ r, (f r).id = r.id) (s : State) :
    (s.modBlock b f).block c = (s.block c).map fun r => if c = b then f r else r := by
  simp only [State.block, State.modBlock, State.modFlash, mapIf]
  induction s.flash.blocks with
  | nil => rfl
  | cons r rs ih =>
    simp only [List.map_cons, List.find?_cons]
    by_cases hr : r.id = c
    · have e : ((if (r.id == b) = true then f r else r).id == c) = true := by split <;> simp [hf, hr]
      have e2 : (r.id == c) = true := by simpa using hr
      rw [e, e2]
      simp only [Option.map_some, hr, beq_iff_eq]
    · have e : ((if (r.id == b) = true then f r else r).id == c) = false := by split <;> simp [hf, hr]
      have e2 : (r.id == c) = false := by simpa using hr
      simp only [e, e2, ih]

theorem sum_mapIf {n : Nat} {f : Line → Line} {ls : List Line} {l : Line} (hu : (ls.map Line.num).Nodup)
    (hl : ls.find? (fun l => l.num == n) = some l) (k : Nat) (hk : (f l).pool.length = l.pool.length + k) :
    ((mapIf (fun l => l.num == n) f ls).map fun l => l.pool.length).sum = (ls.map fun l => l.pool.length).sum + k := by
  induction ls with
  | nil => simp at hl
  | cons a ls ih =>
    simp only [List.map_cons, List.nodup_cons] at hu
    simp only [List.find?_cons] at hl
    by_cases ha : a.num = n
    · simp [ha] at hl
      subst hl
      have e : mapIf (fun l => l.num == n) f ls = ls := by
        simp only [mapIf]
        conv => rhs; rw [← List.map_id ls]
        refine List.map_congr_left fun x hx => ?_
        rw [if_neg]
        · rfl
        · intro hn
          exact hu.1 (by rw [ha]; exact List.mem_map.mpr ⟨x, hx, by simpa using hn⟩)
      have e' : mapIf (fun l => l.num == n) f (a :: ls) = f a :: ls := by
        conv => rhs; rw [← e]
        simp [mapIf, ha]
      rw [e']
      simp [hk]; omega
    · have h2 : (a.num == n) = false := by simpa using ha
      rw [h2] at hl
      have e' : mapIf (fun l => l.num == n) f (a :: ls) = a :: mapIf (fun l => l.num == n) f ls := by simp [mapIf, ha]
      rw [e']
      simp only [List.map_cons, List.sum_cons]
      rw [ih hu.2 hl]; omega

theorem insertPool_length (p : PoolEnt) (l : List PoolEnt) : (insertPool p l).length = l.length + 1 := by
  obtain ⟨xs, ys, e1, e2, _⟩ := insertPool_split p l
  rw [e2, e1]; simp; omega

/-- The new entry of a handed page (R96). -/
theorem newEntry_entered {h : PageHdr} {a : Addr} {s : State} {l : Line} (hl : s.line h.line = some l)
    (hp : 510 < s.poolFree) (ha : isAnchor a.blk = false) : Entered h a l s (newEntry h a s) := by
  have e : newEntry h a s = refUp a (s.modLine h.line fun l => l.addEntry (entryOf h a)) := by
    unfold newEntry; rw [if_neg (by omega)]
  have hnum := line_num hl
  rw [e]
  have e2 : refUp a (s.modLine h.line fun l => l.addEntry (entryOf h a)) =
      (s.modLine h.line fun l => l.addEntry (entryOf h a)).modBlock a.blk fun r => { r with live := min (r.live + 1) 256 } := by
    unfold refUp; rw [ha]; rfl
  rw [e2]
  obtain ⟨xs, ys, p1, p2, p3, p4⟩ := insertPool_split { e := entryOf h a, inSeg := false, out := false } l.pool
  refine ⟨⟨xs, ys, p1, p3, p4, ?_⟩, fun m hm => ?_, fun c => ?_⟩
  · have := line_modLine h.line h.line (fun l => l.addEntry (entryOf h a)) (fun _ => rfl) s
    show State.line (s.modLine h.line _) h.line = _
    rw [this, hl]
    simp only [Option.map_some, hnum, beq_self_eq_true, if_true]
    congr 1
    unfold Line.addEntry
    rw [p2]
    congr 1
    · simp only [entryOf, widen]
      cases l.range <;> rfl
  · have := line_modLine h.line m (fun l => l.addEntry (entryOf h a)) (fun _ => rfl) s
    show State.line (s.modLine h.line _) m = _
    rw [this]
    cases hq : s.line m with
    | none => rfl
    | some q =>
      have k : ¬(q.num == h.line) = true := by simpa [line_num hq] using hm
      simp only [Option.map_some]
      rw [if_neg k]
  · rw [block_modBlock a.blk c (fun r => { r with live := min (r.live + 1) 256 }) (fun _ => rfl)]
    have : (s.modLine h.line fun l => l.addEntry (entryOf h a)).block c = s.block c := rfl
    rw [this]
    cases s.block c with
    | none => rfl
    | some r => simp only [Option.map_some]; congr 1; split <;> rfl

theorem poolFree_newEntry {h : PageHdr} {a : Addr} {s : State} {l : Line} (hl : s.line h.line = some l)
    (hp : 510 < s.poolFree) (hu : s.store.ok) : 510 ≤ (newEntry h a s).poolFree := by
  have e : newEntry h a s = refUp a (s.modLine h.line fun l => l.addEntry (entryOf h a)) := by
    unfold newEntry; rw [if_neg (by omega)]
  rw [e]
  have e2 : (refUp a (s.modLine h.line fun l => l.addEntry (entryOf h a))).store =
      (s.modLine h.line fun l => l.addEntry (entryOf h a)).store := by unfold refUp; split <;> rfl
  have e3 : (refUp a (s.modLine h.line fun l => l.addEntry (entryOf h a))).poolUsed = s.poolUsed + 1 := by
    unfold State.poolUsed
    rw [e2]
    exact sum_mapIf hu.2 hl 1 (insertPool_length _ _)
  simp only [State.poolFree, e3] at hp ⊢
  omega

/-- A DATA page of a line is handed to the line store, nothing else following (R96, R98). -/
theorem handPage_data {x : Buf} {a : Addr} {first : Bool} {s : State} (hk : x.hdr.kind = .data)
    (hj : x.job = .intake ∨ x.job = .reloc) :
    handPage x a first s = loadCheck x.hdr.line (closeAdvance x.hdr.line (judgePressure
      (handData x.hdr a (if first && x.origin != .relocation then none
        else some (if first && x.origin == .relocation then x.hdr.orig else x.hdr.sup)) s))) := by
  unfold handPage
  rw [hk]
  rcases hj with h | h <;> simp [h, handLinePage, hk]

theorem line_refUp (a : Addr) (s : State) (m : Nat) : (refUp a s).line m = s.line m := by
  unfold refUp; split <;> rfl

/-- A first handing to an OPEN or CLOSING line makes a new entry (R96). -/
theorem handPage_entered {x : Buf} {a : Addr} {s : State} {l : Line} (hs : HandStill x.hdr.line s)
    (hk : x.hdr.kind = .data) (hj : x.job = .intake ∨ x.job = .reloc) (ho : x.origin ≠ .relocation)
    (ha : isAnchor a.blk = false) (hl : s.line x.hdr.line = some l) (hi : l.indexing = true) :
    handPage x a true s = newEntry x.hdr a s ∧ Entered x.hdr a l s (handPage x a true s) := by
  have hn : s.line x.hdr.line = some l := hl
  have he := newEntry_entered (h := x.hdr) hl hs.2.2.2.1 ha
  have e : handPage x a true s = newEntry x.hdr a s := by
    rw [handPage_data hk hj]
    have e0 : handData x.hdr a (if true && x.origin != .relocation then none
        else some (if true && x.origin == .relocation then x.hdr.orig else x.hdr.sup)) s = newEntry x.hdr a s := by
      simp [handData, hl, hi, ho]
    rw [e0]
    obtain ⟨⟨xs, ys, _, _, _, e2⟩, _⟩ := he
    rw [judgePressure_room (poolFree_newEntry hl hs.2.2.2.1 hs.2.2.1)]
    rw [closeAdvance_stays (fun m hm hc => by rw [e2] at hm; cases hm; exact (hs.2.2.2.2 l hl).2 hc)]
    rw [loadCheck_stays (fun m hm => by rw [e2] at hm; cases hm; exact (hs.2.2.2.2 l hl).1)]
  exact ⟨e, e ▸ he⟩

/-- A page that is not entered changes nothing (R96, R98). -/
theorem handPage_stands {x : Buf} {a : Addr} {first : Bool} {s : State} (hs : HandStill x.hdr.line s)
    (hk : x.hdr.kind = .data) (hj : x.job = .intake ∨ x.job = .reloc)
    (h : handData x.hdr a (if first && x.origin != .relocation then none
        else some (if first && x.origin == .relocation then x.hdr.orig else x.hdr.sup)) s = s) :
    handPage x a first s = s := by
  rw [handPage_data hk hj, h, judgePressure_room (by have := hs.2.2.2.1; omega),
    closeAdvance_stays (fun m hm hc => (hs.2.2.2.2 m hm).2 hc), loadCheck_stays (fun m hm => (hs.2.2.2.2 m hm).1)]

/-- A pool entry is replaced by a new copy (R98). -/
theorem replacePool_replaced {h : PageHdr} {a c : Addr} {s : State} {l : Line} {y : PoolEnt} {p : Repl}
    (hl : s.line h.line = some l) 
    (hp : p = {
      line := h.line, arrival := h.first, old := p.old, new := some { addr := a, wseq := h.wseq },
      verified := h.verified, relocated := h.relocated, prior := false })
    (hy : y.e.loc = some c) (ha : isAnchor a.blk = false) (h1 : ∀ k, s.block a.blk = some k → k.live < 256)
    (h2 : ∀ k, s.block c.blk = some k → k.st ≠ .anchor ∧ 2 ≤ k.live) :
    Replaced h a c y l s (replacePool p y s) ∧ (replacePool p y s).poolUsed = s.poolUsed ∧
      (∀ m, (replacePool p y s).line m = (s.line m).map fun l => if m = h.line then { l with
        pool := l.pool.map fun p => if p.e.first = h.first then
            { p with e := { p.e with loc := some a, wseq := h.wseq, verified := h.verified, relocated := h.relocated },
                     moved := true, again := p.out }
          else p,
        flush := if y.out then l.flush.map fun f => { f with stale := true } else l.flush,
        rewrite := l.rewrite || (y.inSeg && !y.out) } else l) ∧
      (∃ bl ls, replacePool p y s = { s with flash := { s.flash with blocks := bl }, store := { s.store with lines := ls } }) := by
  let f : Line → Line := fun l => { l with
    pool := mapIf (fun y => y.e.first == p.arrival) (PoolEnt.replaced p) l.pool,
    flush := if y.out then l.flush.map fun f => { f with stale := true } else l.flush,
    rewrite := l.rewrite || (y.inSeg && !y.out) }
  let up : State := (s.modBlock a.blk fun r => { r with live := min (r.live + 1) 256 })
  have e0 : countNew p s = up := by
    unfold countNew; rw [hp]; simp only [refUp, ha]; rfl
  have hup : ∀ k, up.block c.blk = some k → k.st ≠ .anchor ∧ 2 ≤ k.live := by
    intro k hk
    have := block_modBlock a.blk c.blk (fun r => { r with live := min (r.live + 1) 256 }) (fun _ => rfl) s
    rw [show up.block c.blk = _ from this] at hk
    cases hb : s.block c.blk with
    | none => rw [hb] at hk; cases hk
    | some q =>
      rw [hb] at hk
      obtain ⟨g1, g2⟩ := h2 q hb
      simp only [Option.map_some, Option.some.injEq] at hk
      subst hk
      split
      · next hc => exact ⟨g1, by have := h1 q (by rw [← hc]; exact hb); simp only; omega⟩
      · exact ⟨g1, g2⟩
  have e1 : replacePool p y s = refDown c (up.modLine p.line f) := by
    unfold replacePool enterPool
    rw [e0, hy]
    rfl
  have e2 : refDown c (up.modLine p.line f) = (match up.block c.blk with
      | none => up.modLine p.line f
      | some _ => (up.modLine p.line f).modBlock c.blk fun r => { r with live := r.live - 1 }) := by
    unfold refDown
    have : (up.modLine p.line f).block c.blk = up.block c.blk := rfl
    rw [this]
    cases hb : up.block c.blk with
    | none => rfl
    | some k =>
      obtain ⟨g1, g2⟩ := hup k hb
      have g3 : ((k.st = .anchor || k.live = 0) = true) ↔ False := by simp [g1]; omega
      have g4 : (k.live = 1) ↔ False := by simp; omega
      simp only [g3, g4, if_false]
  have e3 : replacePool p y s = (match up.block c.blk with
      | none => up.modLine p.line f
      | some _ => (up.modLine p.line f).modBlock c.blk fun r => { r with live := r.live - 1 }) := e1.trans e2
  have hlines : (replacePool p y s).store.lines = mapIf (fun l => l.num == p.line) f s.store.lines := by
    rw [e3]; split <;> rfl
  have hpl : p.line = h.line := by rw [hp]
  have hline : ∀ m, (replacePool p y s).line m = (s.line m).map fun l => if m = h.line then { l with
        pool := l.pool.map fun p => if p.e.first = h.first then
            { p with e := { p.e with loc := some a, wseq := h.wseq, verified := h.verified, relocated := h.relocated },
                     moved := true, again := p.out }
          else p,
        flush := if y.out then l.flush.map fun f => { f with stale := true } else l.flush,
        rewrite := l.rewrite || (y.inSeg && !y.out) } else l := by
    intro m
    have k1 : (replacePool p y s).line m = (s.modLine p.line f).line m := by
      simp only [State.line, hlines]; rfl
    rw [k1, line_modLine _ _ f (fun _ => rfl), hpl]
    cases hq : s.line m with
    | none => rfl
    | some q =>
      simp only [Option.map_some, line_num hq, beq_iff_eq]
      congr 1
      split
      · simp only [f, mapIf]
        rw [hp]
        congr 1
        · exact line_num hq
        · refine List.map_congr_left fun z _ => ?_
          simp only [beq_iff_eq, PoolEnt.replaced, PageEntry.replaced]
      · rfl
  refine ⟨⟨?_, fun m hm => ?_, fun b => ?_⟩, ?_, hline, ?_⟩
  · rw [hline, hl]; simp
  · rw [hline]; cases s.line m <;> simp [hm]
  · have k1 := block_modBlock a.blk b (fun r => { r with live := min (r.live + 1) 256 }) (fun _ => rfl) s
    have k2 := block_modBlock c.blk b (fun r => { r with live := r.live - 1 }) (fun _ => rfl) (up.modLine p.line f)
    have k3 : (up.modLine p.line f).block b = up.block b := rfl
    have k1' : up.block b = (s.block b).map fun r => if b = a.blk then { r with live := min (r.live + 1) 256 } else r := k1
    rw [e3]
    cases hq : s.block b with
    | none =>
      rw [hq] at k1'
      split
      · rw [k3, k1']; rfl
      · rw [k2, k3, k1']; rfl
    | some q =>
      rw [hq] at k1'
      simp only [Option.map_some] at k1'
      have hlt : b = a.blk → q.live < 256 := fun hb => h1 q (by rw [← hb]; exact hq)
      split
      · next hn =>
        have hb : b ≠ c.blk := fun hb => by rw [← hb, k1'] at hn; cases hn
        rw [k3, k1']
        simp only [Option.map_some, hb, if_false]
        by_cases hba : b = a.blk
        · have := hlt hba; simp only [hba, if_true]; congr 1; omega
        · simp [hba]
      · rw [k2, k3, k1']
        simp only [Option.map_some]
        by_cases hba : b = a.blk
        · have := hlt hba
          by_cases hbc : b = c.blk
          · simp only [hba, if_true]
            rw [← hba, hbc]; simp only [if_true]; congr 1; omega
          · have : ¬a.blk = c.blk := fun h => hbc (hba.trans h)
            simp only [hba, this, if_true, if_false]; congr 1; omega
        · by_cases hbc : b = c.blk
          · have : ¬c.blk = a.blk := fun h => hba (hbc.trans h)
            simp [hbc, this]
          · simp [hba, hbc]
  · unfold State.poolUsed
    rw [hlines]
    congr 1
    simp only [mapIf, List.map_map]
    refine List.map_congr_left fun z _ => ?_
    simp only [Function.comp]
    split <;> simp [f, mapIf]
  · rw [e3]
    split
    · exact ⟨_, _, rfl⟩
    · exact ⟨_, _, rfl⟩

/-- A handing that names the copy of a pool entry replaces it (R98). -/
theorem handPage_replaced {x : Buf} {a c : Addr} {first : Bool} {s : State} {l : Line} {y : PoolEnt} {old : Nat}
    (hs : HandStill x.hdr.line s) (hk : x.hdr.kind = .data) (hj : x.job = .intake ∨ x.job = .reloc)
    (ha : isAnchor a.blk = false) (hl : s.line x.hdr.line = some l)
    (ho : (if first && x.origin != .relocation then none
        else some (if first && x.origin == .relocation then x.hdr.orig else x.hdr.sup)) = some old)
    (hf : l.pool.find? (fun p => p.e.first == x.hdr.first) = some y) (hw : y.e.wseq = old) (hc : y.e.loc = some c)
    (h1 : ∀ k, s.block a.blk = some k → k.live < 256)
    (h2 : ∀ k, s.block c.blk = some k → k.st ≠ .anchor ∧ 2 ≤ k.live) :
    Replaced x.hdr a c y l s (handPage x a first s) ∧
      ∃ bl ls, handPage x a first s = { s with flash := { s.flash with blocks := bl }, store := { s.store with lines := ls } } := by
  let p : Repl := {
    line := x.hdr.line, arrival := x.hdr.first, old := old, new := some { addr := a, wseq := x.hdr.wseq },
    verified := x.hdr.verified, relocated := x.hdr.relocated, prior := false }
  have hy : y.e.first = x.hdr.first := by simpa using List.find?_some hf
  obtain ⟨g1, g2, g3, g4⟩ := replacePool_replaced (p := p) hl rfl hc ha h1 h2
  have e0 : handData x.hdr a (some old) s = replacePool p y s := by
    simp only [handData, hl, replaceCopy, hf, PageEntry.names, hy, hw, hc]
    simp [p]
  have hload : ∀ m, (replacePool p y s).line x.hdr.line = some m → m.st = l.st ∧ m.load = l.load ∧ m.rootOut = l.rootOut ∧
      m.flush.isSome = l.flush.isSome := by
    intro m hm
    rw [g3, hl] at hm
    simp only [Option.map_some, if_true, Option.some.injEq] at hm
    subst hm
    refine ⟨rfl, rfl, rfl, ?_⟩
    dsimp only
    split <;> simp
  obtain ⟨q1, q2⟩ := hs.2.2.2.2 l hl
  have e1 : handPage x a first s = replacePool p y s := by
    rw [handPage_data hk hj, ho, e0, judgePressure_room, closeAdvance_stays, loadCheck_stays]
    · intro m hm; rw [(hload m hm).2.1]; exact q1
    · intro m hm hcl; rw [(hload m hm).1] at hcl; rw [(hload m hm).2.2.1, (hload m hm).2.2.2]; exact q2 hcl
    · have := hs.2.2.2.1
      simp only [State.poolFree, g2] at this ⊢
      omega
  rw [e1]
  exact ⟨g1, g4⟩

theorem block_congr {s t : State} (h : t.flash.blocks = s.flash.blocks) (c : Blk) : t.block c = s.block c := by
  simp only [State.block, h]
theorem line_congr {s t : State} (h : t.store.lines = s.store.lines) (m : Nat) : t.line m = s.line m := by
  simp only [State.line, h]

theorem Entered.congr {h : PageHdr} {a : Addr} {l : Line} {s s' t t' : State} (k : Entered h a l s t)
    (h1 : s'.store.lines = s.store.lines) (h2 : s'.flash.blocks = s.flash.blocks) (h3 : t'.store.lines = t.store.lines)
    (h4 : ∀ c, (t'.block c).map BlockRec.live = (t.block c).map BlockRec.live) : Entered h a l s' t' := by
  obtain ⟨⟨xs, ys, p1, p2, p3, p4⟩, k2, k3⟩ := k
  refine ⟨⟨xs, ys, p1, p2, p3, by rw [line_congr h3]; exact p4⟩, fun m hm => ?_, fun c => ?_⟩
  · rw [line_congr h3, line_congr h1]; exact k2 m hm
  · rw [h4, block_congr h2]; exact k3 c

theorem Replaced.congr {h : PageHdr} {a c : Addr} {y : PoolEnt} {l : Line} {s s' t t' : State} (k : Replaced h a c y l s t)
    (h1 : s'.store.lines = s.store.lines) (h2 : s'.flash.blocks = s.flash.blocks) (h3 : t'.store.lines = t.store.lines)
    (h4 : t'.flash.blocks = t.flash.blocks) : Replaced h a c y l s' t' := by
  obtain ⟨k1, k2, k3⟩ := k
  refine ⟨by rw [line_congr h3]; exact k1, fun m hm => ?_, fun c => ?_⟩
  · rw [line_congr h3, line_congr h1]; exact k2 m hm
  · rw [block_congr h4, block_congr h2]; exact k3 c

/-! ## A die without its operation, and one buffer changed -/

theorem active_clearOp (d e : Nat) (s : State) : ((clearOp d s).die e).bind Die.active = (s.die e).bind Die.active := by
  simp only [State.die, clearOp, State.modDie, State.modFlash, List.getElem?_modify]
  cases s.flash.dies[e]? with
  | none => rfl
  | some y => simp only [Option.bind_some]; split <;> rfl

theorem op_clearOp (d : Nat) (s : State) : ((clearOp d s).die d).bind Die.op = none := by
  simp only [State.die, clearOp, State.modDie, State.modFlash, List.getElem?_modify]
  cases s.flash.dies[d]? with
  | none => rfl
  | some y => simp

theorem ready_clearOp (d e : Nat) (s : State) : (clearOp d s).dieReady e = s.dieReady e := by
  simp only [State.dieReady, State.die, clearOp, State.modDie, State.modFlash, List.getElem?_modify]
  cases s.flash.dies[e]? with
  | none => rfl
  | some y => simp only [Option.map_some]; split <;> rfl

theorem buf_setBuf {b c : Nat} {v : Option Buf} {s : State} (hb : b < s.staging.bufs.length) :
    (s.setBuf b v).buf c = if c = b then v else s.buf c := by
  simp only [State.buf, State.setBuf, State.modStaging, List.getD_eq_getElem?_getD, List.getElem?_set]
  by_cases h : b = c
  · subst h; simp [hb]
  · rw [if_neg h, if_neg (fun k => h k.symm)]

theorem buf_modBuf {b c : Nat} {f : Buf → Buf} {s : State} {x : Buf} (hx : s.buf b = some x) :
    (s.modBuf b f).buf c = if c = b then some (f x) else s.buf c := by
  have hb := buf_lt hx
  simp only [State.buf, List.getD_eq_getElem?_getD] at hx
  simp only [State.buf, State.modBuf, State.modStaging, List.getD_eq_getElem?_getD, List.getElem?_modify]
  by_cases h : b = c
  · subst h
    simp only [if_true]
    cases hq : s.staging.bufs[b]? with
    | none => simp [hq] at hx
    | some q => simp [hq] at hx; simp [hx]
  · rw [if_neg (fun k => h k.symm)]
    simp [h]

/-! ## The written point as a whole -/

/-- Buffer `b` at its written point, from a state `u` in which its page is to be handed. -/
theorem writtenPoint_quiet {b : Nat} {a : Addr} {x : Buf} {u v : State} (hx : u.buf b = some x) (ht : x.target = some a)
    (hv : v = if x.handed then u.setBuf b (some { x with reported := true, handed := true })
      else handPage x a (!x.reported) (u.setBuf b (some { x with reported := true, handed := true })))
    (hst : v.staging = (u.setBuf b (some { x with reported := true, handed := true })).staging)
    (hq : u.staging.requests = []) (ha : isAnchor a.blk = false) (hd : v.flash.dies = u.flash.dies) (he : x.exposed = false) :
    OnlyStaging v (writtenPoint b u) ∧ Released b x a u (writtenPoint b u) ∧ (writtenPoint b u).staging.requests = [] ∧
      ∀ c, c ≠ b → (a.page % 2 = 1 → u.bufAt .retained { a with page := a.page - 1 } ≠ some c) →
        (writtenPoint b u).buf c = u.buf c := by
  have hb := buf_lt hx
  have e : writtenPoint b u = releaseWritten b a v := by
    unfold writtenPoint
    rw [hx]
    dsimp only
    rw [ht]
    dsimp only
    rw [hv]
    simp only [ht]
  have hbuf : ∀ c, v.buf c = if c = b then some { x with reported := true, handed := true } else u.buf c := by
    intro c
    have : v.buf c = (u.setBuf b (some { x with reported := true, handed := true })).buf c := by simp only [State.buf, hst]
    rw [this, buf_setBuf hb]
  obtain ⟨g1, ⟨r1, r2, r3, r4, r5⟩, g3, g4⟩ := releaseWritten_quiet (b := b) (x := { x with reported := true, handed := true })
    (a := a) (s := v) (by rw [hst]; exact hq) (by rw [hbuf]; simp) ht (by simp [he]) ha
  have hdie : ∀ e, v.die e = u.die e := fun e => by simp only [State.die, hd]
  have hat : v.bufAt .retained { a with page := a.page - 1 } = u.bufAt .retained { a with page := a.page - 1 } := by
    refine bufAt_congr _ _ (by rw [hst]; simp [State.setBuf, State.modStaging]) (fun c y z hy hz => ?_) (fun c y hy hz => ?_)
      (fun c y hy hz => ?_)
    · rw [hbuf] at hz
      split at hz
      · next hc => subst hc; rw [hx] at hy; cases hy; cases hz; rfl
      · rw [hy] at hz; cases hz; rfl
    · rw [hbuf] at hz
      split at hz
      · cases hz
      · rw [hy] at hz; cases hz
    · rw [hbuf] at hz
      split at hz
      · next hc => subst hc; rw [hx] at hy; cases hy
      · rw [hy] at hz; cases hz
  rw [e]
  refine ⟨g1, ⟨fun h k => ?_, fun h k => r2 h ?_, fun h => ?_, r4, r5⟩, g3, fun c hc k => ?_⟩
  · rw [r1 h (by rw [hdie]; exact k)]
  · rw [hdie]; exact k
  · rw [hat] at r3; exact r3 h
  · rw [g4 c hc (by rw [hat]; exact k), hbuf, if_neg hc]

/-- What `HandStill` reads stands as it was. -/
theorem HandStill.of {n : Nat} {s t : State} (h : HandStill n s) (hq : t.staging.requests = []) (hs : t.store = s.store)
    (h2 : t.flash.refresh = s.flash.refresh) (h3 : t.retr.ctx = s.retr.ctx) (h4 : t.flash.reads = s.flash.reads)
    (h5 : ∀ d, t.dieReady d = s.dieReady d) (h6 : t.power = s.power) (h7 : t.link = s.link) : HandStill n t := by
  obtain ⟨k1, _, k3, k4, k5⟩ := h
  refine ⟨still_congr k1 (by rw [hs]) h2 h3 h4 h5 (by rw [h6]) ?_ (by simp only [State.emergency, h6]), hq, hs ▸ k3, ?_, ?_⟩
  · have := k1.2.2.2.2.1
    simp only [State.isRunning, h7] at this ⊢
    exact this
  · simp only [State.poolFree, State.poolUsed, hs] at k4 ⊢
    exact k4
  · intro l hl
    exact k5 l (by rw [← hl]; exact (line_congr (by rw [hs]) n).symm)

end Sys2Proof.Machine
end

