-- ==== Sys2Proof/Laws/Handed.lean ====
section
/-!
SUPPORT. What the handing of an index page does where nothing else follows from it: the references it counts and drops, the line
it changes and the cache, and how the buffer of a checkpoint page ends.
-/
namespace Sys2Proof.Machine

/-! ## References counted and dropped -/

/-- A block that the table does not record is not changed. -/
theorem modBlock_none {a : Blk} {f : BlockRec → BlockRec} {s : State} (h : s.block a = none) : s.modBlock a f = s := by
  have : mapIf (fun r => r.id == a) f s.flash.blocks = s.flash.blocks := by
    simp only [State.block, List.find?_eq_none] at h
    simp only [mapIf]
    conv => rhs; rw [← List.map_id s.flash.blocks]
    refine List.map_congr_left fun r hr => ?_
    rw [if_neg (by simpa using h r hr)]; rfl
  simp only [State.modBlock, State.modFlash, this]

/-- A reference dropped that is not the last of its block (R71). -/
theorem refDown_room {a : Addr} {s : State} (h : ∀ r, s.block a.blk = some r → r.st ≠ .anchor ∧ 1 < r.live) :
    refDown a s = s.modBlock a.blk fun r => { r with live := r.live - 1 } := by
  unfold refDown
  cases hb : s.block a.blk with
  | none => exact (modBlock_none hb).symm
  | some r =>
    obtain ⟨h1, h2⟩ := h r hb
    dsimp only
    rw [if_neg (by simp [h1]; omega), if_neg (by omega)]

/-- References dropped one by one, none of them the last of its block. -/
theorem refDownAll_room (downs : List Addr) : ∀ {s : State},
    (∀ a ∈ downs, ∀ r, s.block a.blk = some r → r.st ≠ .anchor ∧ downs.length < r.live) →
    (∃ bl, refDownAll downs s = { s with flash := { s.flash with blocks := bl } }) ∧
      ∀ c, (refDownAll downs s).block c =
        (s.block c).map fun r => { r with live := r.live - downs.countP fun a => decide (a.blk = c) } := by
  induction downs with
  | nil =>
    intro s _
    refine ⟨⟨s.flash.blocks, rfl⟩, fun c => ?_⟩
    show s.block c = _
    cases s.block c <;> rfl
  | cons a downs ih =>
    intro s h
    have h0 : ∀ r, s.block a.blk = some r → r.st ≠ .anchor ∧ 1 < r.live := by
      intro r hr
      obtain ⟨k1, k2⟩ := h a (List.mem_cons_self ..) r hr
      simp only [List.length_cons] at k2
      exact ⟨k1, by omega⟩
    have e : refDownAll (a :: downs) s = refDownAll downs (s.modBlock a.blk fun r => { r with live := r.live - 1 }) := by
      unfold refDownAll; rw [List.foldl_cons, refDown_room h0]
    have hb : ∀ c, (s.modBlock a.blk fun r => { r with live := r.live - 1 }).block c =
        (s.block c).map fun r => if c = a.blk then { r with live := r.live - 1 } else r := fun c =>
      block_modBlock a.blk c _ (by intro r; rfl) s
    obtain ⟨⟨bl, i1⟩, i2⟩ := ih (s := s.modBlock a.blk fun r => { r with live := r.live - 1 }) (by
      intro q hq r hr
      rw [hb] at hr
      cases hs : s.block q.blk with
      | none => rw [hs] at hr; cases hr
      | some r0 =>
        rw [hs] at hr
        obtain ⟨k1, k2⟩ := h q (List.mem_cons_of_mem _ hq) r0 hs
        simp only [List.length_cons] at k2
        simp only [Option.map_some, Option.some.injEq] at hr
        subst hr
        split
        · exact ⟨k1, by dsimp only; omega⟩
        · exact ⟨k1, by omega⟩)
    refine ⟨⟨bl, by rw [e, i1]; rfl⟩, fun c => ?_⟩
    rw [e, i2, hb]
    cases s.block c with
    | none => rfl
    | some r =>
      simp only [Option.map_some, Option.some.injEq, List.countP_cons]
      by_cases hc : c = a.blk
      · subst hc; simp; omega
      · have : ¬ a.blk = c := fun h => hc h.symm
        simp [hc, this]

/-- One copy dropped, as a list. -/
theorem dropLoc_all (x : Option Addr) (s : State) : dropLoc x s = refDownAll x.toList s := by
  cases x <;> rfl

/-- Copies dropped in two parts. -/
theorem refDownAll_append (xs ys : List Addr) (s : State) : refDownAll (xs ++ ys) s = refDownAll ys (refDownAll xs s) := by
  simp [refDownAll]

/-- A reference counted below the bound of 256 (R71). -/
theorem refUp_room {a : Addr} {s : State} (ha : isAnchor a.blk = false) (h : ∀ r, s.block a.blk = some r → r.live < 256) :
    refUp a s = s.modBlock a.blk (fun r => { r with live := min (r.live + 1) 256 }) ∧
      ∀ c, (refUp a s).block c = (s.block c).map fun r => if c = a.blk then { r with live := r.live + 1 } else r := by
  have e : refUp a s = s.modBlock a.blk (fun r => { r with live := min (r.live + 1) 256 }) := by unfold refUp; rw [ha]; rfl
  refine ⟨e, fun c => ?_⟩
  rw [e, block_modBlock a.blk c _ (by intro r; rfl) s]
  cases hs : s.block c with
  | none => rfl
  | some r =>
    simp only [Option.map_some]
    split
    · next hc => subst hc; have := h r hs; congr 2; omega
    · rfl

/-- What lies between a count and the drops leaves the block table alone. -/
theorem counted_between {a : Addr} {downs : List Addr} {s u v : State} (ha : isAnchor a.blk = false)
    (hr : CountsRoom a downs s) (hu : u.flash.blocks = (refUp a s).flash.blocks) (hv : v = refDownAll downs u) :
    (∃ bl, v = { u with flash := { u.flash with blocks := bl } }) ∧ Counted a downs s v := by
  obtain ⟨_, hup⟩ := refUp_room ha hr.1
  have hub : ∀ c, u.block c = (s.block c).map fun r => if c = a.blk then { r with live := r.live + 1 } else r := fun c => by
    rw [block_congr hu]; exact hup c
  obtain ⟨e1, e2⟩ := refDownAll_room downs (s := u) (by
    intro q hq r hr'
    rw [hub] at hr'
    cases hs : s.block q.blk with
    | none => rw [hs] at hr'; cases hr'
    | some r0 =>
      rw [hs] at hr'
      obtain ⟨k1, k2⟩ := hr.2 q hq r0 hs
      simp only [Option.map_some, Option.some.injEq] at hr'
      subst hr'
      split
      · exact ⟨k1, by dsimp only; omega⟩
      · exact ⟨k1, k2⟩)
  rw [hv]
  refine ⟨e1, fun c => ?_⟩
  rw [e2, hub]
  cases s.block c with
  | none => rfl
  | some r =>
    simp only [Option.map_some, Option.some.injEq]
    split <;> simp

/-! ## Lines and the cache -/

/-- One line changed by a function that keeps its number. -/
theorem line_becomes {n : Nat} {l : Line} {f : Line → Line} {s : State} (hf : ∀ l, (f l).num = l.num)
    (hl : s.line n = some l) : LineBecomes n (f l) s (s.modLine n f) := by
  refine ⟨?_, fun m hm => ?_⟩
  · rw [line_modLine n n f hf s, hl]
    simp [line_num hl]
  · rw [line_modLine n m f hf s]
    cases hs : s.line m with
    | none => rfl
    | some q =>
      have k : ¬(q.num == n) = true := by simpa [line_num hs] using hm
      simp only [Option.map_some]
      rw [if_neg k]

/-- A line whose pool does not grow leaves as many free entries. -/
theorem poolUsed_le {n : Nat} {f : Line → Line} {s : State} (hf : ∀ l, (f l).pool.length ≤ l.pool.length) :
    (s.modLine n f).poolUsed ≤ s.poolUsed := by
  show ((mapIf (fun l => l.num == n) f s.store.lines).map fun l => l.pool.length).sum ≤ (s.store.lines.map fun l => l.pool.length).sum
  induction s.store.lines with
  | nil => exact Nat.le_refl _
  | cons a ls ih =>
    simp only [mapIf, List.map_cons, List.sum_cons] at ih ⊢
    have : (if (a.num == n) = true then f a else a).pool.length ≤ a.pool.length := by split; exact hf a; exact Nat.le_refl _
    omega

/-- The cached copy of a segment is dropped (R103, R105). -/
theorem cache_dropped (n k : Nat) (s : State) : CacheDropped n k s (invalidateSeg n k s) := by
  show (s.retr.cache.map (CacheSet.drop fun w => w.line == n && w.seg == k)) = _
  refine List.map_congr_left fun c _ => ?_
  unfold CacheSet.drop
  congr 1
  refine List.map_congr_left fun w _ => ?_
  cases w with
  | none => rfl
  | some x =>
    simp only [Option.filter]
    by_cases h : (x.line == n && x.seg == k) = true
    · rw [if_pos h, if_neg (by simp [h])]
    · rw [if_neg h, if_pos (by simp [h])]

/-- The index page handings change the line store, the counts, the reads requested and the retrieval unit alone. -/
def IndexFrame (w v : State) : Prop :=
  ∃ st bl rd rt, v = { w with store := st, flash := { w.flash with blocks := bl, reads := rd }, retr := rt }

/-- No follow-up work stands after such a change where none stood before. -/
theorem IndexFrame.still {w v : State} (h : IndexFrame w v) (hs : Still w) (hw : v.store.walk = w.store.walk)
    (hr : ∀ q ∈ v.flash.reads, w.dieReady q.addr.die = true)
    (hc : ∀ q, v.retr.ctx.bind RetrCtx.read = some q → w.dieReady q.addr.die = true) : Still v := by
  obtain ⟨st, bl, rd, rt, rfl⟩ := h
  obtain ⟨a, b, c, d, e, f⟩ := hs
  exact ⟨by unfold WalkStill at a ⊢; rw [hw]; exact a, hc, hr, d, e, f⟩

/-- The retrieval read in hand keeps its address as a segment is invalidated. -/
theorem ctx_invalidateSeg {n k : Nat} {s : State} (h : ∀ q, s.retr.ctx.bind RetrCtx.read = some q → s.dieReady q.addr.die = true) :
    ∀ q, (invalidateSeg n k s).retr.ctx.bind RetrCtx.read = some q → s.dieReady q.addr.die = true := by
  intro q hq
  have e : (invalidateSeg n k s).retr.ctx = s.retr.ctx.map (RetrCtx.invalidated n (some k)) := rfl
  rw [e] at hq
  cases hc : s.retr.ctx with
  | none => rw [hc] at hq; cases hq
  | some c =>
    rw [hc] at hq
    simp only [Option.map_some, Option.bind_some] at hq
    unfold RetrCtx.invalidated at hq
    split at hq
    · dsimp only at hq
      cases hr : c.read with
      | none => rw [hr] at hq; cases hq
      | some r =>
        rw [hr] at hq
        have k := h r (by rw [hc]; exact hr)
        simp only [Option.map_some, Option.some.injEq] at hq
        subst hq
        cases hp : r.purpose <;> simp only <;> exact k
    · exact h q (by rw [hc]; exact hq)

/-- No pending replacement of the line waits. -/
theorem servePendings_none {n : Nat} {s : State} (h : ∀ p ∈ s.store.pendings, p.line ≠ n) : servePendings n s = s := by
  unfold servePendings
  have : (s.store.pendings.filter fun p => p.line == n) = [] := by
    rw [List.filter_eq_nil_iff]; intro p hp; simpa using h p hp
  rw [this]; rfl

/-- What follows the handing of a page to the line store does nothing here. -/
theorem line_tail {n : Nat} {v : State} {l : Line} (hl : v.line n = some l) (hp : 510 ≤ v.poolFree) (hs : l.st ≠ .closing)
    (hld : l.load = .none) : loadCheck n (closeAdvance n (judgePressure v)) = v ∧ loadCheck n (closeAdvance n v) = v := by
  have e := judgePressure_room hp
  have e2 : closeAdvance n v = v := closeAdvance_stays fun m hm hc => by rw [hl] at hm; cases hm; exact absurd hc hs
  have e3 : loadCheck n v = v := loadCheck_stays fun m hm => by rw [hl] at hm; cases hm; rw [hld]; simp
  rw [e, e2, e3]; exact ⟨rfl, rfl⟩

/-- The pool keeps room where no entry was added. -/
theorem poolFree_le {u v : State} (h : v.poolUsed ≤ u.poolUsed) (hu : 510 < u.poolFree) : 510 ≤ v.poolFree := by
  simp only [State.poolFree] at hu ⊢; omega

/-- The SEGMENT page of a flush and of a segment rewrite, by the work it belongs to. -/
theorem handPage_segment {x : Buf} {a : Addr} {s : State} (hk : x.hdr.kind = .segment) :
    (∀ n k, x.job = .flush n k → handPage x a true s =
      flushHanded n (loadCheck x.hdr.line (closeAdvance x.hdr.line (judgePressure (handFlush n k x a s))))) ∧
    (∀ n k old, x.job = .segRewrite n k old → s.standsForFlush n k old = false → handPage x a true s =
      loadCheck x.hdr.line (closeAdvance x.hdr.line (judgePressure (handSegRewrite n k old x a s)))) := by
  refine ⟨fun n k h => ?_, fun n k old h hf => ?_⟩
  · simp [handPage, hk, handLinePage, h]
  · simp [handPage, hk, handLinePage, h, hf]

/-- A rewrite stands for a flush only where its line's index stands in the root and it was made of the pool. -/
theorem standsForFlush_not {s : State} {n k old : Nat} {l : Line} {w : SegRewrite} (hl : s.line n = some l)
    (hw : s.builtRewrite n k old = some w) (h : l.indexInRoot = false ∨ w.pool = false) : s.standsForFlush n k old = false := by
  unfold State.standsForFlush
  rw [hl, hw]
  rcases h with h | h <;> simp [h]

/-- Only the ROOT image of a close makes the store note the copies handed after it (R107). -/
theorem lateWith_open {k : Nat} {news drops : List Addr} {l : Line} (h : l.st ≠ .closing) : l.lateWith k news drops = l.late := by
  unfold Line.lateWith
  rw [if_neg (by simp [h])]

/-- The ROOT page of a close and of a root rewrite, by the work it belongs to. -/
theorem handPage_root {x : Buf} {a : Addr} {s : State} (hk : x.hdr.kind = .root) :
    (∀ n, x.job = .closeRoot n → handPage x a true s =
      loadCheck x.hdr.line (closeAdvance x.hdr.line (handCloseRoot n x a s))) ∧
    (∀ n old, x.job = .rootRewrite n old → handPage x a true s =
      loadCheck x.hdr.line (closeAdvance x.hdr.line (handRootRewrite n old x a s))) := by
  refine ⟨fun n h => ?_, fun n old h => ?_⟩ <;> simp [handPage, hk, handLinePage, h]

/-- What the handing of a flush makes of the line is `Line.withFlushed`. -/
theorem flushed_eq (k : Nat) (x : Buf) (r : SegRef) (f : FlushOut) (l : Line) :
    { l with
      refs := if k < l.refs.length then l.refs.set k r else l.refs ++ [r],
      pool := l.flushed (x.hdr.count == Config.segmentEntries) f.stale, rewrite := l.rewrite || f.stale, flush := none } =
    l.withFlushed k x.hdr.count r f.stale := by
  unfold Line.withFlushed Line.flushed PoolEnt.handed
  have e : ((x.hdr.count == Config.segmentEntries) && !f.stale) = true ↔ (x.hdr.count = 510 ∧ f.stale = false) := by
    simp [Config.segmentEntries]
  by_cases h : x.hdr.count = 510 ∧ f.stale = false
  · rw [if_pos h, if_pos (e.mpr h)]
  · rw [if_neg h, if_neg (fun k => h (e.mp k))]

/-- A flush is handed (R103). -/
theorem handPage_flush {x : Buf} {a : Addr} {s : State} {l : Line} {k : Nat} {f : FlushOut} {es : List PageEntry}
    (hs : HandStill x.hdr.line s) (hk : x.hdr.kind = .segment) (hj : x.job = .flush x.hdr.line k) (hb : x.body = .entries es)
    (ha : isAnchor a.blk = false) (hl : s.line x.hdr.line = some l) (hld : l.load = .none) (hst : l.st = .opened)
    (hf : l.flush = some f) (hp : ∀ p ∈ s.store.pendings, p.line ≠ x.hdr.line)
    (hc : ∀ todo wait, s.store.ckpt ≠ some (.flushing todo wait))
    (hr : CountsRoom a ((l.refs[k]?).bind SegRef.loc).toList s) :
    let v := handPage x a true s
    (LineBecomes x.hdr.line (l.withFlushed k x.hdr.count { loc := some a, wseq := x.hdr.wseq, first := x.hdr.first,
                                                                        last := (es.getLast?.map PageEntry.last).getD 0 } f.stale) s v ∧
      Counted a ((l.refs[k]?).bind SegRef.loc).toList s v ∧ CacheDropped x.hdr.line k s v ∧
      v.store = { s.store with lines := v.store.lines }) ∧ IndexFrame s v ∧ Still v := by
  intro v
  let r : SegRef := { loc := some a, wseq := x.hdr.wseq, first := x.hdr.first, last := (es.getLast?.map PageEntry.last).getD 0 }
  let F : Line → Line := fun m => { m with
      refs := if k < m.refs.length then m.refs.set k r else m.refs ++ [r],
      pool := m.flushed (x.hdr.count == Config.segmentEntries) f.stale, rewrite := m.rewrite || f.stale, flush := none,
      late := m.lateWith k m.flushNews [] }
  let u := (refUp a (invalidateSeg x.hdr.line k s)).modLine x.hdr.line F
  let t := dropLoc ((l.refs[k]?).bind SegRef.loc) u
  obtain ⟨up, _⟩ := refUp_room ha hr.1
  obtain ⟨⟨bl, e1⟩, e2⟩ := counted_between (u := u) (v := t) ha hr (by
    show ((refUp a (invalidateSeg x.hdr.line k s)).modLine x.hdr.line F).flash.blocks = _
    unfold refUp; rw [ha]; rfl) (dropLoc_all _ _)
  have hu : u = { (invalidateSeg x.hdr.line k s).modLine x.hdr.line F with flash := u.flash } := by
    show (refUp a (invalidateSeg x.hdr.line k s)).modLine x.hdr.line F = _
    simp only [u]; unfold refUp; rw [ha]; rfl
  have hlb : LineBecomes x.hdr.line (F l) s t := by
    have h1 := line_becomes (f := F) (fun _ => rfl) hl
    have : t.store.lines = (s.modLine x.hdr.line F).store.lines := by rw [e1, hu]; rfl
    exact ⟨(line_congr this _).trans h1.1, fun m hm => (line_congr this _).trans (h1.2 m hm)⟩
  have hstore : t.store = { s.store with lines := t.store.lines } := by rw [e1, hu]; rfl
  have hretr : t.retr = (invalidateSeg x.hdr.line k s).retr := by rw [e1, hu]; rfl
  have hreads : t.flash.reads = s.flash.reads := by
    rw [e1]; show u.flash.reads = _
    show ((refUp a (invalidateSeg x.hdr.line k s)).modLine x.hdr.line F).flash.reads = _
    unfold refUp; rw [ha]; rfl
  have hframe : IndexFrame s t := by
    refine ⟨t.store, bl, s.flash.reads, t.retr, ?_⟩
    have q : t = { u with flash := { u.flash with blocks := bl } } := e1
    have q2 : u.flash = { s.flash with blocks := u.flash.blocks } := by
      show ((refUp a (invalidateSeg x.hdr.line k s)).modLine x.hdr.line F).flash = _
      simp only [u]; unfold refUp; rw [ha]; rfl
    rw [q, q2, hu]; rfl
  have ev : v = t := by
    show handPage x a true s = t
    rw [(handPage_segment hk).1 _ _ hj]
    have h0 : handFlush x.hdr.line k x a s = t := by
      unfold handFlush
      simp only [hl, hf, hb]
      exact servePendings_none (s := t) (by rw [hstore]; exact hp)
    rw [h0]
    have hpool : t.poolUsed ≤ s.poolUsed := by
      have : t.store.lines = (s.modLine x.hdr.line F).store.lines := by rw [e1, hu]; rfl
      have k2 : t.poolUsed = (s.modLine x.hdr.line F).poolUsed := by simp only [State.poolUsed, this]
      rw [k2]
      refine poolUsed_le fun m => ?_
      show (m.flushed _ _).length ≤ _
      unfold Line.flushed
      split
      · exact List.length_filter_le _ _
      · simp
    rw [(line_tail hlb.1 (poolFree_le hpool hs.2.2.2.1) (by rw [show (F l).st = l.st from rfl, hst]; simp) hld).1]
    unfold flushHanded
    have : t.store.ckpt = s.store.ckpt := by rw [hstore]
    rw [this]
    split
    · next h => exact absurd h (hc _ _)
    · rfl
    · rfl
  rw [ev]
  have hF : F l = l.withFlushed k x.hdr.count r f.stale := by
    rw [← flushed_eq]
    simp only [F, lateWith_open (show l.st ≠ .closing by rw [hst]; simp)]
  refine ⟨⟨by rw [← hF]; exact hlb, e2, ?_, hstore⟩, hframe, ?_⟩
  · unfold CacheDropped; rw [hretr]; exact cache_dropped _ _ s
  · exact hframe.still hs.1 (by rw [hstore]) (by rw [hreads]; exact hs.1.2.2.1) (by rw [hretr]; exact ctx_invalidateSeg hs.1.2.1)

/-- A segment rewrite ends with no replacement waiting for the next. -/
theorem endSegRewrite_still {w : SegRewrite} {ref : SegRef} {s : State} {l : Line} (hl : s.line w.line = some l)
    (hld : l.load = .none) (hp : ∀ p ∈ s.store.pendings, p.line ≠ w.line) :
    endSegRewrite w ref s = s.modStore fun t => { t with segRw := t.segRw.erase w } := by
  unfold endSegRewrite
  have e : restartRewrite w.line w.seg ref (s.modStore fun t => { t with segRw := t.segRw.erase w }) =
      s.modStore fun t => { t with segRw := t.segRw.erase w } := by
    unfold restartRewrite
    have : (s.modStore fun t => { t with segRw := t.segRw.erase w }).store.pendings.any (fun p => p.line == w.line && ref.covers p.arrival) = false := by
      rw [List.any_eq_false]; intro p hp'; simp [hp p hp']
    rw [this]; rfl
  rw [e]
  exact loadCheck_stays fun m hm => by
    have : s.line w.line = some m := hm
    rw [hl] at this; cases this; rw [hld]; simp

/-- The rewrite found is of the line and the segment asked for. -/
theorem builtRewrite_spec {s : State} {n k old : Nat} {w : SegRewrite} (h : s.builtRewrite n k old = some w) :
    w.line = n ∧ w.seg = k := by
  have := List.find?_some h
  simp only [Bool.and_eq_true, beq_iff_eq] at this
  exact ⟨this.1.1.1, this.1.1.2⟩

/-- A segment rewrite of an OPEN line is handed (R105). -/
theorem handPage_rewriteOpen {x : Buf} {a : Addr} {s : State} {l : Line} {k old : Nat} {w : SegRewrite}
    (hs : HandStill x.hdr.line s) (hk : x.hdr.kind = .segment) (hj : x.job = .segRewrite x.hdr.line k old)
    (hw : s.builtRewrite x.hdr.line k old = some w)
    (ha : isAnchor a.blk = false) (hl : s.line x.hdr.line = some l) (hld : l.load = .none) (hst : l.st = .opened)
    (hp : ∀ p ∈ s.store.pendings, p.line ≠ x.hdr.line)
    (hr : CountsRoom a (((l.refs[k]?).bind SegRef.loc).toList ++ w.drops) s) :
    let v := handPage x a true s
    (LineBecomes x.hdr.line { l with refs := l.refs.modify k fun r => { r with loc := some a, wseq := x.hdr.wseq } } s v ∧
      Counted a (((l.refs[k]?).bind SegRef.loc).toList ++ w.drops) s v ∧ CacheDropped x.hdr.line k s v ∧
      v.store = { s.store with lines := v.store.lines, segRw := s.store.segRw.erase w }) ∧ IndexFrame s v ∧ Still v := by
  intro v
  obtain ⟨w1, w2⟩ := builtRewrite_spec hw
  let F : Line → Line := Line.withCopy k a x.hdr.wseq w.news w.drops
  let u := (refUp a (invalidateSeg x.hdr.line k s)).modLine x.hdr.line F
  let downs := ((l.refs[k]?).bind SegRef.loc).toList ++ w.drops
  let t0 := refDownAll w.drops (dropLoc ((l.refs[k]?).bind SegRef.loc) u)
  let t := t0.modStore fun t => { t with segRw := t.segRw.erase w }
  have hu : u = { (invalidateSeg x.hdr.line k s).modLine x.hdr.line F with flash := u.flash } := by
    show (refUp a (invalidateSeg x.hdr.line k s)).modLine x.hdr.line F = _
    simp only [u]; unfold refUp; rw [ha]; rfl
  have q2 : u.flash = { s.flash with blocks := u.flash.blocks } := by
    show ((refUp a (invalidateSeg x.hdr.line k s)).modLine x.hdr.line F).flash = _
    simp only [u]; unfold refUp; rw [ha]; rfl
  obtain ⟨⟨bl, e1⟩, e2⟩ := counted_between (u := u) (v := t0) (downs := downs) ha hr (by
    show ((refUp a (invalidateSeg x.hdr.line k s)).modLine x.hdr.line F).flash.blocks = _
    unfold refUp; rw [ha]; rfl) (by simp only [t0, downs, refDownAll_append, dropLoc_all])
  have hl0 : t0.store.lines = (s.modLine x.hdr.line F).store.lines := by rw [e1, hu]; rfl
  have h1 := line_becomes (f := F) (fun _ => rfl) hl
  have hlb : LineBecomes x.hdr.line (F l) s t :=
    ⟨(line_congr (t := t) hl0 _).trans h1.1, fun m hm => (line_congr (t := t) hl0 _).trans (h1.2 m hm)⟩
  have hs0 : t0.store = { s.store with lines := t0.store.lines } := by rw [e1, hu]; rfl
  have hstore : t.store = { s.store with lines := t.store.lines, segRw := s.store.segRw.erase w } := by
    show { t0.store with segRw := t0.store.segRw.erase w } = _
    rw [hs0]; rfl
  have hretr : t.retr = (invalidateSeg x.hdr.line k s).retr := by
    show t0.retr = _
    rw [e1, hu]; rfl
  have hframe : IndexFrame s t := by
    refine ⟨t.store, bl, s.flash.reads, t.retr, ?_⟩
    show { t0 with store := t.store } = _
    have q : t0 = { u with flash := { u.flash with blocks := bl } } := e1
    rw [hretr, q, q2, hu]; rfl
  have hreads : t.flash.reads = s.flash.reads := by
    show t0.flash.reads = _
    rw [e1, q2]
  have ev : v = t := by
    show handPage x a true s = t
    have hi : l.indexInRoot = false := by unfold Line.indexInRoot; rw [hst, hld]
    rw [(handPage_segment hk).2 _ _ _ hj (standsForFlush_not hl hw (Or.inl hi))]
    have h0 : handSegRewrite x.hdr.line k old x a s = t := by
      unfold handSegRewrite handRewrite
      simp only [hl, hw, hi, Bool.false_eq_true, if_false, w1, w2]
      exact endSegRewrite_still (l := F l) (s := t0) (by rw [w1]; exact hlb.1) hld (by
        rw [w1, hs0]; exact hp)
    rw [h0]
    have hpool : t.poolUsed ≤ s.poolUsed := by
      have k2 : t.poolUsed = (s.modLine x.hdr.line F).poolUsed := by
        show ((t0.store.lines).map _).sum = _
        rw [hl0]; rfl
      rw [k2]
      exact poolUsed_le fun m => Nat.le_refl _
    exact (line_tail hlb.1 (poolFree_le hpool hs.2.2.2.1) (by rw [show (F l).st = l.st from rfl, hst]; simp) hld).1
  rw [ev]
  have hF : F l = { l with refs := l.refs.modify k fun r => { r with loc := some a, wseq := x.hdr.wseq } } := by
    simp only [F, Line.withCopy, lateWith_open (show l.st ≠ .closing by rw [hst]; simp)]
  refine ⟨⟨by rw [← hF]; exact hlb, e2, ?_, hstore⟩, hframe, ?_⟩
  · unfold CacheDropped; rw [hretr]; exact cache_dropped _ _ s
  · exact hframe.still hs.1 (by rw [hstore]) (by rw [hreads]; exact hs.1.2.2.1) (by rw [hretr]; exact ctx_invalidateSeg hs.1.2.1)

/-- A segment rewrite of a CLOSED or LOCKED line is handed: a root rewrite follows (R105). -/
theorem handPage_rewriteClosed {x : Buf} {a : Addr} {s : State} {l : Line} {k old : Nat} {w : SegRewrite} {c : Loc}
    (hs : HandStill x.hdr.line s) (hk : x.hdr.kind = .segment) (hj : x.job = .segRewrite x.hdr.line k old)
    (hw : s.builtRewrite x.hdr.line k old = some w)
    (ha : isAnchor a.blk = false) (hl : s.line x.hdr.line = some l) (hld : l.load = .none) (hst : l.st = .closed ∨ l.st = .locked)
    (hp : ∀ p ∈ s.store.pendings, p.line ≠ x.hdr.line) (hc : l.root = some c) (hd : s.dieReady c.addr.die = true)
    (hpl : w.pool = false) (hv : ∀ v ∈ s.store.rootRw, v.line ≠ x.hdr.line)
    (hr : CountsRoom a [] s) :
    let v := handPage x a true s
    (Counted a [] s v ∧ CacheDropped x.hdr.line k s v ∧
            v.flash.reads = s.flash.reads ++ [{ addr := c.addr, purpose := .rewriteRoot x.hdr.line }] ∧
            v.store = { s.store with
              segRw := s.store.segRw.erase w,
              segDone := s.store.segDone ++ [{ line := x.hdr.line, seg := k, loc := some a, wseq := x.hdr.wseq, check := none,
                                               old := none, news := w.news, drops := w.drops, settled := false, gone := false,
                                               applied := w.applied }],
              rootRw := s.store.rootRw ++ [{ line := x.hdr.line, old := c.wseq, phase := .reading, carried := [] }] }) ∧ IndexFrame s v ∧ Still v := by
  intro v
  obtain ⟨w1, w2⟩ := builtRewrite_spec hw
  let u := refUp a (invalidateSeg x.hdr.line k s)
  let d : SegDone := { line := x.hdr.line, seg := k, loc := some a, wseq := x.hdr.wseq, check := none, old := none, news := w.news, drops := w.drops, settled := false, gone := false, applied := w.applied }
  let t0 := addDone d u
  let t := t0.modStore fun t => { t with segRw := t.segRw.erase w }
  have hu : u = { invalidateSeg x.hdr.line k s with flash := { s.flash with blocks := u.flash.blocks } } := by
    simp only [u]; unfold refUp; rw [ha]; rfl
  have hus : u.store = s.store := by rw [hu]; rfl
  have hul : ∀ st : LineStore, st.lines = s.store.lines → ({ u with store := st } : State).line x.hdr.line = some l := by
    intro st h; rw [← hl]; exact line_congr h _
  have ht0 : t0 = { u with
      store := { s.store with segDone := s.store.segDone ++ [d], rootRw := s.store.rootRw ++ [{ line := x.hdr.line, old := c.wseq, phase := .reading, carried := [] }] },
      flash := { u.flash with reads := s.flash.reads ++ [{ addr := c.addr, purpose := .rewriteRoot x.hdr.line }] } } := by
    show addDone d u = _
    unfold addDone
    have e1 : (u.modStore fun t => { t with segDone := t.segDone ++ [d] }).line d.line = some l := by
      exact hul { u.store with segDone := u.store.segDone ++ [d] } (by rw [hus])
    simp only [e1, Option.map_some, Option.getD_some, hld]
    rw [if_neg (by simp)]
    unfold startRootRewrite
    have e2 : ((u.modStore fun t => { t with segDone := t.segDone ++ [d] }).store.rootRw.any fun r => r.line == d.line) = false := by
      rw [List.any_eq_false]
      intro q hq
      have : q ∈ s.store.rootRw := by rw [← hus]; exact hq
      simpa using hv q this
    have e3 : ((u.modStore fun t => { t with segDone := t.segDone ++ [d] }).store.segDone.any fun r => r.line == d.line) = true := by
      simp
    rw [e2, e3]
    simp only [Bool.not_true, Bool.or_self, Bool.false_eq_true, if_false, e1, Option.bind_some, hc]
    unfold requestRead
    rw [hu]
    rfl
  have hline : t0.line w.line = some l := by
    rw [w1, ← hl]; exact line_congr (by rw [ht0]) _
  have ev : v = t := by
    show handPage x a true s = t
    have hi : l.indexInRoot = true := by unfold Line.indexInRoot; rcases hst with h | h <;> rw [h]
    rw [(handPage_segment hk).2 _ _ _ hj (standsForFlush_not hl hw (Or.inr hpl))]
    have h0 : handSegRewrite x.hdr.line k old x a s = t := by
      unfold handSegRewrite handRewrite
      simp only [hl, hw, hi, if_true, hpl, w1, w2, Bool.false_and, Bool.false_eq_true, if_false]
      exact endSegRewrite_still (l := l) (s := t0) hline hld (by rw [ht0, w1]; exact hp)
    rw [h0]
    have hpool : t.poolUsed ≤ s.poolUsed := by
      show ((t0.store.lines).map _).sum ≤ _
      rw [ht0]; exact Nat.le_refl _
    have htl : t.line x.hdr.line = some l := by rw [← hline, w1]; rfl
    exact (line_tail htl (poolFree_le hpool hs.2.2.2.1) (by rcases hst with h | h <;> rw [h] <;> simp) hld).1
  rw [ev]
  have hretr : t.retr = (invalidateSeg x.hdr.line k s).retr := by
    show t0.retr = _
    rw [ht0, hu]
  have hfl : t.flash = { s.flash with blocks := u.flash.blocks, reads := s.flash.reads ++ [{ addr := c.addr, purpose := .rewriteRoot x.hdr.line }] } := by
    show t0.flash = _
    rw [ht0]; dsimp only; rw [hu]
  have hframe : IndexFrame s t := by
    refine ⟨t.store, u.flash.blocks, s.flash.reads ++ [{ addr := c.addr, purpose := .rewriteRoot x.hdr.line }], t.retr, ?_⟩
    rw [← hfl]
    show { t0 with store := t.store } = _
    rw [hretr, ht0]
    conv => lhs; rw [hu]
    rw [hfl]; rfl
  refine ⟨⟨?_, ?_, by rw [hfl], ?_⟩, hframe, ?_⟩
  · intro q
    obtain ⟨_, up⟩ := refUp_room ha hr.1
    have : t.block q = (refUp a s).block q := block_congr (by rw [hfl]; simp only [u]; unfold refUp; rw [ha]; rfl) q
    rw [this, up]
    cases s.block q with
    | none => rfl
    | some r => simp only [Option.map_some]; split <;> simp
  · unfold CacheDropped; rw [hretr]; exact cache_dropped _ _ s
  · show { t0.store with segRw := t0.store.segRw.erase w } = _
    rw [ht0]
  · refine hframe.still hs.1 ?_ ?_ (by rw [hretr]; exact ctx_invalidateSeg hs.1.2.1)
    · show t0.store.walk = _
      rw [ht0]
    · rw [hfl]
      intro q hq
      rcases List.mem_append.mp hq with h | h
      · exact hs.1.2.2.1 q h
      · simp only [List.mem_cons, List.mem_nil_iff, or_false] at h; subst h; exact hd

/-- A root that names the references as they are leaves nothing to carry. -/
theorem rootChanges_same (l : Line) : rootChanges l.refs l = [] := by
  unfold rootChanges
  rw [List.filterMap_eq_nil_iff]
  intro k _
  cases l.refs[k]? with
  | none => rfl
  | some r => simp

/-- No root rewrite starts where no segment copy waits for one. -/
theorem startRootRewrite_none {n : Nat} {s : State} (h : ∀ d ∈ s.store.segDone, d.line ≠ n) : startRootRewrite n s = s := by
  unfold startRootRewrite
  have : (s.store.segDone.any fun d => d.line == n) = false := by
    rw [List.any_eq_false]; intro d hd; simpa using h d hd
  rw [this]; simp

/-- What the ROOT of a close leaves to be rewritten from the pool: nothing where no flush image is built; else the rewrite that the
flush image of the open segment has become (R107, log entry 32). -/
theorem rewriteFromPool_none {n : Nat} {l : Line} {s : State} (hw : l.rewrite = false) (hf : ∀ f, l.flush = some f → f.built = false) :
    rewriteFromPool n l s = s := by
  have e : l.flush.filter FlushOut.built = none := by
    cases h : l.flush with
    | none => rfl
    | some f => simp [Option.filter, hf f h]
  unfold rewriteFromPool
  split
  · rfl
  · simp only [e, hw, Bool.false_eq_true, if_false, ite_self]

/-- A flush image that is built as the ROOT of the close is handed is from then on that of a segment rewrite (log entry 32). -/
theorem rewriteFromPool_built {n : Nat} {l : Line} {s : State} {f : FlushOut} {r : SegRef} (hf : l.flush = some f) (hb : f.built = true)
    (hr : l.refs.getLast? = some r) (ho : l.hasOpenSeg = true) (hw : ∀ w ∈ s.store.segRw, w.line ≠ n) :
    ∃ w : SegRewrite, w.line = n ∧ w.seg + 1 = l.refs.length ∧ w.ref = r ∧ w.phase = .built ∧ w.pool = true ∧ w.flush = some f ∧
      w.again = (if f.stale then (l.pool.filter PoolEnt.inSeg).map PoolEnt.e else []) ∧
      rewriteFromPool n l s = s.modStore fun t => { t with segRw := t.segRw ++ [w] } := by
  have e : l.flush.filter FlushOut.built = some f := by rw [hf]; simp [Option.filter, hb]
  have hlen : 0 < l.refs.length := by
    cases h : l.refs with
    | nil => rw [h] at hr; cases hr
    | cons => simp
  have h1 : ((l.pool.filter PoolEnt.inSeg).map PoolEnt.e).isEmpty = false := by
    rw [Line.hasOpenSeg, List.any_eq_true] at ho
    obtain ⟨p, hp, hi⟩ := ho
    rw [List.isEmpty_eq_false_iff, ne_eq, List.map_eq_nil_iff, List.filter_eq_nil_iff]
    exact fun h => h p hp hi
  have h2 : (s.store.segRw.any fun w => w.line == n && w.seg == l.refs.length - 1) = false := by
    rw [List.any_eq_false]; intro w hm; simp [hw w hm]
  refine ⟨{ line := n, seg := l.refs.length - 1, ref := r, phase := .built, pool := true,
            news := ((l.pool.filter PoolEnt.inSeg).filter PoolEnt.moved).filterMap fun p => p.e.loc, drops := [], applied := [],
            whole := ((l.pool.filter PoolEnt.inSeg).map PoolEnt.e).filterMap PageEntry.loc, flush := some f,
            again := if f.stale then (l.pool.filter PoolEnt.inSeg).map PoolEnt.e else [] },
    rfl, by simp only; omega, rfl, rfl, rfl, rfl, rfl, ?_⟩
  unfold rewriteFromPool
  simp only [hr, e, h1, h2, Bool.or_self, Bool.false_eq_true, if_false]

/-- The line as the ROOT of its close makes it (R107). -/
def Line.closedBy (a : Addr) (wseq : Nat) (l : Line) : Line :=
  { l with
    st := .closed, root := some { addr := a, wseq := wseq }, segs := l.refs.length, refs := [], pool := [], flush := none,
    rootOut := false, late := [] }

/-- The ROOT of a close is handed (R107). -/
theorem handPage_closeRoot {x : Buf} {a : Addr} {s : State} {l : Line}
    (hs : HandStill x.hdr.line s) (hk : x.hdr.kind = .root) (hj : x.job = .closeRoot x.hdr.line) (hb : x.body = .refs l.refs)
    (ha : isAnchor a.blk = false) (hl : s.line x.hdr.line = some l) (hld : l.load = .none) (hst : l.st = .closing)
    (ho : l.rootOut = true) (hw : l.rewrite = false) (hd : ∀ d ∈ s.store.segDone, d.line ≠ x.hdr.line)
    (hr : CountsRoom a (l.root.map Loc.addr).toList s) :
    let v := handPage x a true s
    ((∀ f, l.flush = some f → f.built = false) →
      (LineBecomes x.hdr.line (l.closedBy a x.hdr.wseq) s v ∧ Counted a (l.root.map Loc.addr).toList s v ∧
        v.store = { s.store with lines := v.store.lines }) ∧ IndexFrame s v ∧ Still v) ∧
    (∀ f r, l.flush = some f → f.built = true → l.refs.getLast? = some r → l.hasOpenSeg = true →
      (∀ w ∈ s.store.segRw, w.line ≠ x.hdr.line) →
      (LineBecomes x.hdr.line (l.closedBy a x.hdr.wseq) s v ∧ Counted a (l.root.map Loc.addr).toList s v ∧
        ∃ w : SegRewrite, w.line = x.hdr.line ∧ w.seg + 1 = l.refs.length ∧
          w.ref = r ∧ w.phase = .built ∧ w.pool = true ∧ w.flush = some f ∧
          w.again = (if f.stale then (l.pool.filter PoolEnt.inSeg).map PoolEnt.e else []) ∧
          v.store = { s.store with lines := v.store.lines, segRw := s.store.segRw ++ [w] }) ∧ IndexFrame s v ∧ Still v) := by
  intro v
  let F : Line → Line := fun l => { l with
        st := .closed, root := some { addr := a, wseq := x.hdr.wseq }, segs := l.refs.length, refs := [], pool := [],
        rewrite := false, flush := none, rootOut := false, late := [] }
  let u := (refUp a s).modLine x.hdr.line F
  let t := dropLoc (l.root.map Loc.addr) u
  have hu : u = { s.modLine x.hdr.line F with flash := { s.flash with blocks := u.flash.blocks } } := by
    simp only [u]; unfold refUp; rw [ha]; rfl
  obtain ⟨⟨bl, e1⟩, e2⟩ := counted_between (u := u) (v := t) ha hr rfl (dropLoc_all _ _)
  have hl0 : t.store.lines = (s.modLine x.hdr.line F).store.lines := by rw [e1, hu]
  have h1 := line_becomes (f := F) (fun _ => rfl) hl
  have hF : F l = l.closedBy a x.hdr.wseq := by simp only [F, Line.closedBy, hw]
  have hlb : ∀ q : State, q.store.lines = t.store.lines → LineBecomes x.hdr.line (l.closedBy a x.hdr.wseq) s q := fun q hq =>
    ⟨(line_congr (t := q) (hq.trans hl0) _).trans (h1.1.trans (congrArg some hF)),
     fun m hm => (line_congr (t := q) (hq.trans hl0) _).trans (h1.2 m hm)⟩
  have hstore : t.store = { s.store with lines := t.store.lines } := by rw [e1, hu]; rfl
  have hframe : ∀ st, IndexFrame s { t with store := st } := fun st => by
    refine ⟨st, bl, s.flash.reads, s.retr, ?_⟩
    have q : t = { u with flash := { u.flash with blocks := bl } } := e1
    rw [q, hu]; rfl
  have hstill : ∀ st, st.walk = s.store.walk → Still { t with store := st } := fun st h =>
    (hframe st).still hs.1 h (by show ∀ q ∈ t.flash.reads, _; rw [e1, hu]; exact hs.1.2.2.1)
      (by show ∀ q, t.retr.ctx.bind RetrCtx.read = some q → _; rw [e1, hu]; exact hs.1.2.1)
  have hv : ∀ q, rewriteFromPool x.hdr.line l t = q → q.store.lines = t.store.lines → v = q := fun q hq hql => by
    show handPage x a true s = q
    rw [(handPage_root hk).1 _ hj]
    have h0 : handCloseRoot x.hdr.line x a s = q := by
      unfold handCloseRoot
      simp only [hl, hst, ho, hb]
      rw [if_neg (by simp)]
      have e3 : (dropLoc (l.root.map Loc.addr) u).modStore (fun t => { t with segDone := t.segDone ++ rootChanges l.refs l }) = t := by
        rw [rootChanges_same]
        show { t with store := { t.store with segDone := t.store.segDone ++ [] } } = t
        rw [List.append_nil]
      show rewriteFromPool x.hdr.line l (startRootRewrite x.hdr.line ((dropLoc (l.root.map Loc.addr) u).modStore
        (fun t => { t with segDone := t.segDone ++ rootChanges l.refs l }))) = q
      rw [e3, startRootRewrite_none (by rw [hstore]; exact hd)]
      exact hq
    rw [h0]
    have hlq := (hlb q hql).1
    have e4 : closeAdvance x.hdr.line q = q := closeAdvance_stays fun m hm hc => by rw [hlq] at hm; cases hm; cases hc
    rw [e4]
    exact loadCheck_stays fun m hm => by rw [hlq] at hm; cases hm; show l.load ≠ _; rw [hld]; simp
  refine ⟨fun hf => ?_, fun f r hf hb2 hr2 ho2 hw2 => ?_⟩
  · rw [hv t (rewriteFromPool_none hw hf) rfl]
    exact ⟨⟨hlb t rfl, e2, hstore⟩, hframe t.store, hstill t.store (by rw [hstore])⟩
  · obtain ⟨w, k1, k2, k3, k4, k5, k6, k7, k8⟩ := rewriteFromPool_built (n := x.hdr.line) (s := t) hf hb2 hr2 ho2 (by rw [hstore]; exact hw2)
    rw [hv _ k8 rfl]
    refine ⟨⟨hlb _ rfl, e2, w, k1, k2, k3, k4, k5, k6, k7, ?_⟩, hframe _, hstill _ ?_⟩
    · exact congrArg (fun st : LineStore => { st with segRw := st.segRw ++ [w] }) hstore
    · show t.store.walk = _
      rw [hstore]

/-- A root rewrite is handed (R105). -/
theorem handPage_rootRewrite {x : Buf} {a : Addr} {s : State} {l : Line} {old : Nat} {w : RootRewrite} {c : Loc}
    (hs : HandStill x.hdr.line s) (hk : x.hdr.kind = .root) (hj : x.job = .rootRewrite x.hdr.line old)
    (ha : isAnchor a.blk = false) (hl : s.line x.hdr.line = some l) (hld : l.load = .none) (hst : l.st = .closed ∨ l.st = .locked)
    (hc : l.root = some c) (hw : s.store.rootRw.find? (fun w => w.line == x.hdr.line && w.phase == .built && w.old == old) = some w)
    (hd : ∀ d ∈ s.store.segDone, d.line ≠ x.hdr.line)
    (hr : CountsRoom a (c.addr :: (w.carried.map fun d => d.old.toList ++ d.drops).flatten) s) :
    let v := handPage x a true s
    (LineBecomes x.hdr.line { l with root := some { addr := a, wseq := x.hdr.wseq } } s v ∧
      Counted a (c.addr :: (w.carried.map fun d => d.old.toList ++ d.drops).flatten) s v ∧
      v.store = { s.store with lines := v.store.lines, rootRw := s.store.rootRw.erase w }) ∧ IndexFrame s v ∧ Still v := by
  intro v
  let F : Line → Line := fun l => { l with root := some { addr := a, wseq := x.hdr.wseq } }
  let u := ((refUp a s).modLine x.hdr.line F).modStore fun t => { t with rootRw := t.rootRw.erase w }
  let downs := c.addr :: (w.carried.map fun d => d.old.toList ++ d.drops).flatten
  let t := w.carried.foldl (fun s d => refDownAll d.drops (dropLoc d.old s)) (dropLoc (l.root.map Loc.addr) u)
  have hfold : ∀ (ds : List SegDone) (s : State), ds.foldl (fun s d => refDownAll d.drops (dropLoc d.old s)) s =
      refDownAll (ds.map fun d => d.old.toList ++ d.drops).flatten s := by
    intro ds
    induction ds with
    | nil => intro s; rfl
    | cons d ds ih =>
      intro s
      rw [List.foldl_cons, ih]
      simp only [List.map_cons, List.flatten_cons, refDownAll_append, dropLoc_all]
  have ht : t = refDownAll downs u := by
    show w.carried.foldl _ _ = _
    rw [hfold, hc]; rfl
  have hu : u = { s.modLine x.hdr.line F with
      flash := { s.flash with blocks := u.flash.blocks },
      store := { (s.modLine x.hdr.line F).store with rootRw := s.store.rootRw.erase w } } := by
    simp only [u]; unfold refUp; rw [ha]; rfl
  obtain ⟨⟨bl, e1⟩, e2⟩ := counted_between (u := u) (v := t) (downs := downs) ha hr rfl ht
  have hl0 : t.store.lines = (s.modLine x.hdr.line F).store.lines := by rw [e1, hu]
  have h1 := line_becomes (f := F) (fun _ => rfl) hl
  have hlb : LineBecomes x.hdr.line (F l) s t :=
    ⟨(line_congr (t := t) hl0 _).trans h1.1, fun m hm => (line_congr (t := t) hl0 _).trans (h1.2 m hm)⟩
  have hstore : t.store = { s.store with lines := t.store.lines, rootRw := s.store.rootRw.erase w } := by rw [e1, hu]; rfl
  have hframe : IndexFrame s t := by
    refine ⟨t.store, bl, s.flash.reads, s.retr, ?_⟩
    have q : t = { u with flash := { u.flash with blocks := bl } } := e1
    rw [q, hu]; rfl
  have ev : v = t := by
    show handPage x a true s = t
    rw [(handPage_root hk).2 _ _ hj]
    have e4 : closeAdvance x.hdr.line t = t := closeAdvance_stays fun m hm hc => by
      rw [hlb.1] at hm; cases hm
      rcases hst with h | h <;> (rw [show (F l).st = l.st from rfl, h] at hc; cases hc)
    have e5 : loadCheck x.hdr.line t = t := loadCheck_stays fun m hm => by
      rw [hlb.1] at hm; cases hm; show l.load ≠ _; rw [hld]; simp
    have h0 : handRootRewrite x.hdr.line old x a s = t := by
      unfold handRootRewrite
      simp only [hl, hw]
      show loadCheck x.hdr.line (startRootRewrite x.hdr.line t) = t
      rw [startRootRewrite_none (by rw [hstore]; exact hd), e5]
    rw [h0, e4, e5]
  rw [ev]
  exact ⟨⟨hlb, e2, hstore⟩, hframe, hframe.still hs.1 (by rw [hstore]) (by rw [e1, hu]; exact hs.1.2.2.1) (by rw [e1, hu]; exact hs.1.2.1)⟩

/-! ## The last page of a checkpoint -/

/-- `finish_still` where a PAUSE may run, with nothing QUEUED that could hold it back: the PAUSE is judged and goes on (R177). -/
theorem finish_calm {s : State} (h1 : WalkStill s) (h2 : ∀ q, s.retr.ctx.bind RetrCtx.read = some q → s.dieReady q.addr.die = true)
    (h3 : ∀ q ∈ s.flash.reads, s.dieReady q.addr.die = true) (h4 : s.power.mount = none) (h5 : s.emergency = false)
    (h6 : s.isRunning .pause = true → s.staging.queue = []) :
    finish s = updateWait (if s.isRunning .pause then s.modPower fun p => { p with pauseSeen := some s.pauseView } else s) := by
  unfold finish
  rw [startWalk_idle s h1, drainDead_ready _ s h2 h3, mountPump_none s h4]
  have : judgePause s = if s.isRunning .pause then s.modPower fun p => { p with pauseSeen := some s.pauseView } else s := by
    unfold judgePause
    by_cases h : s.isRunning .pause = true
    · by_cases e : s.power.pauseSeen = some s.pauseView
      · simp only [h, e, bne_self_eq_false, Bool.and_false, Bool.false_eq_true, if_false, if_true]
        unfold State.modPower
        rw [← e]
      · have hq : (s.modPower fun p => { p with pauseSeen := some s.pauseView }).queueStuck = false := by
          unfold State.queueStuck
          rw [show (s.modPower fun p => { p with pauseSeen := some s.pauseView }).staging.queue = [] from h6 h]
          simp
        simp [h, e, endStuckPause, hq]
    · simp [h]
  rw [this]
  split
  · exact congrArg updateWait (lowHaltCheck_calm _ h5)
  · rw [lowHaltCheck_calm s h5]

/-- An anchor page's buffer is FREE after its written point (R61). -/
theorem releaseWritten_anchor {b : Nat} {x : Buf} {a : Addr} {s : State} (hq : s.staging.requests = [])
    (hb : s.buf b = some x) (ha : isAnchor a.blk = true) :
    OnlyStaging s (releaseWritten b a s) ∧ (releaseWritten b a s).buf b = none ∧
      (s.staging.queue = [] → (releaseWritten b a s).staging.queue = []) := by
  have hr : s.retains a = false := by unfold State.retains; rw [ha]; simp
  obtain ⟨f1, f2, f3, f4, f5, f6⟩ := freeBuf_only hq (b := b) (by rw [hb]; rfl)
  unfold releaseWritten
  rw [hr]
  dsimp only [Bool.false_eq_true, if_false]
  simp only [Bool.false_eq_true, if_false]
  split
  · split
    · next l hl =>
      obtain ⟨y, hy, _⟩ := bufAt_some hl
      obtain ⟨g1, g2, g3, g4, g5, g6⟩ := freeBuf_only f2 (b := l) (by rw [hy]; rfl)
      refine ⟨f1.trans g1, ?_, fun h => by rw [g5, f5, h]; rfl⟩
      by_cases h : b = l
      · rw [← h] at g3; rw [← h]; exact g3
      · rw [g4 b h]; exact f3
    · exact ⟨f1, f3, fun h => by rw [f5, h]; rfl⟩
  · exact ⟨f1, f3, fun h => by rw [f5, h]; rfl⟩

/-- The transmitter's choice leaves the running position alone. -/
theorem choose_idle (b : Bool) (l : LinkUnit) : { l.choose b with running := none } = LinkUnit.choose b { l with running := none } := by
  obtain ⟨_, _, _, _, _, fifo, sending, notices, _, _, _, _, _, _⟩ := l
  unfold LinkUnit.choose
  dsimp only
  by_cases h : (b || sending.isSome) = true
  · rw [if_pos h, if_pos h]
  · rw [if_neg h, if_neg h]
    cases fifo with
    | cons m ms => rfl
    | nil => cases notices <;> rfl

end Sys2Proof.Machine
end

