-- ==== Sys2Proof/Laws/PerInstr.lean ====
section
/-!
SUPPORT. Statements made for every command as syntax, one lemma per constructor: no word spells it, for the table gives the
rows no bits.
-/
namespace Sys2Proof.Laws

/-- No word spells the command. -/
def Encoding.Statement (i : Instr) : Prop := ∀ nbits w : Nat, decodeTableWord nbits w ≠ some i

theorem Encoding.controlByteReceived (b : Byte) : Encoding.Statement (.controlByteReceived b) :=
  fun _ _ h => nomatch h
theorem Encoding.linkErrorCrc (kind tag : Byte) : Encoding.Statement (.linkErrorCrc kind tag) :=
  fun _ _ h => nomatch h
theorem Encoding.controlTimeout : Encoding.Statement .controlTimeout :=
  fun _ _ h => nomatch h
theorem Encoding.identify (tag : Byte) (body : List Byte) : Encoding.Statement (.identify tag body) :=
  fun _ _ h => nomatch h
theorem Encoding.status (tag : Byte) (body : List Byte) : Encoding.Statement (.status tag body) :=
  fun _ _ h => nomatch h
theorem Encoding.gaugeRead (tag : Byte) (body : List Byte) : Encoding.Statement (.gaugeRead tag body) :=
  fun _ _ h => nomatch h
theorem Encoding.motionRead (tag : Byte) (body : List Byte) : Encoding.Statement (.motionRead tag body) :=
  fun _ _ h => nomatch h
theorem Encoding.getSettings (tag : Byte) (body : List Byte) : Encoding.Statement (.getSettings tag body) :=
  fun _ _ h => nomatch h
theorem Encoding.putSettings (tag : Byte) (body : List Byte) : Encoding.Statement (.putSettings tag body) :=
  fun _ _ h => nomatch h
theorem Encoding.lineList (tag : Byte) (body : List Byte) : Encoding.Statement (.lineList tag body) :=
  fun _ _ h => nomatch h
theorem Encoding.lineInfo (tag : Byte) (body : List Byte) : Encoding.Statement (.lineInfo tag body) :=
  fun _ _ h => nomatch h
theorem Encoding.intakeOpen (tag : Byte) : Encoding.Statement (.intakeOpen tag) :=
  fun _ _ h => nomatch h
theorem Encoding.intakeClose (tag : Byte) : Encoding.Statement (.intakeClose tag) :=
  fun _ _ h => nomatch h
theorem Encoding.filterReset (tag : Byte) (body : List Byte) : Encoding.Statement (.filterReset tag body) :=
  fun _ _ h => nomatch h
theorem Encoding.ackResume (tag : Byte) (body : List Byte) : Encoding.Statement (.ackResume tag body) :=
  fun _ _ h => nomatch h
theorem Encoding.gaugeAnchor (tag : Byte) (body : List Byte) : Encoding.Statement (.gaugeAnchor tag body) :=
  fun _ _ h => nomatch h
theorem Encoding.cancel (tag : Byte) (body : List Byte) : Encoding.Statement (.cancel tag body) :=
  fun _ _ h => nomatch h
theorem Encoding.reset (tag : Byte) (body : List Byte) : Encoding.Statement (.reset tag body) :=
  fun _ _ h => nomatch h
theorem Encoding.linkReset : Encoding.Statement .linkReset :=
  fun _ _ h => nomatch h
theorem Encoding.readRecords (tag : Byte) (body : List Byte) : Encoding.Statement (.readRecords tag body) :=
  fun _ _ h => nomatch h
theorem Encoding.lineClose (tag : Byte) (body : List Byte) : Encoding.Statement (.lineClose tag body) :=
  fun _ _ h => nomatch h
theorem Encoding.lineLock (tag : Byte) (body : List Byte) : Encoding.Statement (.lineLock tag body) :=
  fun _ _ h => nomatch h
theorem Encoding.lineUnlock (tag : Byte) (body : List Byte) : Encoding.Statement (.lineUnlock tag body) :=
  fun _ _ h => nomatch h
theorem Encoding.lineErase (tag : Byte) (body : List Byte) : Encoding.Statement (.lineErase tag body) :=
  fun _ _ h => nomatch h
theorem Encoding.permitLoad (tag : Byte) (body : List Byte) : Encoding.Statement (.permitLoad tag body) :=
  fun _ _ h => nomatch h
theorem Encoding.saveSettings (tag : Byte) (body : List Byte) : Encoding.Statement (.saveSettings tag body) :=
  fun _ _ h => nomatch h
theorem Encoding.format (tag : Byte) (body : List Byte) : Encoding.Statement (.format tag body) :=
  fun _ _ h => nomatch h
theorem Encoding.closeout (tag : Byte) (body : List Byte) : Encoding.Statement (.closeout tag body) :=
  fun _ _ h => nomatch h
theorem Encoding.pause (tag : Byte) (body : List Byte) : Encoding.Statement (.pause tag body) :=
  fun _ _ h => nomatch h
theorem Encoding.storeCommandAdvance : Encoding.Statement .storeCommandAdvance :=
  fun _ _ h => nomatch h
theorem Encoding.messageSent : Encoding.Statement .messageSent :=
  fun _ _ h => nomatch h
theorem Encoding.finalReplyPlaced : Encoding.Statement .finalReplyPlaced :=
  fun _ _ h => nomatch h
theorem Encoding.heldMessageEntry : Encoding.Statement .heldMessageEntry :=
  fun _ _ h => nomatch h
theorem Encoding.powerOn (strap : Bool) : Encoding.Statement (.powerOn strap) :=
  fun _ _ h => nomatch h
theorem Encoding.resetPin (strap : Bool) : Encoding.Statement (.resetPin strap) :=
  fun _ _ h => nomatch h
theorem Encoding.acquisitionByteReceived (b : Byte) : Encoding.Statement (.acquisitionByteReceived b) :=
  fun _ _ h => nomatch h
theorem Encoding.huntMark (b : Byte) : Encoding.Statement (.huntMark b) :=
  fun _ _ h => nomatch h
theorem Encoding.acqCrcFailure : Encoding.Statement .acqCrcFailure :=
  fun _ _ h => nomatch h
theorem Encoding.acqTimeout : Encoding.Statement .acqTimeout :=
  fun _ _ h => nomatch h
theorem Encoding.malformedFrame (kind : Byte) (f : AcqFrame) : Encoding.Statement (.malformedFrame kind f) :=
  fun _ _ h => nomatch h
theorem Encoding.openLine (f : AcqFrame) : Encoding.Statement (.openLine f) :=
  fun _ _ h => nomatch h
theorem Encoding.trace (f : AcqFrame) : Encoding.Statement (.trace f) :=
  fun _ _ h => nomatch h
theorem Encoding.mark (f : AcqFrame) : Encoding.Statement (.mark f) :=
  fun _ _ h => nomatch h
theorem Encoding.statusFrame (f : AcqFrame) : Encoding.Statement (.statusFrame f) :=
  fun _ _ h => nomatch h
theorem Encoding.closeLine (f : AcqFrame) : Encoding.Statement (.closeLine f) :=
  fun _ _ h => nomatch h
theorem Encoding.linkIntervalEnd : Encoding.Statement .linkIntervalEnd :=
  fun _ _ h => nomatch h
theorem Encoding.motionSample (r : Option Triple) : Encoding.Statement (.motionSample r) :=
  fun _ _ h => nomatch h
theorem Encoding.fallStart (r : Option Triple) : Encoding.Statement (.fallStart r) :=
  fun _ _ h => nomatch h
theorem Encoding.fallEnd (r : Option Triple) : Encoding.Statement (.fallEnd r) :=
  fun _ _ h => nomatch h
theorem Encoding.impactEnd (r : Option Triple) : Encoding.Statement (.impactEnd r) :=
  fun _ _ h => nomatch h
theorem Encoding.settle (r : Option Triple) : Encoding.Statement (.settle r) :=
  fun _ _ h => nomatch h
theorem Encoding.roughSettle (r : Option Triple) : Encoding.Statement (.roughSettle r) :=
  fun _ _ h => nomatch h
theorem Encoding.sensorFault (r : Option Triple) : Encoding.Statement (.sensorFault r) :=
  fun _ _ h => nomatch h
theorem Encoding.sensorRecovery (r : Option Triple) : Encoding.Statement (.sensorRecovery r) :=
  fun _ _ h => nomatch h
theorem Encoding.handlingDecay : Encoding.Statement .handlingDecay :=
  fun _ _ h => nomatch h
theorem Encoding.gaugeSample (r : Option PackRead) : Encoding.Statement (.gaugeSample r) :=
  fun _ _ h => nomatch h
theorem Encoding.reserveRaise (r : Option PackRead) : Encoding.Statement (.reserveRaise r) :=
  fun _ _ h => nomatch h
theorem Encoding.reserveClear (r : Option PackRead) : Encoding.Statement (.reserveClear r) :=
  fun _ _ h => nomatch h
theorem Encoding.collapse (r : Option PackRead) : Encoding.Statement (.collapse r) :=
  fun _ _ h => nomatch h
theorem Encoding.collapseRecovery (r : Option PackRead) : Encoding.Statement (.collapseRecovery r) :=
  fun _ _ h => nomatch h
theorem Encoding.emptyAnchor (r : Option PackRead) : Encoding.Statement (.emptyAnchor r) :=
  fun _ _ h => nomatch h
theorem Encoding.dieDispatch (die : Nat) : Encoding.Statement (.dieDispatch die) :=
  fun _ _ h => nomatch h
theorem Encoding.programComplete (die : Nat) (pass : Bool) : Encoding.Statement (.programComplete die pass) :=
  fun _ _ h => nomatch h
theorem Encoding.readbackComplete (die : Nat) (r : ReadResult) : Encoding.Statement (.readbackComplete die r) :=
  fun _ _ h => nomatch h
theorem Encoding.retrievalReadComplete (die : Nat) (r : ReadResult) : Encoding.Statement (.retrievalReadComplete die r) :=
  fun _ _ h => nomatch h
theorem Encoding.relocationReadComplete (die : Nat) (r : ReadResult) : Encoding.Statement (.relocationReadComplete die r) :=
  fun _ _ h => nomatch h
theorem Encoding.relocationRetry : Encoding.Statement .relocationRetry :=
  fun _ _ h => nomatch h
theorem Encoding.indexReadComplete (die : Nat) (r : ReadResult) : Encoding.Statement (.indexReadComplete die r) :=
  fun _ _ h => nomatch h
theorem Encoding.reopenPoolLoad (line : Nat) : Encoding.Statement (.reopenPoolLoad line) :=
  fun _ _ h => nomatch h
theorem Encoding.eraseComplete (die : Nat) (pass : Bool) : Encoding.Statement (.eraseComplete die pass) :=
  fun _ _ h => nomatch h
theorem Encoding.operationTimeout (die : Nat) : Encoding.Statement (.operationTimeout die) :=
  fun _ _ h => nomatch h
theorem Encoding.programCountCheckpoint : Encoding.Statement .programCountCheckpoint :=
  fun _ _ h => nomatch h
theorem Encoding.checkpointSnapshot : Encoding.Statement .checkpointSnapshot :=
  fun _ _ h => nomatch h
theorem Encoding.formatEvent : Encoding.Statement .formatEvent :=
  fun _ _ h => nomatch h
theorem Encoding.pauseQuiet : Encoding.Statement .pauseQuiet :=
  fun _ _ h => nomatch h
theorem Encoding.pauseEntry : Encoding.Statement .pauseEntry :=
  fun _ _ h => nomatch h
theorem Encoding.closeoutRelease : Encoding.Statement .closeoutRelease :=
  fun _ _ h => nomatch h
theorem Encoding.lowHaltEntry : Encoding.Statement .lowHaltEntry :=
  fun _ _ h => nomatch h
theorem Encoding.mountReadComplete (a : MountAnswer) : Encoding.Statement (.mountReadComplete a) :=
  fun _ _ h => nomatch h

end Sys2Proof.Laws
end

