-- ==== Sys2Proof/WellFormed.lean ====
section
/-!
DEFINITION. Which commands the outside can send: each operand within the width its field has.
-/
namespace Sys2Proof

def bodyOk (body : List Byte) : Bool := body.length ≤ Config.maxBody

/-- The field widths of Table 11-3 and the payload limit of section 2.1. -/
def frameOk (f : AcqFrame) : Bool :=
  decide (f.line < 65536) && decide (f.station < 4294967296) && decide (f.time < 18446744073709551616) &&
    decide (f.payload.length ≤ 2048)

/-- One of the five frame kinds of Table 2-1, as Table 11-3 codes them. -/
def frameKindKnown (kind : Byte) : Bool := decide (1 ≤ kind.toNat) && decide (kind.toNat ≤ 5)

def dieOk (die : Nat) : Bool := decide (die < 8)

def readOk : ReadResult → Bool
  | .blank => true
  | .clean data => decide (data.length ≤ Config.pageBytes)
  | .corrected n data => decide (1 ≤ n) && decide (n ≤ 40) && decide (data.length ≤ Config.pageBytes)
  | .uncorrectable => true

def mountOk : MountAnswer → Bool
  | .detected n => decide (n ≤ 8)
  | .page r => readOk r

/-- The check of one command's operands. -/
def wellFormed : Instr → Bool
  | .controlByteReceived _ | .linkErrorCrc _ _ | .controlTimeout => true
  | .identify _ b | .status _ b | .gaugeRead _ b | .motionRead _ b | .getSettings _ b | .putSettings _ b
  | .lineList _ b | .lineInfo _ b | .filterReset _ b | .ackResume _ b | .gaugeAnchor _ b | .cancel _ b
  | .reset _ b | .readRecords _ b | .lineClose _ b | .lineLock _ b | .lineUnlock _ b | .lineErase _ b
  | .permitLoad _ b | .saveSettings _ b | .format _ b | .closeout _ b | .pause _ b => bodyOk b
  | .intakeOpen _ | .intakeClose _ | .linkReset => true
  | .storeCommandAdvance | .messageSent | .finalReplyPlaced | .heldMessageEntry => true
  | .powerOn _ | .resetPin _ | .acquisitionByteReceived _ | .huntMark _ | .acqCrcFailure | .acqTimeout => true
  | .malformedFrame k f => frameOk f && (decide (f.line = 0) || !frameKindKnown k)
  | .openLine f | .trace f | .mark f | .statusFrame f | .closeLine f => frameOk f
  | .linkIntervalEnd => true
  | .motionSample _ | .fallStart _ | .fallEnd _ | .impactEnd _ | .settle _ | .roughSettle _
  | .sensorFault _ | .sensorRecovery _ | .handlingDecay => true
  | .gaugeSample _ | .reserveRaise _ | .reserveClear _ | .collapse _ | .collapseRecovery _ | .emptyAnchor _ => true
  | .dieDispatch d | .programComplete d _ | .eraseComplete d _ | .operationTimeout d => dieOk d
  | .readbackComplete d r | .retrievalReadComplete d r | .relocationReadComplete d r
  | .indexReadComplete d r => dieOk d && readOk r
  | .relocationRetry => true
  | .reopenPoolLoad l => decide (1 ≤ l) && decide (l < 65536)
  | .programCountCheckpoint | .checkpointSnapshot | .formatEvent | .pauseQuiet | .pauseEntry
  | .closeoutRelease | .lowHaltEntry => true
  | .mountReadComplete a => mountOk a

end Sys2Proof
end

