-- ==== Sys2Proof/Tests/Slice0.lean ====
section
/-!
SUPPORT. The model's own tests: the refused ill-formed commands, a concrete state and operands that meet the hypotheses of
each statement, and one step of the commands on small states.
-/
namespace Sys2Proof.Tests
open Sys2Proof Sys2Proof.Machine

/-! ## Small states -/

/-- The state that a command leaves. -/
def after (c : Instr) (s : State) : State :=
  match exec c s with
  | .next t => t
  | .fault _ => s
  | .refused _ => s

def idleDie : Die := { ready := true, op := none, active := none, due := [] }

def freeBlock (n : Nat) : BlockRec := { id := { die := 0, block := n }, st := .free, erases := 0, live := 0, seq := n }

/-- A READY store of one die with nine free blocks, nothing under way. -/
def ready : State :=
  { State.reset with
    flash := { Flash.reset with
      dies := [idleDie], blocks := (List.range 9).map fun n => freeBlock (n + 5),
      freeList := (List.range 9).map fun n => ({ die := 0, block := n + 5 } : Blk) },
    power := { Power.reset .powerOn 7 with store := .ready, mount := none } }

/-- No follow-up work stands where the lists it reads are empty. -/
theorem walkStillOf (s : State) (h0 : s.store.walk = none) (h1 : s.flash.refresh = []) : WalkStill s := by
  unfold WalkStill
  rw [h0]
  exact h1

theorem stillOf (s : State) (h0 : s.store.walk = none) (h1 : s.flash.refresh = []) (h2 : s.retr.ctx = none)
    (h3 : s.flash.reads = []) (h4 : s.power.mount = none) (h5 : s.isRunning .pause = false) (h6 : s.emergency = false) : Still s := by
  refine ⟨walkStillOf s h0 h1, fun q h => ?_, fun q h => ?_, h4, h5, h6⟩
  · rw [h2] at h; cases h
  · rw [h3] at h; cases h

theorem still_ready : Still ready := stillOf _ rfl rfl rfl rfl rfl rfl rfl

/-- A command that passes every check, runs at once and finds no follow-up work. -/
theorem runsOf (k : CmdKind) (tag : Byte) (body : List Byte) (s : State) (h1 : s.link.discard = false)
    (h2 : k.isStore = true) (h3 : checkCommand k tag body s.heard = none) (h4 : s.link.running = none)
    (h5 : s.link.waiting = []) (h6 : s.heard.power.pauseMark = none) (h7 : s.heard.link.fifo.length < 32) :
    Runs k tag body s := ⟨h1, h2, h3, h4, h5, h6, h7⟩

/-- The store state and the lines of a state replaced. -/
def inStore (st : StoreState) (ls : List Line) (s : State) : State :=
  { s with power := { s.power with store := st }, store := { s.store with lines := ls } }

def lineOf (n : Nat) (st : LineState) : Line := { freshLine n with st := st }

def running (k : CmdKind) (tag : Byte) (body : List Byte) : Running :=
  { cmd := { kind := k, tag := tag, body := body, cancelled := false }, handed := true, final := none }

def blankBuf (k : PageKind) (st : BufState) : Buf :=
  { st := st, origin := .index, slot := none, fill := 0, hdr := blankHdr k, body := .raw [], target := none,
    exposed := false, reported := false, handed := false, job := .settings }

/-- One buffer that is not FREE, in the first place. -/
def withBuf (x : Buf) (s : State) : State :=
  { s with staging := { s.staging with bufs := some x :: List.replicate 23 none } }

/-- The one die with this operation in flight. -/
def withOp (k : OpKind) (s : State) : State :=
  { s with flash := { s.flash with dies := [{ idleDie with op := some { kind := k, start := 0 } }] } }

/-! ## Ill-formed commands -/

theorem test_body_over_limit : wellFormed (.identify 1 (List.replicate 4097 0)) = false := by decide +kernel

def okFrame : AcqFrame := { flags := 0, line := 5, station := 9, time := 11, payload := [1, 2] }

theorem test_frame_line_too_wide : wellFormed (.openLine { okFrame with line := 65536 }) = false := by decide
theorem test_frame_station_too_wide : wellFormed (.trace { okFrame with station := 4294967296 }) = false := by decide
theorem test_frame_time_too_wide : wellFormed (.mark { okFrame with time := 18446744073709551616 }) = false := by decide
theorem test_frame_payload_too_long :
    wellFormed (.statusFrame { okFrame with payload := List.replicate 2049 0 }) = false := by decide +kernel
theorem test_malformed_frame_is_malformed : wellFormed (.malformedFrame 5 okFrame) = false := by decide
theorem test_malformed_frame_widths : wellFormed (.malformedFrame 6 { okFrame with line := 65536 }) = false := by decide
theorem test_die_eight : wellFormed (.dieDispatch 8) = false := by decide
theorem test_read_die_eight : wellFormed (.readbackComplete 8 .blank) = false := by decide
theorem test_clean_page_too_long : wellFormed (.retrievalReadComplete 0 (.clean (List.replicate 16385 0))) = false := by decide +kernel
theorem test_corrected_page_too_long :
    wellFormed (.retrievalReadComplete 0 (.corrected 1 (List.replicate 16385 0))) = false := by decide +kernel
theorem test_corrected_no_bits : wellFormed (.indexReadComplete 0 (.corrected 0 [])) = false := by decide
theorem test_corrected_too_many_bits : wellFormed (.relocationReadComplete 0 (.corrected 41 [])) = false := by decide
theorem test_pool_load_of_line_zero : wellFormed (.reopenPoolLoad 0) = false := by decide
theorem test_pool_load_line_too_wide : wellFormed (.reopenPoolLoad 65536) = false := by decide
theorem test_nine_dies : wellFormed (.mountReadComplete (.detected 9)) = false := by decide
theorem test_mount_page_bits : wellFormed (.mountReadComplete (.page (.corrected 41 []))) = false := by decide
theorem test_well_formed_commands :
    wellFormed (.openLine okFrame) = true ∧ wellFormed (.malformedFrame 6 okFrame) = true ∧
      wellFormed (.indexReadComplete 7 (.corrected 40 [])) = true := by decide

/-! ## The queue, the tick and resets -/

theorem test_StepRunsTheFrontCommand :
    ({ ready with pending := [.controlTimeout, .messageSent] } : State).pending = .controlTimeout :: [.messageSent] := rfl

theorem test_EmptyQueueStepIsOneTick :
    let s := { ready with power := { ready.power with clock := 4294967295 } }
    (s.pending = [] ∧ s.decayRuns = false ∧ s.timerRuns = false ∧ s.power.clock < 4294967296) ∧ (tick s).power.clock = 0 := by
  decide

theorem sound_ready : Sound ready :=
  ⟨⟨by decide, by decide⟩, staging_ok_reset, flash_ok_built (by decide) (by decide) rfl, by decide, by decide⟩

theorem test_EveryStepKeepsTheInvariant : Inv ready ∧ ∃ t, step ready = .next t :=
  ⟨⟨⟨settingsOk_defaults, by unfold Gauge.ok; decide, by decide, by decide, by decide, by decide⟩, sound_ready⟩, _, rfl⟩

def resetReply : Message := { cls := .immediate, kind := CmdKind.reset.code, tag := 9, body := [0] }

def sending (m : Message) (s : State) : State := { s with link := { s.link with sending := some m } }

theorem test_OtherResets_link :
    (∃ m, (sending resetReply ready).link.sending = some m ∧ m.cls = .immediate ∧ m.kind = CmdKind.reset.code ∧
      byteAt m.body 0 = 0) ∧ (after .linkReset (sending resetReply ready)).power.resetCause = .linkReset :=
  ⟨⟨resetReply, by decide⟩, by decide⟩

def okReply : Message := { cls := .immediate, kind := 1, tag := 9, body := [0] }

/-- A LINK_RESET samples the strap at a level that nothing constrains, and counts it; the other resets keep the count. -/
theorem test_OtherResets_strap :
    let s := sending resetReply { ready with straps := 7 }
    (after .linkReset s).link.strap = Config.strapLevel 7 ∧ (after .linkReset s).straps = 8 ∧
      (after (.resetPin true) s).straps = 7 ∧ (after (.powerOn true) s).straps = 7 ∧
      (sampledReset .lowRecovery s).link.rate3M = Config.strapLevel 7 :=
  ⟨rfl, rfl, rfl, rfl, rfl⟩

theorem test_OtherResets_other_message :
    ∀ m, (sending okReply ready).link.sending = some m →
      ¬(m.cls = .immediate ∧ m.kind = CmdKind.reset.code ∧ byteAt m.body 0 = 0) := by
  intro m h
  cases h
  decide

theorem test_OtherResets_collapse :
    let s := { ready with gauge := { ready.gauge with collapse := true } }
    (after (.resetPin true) s).power.st = .lowHalt ∧ (after (.resetPin true) s).power.mount = none ∧
      (after (.resetPin true) ready).power.st = .run := by
  decide

/-! ## The control link -/

def parsing (p : CtlParser) (s : State) : State := { s with link := { s.link with parser := p } }

def header (n len : Nat) : CtlParser := { CtlParser.reset with st := .header, count := n, len := len }

theorem test_ControlByteInIdle :
    (ready.link.discard = false ∧ ready.link.parser.st = .idle) ∧
      (after (.controlByteReceived 0x1B) (parsing { CtlParser.reset with half := true } ready)).link.parser.st = .header := by
  decide

/-- A STATUS command of tag 1 whose second CRC byte is to come. -/
def checking (kind : Byte) : State :=
  parsing { CtlParser.reset with st := .check, count := 1, kind := kind, tag := 1, crc := 0x1234, crcLo := 0x34 } ready

theorem test_ControlBodyAndCheck :
    let body : CtlParser := { CtlParser.reset with st := .body, count := 0, len := 2 }
    let s := checking CmdKind.status.code
    ({ ready with link := { ready.link with discard := true } } : State).link.discard = true ∧ s.link.discard = false ∧
      body.count + 1 < body.len ∧ body.len ≤ ({ body with count := 1 } : CtlParser).count + 1 ∧
      s.link.parser.st = .check ∧ s.link.parser.count ≠ 0 ∧
      s.link.parser.crcLo.toNat + 256 * (0x12 : Byte).toNat = s.link.parser.crc.toNat ∧
      s.link.parser.crcLo.toNat + 256 * (0x13 : Byte).toNat ≠ s.link.parser.crc.toNat ∧
      rowFrame (.status 1 []) = some (.status, s.link.parser.tag, s.link.parser.body) ∧
      CmdKind.ofCode s.link.parser.kind = some .status ∧ CmdKind.ofCode (checking 0xEE).link.parser.kind = none ∧
      (after (.controlByteReceived 7) (parsing body ready)).link.parser.count = 1 ∧
      (after (.controlByteReceived 7) (parsing { body with count := 1 } ready)).link.parser.st = .check ∧
      (after (.controlByteReceived 0x12) s).link.sending.isSome = true ∧
      (after (.controlByteReceived 0x13) s).link.errCrc = 1 := by
  decide

/-- The acquisition parser in a state, with this much of the header, the payload and the CRC. -/
def receiving (st : AcqState) (hdr payload got : List Byte) : State :=
  { ready with intake := { ready.intake with
      openReq := true,
      parser := { AcqParser.reset with st := st, hdr := hdr, payload := payload, got := got, crc := 0xFFFFFFFF } } }

/-- The header of an OPEN-LINE frame of line 5 up to the payload length's high byte. -/
def header17 (kind len : Byte) : List Byte := [kind, 0, 5, 0] ++ List.replicate 12 0 ++ [len]

theorem test_AcquisitionHeaderPayloadCheck :
    let s := receiving .check (header17 1 0 ++ [0]) [] [0, 0, 0]
    (header17 1 0 ++ [0]).length = 18 ∧ (header17 1 0).length < 18 ∧ ready.maxPayload < field 2 (header17 1 0 ++ [0xFF]) 16 ∧
      field 2 (header17 1 2 ++ [0]) 16 ≤ ready.maxPayload ∧ (s.intake.parser.got ++ [0]).length = 4 ∧
      ofLe (s.intake.parser.got ++ [0]) = (crc32Final s.intake.parser.crc).toNat ∧
      ofLe (s.intake.parser.got ++ [1]) ≠ (crc32Final s.intake.parser.crc).toNat ∧
      byteAt s.intake.parser.hdr 0 = 1 ∧ 5 < (byteAt (header17 9 0) 0).toNat ∧
      (after (.acquisitionByteReceived 0xFF) (receiving .header (header17 1 0) [] [])).intake.counters.overlong = 1 ∧
      (after (.acquisitionByteReceived 0) (receiving .header (header17 1 2) [] [])).intake.parser.st = .payload ∧
      (after (.acquisitionByteReceived 7) (receiving .payload (header17 1 1 ++ [0]) [] [])).intake.parser.st = .check ∧
      ((after (.acquisitionByteReceived 0) s).line 5).map Line.st = some .opened ∧
      (after (.acquisitionByteReceived 1) s).intake.counters.crc = 1 := by
  decide +kernel

theorem test_ControlHeaderBytes :
    (parsing (header 0 0) ready).link.discard = false ∧ (parsing (header 0 0) ready).paused = false ∧
      (parsing (header 0 0) ready).link.parser.st = .header ∧ (header 0 0).count = 0 ∧ (header 2 0).count = 2 ∧
      (header 3 0).count = 3 ∧ (0 + 256 * (0x10 : Byte).toNat ≤ 4096) ∧ 4096 < 1 + 256 * (0x10 : Byte).toNat ∧
      (after (.controlByteReceived 0x10) (parsing (header 1 0) ready)).link.parser.len = 4096 ∧
      (after (.controlByteReceived 0x10) (parsing (header 1 1) ready)).link.errLen = 1 := by
  decide

theorem test_LinkErrors :
    ready.link.discard = false ∧ (parsing (header 0 0) ready).link.parser.st ≠ .idle ∧ ready.link.parser.st = .idle ∧
      (after (.linkErrorCrc 7 8) ready).link.errCrc = 1 ∧
      (after .controlTimeout (parsing (header 2 0) ready)).link.errTime = 1 := by
  decide

/-- A READ-RECORDS body: line 1, every kind, every station, at most one record. -/
def rrBody : List Byte := [1, 0, 63, 0, 0, 0, 0, 0, 255, 255, 255, 255, 1, 0, 0, 0]

def waiting (n : Nat) (s : State) : State :=
  { s with link := { s.link with waiting := (List.range n).map fun i =>
      { kind := .permitLoad, tag := byteOf (i + 20), body := [], cancelled := false } } }

theorem test_ChecksRefuseInOrder :
    rowFrame (.readRecords 1 rrBody) = some (.readRecords, 1, rrBody) ∧ ready.link.discard = false ∧
      lengthOk .readRecords [] = false ∧ (waiting 1 ready).heard.tagInUse 20 = true ∧
      lengthOk .readRecords rrBody = true ∧ ready.heard.tagInUse 1 = false ∧
      refusedBy .readRecords .lowHalt .ready = some .notReady ∧ refusedBy .readRecords .run .ready = none ∧
      argumentBad .readRecords (rrBody.set 0 0) ready.heard = true ∧
      argumentBad .readRecords rrBody ready.heard = false ∧ CmdKind.readRecords.isStore = true ∧
      (waiting 4 ready).link.waiting.length = 4 := by
  decide

theorem test_ReportsAreAnswered :
    let u := ready.heard
    checkCommand .identify 1 [] u = none ∧ checkCommand .status 1 [] u = none ∧ checkCommand .gaugeRead 1 [] u = none ∧
      checkCommand .motionRead 1 [] u = none ∧ checkCommand .lineList 1 [0, 0] u = none ∧
      checkCommand .lineInfo 1 [5, 0] u = none ∧ u.line 5 = none ∧
      (inStore .ready [lineOf 5 .closed] ready).heard.line 5 = some (lineOf 5 .closed) := by
  decide

theorem test_GetSettings :
    checkCommand .getSettings 1 [40, 4] ready.heard = none ∧
      (after (.getSettings 1 [40, 4]) ready).link.sending.map Message.body = some [0, 0, 1, 0, 20, 0, 20, 0, 20, 0] := by
  decide

/-- The first PUT of the worked example of section 10.2. -/
def putBody : List Byte := [14, 0, 20, 0, 60, 0, 40, 0, 0x88, 0x13]

theorem test_PutSettings :
    ready.settings.items.length = 42 ∧ checkCommand .putSettings 1 putBody ready.heard = none ∧
      ((after (.putSettings 1 putBody) ready).settings.items.drop 14).take 4 = [16, 48, 160, 4096] ∧
      (after (.putSettings 1 putBody) ready).link.sending.map Message.body = some [0, 0, 2, 2, 2] := by
  decide

theorem test_IntakeOpenAndClose :
    checkCommand .intake 1 [1] ready.heard = none ∧ openRefusal ready.heard = none ∧
      openRefusal (inStore .blank [] ready).heard = some .notReady ∧
      checkCommand .intake 1 [1] (inStore .blank [] ready).heard = none ∧
      checkCommand .intake 1 [2] ready.heard = none ∧ (after (.intakeOpen 1) ready).intakeState = .opened := by
  decide

theorem test_FilterResetAndAckResume :
    checkCommand .filterReset 1 [] ready.heard = none ∧ checkCommand .ackResume 1 [] ready.heard = none := by decide

theorem test_GaugeAnchor :
    checkCommand .gaugeAnchor 1 [1] ready.heard = none ∧ (after (.gaugeAnchor 1 [1]) ready).gauge.rc = 97920000 := by
  decide

theorem test_CancelOfAWaitingCommand :
    checkCommand .cancel 1 [20] (waiting 1 ready).heard = none ∧ (waiting 1 ready).link.running = none ∧
      ((waiting 1 ready).link.waiting.find? fun x => x.tag == byteAt [20] 0) =
        some { kind := .permitLoad, tag := 20, body := [], cancelled := false } ∧
      (waiting 1 ready).heard.link.fifo.length < 32 ∧ (after (.cancel 1 [20]) (waiting 1 ready)).link.waiting = [] := by
  decide

/-- Replies that wait keep their places behind a message being sent, and GAUGE-ANCHOR's joins them. -/
theorem test_RepliesKeepTheirPlaces :
    let r : Message := { cls := .final, kind := 1, tag := 9, body := [0] }
    let s := { waiting 1 ready with link := { (waiting 1 ready).link with fifo := [r, r], sending := some r } }
    checkCommand .gaugeAnchor 1 [1] s.heard = none ∧ s.heard.link.sending ≠ none ∧ ready.heard.link.fifo = [] ∧
      (after (.gaugeAnchor 1 [1]) s).link.fifo.take 2 = [r, r] ∧ (after (.gaugeAnchor 1 [1]) s).link.fifo.length = 3 ∧
      (after (.ackResume 1 []) s).link.fifo.take 2 = [r, r] ∧ (after (.gaugeAnchor 1 [1]) s).link.waiting = s.link.waiting := by
  decide +kernel

/-- A full reply FIFO in front of one waiting command. -/
def fullFifo : State :=
  let s := waiting 1 ready
  { s with link := { s.link with fifo := List.replicate 32 { cls := .final, kind := 1, tag := 9, body := [] } } }

theorem test_CancelWithoutRoom :
    checkCommand .cancel 1 [20] fullFifo.heard = none ∧ 32 ≤ fullFifo.heard.link.fifo.length ∧
      (after (.cancel 1 [20]) fullFifo).link.waiting.map StoreCmd.cancelled = [true] := by
  decide

theorem test_ResetIsAnswered :
    ready.link.discard = false ∧ checkCommand .reset 1 [] ready.heard = none ∧ ready.heard.link.fifo.length < 16 ∧
      (after (.reset 1 []) ready).link.discard = true ∧
      rowFrame (.status 1 []) = some (.status, 1, []) := by
  decide

theorem test_MessageSent :
    let s := sending okReply ready
    s.link.sending = some okReply ∧ okReply.isResetReply = false ∧ s.power.pauseMark = none ∧ s.paused = false ∧
      s.link.fifo = [] ∧ s.link.notices = [] := by
  decide

/-- The running command `r`. -/
def running' (r : Running) (s : State) : State := { s with link := { s.link with running := some r } }

theorem test_AHeldFinalReply :
    let r := { running .permitLoad 3 [] with final := some ⟨.ok, []⟩ }
    (running' r ready).link.removed = [] ∧ (running' r ready).link.running = some r ∧ r.final = some ⟨.ok, []⟩ ∧
      r.cmd.kind ∈ [CmdKind.lineClose, .lineLock, .lineUnlock, .lineErase, .permitLoad, .saveSettings, .closeout] ∧
      (running' r ready).link.fifo.length < 32 ∧ (after .finalReplyPlaced (running' r ready)).link.running = none := by
  decide

theorem test_AHeldFinalReply_still : Still (running' { running .permitLoad 3 [] with final := some ⟨.ok, []⟩ } ready) :=
  stillOf _ rfl rfl rfl rfl rfl rfl rfl

def someRec : Rec :=
  { kind := .trace, degraded := false, short := false, suppressed := false, iflags := 0, station := 9, time := 11,
    arrival := 1, clock := 7, supCount := 0, payload := [1] }

/-- A retrieval that has sent nothing and holds the one RECORD it may send. -/
def heldCtx : RetrCtx :=
  { line := 1, lo := 0, hi := 4294967295, mask := 63, max := 1, sent := 0, bound := 2, cursor := 2, held := true,
    root := some [], noFill := false, read := none, msg := some (.record someRec), todo := [],
    stop := .none, ended := false }

def retrieving (c : RetrCtx) (s : State) : State :=
  running' (running .readRecords 3 rrBody) { s with retr := { s.retr with ctx := some c } }

theorem test_AHeldRecord :
    let s := retrieving heldCtx ready
    s.link.running = some (running .readRecords 3 rrBody) ∧ s.retr.ctx = some heldCtx ∧
      heldCtx.msg = some (.record someRec) ∧ heldCtx.ended = false ∧ heldCtx.stop = .none ∧ heldCtx.read = none ∧
      heldCtx.max = heldCtx.sent + 1 ∧ s.link.fifo.length < 8 ∧ s.flash.pendingRec = [] ∧
      (after .heldMessageEntry s).retr.ctx = none := by
  decide

/-- CANCEL of a running READ-RECORDS: with no record in progress, with one held, with a page being read, and a second time; and of
another command. -/
theorem test_CancelOfARunningCommand :
    let quiet : RetrCtx := { heldCtx with msg := none }
    let reading : RetrCtx := { quiet with
      read := some { addr := { die := 0, block := 7, page := 0 }, purpose := .root, started := true, stale := false } }
    let s := retrieving quiet ready
    let u := running' (running .permitLoad 3 []) ready
    checkCommand .cancel 1 [3] s.heard = none ∧ (running .readRecords 3 rrBody).cmd.tag = byteAt [3] 0 ∧
      quiet.stop = .none ∧ quiet.ended = false ∧ quiet.msg = none ∧ quiet.inFlight = false ∧
      heldCtx.msg.isSome = true ∧ reading.inFlight = true ∧ ({ heldCtx with stop := .cancel } : RetrCtx).stop ≠ .none ∧
      (after (.cancel 1 [3]) s).retr.ctx = none ∧ (after (.cancel 1 [3]) s).link.running = none ∧
      ((after (.cancel 1 [3]) (retrieving reading ready)).retr.ctx.map RetrCtx.stop) = some .cancel ∧
      checkCommand .cancel 1 [3] u.heard = none ∧
      (after (.cancel 1 [3]) u).link.sending.map Message.body = some (replyBody .notCancellable []) ∧
      (after (.cancel 1 [3]) u).link.running = u.link.running := by
  decide

theorem test_CancelOfARunningCommand_still :
    Still (retrieving { heldCtx with msg := none } ready) ∧ Still (retrieving { heldCtx with stop := .cancel } ready) :=
  ⟨⟨walkStillOf _ rfl rfl, (fun q h => by cases h), (fun q h => by cases h), rfl, rfl, rfl⟩,
    ⟨walkStillOf _ rfl rfl, (fun q h => by cases h), (fun q h => by cases h), rfl, rfl, rfl⟩⟩

theorem test_AHeldRecord_still : Still (retrieving heldCtx ready) := by
  refine ⟨walkStillOf _ rfl rfl, fun q h => ?_, fun q h => ?_, rfl, rfl, rfl⟩
  · cases h
  · cases h

/-! ## Store commands -/

/-- Line 5 CLOSED with a root page, and three records known. -/
def rooted (n : Nat) (st : LineState) : Line :=
  { lineOf n st with
    root := some { addr := { die := 0, block := 7, page := 0 }, wseq := 3 }, next := 4, pages := 1, segs := 1 }

theorem still_inStore (st : StoreState) (ls : List Line) : Still (inStore st ls ready) := stillOf _ rfl rfl rfl rfl rfl rfl rfl

theorem test_ReadRecords_no_line : Runs .readRecords 1 rrBody ready ∧ ready.retr.ctx = none ∧ ready.line (rrLine rrBody) = none :=
  ⟨runsOf _ _ _ _ rfl rfl (by decide) rfl rfl rfl (by decide), by decide⟩

theorem test_ReadRecords_held :
    let s := inStore .ready [rooted 1 .closed] ready
    Runs .readRecords 1 rrBody s ∧ s.line (rrLine rrBody) = some (rooted 1 .closed) ∧
      (rooted 1 .closed).indexing = false ∧ (rooted 1 .closed).pages ≠ 0 ∧ 1 < (rooted 1 .closed).next ∧ s.dieReady 0 = true ∧
      ((after (.readRecords 1 rrBody) s).retr.ctx.map RetrCtx.bound) = some 4 :=
  ⟨runsOf _ _ _ _ rfl rfl (by decide) rfl rfl rfl (by decide), by decide⟩

theorem test_ReadRecords_no_pages :
    let s := inStore .ready [lineOf 1 .closed] ready
    Runs .readRecords 1 rrBody s ∧ s.line (rrLine rrBody) = some (lineOf 1 .closed) ∧ (lineOf 1 .closed).loading = false ∧
      (lineOf 1 .closed).pages = 0 ∧ s.flash.pendingRec = [] ∧ (after (.readRecords 1 rrBody) s).retr.ctx = none ∧
      (after (.readRecords 1 rrBody) s).link.sending.map Message.body = some (replyBody .ok (le2 0 ++ le4 0)) :=
  ⟨runsOf _ _ _ _ rfl rfl (by decide) rfl rfl rfl (by decide), by decide⟩

/-- Line 5 OPEN on slot 0. -/
def openLine5 : State :=
  let s := inStore .ready [lineOf 5 .opened] ready
  { s with intake := { s.intake with
      openReq := true,
      slots := [some { line := 5, ordinal := 0, station := 9, time := 11, filter := .fresh, reference := none,
                       suppressed := 0 }, none, none, none] } }

theorem test_LineClose_open :
    Runs .lineClose 1 [5, 0] openLine5 ∧ Still openLine5 ∧ openLine5.line (lineArg [5, 0]) = some (lineOf 5 .opened) ∧
      openLine5.slotOf (lineArg [5, 0]) = some 0 ∧
      ((after (.lineClose 1 [5, 0]) openLine5).line 5).map Line.st = some .closing :=
  ⟨runsOf _ _ _ _ rfl rfl (by decide) rfl rfl rfl (by decide), stillOf _ rfl rfl rfl rfl rfl rfl rfl, by decide⟩

theorem test_LineClose_other :
    Runs .lineClose 1 [5, 0] ready ∧ ready.line 5 = none ∧ Runs .lineClose 1 [5, 0] (inStore .ready [lineOf 5 .closing] ready) ∧
      (inStore .ready [lineOf 5 .closing] ready).line 5 = some (lineOf 5 .closing) ∧ (lineOf 5 .closing).st ≠ .opened :=
  ⟨runsOf _ _ _ _ rfl rfl (by decide) rfl rfl rfl (by decide), rfl,
    runsOf _ _ _ _ rfl rfl (by decide) rfl rfl rfl (by decide), by decide⟩

theorem test_LockAndUnlock_nothing :
    Runs .lineLock 1 [5, 0] ready ∧ ready.line 5 = none ∧ Runs .lineUnlock 1 [5, 0] ready ∧
      Runs .lineLock 1 [5, 0] openLine5 ∧ (openLine5.line 5).map Line.st = some .opened ∧
      Runs .lineLock 1 [5, 0] (inStore .ready [rooted 5 .locked] ready) ∧
      Runs .lineUnlock 1 [5, 0] (inStore .ready [rooted 5 .closed] ready) :=
  ⟨runsOf _ _ _ _ rfl rfl (by decide) rfl rfl rfl (by decide), rfl,
    runsOf _ _ _ _ rfl rfl (by decide) rfl rfl rfl (by decide),
    runsOf _ _ _ _ rfl rfl (by decide) rfl rfl rfl (by decide), by decide,
    runsOf _ _ _ _ rfl rfl (by decide) rfl rfl rfl (by decide),
    runsOf _ _ _ _ rfl rfl (by decide) rfl rfl rfl (by decide)⟩

theorem test_LockAndUnlock_change :
    let s := inStore .ready [rooted 5 .closed] ready
    let t := inStore .ready [rooted 5 .locked] ready
    Runs .lineLock 1 [5, 0] s ∧ Runs .lineUnlock 1 [5, 0] t ∧ s.line (lineArg [5, 0]) = some (rooted 5 .closed) ∧
      t.line (lineArg [5, 0]) = some (rooted 5 .locked) ∧ (∀ m ∈ s.store.lines, m.indexing = false) ∧
      (∀ m ∈ t.store.lines, m.indexing = false) ∧ s.store.ckpt = none ∧ t.store.ckpt = none ∧
      ((after (.lineLock 1 [5, 0]) s).line 5).map Line.st = some .locked ∧
      ((after (.lineUnlock 1 [5, 0]) t).line 5).map Line.st = some .closed :=
  ⟨runsOf _ _ _ _ rfl rfl (by decide) rfl rfl rfl (by decide),
    runsOf _ _ _ _ rfl rfl (by decide) rfl rfl rfl (by decide), by decide⟩

/-- The range 5 to 9. -/
def eraseBody : List Byte := [5, 0, 9, 0]

theorem test_LineErase_refused :
    let s := inStore .ready [rooted 5 .closed, rooted 9 .locked] ready
    let t := inStore .ready [rooted 5 .closed, lineOf 9 .closing] ready
    let hit := fun l : Line => eraseLo eraseBody ≤ l.num ∧ l.num ≤ eraseHi eraseBody
    Runs .lineErase 1 eraseBody s ∧ Runs .lineErase 1 eraseBody t ∧ (∃ l ∈ s.store.lines, hit l ∧ l.st = .locked) ∧
      (∀ l ∈ t.store.lines, hit l → l.st ≠ .locked) ∧ (∃ l ∈ t.store.lines, hit l ∧ l.indexing = true) :=
  ⟨runsOf _ _ _ _ rfl rfl (by decide) rfl rfl rfl (by decide),
    runsOf _ _ _ _ rfl rfl (by decide) rfl rfl rfl (by decide), by decide⟩

theorem test_LineErase_removes :
    let s := inStore .ready [rooted 4 .locked, rooted 5 .closed, lineOf 9 .closed, rooted 10 .closed] ready
    let hit := fun l : Line => eraseLo eraseBody ≤ l.num ∧ l.num ≤ eraseHi eraseBody
    Runs .lineErase 1 eraseBody s ∧ (∀ l ∈ s.store.lines, hit l → l.st ≠ .locked) ∧
      (∀ l ∈ s.store.lines, l.indexing = false) ∧ s.dieReady 0 = true ∧
      (after (.lineErase 1 eraseBody) s).store.lines.map Line.num = [4, 10] ∧
      ((after (.lineErase 1 eraseBody) s).store.erase.map EraseJob.count) = some 2 :=
  ⟨runsOf _ _ _ _ rfl rfl (by decide) rfl rfl rfl (by decide), by decide⟩

/-- An OPEN line outside the range: with a root to be read first in the range, and with none. -/
theorem test_LineErase_beside_an_open_line :
    let hit := fun l : Line => eraseLo eraseBody ≤ l.num ∧ l.num ≤ eraseHi eraseBody
    let s := inStore .ready [rooted 4 .opened, rooted 5 .closed, lineOf 10 .closed] ready
    let t := inStore .ready [rooted 4 .opened, lineOf 5 .closed, lineOf 10 .closed] ready
    Runs .lineErase 1 eraseBody s ∧ Runs .lineErase 1 eraseBody t ∧
      (∀ l ∈ s.store.lines, hit l → l.st ≠ .locked ∧ l.indexing = false) ∧
      (∃ l ∈ s.store.lines, hit l ∧ l.root.isSome = true) ∧
      (∀ l ∈ t.store.lines, hit l → l.st ≠ .locked ∧ l.indexing = false) ∧
      (after (.lineErase 1 eraseBody) s).store.lines = [rooted 4 .opened, lineOf 10 .closed] ∧
      (after (.lineErase 1 eraseBody) t).store.lines.map Line.num = [4, 10] ∧
      (after (.lineErase 1 eraseBody) t).line 10 = some (lineOf 10 .closed) :=
  ⟨runsOf _ _ _ _ rfl rfl (by decide) rfl rfl rfl (by decide),
    runsOf _ _ _ _ rfl rfl (by decide) rfl rfl rfl (by decide), by decide⟩

theorem test_LineErase_roots :
    let s := inStore .ready [rooted 4 .locked, rooted 5 .closed, lineOf 9 .closed, rooted 10 .closed] ready
    ∀ l ∈ s.store.lines, ∀ r, l.root = some r → s.dieReady r.addr.die = true := by
  intro s l hl r hr
  simp only [s, inStore, List.mem_cons, List.not_mem_nil, or_false] at hl
  rcases hl with rfl | rfl | rfl | rfl <;> cases hr <;> rfl

theorem test_PermitLoad :
    Runs .permitLoad 1 [1, 0, 8, 0, 255] ready ∧ (after (.permitLoad 1 [1, 0, 8, 0, 255]) ready).settings.permit.len = 8 :=
  ⟨runsOf _ _ _ _ rfl rfl (by decide) rfl rfl rfl (by decide), by decide⟩

theorem test_SaveSettings :
    Runs .saveSettings 1 [] ready ∧ ready.dieReady 0 = true ∧ ready.staging.requests = [] ∧ ready.freeBuffer = some 0 ∧
      (after (.saveSettings 1 []) ready).staging.queue = [0] :=
  ⟨runsOf _ _ _ _ rfl rfl (by decide) rfl rfl rfl (by decide), by decide⟩

/-- SAVE-SETTINGS with every buffer in use, behind a request that waits, and with die 0 FAULTED. -/
theorem test_SaveSettings_waits :
    let full := { ready with staging := { ready.staging with bufs := List.replicate 24 (some (blankBuf .data .retained)) } }
    let behind := { ready with staging := { ready.staging with requests := [.closeRoot 5] } }
    let faulted := { ready with flash := { ready.flash with dies := [{ idleDie with ready := false }] } }
    (Runs .saveSettings 1 [] full ∧ Runs .saveSettings 1 [] behind ∧ Runs .saveSettings 1 [] faulted) ∧
      full.freeBuffer = none ∧ faulted.dieReady 0 = false ∧ faulted.freeBuffer = some 0 ∧
      (after (.saveSettings 1 []) full).staging.requests.length = 1 ∧
      (after (.saveSettings 1 []) behind).staging.requests.length = 2 ∧
      (after (.saveSettings 1 []) faulted).link.sending.map Message.body = some (replyBody .mediaFault []) ∧
      (after (.saveSettings 1 []) faulted).staging.queue = [] :=
  ⟨⟨runsOf _ _ _ _ rfl rfl (by decide) rfl rfl rfl (by decide), runsOf _ _ _ _ rfl rfl (by decide) rfl rfl rfl (by decide),
    runsOf _ _ _ _ rfl rfl (by decide) rfl rfl rfl (by decide)⟩, by decide⟩

theorem test_SaveSettings_still :
    Still { ready with staging := { ready.staging with bufs := List.replicate 24 (some (blankBuf .data .retained)) } } ∧
      Still { ready with staging := { ready.staging with requests := [.closeRoot 5] } } ∧
      Still { ready with flash := { ready.flash with dies := [{ idleDie with ready := false }] } } :=
  ⟨stillOf _ rfl rfl rfl rfl rfl rfl rfl, stillOf _ rfl rfl rfl rfl rfl rfl rfl, stillOf _ rfl rfl rfl rfl rfl rfl rfl⟩

theorem test_Format :
    let s := inStore .ready [rooted 5 .locked] ready
    Runs .format 1 [] s ∧ (∃ l ∈ s.store.lines, l.st = .locked) ∧ Runs .format 1 [] ready ∧
      (∀ l ∈ ready.store.lines, l.st ≠ .locked) ∧ (after (.format 1 []) ready).power.fmt = .waiting :=
  ⟨runsOf _ _ _ _ rfl rfl (by decide) rfl rfl rfl (by decide), by decide,
    runsOf _ _ _ _ rfl rfl (by decide) rfl rfl rfl (by decide), by decide⟩

theorem test_Closeout :
    let s := inStore .closedOut [] ready
    Runs .closeout 1 [] s ∧ s.power.store = .closedOut ∧ Runs .closeout 1 [] ready ∧ ready.power.store = .ready ∧
      (after (.closeout 1 []) ready).power.store = .closingOut :=
  ⟨runsOf _ _ _ _ rfl rfl (by decide) rfl rfl rfl (by decide), rfl,
    runsOf _ _ _ _ rfl rfl (by decide) rfl rfl rfl (by decide), by decide⟩

theorem test_Pause :
    Runs .pause 1 [] ready ∧ ready.queueStuck = false ∧ (after (.pause 1 []) ready).power.pause = .quiet :=
  ⟨runsOf _ _ _ _ rfl rfl (by decide) rfl rfl rfl (by decide), by decide⟩

/-- A page of the intake is QUEUED, and the one die is FAULTED. -/
def stuck : State :=
  { ready with
    flash := { ready.flash with dies := [{ idleDie with ready := false }] },
    staging := { ready.staging with
      bufs := some { blankBuf .data .queued with job := .intake, origin := .intake } :: List.replicate 23 none, queue := [0] } }

/-- A PAUSE that starts while a queued buffer is stuck ends with STORE-FULL; one that runs is judged at a change of what it is judged
by, and not because a buffer is queued. -/
theorem test_Pause_stuck :
    Runs .pause 1 [] stuck ∧ stuck.queueStuck = true ∧
      (after (.pause 1 []) stuck).link.sending.map Message.body = some (replyBody .storeFull []) ∧
      (let s := { stuck with
         link := { stuck.link with running := some (running .pause 1 []) },
         power := { stuck.power with pause := .quiet, pauseSeen := some stuck.pauseView } }
       (judgePause s).isRunning .pause = true ∧
         (judgePause { s with flash := { s.flash with fullSeen := true, dies := [idleDie] } }).isRunning .pause = true ∧
         (judgePause { s with power := { s.power with pauseSeen := some ready.pauseView } }).isRunning .pause = false) :=
  ⟨runsOf _ _ _ _ rfl rfl (by decide) rfl rfl rfl (by decide), by decide⟩

theorem test_Pause_stuck_still : Still stuck := stillOf _ rfl rfl rfl rfl rfl rfl rfl

theorem test_StoreCommandAdvance :
    let c : StoreCmd := { kind := .permitLoad, tag := 3, body := [1, 0, 0, 0], cancelled := false }
    let s := { ready with link := { ready.link with waiting := [c] } }
    s.link.running = none ∧ s.link.waiting = [c] ∧ s.link.fifo.length < 32 ∧
      refusedBy .permitLoad s.power.st s.power.store = none ∧ s.arrayStopped = false ∧
      (after .storeCommandAdvance s).settings.permit.len = 0 ∧
      (after .storeCommandAdvance { s with link := { s.link with waiting := [{ c with cancelled := true }] } }).settings.permit.len =
        4096 := by
  decide

theorem test_StoreCommandAdvance_ends :
    let c : StoreCmd := { kind := .closeout, tag := 3, body := [], cancelled := false }
    let s := { ready with link := { ready.link with waiting := [c] } }
    let t := inStore .closingOut [] s
    let u := { s with power := { s.power with pauseMark := some .light } }
    s.retr.ctx = none ∧ ({ c with cancelled := true } : StoreCmd).cancelled = true ∧
      refusedBy .closeout t.power.st t.power.store = some .closing ∧ u.arrayStopped = true ∧ c.kind ≠ .pause ∧
      (after .storeCommandAdvance t).link.sending.map Message.body = some (replyBody .closing []) ∧
      ((after .storeCommandAdvance u).link.running.map Running.handed) = some false ∧
      (after .storeCommandAdvance s).power.store = .closingOut := by
  decide

theorem test_StoreCommandAdvance_ends_still (st : StoreState) (l : LinkUnit) (h : l.running = none) :
    Still (inStore st [] { ready with link := l }) :=
  stillOf _ rfl rfl rfl rfl rfl (by simp [State.isRunning, inStore, h]) rfl

theorem test_StoreCommandAdvance_still : Still (waiting 1 ready) := stillOf _ rfl rfl rfl rfl rfl rfl rfl

/-! ## The acquisition link -/

/-- An OPEN intake, with this state of the parser. -/
def hunting (half : Bool) (hunt : Nat) : State :=
  { ready with intake := { ready.intake with
      openReq := true, hunt := hunt, parser := { AcqParser.reset with half := half } } }

def paused (s : State) : State := { s with power := { s.power with st := .light } }

theorem test_AcquisitionByteInHunt :
    (hunting true 0).intake.parser.st = .hunt ∧ (hunting true 0).paused = false ∧ (paused (hunting true 0)).paused = true ∧
      (hunting true 509).intake.hunt + 2 < (hunting true 509).huntBytes ∧
      (after (.acquisitionByteReceived 0xA2) (hunting true 7)).intake.hunt = 0 ∧
      (after (.acquisitionByteReceived 0xA2) (paused (hunting true 7))).power.wake = .acquisition ∧
      (after (.acquisitionByteReceived 0x55) (hunting true 509)).intake.hunt = 511 := by
  decide

theorem test_HuntMarksAndBrokenFrames :
    let s := { hunting true 0 with intake := { (hunting true 0).intake with parser := { AcqParser.reset with st := .check } } }
    discards true 0x55 = 2 ∧ 2 ≤ (hunting true 511).huntBytes ∧ (hunting true 511).intake.hunt < (hunting true 511).huntBytes ∧
      (hunting true 511).huntBytes ≤ (hunting true 511).intake.hunt + 2 ∧ s.intake.parser.st ≠ .hunt ∧
      (after (.huntMark 0x55) (hunting true 511)).intake.hunt = 1 ∧
      (after (.huntMark 0x55) (hunting true 510)).intake.hunt = 0 ∧
      (after (.huntMark 0x55) (hunting true 510)).intake.counters.huntMarks = 1 ∧
      (after .acqCrcFailure s).intake.errored = true ∧ (after .acqTimeout s).intake.counters.timeouts = 1 := by
  decide

def suspended : State :=
  { hunting false 0 with intake := { (hunting false 0).intake with linkState := .lost } }

theorem test_FramesThatFailACheck :
    let long := { okFrame with payload := List.replicate 2049 0 }
    ready.maxPayload < long.payload.length ∧ okFrame.payload.length ≤ ready.maxPayload ∧
      ({ okFrame with line := 0 } : AcqFrame).line = 0 ∧ 5 < (6 : Byte).toNat ∧ ready.intakeState = .closed ∧
      suspended.intakeState = .suspended ∧ (hunting false 0).intakeState = .opened ∧
      (hunting false 0).discardShort = true ∧ okFrame.payload.length < 4 := by
  decide +kernel

theorem test_FramesThatFailACheck_still : Still ready ∧ Still suspended ∧ Still (hunting false 0) :=
  ⟨still_ready, stillOf _ rfl rfl rfl rfl rfl rfl rfl, stillOf _ rfl rfl rfl rfl rfl rfl rfl⟩

theorem test_OpenLine_hypotheses :
    let s := hunting false 0
    s.intakeState = .opened ∧ okFrame.line ≠ 0 ∧ okFrame.payload.length ≤ s.maxPayload ∧
      s.settings.permit.allows okFrame.line = true ∧ s.line okFrame.line = none ∧ s.erasing okFrame.line = false ∧
      s.store.lines.length < 2048 ∧ s.intake.slots.findIdx? Option.isNone = some 0 ∧ s.fillingOf 0 = none ∧
      s.freeBuffer = some 0 ∧ s.stagedBufs okFrame.line = [] := by
  decide

theorem test_OpenLine_opens :
    let t := after (.openLine okFrame) (hunting false 0)
    t.line 5 = some { freshLine 5 with next := 2, tFirst := some 11, tLast := some 11 } ∧
      t.intake.slots.getD 0 none = some
        { line := 5, ordinal := 1, station := 9, time := 11, filter := .fresh, reference := none, suppressed := 0 } ∧
      (t.buf 0).map Buf.fill = some 36 ∧ t.intake.counters.stored = 1 := by
  decide

/-- Line 5 OPEN on slot 0 with its HEADER record in buffer 0. -/
def appending : State := after (.openLine okFrame) (hunting false 0)

def statusPayload : AcqFrame := { okFrame with payload := [1, 2, 3, 4] }

theorem test_Records_hypotheses :
    let s := { appending with settings := { appending.settings with items := appending.settings.items.set 3 0 } }
    s.intakeState = .opened ∧ s.openSlot 5 = some 0 ∧ (s.line 5).map Line.next = some 2 ∧
      (s.intake.slots.getD 0 none).isSome = true ∧ s.fillingOf 0 = some 0 ∧
      (∃ rs, (s.buf 0).map Buf.body = some (.records rs)) ∧ (s.buf 0).map Buf.fill = some 36 ∧
      36 + recordSize 4 ≤ 16320 ∧ ¬statusPayload.payload.length < 4 ∧ s.filterEnable = false := by
  exact ⟨rfl, rfl, rfl, rfl, rfl, ⟨_, rfl⟩, rfl, by decide, by decide, rfl⟩

theorem test_Records_still : Still appending := stillOf _ rfl rfl rfl rfl rfl rfl rfl

theorem test_Records_appended :
    let t := after (.mark statusPayload) appending
    let u := after (.statusFrame statusPayload) appending
    ((t.buf 0).map fun x => (x.fill, x.hdr.count)) = some (72, 2) ∧ (t.line 5).map Line.next = some 3 ∧
      (u.intake.slots.getD 0 none).bind Slot.reference = some (4, [1, 2, 3, 4]) ∧ u.intake.counters.stored = 2 ∧
      (after (.trace statusPayload) appending).intake.counters.short = 1 := by
  decide

/-- Line 5 with this entry, in an OPEN intake whose slots hold these lines. -/
def framed (ls : List Line) (slots : List (Option Slot)) : State :=
  let s := inStore .ready ls (hunting false 0)
  { s with intake := { s.intake with slots := slots } }

def slotFor (n ordinal : Nat) : Slot :=
  { line := n, ordinal := ordinal, station := 9, time := 11, filter := .fresh, reference := none, suppressed := 0 }

def noSlots : List (Option Slot) := [none, none, none, none]

theorem test_OpenLine_refused :
    let denied := { hunting false 0 with settings := { ready.settings with permit := parsePermit [1, 0, 0, 0] 0 } }
    let erasing := { hunting false 0 with store := { ready.store with
      erase := some { lo := 5, hi := 9, count := 1, refs := none, lines := [] } } }
    denied.settings.permit.allows 5 = false ∧ (hunting false 0).settings.permit.allows 5 = true ∧
      (framed [rooted 5 .locked] noSlots).line 5 = some (rooted 5 .locked) ∧
      (framed [lineOf 5 .closing] noSlots).line 5 = some (lineOf 5 .closing) ∧ erasing.line 5 = none ∧
      erasing.erasing 5 = true ∧ (after (.openLine okFrame) denied).intake.counters.permit = 1 ∧
      (after (.openLine okFrame) denied).link.sending.map Message.body = some [11, 1, 0, 0, 7, 0, 0, 0, 0, 5, 0] ∧
      (after (.openLine okFrame) (framed [rooted 5 .locked] noSlots)).intake.counters.locked = 1 ∧
      (after (.openLine okFrame) (framed [lineOf 5 .closing] noSlots)).intake.counters.busy = 1 ∧
      (after (.openLine okFrame) erasing).intake.counters.busy = 1 := by
  decide +kernel

theorem test_OpenLine_table_full :
    let full := framed ((List.range 2048).map fun n => lineOf (n + 6) .closed) noSlots
    full.line 5 = none ∧ full.erasing 5 = false ∧ 2048 ≤ full.store.lines.length ∧
      (after (.openLine okFrame) full).intake.counters.tableFull = 1 := by
  decide +kernel

theorem test_OpenLine_refused_still : ∀ ls slots, Still (framed ls slots) :=
  fun _ _ => stillOf _ rfl rfl rfl rfl rfl rfl rfl

theorem test_OpenLine_reopens :
    let s := framed [rooted 5 .closed] noSlots
    s.intakeState = .opened ∧ s.line 5 = some (rooted 5 .closed) ∧ s.erasing 5 = false ∧
      s.intake.slots.findIdx? Option.isNone = some 0 ∧ s.fillingOf 0 = none ∧ s.freeBuffer = some 0 ∧
      s.stagedBufs 5 = [] ∧ (rooted 5 .closed).pages < 520200 ∧
      (rooted 5 .closed).root = some { addr := { die := 0, block := 7, page := 0 }, wseq := 3 } ∧
      s.lineBusy 5 = false ∧ s.dieReady 0 = true ∧
      ((after (.openLine okFrame) s).line 5).map (fun l => (l.st, l.load, l.next, l.flags.reopened)) =
        some (.opened, .readRoot, 5, true) ∧
      (after (.openLine okFrame) s).flash.reads =
        [{ addr := { die := 0, block := 7, page := 0 }, purpose := .loadRoot 5 }] := by
  decide

theorem test_OpenLine_frees_a_slot :
    let s := framed ([1, 2, 3, 4].map fun n => lineOf n .opened)
      [some (slotFor 1 8), some (slotFor 2 6), some (slotFor 3 9), some (slotFor 4 7)]
    s.intakeState = .opened ∧ s.line 5 = none ∧ s.erasing 5 = false ∧ s.store.lines.length < 2048 ∧ s.stagedBufs 5 = [] ∧
      (∀ y ∈ s.intake.slots, y.isSome = true) ∧ s.intake.slots[1]? = some (some (slotFor 2 6)) ∧
      s.line 2 = some (lineOf 2 .opened) ∧ ((after (.openLine okFrame) s).line 2).map Line.st = some .closing ∧
      ((after (.openLine okFrame) s).intake.slots.map fun x => x.map Slot.line) = [some 1, some 5, some 3, some 4] := by
  decide

theorem test_OpenLine_oldest_slot :
    let slots := [some (slotFor 1 8), some (slotFor 2 6), some (slotFor 3 9), some (slotFor 4 7)]
    ∀ j y, j ≠ 1 → slots[j]? = some (some y) → (slotFor 2 6).ordinal < y.ordinal ∧ y.line ≠ (slotFor 2 6).line := by
  intro slots j y hj h
  match j with
  | 0 | 2 | 3 =>
    cases h
    decide
  | 1 => exact absurd rfl hj
  | n + 4 => cases h

/-- Line 5 OPEN on slot 0 with its HEADER record, the filter at `st` with the reference 1, 2, 3, 4. -/
def filtering (st : FilterState) : State :=
  { appending with intake := { appending.intake with
      slots := [some { slotFor 5 1 with filter := st, reference := some (4, [1, 2, 3, 4]), suppressed := 3 }, none, none, none] } }

theorem test_Status_filtered :
    let other := { okFrame with payload := [1, 2, 3, 5] }
    (filtering .twice).openSlot 5 = some 0 ∧ (filtering .twice).filterEnable = true ∧ 4 ≤ statusPayload.payload.length ∧
      (∃ bs, (some (4, [1, 2, 3, 4]) : Option (Nat × List Byte)) = some (statusPayload.payload.length, bs) ∧
        bs.length = min 8 statusPayload.payload.length ∧ ∀ j, j < bs.length →
          byteAt statusPayload.payload j &&& (filtering .twice).filterMask j = byteAt bs j &&& (filtering .twice).filterMask j) ∧
      byteAt other.payload 3 &&& (filtering .twice).filterMask 3 ≠ byteAt [1, 2, 3, 4] 3 &&& (filtering .twice).filterMask 3 ∧
      (filtering .once).fillingOf 0 = some 0 ∧
      ((after (.statusFrame statusPayload) (filtering .twice)).intake.slots.getD 0 none).map Slot.suppressed = some 4 ∧
      ((after (.statusFrame statusPayload) (filtering .once)).intake.slots.getD 0 none).map Slot.filter = some .twice ∧
      ((after (.statusFrame other) (filtering .twice)).intake.slots.getD 0 none).map Slot.filter = some .fresh ∧
      (after (.statusFrame other) (filtering .twice)).intake.counters.stored = 2 :=
  ⟨rfl, rfl, by decide, ⟨[1, 2, 3, 4], rfl, rfl, by decide⟩, by decide, rfl, by decide, by decide, by decide, by decide⟩

theorem test_Status_filtered_still : ∀ st, Still (filtering st) := fun _ => stillOf _ rfl rfl rfl rfl rfl rfl rfl

/-- Records of a line that is not OPEN while discard_short is 1: at the least payload of each kind they are orphans, below it short,
and a CLOSE-LINE has no least. -/
theorem test_Orphans :
    let s := hunting false 0
    let f := fun n => { okFrame with payload := List.replicate n 0 }
    let counts := fun c => let k := (after c s).intake.counters; (k.orphan, k.short)
    s.discardShort = true ∧ s.openSlot 5 = none ∧ counts (.trace (f 16)) = (1, 0) ∧ counts (.mark (f 1)) = (1, 0) ∧
      counts (.statusFrame (f 4)) = (1, 0) ∧ counts (.closeLine (f 0)) = (1, 0) ∧ counts (.trace (f 15)) = (0, 1) ∧
      counts (.mark (f 0)) = (0, 1) ∧ counts (.statusFrame (f 3)) = (0, 1) := by
  decide +kernel

theorem test_CloseLine :
    appending.openSlot 5 = some 0 ∧ (hunting false 0).openSlot 5 = none ∧
      ({ ready with settings := { ready.settings with items := ready.settings.items.set 1 0 } } : State).discardShort = false ∧
      ((after (.closeLine okFrame) appending).line 5).map Line.st = some .closing ∧
      (after (.closeLine okFrame) (hunting false 0)).intake.counters.orphan = 1 := by
  decide

def interval (lq : Nat) (errored : Bool) : State :=
  { hunting false 0 with intake := { (hunting false 0).intake with lq := lq, errored := errored } }

theorem test_LinkIntervalEnd :
    (interval 40 true).timerRuns = true ∧ ready.timerRuns = false ∧
      (after .linkIntervalEnd (interval 39 true)).intake.linkState = .good ∧
      (after .linkIntervalEnd (interval 40 true)).intake.linkState = .degraded ∧
      (after .linkIntervalEnd (interval 250 true)).intake.lq = 255 ∧
      (after .linkIntervalEnd (interval 0 false)).intake.lq = 0 := by
  decide

theorem test_LinkIntervalEnd_still : Still (interval 39 true) := stillOf _ rfl rfl rfl rfl rfl rfl rfl

/-! ## The motion monitor -/

def inMotion (f : Motion → Motion) : State := { ready with motion := f ready.motion }

theorem still_inMotion (f : Motion → Motion) : Still (inMotion f) := stillOf _ rfl rfl rfl rfl rfl rfl rfl

def atRest : Triple := { x := 0, y := 0, z := 1000 }
def weightless : Triple := { x := 0, y := 0, z := 0 }

theorem test_magnitude_of_the_manual :
    ({ x := -4100, y := 2300, z := 35000 } : Triple).saturate.magnitude = 32343 ∧
      ({ x := -4100, y := 2300, z := 35000 } : Triple).saturate.peakAxis = .z := by
  decide +kernel

theorem test_SamplesInCalm :
    ready.power.st ≠ .deep ∧ ready.motion.st = .calm ∧ ready.motion.missed = 0 ∧ atRest.saturate.magnitude = 1000 ∧
      ready.ffMg = 350 ∧ ready.impactMg = 3000 ∧ weightless.saturate.magnitude = 0 ∧
      ready.motion.lowRun + 1 < ready.ffCount ∧
      ({ ready with power := { ready.power with st := .deep } } : State).power.st = .deep ∧
      (after (.motionSample (some weightless)) ready).motion.lowRun = 1 := by
  decide +kernel

/-- Samples that complete no run: in SETTLING a low one, one in the band and one that is middle alone; in FAULT one that differs, one
that repeats, the first after a reset, and missed reads. -/
theorem test_SamplesThatCompleteNoRun :
    let settling := inMotion fun m => { m with st := .settling, lowRun := 2, bandRun := 3, midRun := 4 }
    let fault := inMotion fun m => { m with st := .fault, lastRaw := some atRest, repeats := 5, missed := 1, recovery := 9 }
    let first := inMotion fun m => { m with st := .fault, recovery := 9 }
    let runs := fun r => let m := (after (.motionSample r) settling).motion; (m.lowRun, m.bandRun, m.midRun)
    let shaking : Triple := { x := 2000, y := 0, z := 0 }
    settling.motion.st = .settling ∧ settling.bandLo ≤ 1000 ∧ 1000 ≤ settling.bandHi ∧ settling.motion.bandRun + 1 < settling.settleCount ∧
      settling.motion.midRun + 1 < settling.settleMax ∧ settling.motion.lowRun + 1 < settling.ffCount ∧
      runs (some weightless) = (3, 0, 0) ∧ runs (some atRest) = (0, 4, 5) ∧ runs (some shaking) = (0, 0, 5) ∧
      (after (.motionSample (some weightless)) fault).motion.recovery = 10 ∧
      (after (.motionSample (some atRest)) fault).motion.recovery = 0 ∧
      (after (.motionSample (some atRest)) first).motion.recovery = 0 ∧
      (let m := (after (.motionSample none) fault).motion; (m.recovery, m.missed) = (0, 2)) := by
  decide +kernel

theorem test_FallStart :
    let s := withBuf (blankBuf .data .programming) (inMotion fun m => { m with lowRun := 7 })
    s.motion.lastRaw ≠ some weightless ∧ s.ffCount ≤ s.motion.lowRun + 1 ∧
      (after (.fallStart (some weightless)) s).motion.st = .falling ∧
      (after (.fallStart (some weightless)) s).motion.exposed = 1 := by
  decide +kernel

theorem test_FallEnd :
    let s := inMotion fun m => { m with st := .falling, midRun := 3, fall := 200 }
    s.motion.st = .falling ∧ 3 ≤ s.motion.midRun ∧ (after (.fallEnd (some atRest)) s).motion.st = .settling ∧
      (after (.fallEnd (some atRest)) s).motion.log.map ImpactRec.height = [1225] := by
  decide +kernel

theorem test_ImpactEnd :
    let s := inMotion fun m => { m with st := .impact, quietRun := 7, peak := 12000, axis := some .y }
    s.motion.st = .impact ∧ 7 ≤ s.motion.quietRun ∧ (after (.impactEnd (some atRest)) s).motion.score = 16 ∧
      (after (.impactEnd (some atRest)) s).motion.log.map ImpactRec.cls = [.severe] := by
  decide +kernel

theorem test_ImpactStarts :
    let blow : Triple := { x := 0, y := 0, z := 4000 }
    let s := withBuf (blankBuf .data .programming) ready
    let falling := inMotion fun m => { m with st := .falling, fall := 30, pending := 2, midRun := 2 }
    let impact := inMotion fun m => { m with st := .impact, peak := 3500, quietRun := 6 }
    blow.saturate.magnitude = 4000 ∧ s.ffMg ≤ 4000 ∧ s.impactMg ≤ 4000 ∧ s.motion.st = .calm ∧ falling.motion.st = .falling ∧
      falling.motion.midRun < 3 ∧ falling.motion.missed = 0 ∧ impact.motion.st = .impact ∧ impact.motion.quietRun < 7 ∧
      s.power.st ≠ .light ∧ s.power.pauseMark ≠ some .light ∧ (paused s).power.st = .light ∧
      (let m := (after (.motionSample (some blow)) s).motion
       (m.st, m.peak, m.fall, m.exposed) = (.impact, 4000, 0, 1)) ∧
      (after (.motionSample (some blow)) s).link.sending.map Message.body = some [3, 1, 0, 0, 7, 0, 0, 0, 2, 0, 0] ∧
      (after (.motionSample (some blow)) (paused s)).power.wake = .impact ∧
      (after (.motionSample (some blow)) falling).motion.fall = 32 ∧
      (after (.motionSample (some weightless)) falling).motion.fall = 33 ∧
      (after (.motionSample (some atRest)) falling).motion.pending = 3 ∧
      (after (.motionSample none) falling).motion.pending = 3 ∧
      (after (.motionSample (some blow)) impact).motion.peak = 4000 ∧
      (after (.motionSample (some atRest)) impact).motion.quietRun = 7 := by
  decide +kernel

theorem test_SettleAndRoughSettle :
    let s := inMotion fun m => { m with st := .settling, bandRun := 39 }
    let t := inMotion fun m => { m with st := .settling, midRun := 799 }
    let shaking : Triple := { x := 2000, y := 0, z := 0 }
    s.settleCount ≤ s.motion.bandRun + 1 ∧ s.settleMax ≤ t.motion.midRun + 1 ∧ s.bandLo ≤ 1000 ∧ 1000 ≤ s.bandHi ∧
      (after (.settle (some atRest)) s).motion.st = .calm ∧ (after (.roughSettle (some shaking)) t).motion.st = .calm ∧
      (after (.settle (some shaking)) t).motion.st = .settling := by
  decide +kernel

theorem test_SensorFaultAndRecovery :
    let s := inMotion fun m => { m with lastRaw := some atRest, repeats := 399 }
    let t := inMotion fun m => { m with st := .falling, missed := 1 }
    let u := inMotion fun m => { m with st := .fault, lastRaw := some atRest, recovery := 399 }
    (after (.sensorFault (some atRest)) s).motion.st = .fault ∧
      (after (.sensorFault none) (inMotion fun m => { m with missed := 1 })).motion.faults = 1 ∧
      (after (.sensorFault none) t).motion.abandoned = 1 ∧
      (after (.sensorFault none) (inMotion fun m => { m with st := .impact, missed := 1 })).motion.impacts = 1 ∧
      (let m := (after (.sensorFault (some atRest)) (inMotion fun m =>
         { m with st := .falling, lastRaw := some atRest, repeats := 399, fall := 60 })).motion
       (m.st, m.abandoned, m.faults, m.log) = (.fault, 1, 1, [])) ∧
      (let m := (after (.sensorFault (some atRest)) (inMotion fun m =>
         { m with st := .impact, lastRaw := some atRest, repeats := 399, peak := 5000 })).motion
       (m.st, m.impacts, m.abandoned, m.log.map ImpactRec.peak) = (.fault, 1, 0, [5000])) ∧
      (after (.sensorRecovery (some weightless)) u).motion.st = .calm ∧
      (after (.sensorRecovery (some weightless)) u).motion.repeats = 1 := by
  decide +kernel

theorem test_HandlingDecay :
    let s := inMotion fun m => { m with score := 40, decayOn := true }
    s.motion.decayOn = true ∧ s.power.st = .run ∧ (after .handlingDecay s).motion.score = 38 ∧
      ready.motion.decayOn = false := by
  decide

/-! ## The gauge -/

def gauging (f : Gauge → Gauge) : State :=
  { ready with gauge := f { ready.gauge with sampling := true, estimated := true, rc := 50000000 } }

/-- 500 mA drawn at 7,400 mV and 20 °C. -/
def drawing : PackRead := { current := 500, voltage := 7400, temp := 200, done := false }

theorem test_GaugeSamples :
    let s := gauging fun g => { g with armed := false }
    ready.gauge.sampling = false ∧ s.gauge.sampling = true ∧ s.gauge.estimated = true ∧ s.gauge.armed = false ∧
      (after (.gaugeSample (some drawing)) s).gauge.rc = 49999500 ∧ (after (.gaugeSample none) s).gauge.missed = 1 := by
  decide +kernel

/-- Samples that count while the empty anchor is armed: above its voltage whatever its run, and low ones before the last. -/
theorem test_GaugeSamples_armed :
    let s := gauging fun g => { g with emptyRun := 7 }
    let t := gauging fun g => { g with emptyRun := 6 }
    s.gauge.armed = true ∧ t.gauge.armed = true ∧ t.gauge.emptyRun < 7 ∧ ¬(sampleOf drawing).v < s.cutoffMv + 200 ∧
      (after (.gaugeSample (some drawing)) s).gauge.rc = 49999500 ∧
      (let g := (after (.gaugeSample (some { drawing with voltage := 6100 })) t).gauge
       (g.rc, g.emptyRun, g.conf, g.empties) = (49999500, 7, .counting, 0)) := by
  decide +kernel

/-- The full anchor by a charge-done level that rises, with the empty run begun anew by a low voltage. -/
theorem test_FullAnchor :
    let s := gauging fun g => { g with emptyRun := 7, fulls := 3 }
    let t := after (.gaugeSample (some { drawing with voltage := 6100, done := true })) s
    let u := after (.gaugeSample (some { drawing with done := true })) (gauging fun g => { g with lastDone := true })
    s.gauge.lastDone = false ∧ s.gauge.collapse = false ∧ t.gauge.rc = t.gauge.fcc ∧ t.gauge.conf = .anchored ∧
      t.gauge.emptyRun = 1 ∧ t.gauge.fulls = 4 ∧ t.gauge.empties = 0 ∧
      t.gauge.run = some { start := 7, drawn := 0, warm := true } ∧ u.gauge.fulls = 0 ∧ u.gauge.rc = 49999500 := by
  decide +kernel

/-- The first answered sample: below the first point of Table 8-5, at it, within a band, at a point and at the last one. -/
theorem test_Estimate :
    let s := gauging fun g => { g with estimated := false }
    let rc := fun v => let g := (after (.gaugeSample (some { drawing with voltage := v })) s).gauge; (g.rc, g.conf)
    s.gauge.estimated = false ∧ s.gauge.emptyRun < 7 ∧ drawing.done = false ∧ s.cells = 2 ∧ s.gauge.fcc = 97920000 ∧
      rc 6599 = (0, .estimated) ∧ rc 6600 = (0, .estimated) ∧ rc 7500 = (39168000, .estimated) ∧
      rc 7540 = (44064000, .estimated) ∧ rc 8359 = (96940800, .estimated) ∧ rc 8360 = (97920000, .estimated) := by
  decide +kernel

/-- The full-to-empty run of Table 8-3. -/
def emptying : State :=
  gauging fun g => { g with
    fcc := 90000000, rc := 5040000, emptyRun := 7, run := some { start := 0, drawn := 84959500, warm := true } }

theorem test_EmptyAnchor :
    let r := { drawing with voltage := 6100, temp := 150 }
    emptying.gauge.armed = true ∧ (sampleOf r).v < emptying.cutoffMv + 200 ∧ 100 < (sampleOf r).i ∧
      7 ≤ emptying.gauge.emptyRun ∧ (after (.emptyAnchor (some r)) emptying).gauge.fcc = 89640000 ∧
      (after (.emptyAnchor (some r)) emptying).gauge.rc = 3585600 ∧
      (after (.emptyAnchor (some r)) emptying).gauge.conf = .anchored ∧
      (let g := (after (.emptyAnchor (some r)) { emptying with
         gauge := { emptying.gauge with ring := List.replicate 16 (-4000) } }).gauge
       (g.soc, g.tte, decide (g.avg < 0)) = (0, 0, true)) := by
  decide +kernel

theorem test_ReserveRaiseAndClear :
    let s := gauging fun g => { g with lowRun := 3 }
    let t := gauging fun g => { g with reserve := true, clearRun := 39 }
    let u := gauging fun g => { g with rc := 1000 }
    let r := { drawing with voltage := 6200 }
    (after (.reserveRaise (some r)) s).gauge.reserve = true ∧ (after (.reserveRaise (some r)) s).gauge.headroom = 80 ∧
      (after (.reserveRaise (some r)) s).power.store = .closingOut ∧
      t.gauge.armed = true ∧ t.gauge.emptyRun < 7 ∧ (after (.reserveClear (some drawing)) t).gauge.reserve = false ∧
      (after (.reserveRaise (some drawing)) u).gauge.reserve = true := by
  decide +kernel

theorem test_CollapseAndRecovery :
    let s := gauging fun g => { g with collRun := 1 }
    let t := gauging fun g => { g with collapse := true, recRun := 39 }
    let t := { t with power := { t.power with st := .lowHalt } }
    (after (.collapse (some { drawing with voltage := 5999 })) s).gauge.collapse = true ∧
      (after (.collapse (some { drawing with voltage := 5999 })) s).power.st = .lowHalt ∧
      (after (.collapseRecovery (some { drawing with voltage := 6300 })) t).gauge.collapse = false ∧
      (after (.collapseRecovery (some { drawing with voltage := 6300 })) t).power.resetCause = .lowRecovery := by
  decide +kernel

/-! ## The flash controller -/

/-- The one die with block 5 active, erased, and its next page 0. -/
def withActive (s : State) : State :=
  { s with flash := { s.flash with dies := [{ idleDie with active := some { block := 5, erased := true, next := 0 } }] } }

def dataBuf (st : BufState) : Buf := { blankBuf .data st with job := .intake, origin := .intake }

def page5 (n : Nat) : Addr := { die := 0, block := 5, page := n }

def verifyingBuf : State :=
  let s := withBuf { blankBuf .settings .verifying with target := some { die := 0, block := 0, page := 0 } } ready
  { s with staging := { s.staging with verifying := [0] } }

theorem test_DieDispatch_readback :
    ready.dieIdle 0 = true ∧ ready.dieIdle 1 = false ∧ verifyingBuf.arrayStopped = false ∧ verifyingBuf.dieIdle 0 = true ∧
      verifyingBuf.readyReadback 0 = some 0 ∧ ready.readyReadback 0 = none ∧
      ((after (.dieDispatch 0) verifyingBuf).die 0).bind Die.op =
        some { kind := .readback 0 { die := 0, block := 0, page := 0 }, start := 7 } := by
  decide

def aRead : ReadReq := { addr := page5 3, purpose := .eraseRoot }

theorem test_DieDispatch_reads :
    let r : RetrRead := { addr := page5 1, purpose := .root, started := false, stale := false }
    let s := retrieving { heldCtx with msg := none, read := some r } ready
    let t := { ready with flash := { ready.flash with reads := [aRead] } }
    let u := { ready with flash := { ready.flash with dies := [{ idleDie with due := [9] }] } }
    s.retrievalFor 0 = some (page5 1) ∧ t.retrievalFor 0 = none ∧ t.flash.reads.find? (fun q => q.addr.die == 0) = some aRead ∧
      u.eraseGate = true ∧ (after (.dieDispatch 0) s).die 0 = some { idleDie with op := some ⟨.retrieval (page5 1), 7⟩ } ∧
      (after (.dieDispatch 0) t).die 0 = some { idleDie with op := some ⟨.relocation aRead, 7⟩ } ∧
      (after (.dieDispatch 0) u).die 0 = some { idleDie with op := some ⟨.erase 9, 7⟩ } := by
  decide

def queued (x : Buf) : State :=
  let s := withBuf x (withActive ready)
  { s with staging := { s.staging with queue := [0] } }

theorem test_DieDispatch_program :
    let s := queued (dataBuf .queued)
    s.readyReadback 0 = none ∧ s.programGate = true ∧ s.buf 0 = some (dataBuf .queued) ∧
      s.canTake 0 (dataBuf .queued) = true ∧ s.offerOrder 0 = [0] ∧ s.store.wseq < 4294967295 ∧
      (after (.dieDispatch 0) s).store.wseq = 2 ∧
      ((after (.dieDispatch 0) s).buf 0).bind Buf.target = some (page5 0) := by
  decide

theorem test_DieDispatch_still :
    Still (queued (dataBuf .queued)) ∧ Still { ready with flash := { ready.flash with reads := [aRead] } } := by
  refine ⟨stillOf _ rfl rfl rfl rfl rfl rfl rfl, walkStillOf _ rfl rfl, fun q h => ?_, fun q h => ?_, rfl, rfl, rfl⟩
  · cases h
  · rw [List.mem_singleton.1 h]; rfl

theorem test_ProgramsEnd :
    let x := { blankBuf .settings .programming with target := some { die := 0, block := 0, page := 0 } }
    let s := withBuf x (withOp (.program 0 { die := 0, block := 0, page := 0 }) ready)
    let t := withBuf (dataBuf .programming) (withOp (.program 0 (page5 0)) ready)
    x.exposed = false ∧ isAnchorKind x.hdr.kind = true ∧ s.buf 0 = some x ∧ isAnchor (page5 0).blk = false ∧
      (t.block (page5 0).blk).isSome = true ∧
      ((after (.programComplete 0 true) s).buf 0).map Buf.st = some .verifying ∧
      ((after (.programComplete 0 false) t).block (page5 0).blk).map BlockRec.st = some .retired ∧
      (after (.programComplete 0 false) t).staging.queue = [0] := by
  decide

theorem test_ReadBacks :
    let a : Addr := { die := 0, block := 0, page := 0 }
    let x := { blankBuf .settings .verifying with target := some a }
    let y := { dataBuf .verifying with target := some (page5 0) }
    let s := withBuf x (withOp (.readback 0 a) ready)
    let t := withBuf y (withOp (.readback 0 (page5 0)) ready)
    x.handed = false ∧ agreesWith x.hdr x.body (imageBytes x.hdr x.body) = true ∧ t.buf 0 = some y ∧
      t.power.fmt ≠ .waiting ∧
      (after (.readbackComplete 0 (.clean (imageBytes x.hdr x.body))) s).settings.saved = some a ∧
      ((after (.readbackComplete 0 .uncorrectable) t).buf 0).map Buf.st = some .queued ∧
      (after (.readbackComplete 0 .uncorrectable) t).staging.queue = [0] := by
  decide +kernel

/-! ## Pages at their written point -/

/-- Line 5 OPEN with one loose entry, of records 1 to 3. -/
def indexed : Line :=
  { lineOf 5 .opened with
    records := 3, pages := 1, range := some (9, 9), next := 9,
    pool := [{ e := { loc := some { die := 0, block := 6, page := 0 }, wseq := 7, first := 1, count := 3, smin := 9, smax := 9,
                      handled := false, degraded := false, verified := false, relocated := false },
               inSeg := false, out := false }] }

/-- A DATA page of line 5, of records `first` to `first + 2`. -/
def pageBuf (st : BufState) (n first : Nat) : Buf :=
  { dataBuf st with
    target := some (page5 n),
    hdr := { blankHdr .data with line := 5, wseq := 8, sup := 7, first := first, count := 3, smin := 4, smax := 8 } }

/-- Block 5 ACTIVE under the one die, which has `k` in flight on the buffer `x` of its page `n`, behind the RETAINED page below it;
line `l` is in the table. -/
def atPage (n : Nat) (k : OpKind) (x : Buf) (l : Line) : State :=
  { inStore .ready [l] ready with
    staging := { Staging.reset with
      bufs := some x :: some { pageBuf .retained (n - 1) 1 with reported := true } :: List.replicate 22 none },
    flash := { ready.flash with
      dies := [{ idleDie with
        op := some { kind := k, start := 0 }, active := some { block := 5, erased := true, next := n + 1 } }],
      blocks := ready.flash.blocks.map fun r => if r.id.block = 5 then { r with st := .active, live := 2 }
        else if r.id.block = 6 then { r with st := .full, live := 2 } else r,
      freeList := ready.flash.freeList.drop 2 } }

def programming (n : Nat) : State := atPage n (.program 0 (page5 n)) (pageBuf .programming n 4) indexed

def readingBack (x : Buf) (n : Nat) (l : Line) : State := atPage n (.readback 0 (page5 n)) x l

/-- What `HandStill` asks, on the states above. -/
theorem handStill_atPage (n : Nat) (k : OpKind) (x : Buf) (l : Line)
    (h : l.pool.length ≤ 1 ∧ l.num = 5 ∧ l.load ≠ .waitRewrites ∧ (l.st = .closing → l.flush.isSome = true ∨ l.rootOut = true)) :
    HandStill 5 (atPage n k x l) := by
  refine ⟨stillOf _ rfl rfl rfl rfl rfl rfl rfl, rfl, ⟨by simp [atPage, inStore, Config.lineTableEntries], by simp [atPage, inStore]⟩, ?_, ?_⟩
  · simp only [State.poolFree, State.poolUsed, atPage, inStore, Config.poolEntries, List.map_cons, List.map_nil, List.sum_cons,
      List.sum_nil]
    omega
  · intro m hm
    have : (atPage n k x l).line 5 = some l := by simp [State.line, atPage, inStore, h.2.1]
    rw [this] at hm
    cases hm
    exact ⟨h.2.2.1, h.2.2.2⟩

/-- The states, the other hypotheses and what comes of a program that passes: a lower page, an upper page, page 255, and an exposed
upper page. -/
theorem test_ProgramsPass :
    let x := pageBuf .programming 4 4
    let e := atPage 5 (.program 0 (page5 5)) { pageBuf .programming 5 4 with exposed := true } indexed
    x.target = some (page5 4) ∧ isAnchor (page5 4).blk = false ∧ x.hdr.kind = .data ∧ x.reported = false ∧ x.handed = false ∧
      x.origin ≠ .relocation ∧ x.job = .intake ∧ (programming 4).line 5 = some indexed ∧ indexed.indexing = true ∧
      ((programming 4).block (page5 4).blk).map BlockRec.st = some .active ∧
      ¬((programming 4).careful = true ∨ (programming 4).verifyAlways = true ∨ isAnchorKind x.hdr.kind = true) ∧
      ((after (.programComplete 0 true) (programming 4)).buf 0).map Buf.st = some .retained ∧
      ((after (.programComplete 0 true) (programming 4)).line 5).map (fun l => (l.records, l.pages, l.range, l.pool.length)) =
        some (6, 2, some (4, 9), 2) ∧
      ((after (.programComplete 0 true) (programming 4)).block (page5 4).blk).map BlockRec.live = some 3 ∧
      (after (.programComplete 0 true) (programming 5)).staging.bufs = List.replicate 24 none ∧
      ((after (.programComplete 0 true) (programming 255)).block (page5 255).blk).map BlockRec.st = some .full ∧
      ((after (.programComplete 0 true) (programming 255)).die 0).bind Die.active = none ∧
      e.bufAt .retained (page5 4) = some 1 ∧ (after (.programComplete 0 true) e).staging.verifying = [1, 0] ∧
      (after (.programComplete 0 true) (atPage 4 (.program 0 (page5 4)) { x with exposed := true } indexed)).staging.verifying =
        [0] := by
  decide +kernel

/-- What comes of a read-back of a DATA page: void by BLANK and by other data, on an upper page; passed, as a new entry, as a copy
that replaces an entry, as one that no entry names, and with the line gone. -/
theorem test_ReadBacksOfData :
    let x := pageBuf .verifying 5 4
    let y := { pageBuf .verifying 4 1 with reported := true }
    let s := readingBack x 5 indexed
    let t := readingBack y 4 indexed
    let u := readingBack { y with hdr := { y.hdr with sup := 6 } } 4 indexed
    let v := readingBack x 5 (lineOf 5 .closed)
    let z := { y with reported := false, origin := .relocation, job := .reloc, hdr := { y.hdr with sup := 0, orig := 7 } }
    let same := fun z : Buf => ReadResult.clean (imageBytes z.hdr z.body)
    let lives := fun z : State => ((z.block (page5 4).blk).map BlockRec.live, (z.block { die := 0, block := 6 }).map BlockRec.live)
    readData .blank = none ∧ agreesWith x.hdr x.body [1] = false ∧
      agreesWith x.hdr x.body (imageBytes x.hdr x.body) = true ∧
      agreesWith y.hdr y.body (imageBytes y.hdr y.body) = true ∧ s.dieReady 0 = true ∧ s.power.fmt ≠ .waiting ∧
      s.bufAt .retained (page5 4) = some 1 ∧ indexed.pool.find? (fun p => p.e.first == y.hdr.first) = indexed.pool.head? ∧
      ((after (.readbackComplete 0 .blank) s).buf 1).map Buf.st = some .verifying ∧
      (after (.readbackComplete 0 (.clean [1])) s).staging.queue = [0] ∧
      ((after (.readbackComplete 0 .blank) s).block (page5 5).blk).map BlockRec.st = some .full ∧
      ((after (.readbackComplete 0 (same x)) s).line 5).map Line.pages = some 2 ∧
      (after (.readbackComplete 0 (same x)) s).staging.bufs = List.replicate 24 none ∧
      lives (after (.readbackComplete 0 (same x)) s) = (some 3, some 2) ∧
      ((after (.readbackComplete 0 (same y)) t).line 5).map (fun l => l.pool.map fun p => (p.e.loc, p.e.wseq)) =
        some [(some (page5 4), 8)] ∧
      lives (after (.readbackComplete 0 (same y)) t) = (some 3, some 1) ∧
      (after (.readbackComplete 0 (same y)) u).store.lines = [indexed] ∧
      lives (after (.readbackComplete 0 (same y)) u) = (some 2, some 2) ∧
      (after (.readbackComplete 0 (same x)) v).store.lines = [lineOf 5 .closed] ∧
      (after (.readbackComplete 0 (same y)) (readingBack { y with handed := true } 4 indexed)).store.lines = [indexed] ∧
      lives (after (.readbackComplete 0 (same z)) (readingBack z 4 indexed)) = (some 3, some 1) := by
  decide +kernel

/-- A byte in a zero-filled position of the header agrees where the header CRC read covers it, and one behind the body always does; a
byte of a field does not (R199). -/
theorem test_ZeroFilledPositions :
    let x := pageBuf .verifying 5 4
    let image := imageBytes x.hdr x.body
    let header := (slice image 0 60).set 45 7
    let other := (slice image 0 60).set 6 7
    let page := fun h : List Byte => h ++ le4 (crc32 h).toNat
    agreesWith x.hdr x.body (page header) = true ∧ agreesWith x.hdr x.body (image.set 45 7) = false ∧
      agreesWith x.hdr x.body (image ++ List.replicate 100 0 ++ [9]) = true ∧ agreesWith x.hdr x.body (page other) = false := by
  decide +kernel

/-- The first page of block 6, FULL with two live pages. -/
def page6 : Addr := { die := 0, block := 6, page := 0 }

/-- A reference to the segment of line 5 that holds records 1 to 3. -/
def oldSeg : SegRef := { loc := some page6, wseq := 6, first := 1, last := 3 }

/-- An index page of line 5 that carries `b` for the work `j`, programmed on page 4 of block 5. -/
def indexBuf (k : PageKind) (j : Job) (b : Body) : Buf :=
  { blankBuf k .verifying with
    target := some (page5 4), job := j, body := b, hdr := { blankHdr k with line := 5, wseq := 8, first := 1, count := 1 } }

/-- The state that the page leaves where it reads back equal. -/
def handed (x : Buf) (s : State) : State := after (.readbackComplete 0 (.clean (imageBytes x.hdr x.body))) s

/-- The live counts of the blocks of the new page and of the old one. -/
def lives (s : State) : Option Nat × Option Nat :=
  ((s.block (page5 0).blk).map BlockRec.live, (s.block page6.blk).map BlockRec.live)

theorem countsRoom_atPage (n m : Nat) (k : OpKind) (x : Buf) (l : Line) :
    CountsRoom (page5 m) [] (atPage n k x l) ∧ CountsRoom (page5 m) [page6] (atPage n k x l) := by
  have h5 : ∀ r, (atPage n k x l).block (page5 m).blk = some r → r.live < 256 := by
    intro r h
    cases h
    decide
  refine ⟨⟨h5, fun a h => by cases h⟩, h5, fun a ha r h => ?_⟩
  rw [List.mem_singleton.1 ha] at h
  cases h
  decide

/-- A flush of OPEN line 5 that is out, with its one entry in flight. -/
def flushing (refs : List SegRef) (stale : Bool) : Line :=
  { indexed with
    refs := refs, pool := indexed.pool.map fun p => { p with out := true },
    flush := some { built := true, stale := stale, pressure := false } }

/-- The entries of line 5 in a segment. -/
def fiveEntries : Body := .entries (indexed.pool.map PoolEnt.e)

/-- The SEGMENT image of a flush: of a new segment, and a stale one of the open segment, whose old copy is dropped. -/
theorem test_FlushHanded :
    let x := indexBuf .segment (.flush 5 0) fiveEntries
    let s := readingBack x 4 (flushing [] false)
    let t := readingBack x 4 (flushing [oldSeg] true)
    let new : SegRef := { oldSeg with loc := some (page5 4), wseq := 8 }
    let inSeg := indexed.pool.map fun p => { p with inSeg := true }
    s.line 5 = some (flushing [] false) ∧ t.line 5 = some (flushing [oldSeg] true) ∧ s.store.pendings = [] ∧ s.store.ckpt = none ∧
      (handed x s).line 5 = some { indexed with refs := [new], pool := inSeg } ∧
      lives (handed x s) = (some 3, some 2) ∧
      (handed x t).line 5 = some { indexed with refs := [new], pool := inSeg, rewrite := true } ∧
      lives (handed x t) = (some 3, some 1) := by
  decide +kernel

/-- A rewrite of segment 0 of line 5 whose image is built. -/
def rewriting : SegRewrite :=
  { line := 5, seg := 0, ref := oldSeg, phase := .built, pool := false, news := [], drops := [], applied := [] }

def withRewrite (x : Buf) (l : Line) : State :=
  let s := readingBack x 4 l
  { s with store := { s.store with segRw := [rewriting] } }

/-- A segment rewrite: an OPEN line takes it at once, and of a CLOSED line the root is read to be rewritten. -/
theorem test_SegmentRewriteHanded :
    let x := indexBuf .segment (.segRewrite 5 0 6) fiveEntries
    let s := withRewrite x { lineOf 5 .opened with refs := [oldSeg] }
    let t := withRewrite x (rooted 5 .closed)
    s.builtRewrite 5 0 6 = some rewriting ∧ t.builtRewrite 5 0 6 = some rewriting ∧
      (rooted 5 .closed).root = some { addr := { die := 0, block := 7, page := 0 }, wseq := 3 } ∧ t.dieReady 0 = true ∧
      ((handed x s).line 5).map Line.refs = some [{ oldSeg with loc := some (page5 4), wseq := 8 }] ∧
      lives (handed x s) = (some 3, some 1) ∧ (handed x s).store.segRw = [] ∧
      lives (handed x t) = (some 3, some 2) ∧ (handed x t).store.segDone.map SegDone.loc = [some (page5 4)] ∧
      (handed x t).flash.reads = [{ addr := { die := 0, block := 7, page := 0 }, purpose := .rewriteRoot 5 }] := by
  decide +kernel

/-- A copy of segment 0 that relocation made as it was, handed for CLOSED line 5 while a rewrite of the segment has its image
built: it waits for the root, and the rewrite stands (R105, R115). Handed as the rewrite's own image it ends that rewrite. A copy
whose reference a handed copy has taken is not entered. -/
theorem test_AsIsCopyLeavesTheRewrite :
    let y := indexBuf .segment .reloc fiveEntries
    let x := { y with origin := .relocation, hdr := { y.hdr with orig := 6 } }
    let z := { x with job := .relocRewrite }
    let t := withRewrite x (rooted 5 .closed)
    let taken : SegDone := { line := 5, seg := 0, loc := some page6, wseq := 7, check := none, old := none, news := [],
                             drops := [], settled := false, gone := false }
    let u := { t with store := { t.store with segDone := [taken] } }
    (handed x t).store.segRw = [rewriting] ∧
      (handed x t).store.segDone.map (fun d => (d.loc, d.check)) = [(some (page5 4), some 6)] ∧
      lives (handed x t) = (some 3, some 2) ∧
      (handed z (withRewrite z (rooted 5 .closed))).store.segRw = [] ∧
      (handed x u).store.segDone = [taken] ∧ lives (handed x u) = (some 2, some 2) := by
  decide +kernel

/-- Line 5 CLOSING with its ROOT image out, and line 5 CLOSED with a root in block 6. -/
def rootIsOut : Line := { indexed with st := .closing, refs := [oldSeg], rootOut := true }
def rootedIn6 : Line := { lineOf 5 .closed with root := some { addr := page6, wseq := 3 }, segs := 1 }

def rootRewriting : RootRewrite := { line := 5, old := 3, phase := .built, carried := [] }

/-- The ROOT page of a close, and a root rewrite. -/
theorem test_RootHanded :
    let x := indexBuf .root (.closeRoot 5) (.refs [oldSeg])
    let y := indexBuf .root (.rootRewrite 5 3) (.refs [oldSeg])
    let s := readingBack x 4 rootIsOut
    let t := readingBack y 4 rootedIn6
    let t := { t with store := { t.store with rootRw := [rootRewriting] } }
    let root : Loc := { addr := page5 4, wseq := 8 }
    s.line 5 = some rootIsOut ∧ t.line 5 = some rootedIn6 ∧ s.store.segDone = [] ∧
      (handed x s).line 5 = some { rootIsOut with
        st := .closed, root := some root, segs := 1, refs := [], pool := [], rootOut := false } ∧
      lives (handed x s) = (some 3, some 2) ∧ (handed y t).line 5 = some { rootedIn6 with root := some root } ∧
      lives (handed y t) = (some 3, some 1) ∧ (handed y t).store.rootRw = [] := by
  decide +kernel

/-- The ROOT of a close handed while a stale flush image of the open segment is built: that image is the segment rewrite's, a further
rewrite follows it, and once it is handed its copy waits for the root (log entry 32). -/
theorem test_RootHandedBeforeTheFlush :
    let l : Line := { rootIsOut with
      pool := indexed.pool.map fun p => { p with inSeg := true, out := true, moved := true, again := true },
      flush := some { built := true, stale := true, pressure := false } }
    let x := indexBuf .root (.closeRoot 5) (.refs [oldSeg])
    let y := indexBuf .segment (.flush 5 0) fiveEntries
    let s := handed x (readingBack x 4 l)
    let t := handed y { readingBack y 4 l with store := s.store }
    l.refs.getLast? = some oldSeg ∧ l.hasOpenSeg = true ∧ l.flush.map FlushOut.built = some true ∧
      (s.line 5).map (fun l => (l.st, l.flush)) = some (.closed, none) ∧
      s.store.segRw.map (fun w => (w.line, w.seg, w.ref, w.again)) = [(5, 0, oldSeg, indexed.pool.map PoolEnt.e)] ∧
      t.store.segDone.map (fun d => (d.loc, d.settled)) = [(some (page5 4), true)] ∧
      t.store.segRw.map (fun w => (w.flush, w.again)) = [(none, [])] := by
  decide +kernel

/-- A root page of line 1 with one reference. -/
def rootData : List Byte :=
  imageBytes { blankHdr .root with line := 1, wseq := 3, count := 1 }
    (.refs [{ loc := some (page5 2), wseq := 2, first := 1, last := 3 }])

def rootCtx : RetrCtx :=
  { heldCtx with
    root := none, msg := none, cursor := 1, bound := 4,
    read := some { addr := page5 4, purpose := .root, started := true, stale := false } }

theorem test_RetrievalRead :
    let s := retrieving rootCtx (withOp (.retrieval (page5 4)) ready)
    rootOf 1 (.clean rootData) = some [{ loc := some (page5 2), wseq := 2, first := 1, last := 3 }] ∧
      rootCtx.sent < rootCtx.max ∧ rootCtx.cursor < rootCtx.bound ∧ (s.retr.set 1 0).find 1 0 = none ∧ s.dieReady 0 = true ∧
      ((after (.retrievalReadComplete 0 (.clean rootData)) s).retr.ctx.bind RetrCtx.read).map RetrRead.addr =
        some (page5 2) := by
  decide +kernel

theorem test_RetrievalRead_still : Still (retrieving rootCtx (withOp (.retrieval (page5 4)) ready)) := by
  refine ⟨walkStillOf _ rfl rfl, fun q h => ?_, fun q h => ?_, rfl, rfl, rfl⟩
  · cases h; rfl
  · cases h

def walkOf (ph : WalkPhase) : Walk :=
  { blk := { die := 0, block := 5 }, page := 4, phase := ph, heldRoot := none, heldSeg := none }

def walking (ph : WalkPhase) (s : State) : State :=
  { s with store := { s.store with walk := some (walkOf ph) }, flash := { s.flash with refresh := [{ die := 0, block := 5 }] } }

def walkReq : ReadReq := { addr := page5 4, purpose := .walk }

theorem test_WalkRead :
    let s := walking .reading (withOp (.relocation walkReq) ready)
    let t := walking .retry ready
    walkReq.addr = (walkOf .reading).addr ∧ s.flash.refresh.erase (walkOf .reading).blk = [] ∧ t.relocRoom = true ∧
      t.mayWalk = true ∧ t.dieReady 0 = true ∧
      ({ t with staging := { t.staging with bufs := [] } } : State).relocRoom = false ∧
      (after (.relocationReadComplete 0 .blank) s).flash.refresh = [] ∧
      (after .relocationRetry t).flash.reads = [walkReq] := by
  decide

theorem test_WalkRead_still : ∀ ph, Still (walking ph (withOp (.relocation walkReq) ready)) := fun ph =>
  ⟨Or.inr ⟨rfl, rfl⟩, (fun q h => by cases h), (fun q h => by cases h), rfl, rfl, rfl⟩

/-- A page of the walked block as it reads: a DATA page that the entry of line 5 names, and the ROOT page of line 5. -/
def livePage (k : PageKind) : List Byte :=
  imageBytes { blankHdr k with line := 5, wseq := 7, first := 1 } (match k with | .root => .refs [] | _ => .records [])

/-- Line 5 whose entry or root is the page that the walk reads. -/
def walked : Line :=
  { indexed with
    pool := indexed.pool.map fun p => { p with e := { p.e with loc := some (page5 4) } }, root := some { addr := page5 4, wseq := 7 } }

def walkingLive : State := inStore .ready [walked] (walking .reading (withOp (.relocation walkReq) ready))

/-- A live page of the walk is copied, and a block that is the head again is walked again (R113, R115). -/
theorem test_WalkCopiesALivePage :
    let t := after (.relocationReadComplete 0 (.clean (livePage .data))) walkingLive
    let u := after (.relocationReadComplete 0 (.clean (livePage .root))) walkingLive
    let copy := fun s : State => (s.buf 0).map fun x => (x.origin, x.hdr.sup, x.hdr.orig, x.hdr.wseq)
    (walkOf .reading).page < 255 ∧ walkingLive.relocRoom = true ∧ walkingLive.freeBuffer = some 0 ∧ walkingLive.dieReady 0 = true ∧
      (parseHdr (livePage .data)).map PageHdr.kind = some .data ∧ (parseHdr (livePage .root)).map PageHdr.kind = some .root ∧
      walked.pool.find? (fun p => decide (p.e.first ≤ 1) && decide (1 ≤ p.e.last)) = walked.pool.head? ∧
      copy t = some (.relocation, 7, 7, 0) ∧ copy u = some (.relocation, 7, 7, 0) ∧ t.staging.queue = [0] ∧
      t.flash.reads = [{ addr := page5 5, purpose := .walk }] ∧ t.store.walk.map Walk.page = some 5 := by
  decide +kernel

/-- The walk of block 5, in which a page is live, was stopped while its block was not the head. -/
def stoppedWalk : State :=
  let s := walking .reading (withOp (.relocation walkReq) ready)
  { s with
    store := { s.store with walk := some { walkOf .reading with stopped := true } },
    flash := { s.flash with blocks := s.flash.blocks.map fun r => { r with live := 1 } } }

theorem test_WalkStopped :
    stoppedWalk.flash.refresh.head? = some { die := 0, block := 5 } ∧ stoppedWalk.mayWalk = true ∧ stoppedWalk.dieReady 0 = true ∧
      (stoppedWalk.block { die := 0, block := 5 }).map BlockRec.live = some 1 ∧
      (let t := after (.relocationReadComplete 0 .blank) stoppedWalk
       (t.store.walk.map Walk.page, t.flash.reads, t.flash.refresh) =
         (some 0, [{ addr := page5 0, purpose := .walk }], [{ die := 0, block := 5 }])) := by
  decide

theorem test_Walks_still : Still walkingLive ∧ Still stoppedWalk :=
  ⟨⟨Or.inr ⟨rfl, rfl⟩, (fun q h => by cases h), (fun q h => by cases h), rfl, rfl, rfl⟩,
    ⟨Or.inl (by decide), (fun q h => by cases h), (fun q h => by cases h), rfl, rfl, rfl⟩⟩

def reopened (ld : Load) : Line :=
  { rooted 5 .opened with load := ld, refs := [{ loc := some (page5 2), wseq := 2, first := 1, last := 3 }] }

def loadReq : ReadReq := { addr := page5 2, purpose := .loadSegment 5 }

def anEntry : PageEntry :=
  { loc := some (page5 0), wseq := 1, first := 1, count := 3, smin := 9, smax := 9, handled := false, degraded := false,
    verified := false, relocated := false }

theorem test_IndexReadAndPoolLoad :
    let s := inStore .ready [reopened .readSegment] (withOp (.relocation loadReq) ready)
    let t := inStore .ready [reopened (.waitPool [anEntry])] ready
    s.line 5 = some (reopened .readSegment) ∧ s.store.pendings = [] ∧
      ((reopened .readSegment).refs.getLast?).bind SegRef.loc = some loadReq.addr ∧ 1 ≤ t.poolFree ∧
      ((after (.indexReadComplete 0 .uncorrectable) s).line 5).map (fun l => (l.load, l.flags.damaged, l.unread)) =
        some (.none, true, [0]) ∧
      ((after (.reopenPoolLoad 5) t).line 5).map (fun l => (l.load, l.pool.length)) = some (.none, 1) := by
  decide

/-- The last segment of a reopened line as it reads, with one entry. -/
def lastSegment : List Byte :=
  imageBytes { blankHdr .segment with line := 5, wseq := 2, first := 1, count := 1 } (.entries [anEntry])

/-- The load of a good last segment: its entry is placed in the pool, or waits for room there, and a full segment stays as it is. -/
theorem test_IndexReadOfAGoodSegment :
    let s := inStore .ready [reopened .readSegment] (withOp (.relocation loadReq) ready)
    let crowd := { lineOf 6 .opened with pool := List.replicate Config.poolEntries { e := anEntry, inSeg := false, out := false } }
    let t := inStore .ready [reopened .readSegment, crowd] (withOp (.relocation loadReq) ready)
    segmentOf 5 0 (.clean lastSegment) = some [anEntry] ∧ t.poolFree = 0 ∧
      ((after (.indexReadComplete 0 (.clean lastSegment)) s).line 5).map (fun l => (l.load, l.pool)) =
        some (.none, [{ e := anEntry, inSeg := true, out := false }]) ∧
      ((after (.indexReadComplete 0 (.clean lastSegment)) t).line 5).map Line.load = some (.waitPool [anEntry]) := by
  decide +kernel

theorem test_IndexReadOfAFullSegment :
    let full := imageBytes { blankHdr .segment with line := 5, wseq := 2, first := 1, count := 510 }
      (.entries (List.replicate 510 anEntry))
    (segmentOf 5 0 (.clean full)).map List.length = some 510 := by
  decide +kernel

theorem test_IndexRead_still : Still (inStore .ready [reopened .readSegment] (withOp (.relocation loadReq) ready)) :=
  stillOf _ rfl rfl rfl rfl rfl rfl rfl

theorem test_Erases :
    let s := withOp (.erase 5) ready
    let t := { s with flash := { s.flash with dies := s.flash.dies.map fun d =>
      { d with active := some { block := 5, erased := false, next := 0 } } } }
    (s.block { die := 0, block := 5 }).map BlockRec.erases = some 0 ∧ isAnchor { die := 0, block := 5 } = false ∧
      ((after (.eraseComplete 0 true) t).die 0).bind Die.active = some { block := 5, erased := true, next := 0 } ∧
      ((after (.eraseComplete 0 false) s).block { die := 0, block := 5 }).map BlockRec.st = some .retired := by
  decide

/-- Two READY dies, the second with an erase in flight. -/
def twoDies : State :=
  { ready with flash := { ready.flash with
      dies := [idleDie, { idleDie with op := some { kind := .erase 5, start := 0 } }] } }

theorem test_OperationTimeout :
    (twoDies.die 1).bind Die.op = some { kind := .erase 5, start := 0 } ∧ twoDies.dieReady 0 = true ∧ (1 : Nat) ≠ 0 ∧
      (after (.operationTimeout 1) twoDies).dieReady 1 = false ∧ (after (.operationTimeout 1) twoDies).dieReady 0 = true := by
  decide

/-! ## Checkpoints, FORMAT and the power manager's events -/

def counted (n : Nat) (c : Option Ckpt) : State :=
  { ready with
    store := { ready.store with progCount := n, ckpt := c },
    flash := { ready.flash with ringPos := 0 } }

theorem test_Checkpoints :
    let s := counted 1024 (some (.flushing [] []))
    let t := counted 1024 (some (.writing (takeSnapshot ready)))
    (counted 1023 none).store.progCount < 1024 ∧ 1024 ≤ s.store.progCount ∧ (counted 1024 none).store.ckpt = none ∧
      (∀ l ∈ (counted 1024 none).store.lines, l.indexing = false) ∧ (counted 1024 none).snapshotReady = false ∧
      s.rootUsed ≤ 4080 ∧ s.dieReady 0 = true ∧ s.flash.ringDue = false ∧ 26 + (s.rootUsed + 1019) / 1020 ≤ s.ringLeft ∧
      (after .programCountCheckpoint t).store.ckptPend = true ∧ (after .checkpointSnapshot s).store.ckptSeq = 1 ∧
      (after .checkpointSnapshot s).staging.queue.length = 24 := by
  decide +kernel

theorem test_Checkpoints_still : ∀ n c, Still (counted n c) := fun _ _ => stillOf _ rfl rfl rfl rfl rfl rfl rfl

def formatting : State :=
  let s := running' (running .format 1 []) (inStore .ready [rooted 5 .closed] ready)
  { s with power := { s.power with fmt := .waiting } }

theorem test_FormatEvent :
    ready.formatReady = false ∧ formatting.isRunning .format = true ∧ formatting.power.fmt = .waiting ∧
      formatting.staging.queue = [] ∧ (after .formatEvent formatting).store.lines = [] ∧
      (after .formatEvent formatting).flash.freeList.length = 9 := by
  decide

theorem test_FormatEvent_still :
    Still formatting ∧ (∀ x ∈ formatting.staging.bufs, ∀ b, x = some b → b.st ≠ .programming ∧ b.st ≠ .verifying) := by
  refine ⟨stillOf _ rfl rfl rfl rfl rfl rfl rfl, fun x hx b hb => ?_⟩
  have : x = none := List.eq_of_mem_replicate hx
  rw [this] at hb
  cases hb

def pausing (st : PauseStage) : State :=
  let s := running' (running .pause 4 []) ready
  { s with power := { s.power with pause := st } }

def pauseReply : Message := { cls := .final, kind := CmdKind.pause.code, tag := 4, body := [0, 0, 2] }

def marked (st : PowerState) : State :=
  let s := sending pauseReply ready
  { s with power := { s.power with pauseMark := some st } }

theorem test_PauseQuiet :
    (pausing .quiet).isRunning .pause = true ∧ (pausing .quiet).quiet = true ∧ (pausing .quiet).store.ckpt = none ∧
      (∀ l ∈ (pausing .quiet).store.lines, l.indexing = false) ∧ (running .pause 4 []).final = none ∧
      (pausing .checkpointed).link.fifo.length < 32 ∧ ready.isRunning .pause = false ∧
      (after .pauseQuiet (pausing .quiet)).power.pause = .checkpoint ∧
      (after .pauseQuiet (pausing .checkpointed)).power.pauseMark = some .deep := by
  decide

theorem test_PauseEntry :
    pauseReply.isPauseReply = true ∧ (marked .deep).power.pauseMark = some .deep ∧
      (∀ x ∈ (marked .deep).link.fifo, x.isPauseReply = false) ∧ ready.power.pauseMark = none ∧
      (after .pauseEntry (marked .deep)).power.st = .deep ∧ (after .pauseEntry (marked .light)).power.st = .light ∧
      (after .messageSent (marked .light)).power.st = .light := by
  decide

def closingOut : State :=
  let s := inStore .closingOut [rooted 5 .closed] ready
  { s with power := { s.power with closeout := some { kind := .orderly false false, cause := .command } } }

def collapsing : State :=
  { ready with power := { ready.power with
      store := .closingOut, closeout := some { kind := .emergency, cause := .collapse } } }

theorem test_CloseoutRelease :
    ready.power.closeout = none ∧ (∀ l ∈ closingOut.store.lines, l.indexing = false) ∧ closingOut.store.ckpt = none ∧
      (after .closeoutRelease closingOut).store.waiters = [(.closeout, 1)] := by
  decide

/-- The last page of checkpoint 1, which uses ring block 1, on its way to the state `s` with these waiters. -/
def lastPage : Buf :=
  { blankBuf .checkpoint .verifying with
    target := some { die := 0, block := 1, page := 0 }, job := .checkpoint 25,
    hdr := { blankHdr .checkpoint with cpSeq := 1, number := 25 } }

def snapshotOut : Snapshot := { takeSnapshot ready with handed := 25, used := [1] }

def completing (ws : List (Waiter × Nat)) (s : State) : State :=
  withBuf lastPage (withOp (.readback 0 { die := 0, block := 1, page := 0 })
    { s with store := { s.store with ckpt := some (.writing snapshotOut), waiters := ws } })

/-- A checkpoint that nobody waits for, with another pending and without; one that a closeout waits for, beside a waiter of the
next. -/
theorem test_CheckpointEnds :
    let s := completing [(.command, 2)] ready
    let t := { s with store := { s.store with ckptPend := true } }
    let out : State := { closingOut with power := { closingOut.power with
      closeout := some { kind := .orderly true false, cause := .command } } }
    let u := completing [(.closeout, 1), (.command, 2)] out
    snapshotOut.seq = 1 ∧ snapshotOut.pages = 26 ∧ s.isRunning .pause = false ∧ u.link.running = none ∧
      (∀ l ∈ t.store.lines, l.indexing = false) ∧
      (handed lastPage s).store = { s.store with ckpt := none, ckptBlocks := [1] } ∧
      (handed lastPage t).store.ckpt = some (.flushing [] []) ∧ (handed lastPage u).power.store = .closedOut ∧
      (handed lastPage u).power.lastCause = some .command ∧ (handed lastPage u).store.waiters = [(.command, 2)] ∧
      ((handed lastPage u).link.sending.map fun m => byteAt m.body 0) = some (byteOf NoticeKind.closeout.code) := by
  decide +kernel

/-- A checkpoint that the running command waits for: LINE-LOCK, LINE-ERASE, FORMAT and PAUSE. -/
theorem test_CheckpointEndsTheCommand :
    let run := fun (k : CmdKind) s => completing [(.command, 1)] (running' (running k 3 []) s)
    let lock := run .lineLock (inStore .ready [rooted 5 .locked] ready)
    let s := run .lineErase ready
    let erase := { s with store := { s.store with erase := some { lo := 5, hi := 9, count := 2, lines := [], refs := none } } }
    let format := run .format (inStore .blank [] ready)
    let pause := completing [(.command, 1)] (pausing .checkpoint)
    let reply := fun s : State => (handed lastPage s).link.sending.map fun m => (m.kind, m.tag, m.body)
    (running .lineLock 3 []).final = none ∧ lock.link.fifo.length < 32 ∧ lock.paused = false ∧ format.power.closeout = none ∧
      pause.staging.queue = [] ∧ pause.link.running = some (running .pause 4 []) ∧
      reply lock = some (CmdKind.lineLock.code, 3, replyBody .ok []) ∧
      reply erase = some (CmdKind.lineErase.code, 3, replyBody .ok (le2 2)) ∧
      (handed lastPage erase).store.erase = none ∧ reply format = some (CmdKind.format.code, 3, replyBody .ok []) ∧
      (handed lastPage format).power.store = .ready ∧ (handed lastPage pause).power.pause = .checkpointed := by
  decide +kernel

theorem test_CheckpointEnds_still :
    ∀ ws, WalkStill (completing ws ready) ∧ (completing ws ready).power.mount = none ∧ (completing ws ready).emergency = false ∧
      (completing ws ready).staging.requests = [] ∧ (completing ws ready).flash.reads = [] ∧ (completing ws ready).retr.ctx = none :=
  fun _ => ⟨walkStillOf _ rfl rfl, rfl, rfl, rfl, rfl, rfl⟩

theorem test_CloseoutRelease_still : Still closingOut := stillOf _ rfl rfl rfl rfl rfl rfl rfl

theorem test_LowHaltEntry :
    ready.lowHaltDue = false ∧ collapsing.emergency = true ∧ collapsing.power.st ≠ .lowHalt ∧
      collapsing.programming = false ∧ (∀ x ∈ collapsing.staging.bufs, x = none) ∧ collapsing.link.running = none ∧
      collapsing.link.waiting = [] ∧ (after .lowHaltEntry collapsing).power.st = .lowHalt := by
  decide

theorem test_MountDetects :
    let s := { State.reset with
      power := { State.reset.power with mount := some { Mount.reset with phase := .settings 252 none } } }
    ready.power.mount = none ∧ State.reset.power.mount = some .reset ∧ Mount.reset.phase = .detect ∧ 252 ≤ 252 ∧
      s.flash.reads = [] ∧ s.retr.ctx = none ∧ s.isRunning .pause = false ∧ s.emergency = false ∧
      (after (.mountReadComplete (.detected 0)) State.reset).power.store = .mediaFault ∧
      ((after (.mountReadComplete (.detected 8)) State.reset).flash.dies.length = 8) ∧
      ((after (.mountReadComplete (.page .uncorrectable)) s).power.mount.map Mount.phase) = some (.settings 254 none) := by
  decide

/-- The reset state with the settings pages read up to this position. -/
def readingSettings (pos : Nat) : State :=
  { State.reset with power := { State.reset.power with mount := some { Mount.reset with phase := .settings pos none } } }

theorem test_MountSettingsEnd :
    WalkStill (readingSettings 254) ∧
      ((after (.mountReadComplete (.page .uncorrectable)) (readingSettings 254)).power.mount.map Mount.phase) =
        some (.ring 1 0 [] []) ∧
      (after (.mountReadComplete (.page .uncorrectable)) (readingSettings 254)).flash.setPos = 256 ∧
      (after (.mountReadComplete (.page .blank)) (readingSettings 4)).flash.setPos = 4 :=
  ⟨walkStillOf _ rfl rfl, by decide, by decide, by decide⟩

theorem test_NoticesCoalesce :
    let q : List NoticeEntry := [⟨.fall, [1], 255, 3⟩, ⟨.link, [2], 1, 4⟩]
    let s := sending okReply { ready with link := { ready.link with notices := q } }
    (∀ e ∈ q, e.kind ≠ .space) ∧ (∀ x ∈ ([] ++ [⟨.link, [2], 1, 4⟩] : List NoticeEntry), x.kind ≠ .fall) ∧
      (raiseNotice .space [9] s).link.notices = q ++ [⟨.space, [9], 1, 7⟩] ∧
      (raiseNotice .fall [9] s).link.notices = [⟨.fall, [9], 255, 3⟩, ⟨.link, [2], 1, 4⟩] := by
  decide

theorem test_cache_victim :
    let w : Way := { line := 1, seg := 0, wseq := 1, loc := page5 0, first := 1, last := 3, entries := [] }
    (CacheSet.reset.ways[0]? = some none) ∧ CacheSet.reset.victim = 0 ∧
      (∀ x ∈ [some w, some w, some w, some w], x.isSome = true) ∧
      ({ half := true, left := true, right := true, ways := [some w, some w, some w, some w] } : CacheSet).victim = 3 := by
  decide

theorem test_a_word_spells_nothing : decodeTableWord 8 0 = none ∧ State.reset.withFetchWord 8 0 = State.reset := ⟨rfl, rfl⟩

end Sys2Proof.Tests
end

section
/-!
PROOFS. The values of a motion sample (R136, R137): the saturation of a reading, the root built bit by bit, and the choice of
the peak axis.
-/
namespace Sys2Proof

/-! ## The saturated readings (R136) -/

theorem saturateAxis_eq_max_min (v : Int) : saturateAxis v = max (-32000) (min 32000 v) := by
  unfold saturateAxis clampInt
  omega

theorem natAbs_saturateAxis_le (v : Int) : (saturateAxis v).natAbs ≤ 32000 := by
  obtain ⟨hlow, hhigh⟩ : -32000 ≤ saturateAxis v ∧ saturateAxis v ≤ 32000 := Machine.clampInt_bounds v (by decide)
  omega

theorem saturateAxis_mul_self_le (v : Int) : saturateAxis v * saturateAxis v ≤ 32000 * 32000 :=
  Int.natAbs_le_iff_mul_self_le.mp (natAbs_saturateAxis_le v)

/-! ## The sum of squares -/

/-- The sum of the squares of a triple's readings, the number whose root is the magnitude (R137). -/
def Triple.sumSq (t : Triple) : Int := t.x * t.x + t.y * t.y + t.z * t.z

theorem Triple.sumSq_nonneg (t : Triple) : 0 ≤ t.sumSq :=
  Int.add_nonneg (Int.add_nonneg (mul_self_nonneg _) (mul_self_nonneg _)) (mul_self_nonneg _)

theorem Triple.saturate_sumSq_le (raw : Triple) : raw.saturate.sumSq ≤ 3072000000 := by
  have hx := saturateAxis_mul_self_le raw.x
  have hy := saturateAxis_mul_self_le raw.y
  have hz := saturateAxis_mul_self_le raw.z
  simp only [Triple.sumSq, Triple.saturate]
  omega

/-! ## The root built bit by bit (R137) -/

/-- `r` is the largest natural number whose square is at most `n`. -/
def IsFloorRoot (n r : Nat) : Prop := r * r ≤ n ∧ n < (r + 1) * (r + 1)

/-- The invariant of the bits still to be decided: the root lies in `acc .. acc + 2 ^ k - 1`, and each bit halves that range. -/
theorem isFloorRoot_rootBits {n k acc : Nat} (hlow : acc * acc ≤ n) (hhigh : n < (acc + 2 ^ k) * (acc + 2 ^ k)) :
    IsFloorRoot n (rootBits n k acc) := by
  induction k generalizing acc with
  | zero => exact ⟨hlow, hhigh⟩
  | succ k ih =>
    have hhalves : acc + 2 ^ (k + 1) = acc + 2 ^ k + 2 ^ k := by rw [pow_succ]; omega
    rw [rootBits]
    split
    case isTrue hbit => exact ih hbit (hhalves ▸ hhigh)
    case isFalse hbit => exact ih hlow (Nat.lt_of_not_le hbit)

theorem IsFloorRoot.le_of_lt_mul_self {n r b : Nat} (hr : IsFloorRoot n r) (hb : n < (b + 1) * (b + 1)) : r ≤ b :=
  Nat.le_of_lt_succ (Nat.mul_self_lt_mul_self_iff.mp (hr.1.trans_lt hb))

theorem IsFloorRoot.of_toNat {i : Int} {r : Nat} (hi : 0 ≤ i) (hr : IsFloorRoot i.toNat r) :
    (r : Int) * r ≤ i ∧ i < (r + 1) * (r + 1) := by
  lift i to Nat using hi
  exact_mod_cast hr

/-- Sixteen bits are enough for any sum below 2 ^ 32. -/
theorem Triple.magnitude_isFloorRoot {t : Triple} (h : t.sumSq < 4294967296) : IsFloorRoot t.sumSq.toNat t.magnitude :=
  isFloorRoot_rootBits (Nat.zero_le _) (by omega)

/-! ## The peak axis (R137) -/

theorem Triple.peakAxis_eq_x {t : Triple} (hy : t.y.natAbs ≤ t.x.natAbs) (hz : t.z.natAbs ≤ t.x.natAbs) : t.peakAxis = .x :=
  if_pos ⟨hy, hz⟩

theorem Triple.peakAxis_eq_y {t : Triple} (hx : t.x.natAbs < t.y.natAbs) (hz : t.z.natAbs ≤ t.y.natAbs) : t.peakAxis = .y := by
  rw [Triple.peakAxis, if_neg fun h => hx.not_ge h.1, if_pos hz]

theorem Triple.peakAxis_eq_z {t : Triple} (hx : t.x.natAbs < t.z.natAbs) (hy : t.y.natAbs < t.z.natAbs) : t.peakAxis = .z := by
  rw [Triple.peakAxis, if_neg fun h => hx.not_ge h.2, if_neg hy.not_ge]

/-! ## The statement -/

/-- Settles O58: the saturated sum of squares is below 2 ^ 32, so that the sixteen bits of the root find the integer root. -/
theorem magnitudeIsTheIntegerSquareRoot : Obligations.MagnitudeIsTheIntegerSquareRoot := by
  intro raw t m
  have hsum : t.sumSq ≤ 3072000000 := raw.saturate_sumSq_le
  have hroot : IsFloorRoot t.sumSq.toNat t.magnitude := Triple.magnitude_isFloorRoot (by omega)
  have hmax : t.magnitude ≤ 55425 := hroot.le_of_lt_mul_self (by omega)
  obtain ⟨hlow, hhigh⟩ := hroot.of_toNat t.sumSq_nonneg
  have hsat : t = ⟨max (-32000) (min 32000 raw.x), max (-32000) (min 32000 raw.y), max (-32000) (min 32000 raw.z)⟩ := by
    simp only [t, Triple.saturate, saturateAxis_eq_max_min]
  exact ⟨hsat, hlow, hhigh, Int.ofNat_le.mpr hmax, hsum, Triple.peakAxis_eq_x, Triple.peakAxis_eq_y, Triple.peakAxis_eq_z⟩

end Sys2Proof
end

section
/-!
PROOFS. The reply of GET-SETTINGS (R196): the list of working values it is built from, and that the taking of the frame leaves
the working copy as it stood.
-/
namespace Sys2Proof.Machine

/-! ## The working values asked for (R196) -/

/-- The working values of `n` items from item `first` on, item 41 standing in for every index above it. -/
def State.workingValues (first n : Nat) (s : State) : List Nat := (List.range n).map fun j => s.item (min (first + j) 41)

@[simp] theorem workingValues_length (first n : Nat) (s : State) : (s.workingValues first n).length = n := by
  simp [State.workingValues]

theorem workingValues_getD (first : Nat) {n j : Nat} (s : State) (hj : j < n) :
    (s.workingValues first n).getD j 0 = s.settings.items.getD (min (first + j) 41) 0 := by
  have hlen : j < (s.workingValues first n).length := by rwa [workingValues_length]
  rw [List.getD_eq_getElem _ _ hlen]
  simp only [State.workingValues, List.getElem_map, List.getElem_range, State.item, Settings.item]

@[simp] theorem heard_workingValues (first n : Nat) (s : State) :
    s.heard.workingValues first n = s.workingValues first n := by
  simp only [State.workingValues, State.item, heard_settings]

/-! ## GET-SETTINGS served -/

theorem getSettings_enters (tag : Byte) (body : List Byte) (u : State) :
    EntersFifo (immediateReply CmdKind.getSettings.code tag .ok
        ((u.workingValues (byteAt body 0).toNat (byteAt body 1).toNat).map le2).flatten)
      u (getSettings tag body u) := by
  rw [← field_one, ← field_one]
  exact reply_enters _ _ _ _ u

theorem exec_getSettings_served {tag : Byte} {body : List Byte} {s : State} (hopen : s.link.discard = false)
    (hcheck : checkCommand .getSettings tag body s.heard = none) :
    exec (.getSettings tag body) s = .next (getSettings tag body s.heard) :=
  congrArg Host.Outcome.next (commandFrame_served .getSettings tag body s hopen hcheck)

end Sys2Proof.Machine

namespace Sys2Proof
open Machine

/-! ## The statement -/

/-- Settles O14: the reply is built from the working values at the moment the frame is taken, and neither the wake nor the
receiver's return to IDLE touches them. -/
theorem getSettingsRepliesTheWorkingValues : Obligations.GetSettingsRepliesTheWorkingValues := by
  intro tag body s hopen hcheck
  have henters := getSettings_enters tag body s.heard
  rw [heard_workingValues] at henters
  refine ⟨_, _, exec_getSettings_served hopen hcheck, henters, workingValues_length .., fun j hj => ?_⟩
  rw [workingValues_length] at hj
  exact workingValues_getD _ s hj

end Sys2Proof
end

section
/-!
PROOFS. The queue, the tick and every command: what each row does to the queue and to the invariant, stated once for all
rows, and from it the step as the row in front or the tick.
-/
namespace Sys2Proof.Machine

/-! ## One row -/

/-- Every row answers a next state. It keeps the queue of commands, and under `P` the bounds of the invariant. -/
theorem exec_holds {q : List Instr} {P : Prop} (c : Instr) {s : State} (h : Holds q P s.kept) :
    ∃ t, exec c s = .next t ∧ Holds q P t.kept := by
  cases c <;> refine ⟨_, rfl, ?_⟩
  case malformedFrame => split <;> simp [h]
  all_goals simp [h]

theorem exec_answers (c : Instr) (s : State) : ∃ t, exec c s = .next t ∧ t.pending = s.pending := by
  obtain ⟨t, ht, hq, -⟩ := exec_holds (q := s.pending) (P := False) c (s := s) ⟨rfl, False.elim⟩
  exact ⟨t, ht, hq⟩

theorem exec_bounds (c : Instr) {s t : State} (h : Bounds s) (e : exec c s = .next t) : Bounds t := by
  obtain ⟨u, hu, -, hb⟩ := exec_holds (q := s.pending) (P := True) c (s := s) ⟨rfl, fun _ => h⟩
  cases e.symm.trans hu
  exact hb trivial

theorem exec_sound (c : Instr) {s t : State} (h : Sound s) (e : exec c s = .next t) : Sound t := by
  cases c <;> cases e
  all_goals simp [h]

theorem exec_inv (c : Instr) {s t : State} (h : Inv s) (e : exec c s = .next t) : Inv t :=
  ⟨exec_bounds c h.1 e, exec_sound c h.2 e⟩

/-! ## The tick -/

theorem tick_inv {s : State} (h : Inv s) : Inv (tick s) :=
  have hb : Holds s.pending True s.kept := ⟨rfl, fun _ => h.1⟩
  ⟨(holds_tick s hb).2 trivial, sound_tick s h.2⟩

/-- The clock after one more tick, as the tick counts it. -/
def State.clockOn (s : State) : State := s.modPower fun p => { p with clock := (p.clock + 1) % Config.clockModulus }

theorem clock_succ_mod {n : Nat} (h : n < 4294967296) :
    (n + 1) % Config.clockModulus = if n = 4294967295 then 0 else n + 1 := by
  unfold Config.clockModulus
  split <;> omega

/-- With both timers held the tick moves the clock alone: neither timer reads it. -/
theorem tick_of_timers_held {s : State} (hd : s.decayRuns = false) (hi : s.timerRuns = false) : tick s = s.clockOn := by
  have hd' : s.clockOn.decayRuns = false := hd
  have hi' : s.clockOn.timerRuns = false := hi
  have h1 : tickDecay s.clockOn = s.clockOn := by rw [tickDecay, hd']; rfl
  have h2 : tickInterval s.clockOn = s.clockOn := by rw [tickInterval, hi']; rfl
  exact (congrArg tickInterval h1).trans h2

/-! ## The step -/

theorem step_front {c : Instr} {cs : List Instr} {s : State} (h : s.pending = c :: cs) :
    step s = exec c { s with pending := cs } := by
  unfold step
  rw [h]

theorem step_empty {s : State} (h : s.pending = []) : step s = .next (tick s) := by
  unfold step
  rw [h]

/-! ## The invariant after a reset -/

theorem bounds_reset : Bounds State.reset :=
  ⟨settingsOk_defaults, gauge_ok_reset, by decide, by decide, by decide, by decide⟩

theorem sound_reset : Sound State.reset := sound_of_reset false rfl rfl rfl rfl

end Sys2Proof.Machine

namespace Sys2Proof
open Machine

/-! ## The statements -/

/-- Settles O6: the invariant passes over the tick, and over the row in front, whichever it is. -/
theorem everyStepKeepsTheInvariant : Obligations.EveryStepKeepsTheInvariant := by
  intro s t h e
  cases hp : s.pending with
  | nil =>
    rw [step_empty hp] at e
    cases e
    exact tick_inv h
  | cons c cs =>
    rw [step_front hp] at e
    exact exec_inv c (s := { s with pending := cs }) h e

/-- Settles O3: read off what every row keeps. -/
theorem everyCommandAnswersNextAndLeavesTheQueue : Obligations.EveryCommandAnswersNextAndLeavesTheQueue := exec_answers

/-- Settles O1. -/
theorem stepRunsTheFrontCommand : Obligations.StepRunsTheFrontCommand := fun _ _ _ => step_front

/-- Settles O2: with both timers held the clock alone moves, and it wraps at 2 ^ 32. -/
theorem emptyQueueStepIsOneTick : Obligations.EmptyQueueStepIsOneTick := by
  intro s hp hd hi hc
  rw [step_empty hp, tick_of_timers_held hd hi, ← clock_succ_mod hc]
  rfl

/-- Settles O4: the table decodes no word at all. -/
theorem noWordSpellsACommand : Obligations.NoWordSpellsACommand := fun _ _ => rfl

/-- Settles O5: bounds and well-formedness of the reset values. -/
theorem invariantHoldsAtReset : Obligations.InvariantHoldsAtReset := ⟨bounds_reset, sound_reset⟩

end Sys2Proof
end

section
/-!
PROOFS. The resets: POWER_ON, and the two resets of another cause.
-/
namespace Sys2Proof.Machine

/-! ## A reset of another cause than POWER-ON -/

theorem powerAfter_collapsed (cause : ResetCause) (clock : Nat) :
    powerAfter cause clock true = { Power.reset cause clock with st := .lowHalt, mount := none } := rfl

theorem powerAfter_clear (cause : ResetCause) (clock : Nat) : powerAfter cause clock false = Power.reset cause clock := rfl

theorem warmReset_after (cause : ResetCause) (strap : Bool) (s : State) :
    WarmAfter cause strap s (warmReset cause strap s) := by
  cases hc : s.gauge.collapse <;>
    simp [WarmAfter, warmReset, Gauge.afterReset, hc, powerAfter_collapsed, powerAfter_clear, Power.reset, State.reset,
      LinkUnit.reset]

/-! ## The reply of a RESET that is being sent -/

theorem isResetReply_iff (m : Message) :
    m.isResetReply = true ↔ m.cls = .immediate ∧ m.kind = CmdKind.reset.code ∧ byteAt m.body 0 = 0 := by
  simp only [Message.isResetReply, Bool.and_eq_true, beq_iff_eq]
  tauto

theorem sendingReset_iff (s : State) :
    s.sendingReset = true ↔ ∃ m, s.link.sending = some m ∧ m.isResetReply = true := by
  unfold State.sendingReset
  cases s.link.sending <;> simp

end Sys2Proof.Machine

namespace Sys2Proof
open Machine

/-! ## The statements -/

/-- Settles O7: the reset value of each block, under the strap's level. -/
theorem powerOnResetsEveryBlock : Obligations.PowerOnResetsEveryBlock :=
  fun _ _ => ⟨_, rfl, rfl, rfl, rfl, rfl, rfl, rfl, rfl, rfl, rfl, rfl, rfl, rfl⟩

/-- Settles O8: both rows are one reset of another cause, of which the collapse mark decides how the part comes up. -/
theorem otherResetsKeepTheGaugeTheSettingsAndTheClock : Obligations.OtherResetsKeepTheGaugeTheSettingsAndTheClock := by
  intro strap s
  refine ⟨⟨_, rfl, warmReset_after _ _ s, rfl⟩, fun ⟨m, hm, hr⟩ => ?_, fun hno => ?_⟩
  · have hs : s.sendingReset = true := (sendingReset_iff s).mpr ⟨m, hm, (isResetReply_iff m).mpr hr⟩
    exact ⟨_, congrArg Host.Outcome.next (if_pos hs), warmReset_after _ _ { s with straps := s.straps + 1 }, rfl⟩
  · have hs : ¬s.sendingReset = true := fun h => by
      obtain ⟨m, hm, hr⟩ := (sendingReset_iff s).mp h
      exact hno m hm ((isResetReply_iff m).mp hr)
    exact congrArg Host.Outcome.next (if_neg hs)

end Sys2Proof
end

section
/-!
PROOFS. Values the rules give: the marks and the victim of a cache set, and the class of an impact.
-/
namespace Sys2Proof.Machine

/-! ## A cache set -/

theorem drop_ways (hit : Way → Bool) (c : CacheSet) :
    (c.drop hit).ways = c.ways.map fun w => w.filter fun y => !hit y := by
  refine List.map_congr_left fun w _ => ?_
  cases w with
  | none => rfl
  | some x => cases h : hit x <;> simp [h, Option.filter]

theorem victim_of_first_empty {c : CacheSet} {v : Nat} (hv : c.ways[v]? = some none)
    (hb : ∀ u, u < v → ∃ y, c.ways[u]? = some (some y)) : c.victim = v := by
  obtain ⟨hlt, hnone⟩ := List.getElem?_eq_some_iff.mp hv
  have hfind : c.ways.findIdx? Option.isNone = some v := by
    refine List.findIdx?_eq_some_iff_getElem.mpr ⟨hlt, by rw [hnone]; rfl, fun u hu => ?_⟩
    obtain ⟨y, hy⟩ := hb u hu
    rw [(List.getElem?_eq_some_iff.mp hy).2]
    exact Bool.false_ne_true
  rw [CacheSet.victim, hfind]

theorem victim_of_full {c : CacheSet} (h : ∀ w ∈ c.ways, w.isSome = true) :
    c.victim = if c.half then (if c.right then 3 else 2) else (if c.left then 1 else 0) := by
  have hfind : c.ways.findIdx? Option.isNone = none :=
    List.findIdx?_eq_none_iff.mpr fun w hw => by simpa [← Option.not_isSome] using h w hw
  rw [CacheSet.victim, hfind]

end Sys2Proof.Machine

namespace Sys2Proof
open Machine

/-! ## The statements -/

/-- Settles O59: the marks are the table's by definition; the victim is the first empty way, or the one the marks name. -/
theorem cacheMarksAndVictimFollowTheTable : Obligations.CacheMarksAndVictimFollowTheTable :=
  fun _ _ _ => ⟨rfl, rfl, rfl, rfl, fun _ => victim_of_first_empty, victim_of_full, rfl, rfl, rfl, rfl, drop_ways _ _⟩

/-- Settles O60: the four bounds of the class table cut the peaks into the five classes. -/
theorem impactClassesFollowThePeak : Obligations.ImpactClassesFollowThePeak := by
  intro peak
  refine ⟨?_, ?_, ?_, ?_, ?_, rfl, rfl, rfl, rfl, rfl, rfl⟩
  all_goals
    unfold classOfPeak
    split_ifs <;> simp <;> omega

end Sys2Proof
end

section
/-!
PROOFS. The receiver of the control link: the bytes of a frame, the link errors, and the checks of a taken frame.
-/
namespace Sys2Proof.Machine

/-! ## A byte that is parsed -/

theorem controlWake_awake {s : State} (h : s.paused = false) : controlWake s = s := by simp [controlWake, h]

@[simp] theorem controlWake_errCrc (s : State) : (controlWake s).link.errCrc = s.link.errCrc := by
  unfold controlWake
  split <;> simp

theorem exec_controlByte_discarded {b : Byte} {s : State} (h : s.link.discard = true) :
    exec (.controlByteReceived b) s = .next (controlWake s) :=
  congrArg Host.Outcome.next (if_pos ((controlWake_discard s).trans h))

/-- Unless the receiver discards it, a byte is parsed once the part is awake (R4). -/
theorem exec_controlByte_parsed {b : Byte} {s : State} (h : s.link.discard = false) :
    exec (.controlByteReceived b) s = .next (parseByte b (controlWake s)) :=
  congrArg Host.Outcome.next (if_neg (by simp [h]))

/-- The state of the parser decides the step that a parsed byte takes (Figure 1-1). -/
theorem parseByte_idle {b : Byte} {s : State} (h : s.link.parser.st = .idle) :
    parseByte b s = s.setCtl (idleByte b s.link.parser) := by simp only [parseByte, h]
theorem parseByte_header {b : Byte} {s : State} (h : s.link.parser.st = .header) :
    parseByte b s = ctlHeader b s.link.parser s := by simp only [parseByte, h]
theorem parseByte_body {b : Byte} {s : State} (h : s.link.parser.st = .body) :
    parseByte b s = ctlBody b s.link.parser s := by simp only [parseByte, h]
theorem parseByte_check {b : Byte} {s : State} (h : s.link.parser.st = .check) :
    parseByte b s = ctlCheck b s.link.parser s := by simp only [parseByte, h]

/-- The two CRC bytes as one number. -/
theorem ofLe_pair (a b : Byte) : ofLe [a, b] = a.toNat + 256 * b.toNat := by simp [ofLe]

theorem exec_linkErrorCrc {kind tag : Byte} {s : State} (h : s.link.discard = false) :
    exec (.linkErrorCrc kind tag) s = .next (crcError kind tag (controlWake s)) :=
  congrArg Host.Outcome.next (if_neg (by simp [h]))

/-! ## A command row -/

/-- A command row is the frame that it stands for. -/
theorem exec_rowFrame {c : Instr} {k : CmdKind} {tag : Byte} {body : List Byte} (s : State)
    (h : rowFrame c = some (k, tag, body)) : exec c s = .next (commandFrame k tag body s) := by
  cases c <;> cases h <;> rfl

/-- A frame whose kind is in Table 1-1 is taken as the row of that kind takes it. -/
theorem takeFrame_known {kind tag : Byte} {body : List Byte} {k : CmdKind} {s : State} (h : CmdKind.ofCode kind = some k) :
    takeFrame kind tag body s = takeCommand k tag body s := by simp only [takeFrame, h]

theorem takeFrame_unknown {kind tag : Byte} {body : List Byte} {s : State} (h : CmdKind.ofCode kind = none) :
    takeFrame kind tag body s = reply kind tag (if tag = 0 then .badTag else .unknownKind) [] s := by
  simp only [takeFrame, h]

/-- A command that a check of R7 refuses. -/
theorem exec_refused {c : Instr} {k : CmdKind} {tag : Byte} {body : List Byte} {s : State} {code : Code}
    (hrow : rowFrame c = some (k, tag, body)) (hopen : s.link.discard = false)
    (hcheck : checkCommand k tag body s.heard = some code) :
    ∃ t, exec c s = .next t ∧ EntersFifo (immediateReply k.code tag code []) s.heard t := by
  refine ⟨_, exec_rowFrame s hrow, ?_⟩
  rw [commandFrame_refused k tag body s code hopen hcheck]
  exact reply_enters ..

/-- A command that passes every check of R7. -/
theorem exec_served {c : Instr} {k : CmdKind} {tag : Byte} {body : List Byte} {s : State}
    (hrow : rowFrame c = some (k, tag, body)) (hopen : s.link.discard = false)
    (hcheck : checkCommand k tag body s.heard = none) : exec c s = .next (serve k tag body s.heard) := by
  rw [exec_rowFrame s hrow, commandFrame_served k tag body s hopen hcheck]

/-! ## The checks of R7, one at a time -/

section Checks
variable {k : CmdKind} {tag : Byte} {body : List Byte} {u : State}

theorem checkCommand_badTag (h : tag = 0) : checkCommand k tag body u = some .badTag := if_pos h

theorem checkCommand_badLength (ht : tag ≠ 0) (hl : lengthOk k body = false) :
    checkCommand k tag body u = some .badLength := by
  rw [checkCommand, if_neg ht]
  simp [hl]

theorem checkCommand_tagInUse (ht : tag ≠ 0) (hl : lengthOk k body = true) (hu : u.tagInUse tag = true) :
    checkCommand k tag body u = some .tagInUse := by
  rw [checkCommand, if_neg ht]
  simp [hl, hu]

theorem checkCommand_refusedBy {code : Code} (ht : tag ≠ 0) (hl : lengthOk k body = true) (hu : u.tagInUse tag = false)
    (hr : refusedBy k u.power.st u.power.store = some code) : checkCommand k tag body u = some code := by
  rw [checkCommand, if_neg ht]
  simp [hl, hu, hr]

theorem checkCommand_badArgument (ht : tag ≠ 0) (hl : lengthOk k body = true) (hu : u.tagInUse tag = false)
    (hr : refusedBy k u.power.st u.power.store = none) (ha : argumentBad k body u = true) :
    checkCommand k tag body u = some .badArgument := by
  rw [checkCommand, if_neg ht]
  simp [hl, hu, hr, ha]

theorem checkCommand_busy (ht : tag ≠ 0) (hl : lengthOk k body = true) (hu : u.tagInUse tag = false)
    (hr : refusedBy k u.power.st u.power.store = none) (ha : argumentBad k body u = false) (hs : k.isStore = true)
    (hw : u.link.waiting.length = 4) : checkCommand k tag body u = some .busy := by
  rw [checkCommand, if_neg ht]
  simp [hl, hu, hr, ha, hs, hw, Config.waitingCommands]

end Checks

/-! ## Link errors (R5) -/

theorem linkError_enters (reason : Nat) (content : List Byte) (u : State) :
    EntersFifo { cls := .immediate, kind := kindLinkError, tag := 0, body := le1 reason ++ content } u
      (linkError reason content u) := sendImmediate_enters _ _

/-! ## The bytes of the acquisition link -/

section Acquisition
variable {b : Byte} {s : State}

theorem exec_acquisition_header (h : s.intake.parser.st = .header) :
    exec (.acquisitionByteReceived b) s = .next (headerByte b s.intake.parser s) := by
  simp only [exec, execAcquisitionByteReceived, acqByte, h]
theorem exec_acquisition_payload (h : s.intake.parser.st = .payload) :
    exec (.acquisitionByteReceived b) s = .next (payloadByte b s.intake.parser s) := by
  simp only [exec, execAcquisitionByteReceived, acqByte, h]
theorem exec_acquisition_check (h : s.intake.parser.st = .check) :
    exec (.acquisitionByteReceived b) s = .next (checkByte b s.intake.parser s) := by
  simp only [exec, execAcquisitionByteReceived, acqByte, h]

/-- The running link interval is errored; with the timer stopped nothing changes (R48). -/
theorem markErrored_eq (s : State) :
    markErrored s = s.modIntake fun i => { i with errored := i.errored || s.timerRuns } := by
  cases h : s.timerRuns <;> simp [markErrored, h, State.modIntake]

/-- The fourth CRC byte takes the frame where the CRC holds. -/
theorem checkByte_taken {p : AcqParser} (h4 : 4 ≤ (p.got ++ [b]).length)
    (hc : ofLe (p.got ++ [b]) = (crc32Final p.crc).toNat) :
    checkByte b p s = acqFrame (FrameKind.ofCode (byteAt p.hdr 0)) (frameOf p) s :=
  (if_neg h4.not_gt).trans (if_pos hc)

theorem checkByte_failed {p : AcqParser} (h4 : 4 ≤ (p.got ++ [b]).length)
    (hc : ofLe (p.got ++ [b]) ≠ (crc32Final p.crc).toNat) : checkByte b p s = acqCrcFail s :=
  (if_neg h4.not_gt).trans (if_neg hc)

/-- A frame of at most max_payload bytes is taken by its row (R26). -/
theorem takenFrame_fits {k : Option FrameKind} {f : AcqFrame} (h : f.payload.length ≤ s.maxPayload) :
    takenFrame k f s = acqFrame k f s := if_neg h.not_gt

/-- The codes that Table 2-1 does not have. -/
theorem ofCode_none_iff (b : Byte) : FrameKind.ofCode b = none ↔ b = 0 ∨ 5 < b.toNat := by
  have hz : b = 0 ↔ b.toNat = 0 := by simp [BitVec.toNat_eq]
  rw [hz]
  unfold FrameKind.ofCode
  split <;> simp_all
  omega

end Acquisition

end Sys2Proof.Machine

namespace Sys2Proof
open Machine

/-! ## The statements -/

/-- Settles O9: each state of either parser has its own step; a frame whose CRC holds goes through the same taking as its row. -/
theorem bytesOfBothLinksAreTaken : Obligations.BytesOfBothLinksAreTaken := by
  intro b s p control goes c q acquisition steps d
  have hp : (controlWake s).link.parser = p := controlWake_parser s
  refine ⟨exec_controlByte_discarded, fun hopen => ?_, fun hst => ?_, fun hst => ?_, fun hst => ?_⟩
  · have hparsed : control = .next (parseByte b (controlWake s)) := exec_controlByte_parsed hopen
    refine ⟨fun hst => ?_, fun hst hlt => ?_, fun hst hle => ?_, fun hst h0 => ?_, fun hst h0 hcrc => ?_,
      fun hst h0 hcrc => ?_⟩
    · rw [parseByte_idle (hp ▸ hst), hp] at hparsed
      simpa [goes, idleByte, p] using hparsed
    · rw [parseByte_body (hp ▸ hst), hp] at hparsed
      simpa [goes, ctlBody, hlt] using hparsed
    · rw [parseByte_body (hp ▸ hst), hp] at hparsed
      simpa [goes, ctlBody, hle.not_gt] using hparsed
    · rw [parseByte_check (hp ▸ hst), hp, ctlCheck, if_pos h0] at hparsed
      exact hparsed
    · rw [parseByte_check (hp ▸ hst), hp, ctlCheck, if_neg h0, if_neg (by rwa [ofLe_pair])] at hparsed
      exact hparsed.trans (exec_linkErrorCrc hopen).symm
    · rw [parseByte_check (hp ▸ hst), hp, ctlCheck, if_neg h0, if_pos (by rwa [ofLe_pair])] at hparsed
      refine ⟨fun row k hrow hk => ?_, fun hk => ⟨_, hparsed, ?_⟩⟩
      · rw [hparsed, takeFrame_known hk, exec_rowFrame s hrow, commandFrame_taken _ _ _ _ hopen]
        rfl
      · rw [takeFrame_unknown hk]
        exact reply_enters ..
  · have hbyte : acquisition = .next (headerByte b q s) := exec_acquisition_header hst
    refine ⟨fun hlt => ?_, fun hge hlong => ?_, fun hge hfits => ?_⟩ <;> rw [headerByte] at hbyte
    · rwa [if_pos hlt] at hbyte
    · rw [if_neg hge.not_gt] at hbyte
      dsimp only at hbyte
      rw [if_pos hlong, markErrored_eq] at hbyte
      exact hbyte
    · rw [if_neg hge.not_gt] at hbyte
      dsimp only at hbyte
      rw [if_neg hfits.not_gt] at hbyte
      exact hbyte
  · have hbyte : acquisition = .next (payloadByte b q s) := exec_acquisition_payload hst
    simpa [payloadByte, State.setAcq, State.modIntake] using hbyte
  · have hbyte : acquisition = .next (checkByte b q s) := exec_acquisition_check hst
    refine ⟨fun hlt => hbyte.trans (congrArg _ (if_pos hlt)), fun hge hcrc => ?_, fun hge hcrc hfits => ?_⟩
    · rw [checkByte_failed hge hcrc] at hbyte
      exact hbyte
    · rw [checkByte_taken hge hcrc, ← takenFrame_fits (f := frameOf q) hfits] at hbyte
      refine ⟨fun h => ?_, fun h => ?_, fun h => ?_, fun h => ?_, fun h => ?_, fun h => ?_⟩
      iterate 5
        rw [h] at hbyte
        exact hbyte
      · exact hbyte.trans (congrArg _ (if_pos (Or.inr ((ofCode_none_iff _).mpr h))).symm)

/-- Settles O10: the count of the header byte decides what it is, and the second one bounds the length. -/
theorem controlHeaderBytesAreTaken : Obligations.ControlHeaderBytesAreTaken := by
  intro b s hopen hawake hst p c
  have hbyte : exec (.controlByteReceived b) s = .next (ctlHeader b p s) := by
    rw [exec_controlByte_parsed hopen, controlWake_awake hawake, parseByte_header hst]
  refine ⟨fun h => ?_, fun h hfits => ?_, fun h hlong => ⟨_, hbyte, ?_⟩, fun h => ?_, fun h => ?_⟩
  · rw [hbyte, ctlHeader, if_pos h]
  · rw [hbyte]
    simp [ctlHeader, h, Config.maxBody, hfits.not_gt, c]
  · have : ctlHeader b p s = lengthError (p.len + 256 * b.toNat) s := by
      simp [ctlHeader, h, Config.maxBody, hlong]
    rw [this]
    exact linkError_enters ..
  · rw [hbyte]
    simp [ctlHeader, h, c]
  · rw [hbyte]
    simp [ctlHeader, h, c]

/-- Settles O11: each of the two errors counts in its own counter before the message is sent. -/
theorem linkErrorsAreCountedAndSent : Obligations.LinkErrorsAreCountedAndSent := by
  intro kind tag s
  refine ⟨fun hopen => ⟨_, exec_linkErrorCrc hopen, ?_⟩, fun hbusy => ?_, fun hidle => ?_⟩
  · rw [← controlWake_errCrc s]
    exact linkError_enters ..
  · refine ⟨_, congrArg Host.Outcome.next (if_neg hbusy), ?_⟩
    rw [List.append_assoc]
    exact linkError_enters ..
  · exact congrArg Host.Outcome.next (if_pos hidle)

/-- Settles O12: each check is met by a frame that passes those before it. -/
theorem checksRefuseInOrder : Obligations.ChecksRefuseInOrder := by
  intro c k tag body s hrow hopen u refuses
  have hrefuses : ∀ code, checkCommand k tag body u = some code → refuses code :=
    fun _ => exec_refused hrow hopen
  exact ⟨fun ht => hrefuses _ (checkCommand_badTag ht),
    fun ht hl => hrefuses _ (checkCommand_badLength ht hl),
    fun ht hl hu => hrefuses _ (checkCommand_tagInUse ht hl hu),
    fun ht hl hu => ⟨fun code hr => hrefuses code (checkCommand_refusedBy ht hl hu hr),
      fun hr ha => hrefuses _ (checkCommand_badArgument ht hl hu hr ha),
      fun hr ha hs hw => hrefuses _ (checkCommand_busy ht hl hu hr ha hs hw)⟩⟩

end Sys2Proof
end

section
/-!
PROOFS. The immediate commands: the reports, PUT-SETTINGS, the intake commands and GAUGE-ANCHOR.
-/
namespace Sys2Proof.Machine

/-! ## No follow-up work stands -/

theorem Still.walk {s : State} (h : Still s) : WalkStill s := h.1
theorem Still.reads {s : State} (h : Still s) : ∀ q ∈ s.flash.reads, s.dieReady q.addr.die = true :=
  have ⟨_, _, h3, _⟩ := h
  h3
theorem Still.retrRead {s : State} (h : Still s) : ∀ q, s.retr.ctx.bind RetrCtx.read = some q → s.dieReady q.addr.die = true :=
  have ⟨_, h2, _⟩ := h
  h2
theorem Still.mount {s : State} (h : Still s) : s.power.mount = none :=
  have ⟨_, _, _, h4, _⟩ := h
  h4
theorem Still.notPausing {s : State} (h : Still s) : s.isRunning .pause = false :=
  have ⟨_, _, _, _, h5, _⟩ := h
  h5
theorem Still.calm {s : State} (h : Still s) : s.emergency = false :=
  have ⟨_, _, _, _, _, h6⟩ := h
  h6

/-! ## What a message that enters the reply FIFO leaves alone -/

section EntersFifo
variable {m : Message} {u t : State}

theorem EntersFifo.settings (h : EntersFifo m u t) : t.settings = u.settings := by rw [h.1]
theorem EntersFifo.gauge (h : EntersFifo m u t) : t.gauge = u.gauge := by rw [h.1]
theorem EntersFifo.store (h : EntersFifo m u t) : t.store = u.store := by rw [h.1]
theorem EntersFifo.flash (h : EntersFifo m u t) : t.flash = u.flash := by rw [h.1]
theorem EntersFifo.staging (h : EntersFifo m u t) : t.staging = u.staging := by rw [h.1]
theorem EntersFifo.motion (h : EntersFifo m u t) : t.motion = u.motion := by rw [h.1]
theorem EntersFifo.intake (h : EntersFifo m u t) : t.intake = u.intake := by rw [h.1]
theorem EntersFifo.power (h : EntersFifo m u t) : t.power = u.power := by rw [h.1]
theorem EntersFifo.retr (h : EntersFifo m u t) : t.retr = u.retr := by rw [h.1]

end EntersFifo

/-! ## Work that raises notices and moves no reply -/

/-- From `l` to `m` the control link moves by notices raised alone: the queue of commands stands, nothing is dropped, and the
replies that wait keep their places unless an idle transmitter takes one up (R18, R19). -/
structure Noticed (l m : LinkUnit) : Prop where
  running : m.running = l.running
  waiting : m.waiting = l.waiting
  dropped : m.dropped = l.dropped
  fifo : l.sending ≠ none ∨ l.fifo = [] → m.fifo = l.fifo ∧ (m.sending ≠ none ∨ m.fifo = [])

theorem Noticed.refl (l : LinkUnit) : Noticed l l := ⟨rfl, rfl, rfl, fun h => ⟨rfl, h⟩⟩

theorem Noticed.trans {l m n : LinkUnit} (h : Noticed l m) (k : Noticed m n) : Noticed l n where
  running := k.running.trans h.running
  waiting := k.waiting.trans h.waiting
  dropped := k.dropped.trans h.dropped
  fifo hq :=
    have ⟨h1, h2⟩ := h.fifo hq
    have ⟨k1, k2⟩ := k.fifo h2
    ⟨k1.trans h1, k2⟩

theorem raiseNotice_noticed (k : NoticeKind) (d : List Byte) (s : State) : Noticed s.link (raiseNotice k d s).link :=
  ⟨by simp, by simp, by simp, raiseNotice_fifo k d s⟩

theorem raiseIf_noticed {c : Prop} [Decidable c] (k : NoticeKind) (d : List Byte) (s : State) :
    Noticed s.link (if c then raiseNotice k d s else s).link := by
  split
  · exact raiseNotice_noticed k d s
  · exact .refl _

theorem judgeLatch_noticed (s : State) : Noticed s.link (judgeLatch s).link := by
  unfold judgeLatch raiseCareful
  split
  · exact .refl _
  · exact raiseNotice_noticed _ _ _

theorem judgeSpace_noticed (s : State) : Noticed s.link (judgeSpace s).link := by
  unfold judgeSpace
  split
  · exact .refl _
  · exact (raiseIf_noticed _ _ s).trans (raiseIf_noticed _ _ _)

theorem designChange_noticed (old : Nat) (s : State) : Noticed s.link (designChange old s).link := by
  unfold designChange
  split
  · exact .refl _
  · dsimp only
    split
    · exact .refl _
    · exact raiseNotice_noticed _ _ _

theorem keepInterval_link (s : State) : (keepInterval s).link = s.link := by
  unfold keepInterval
  split <;> rfl

/-- A new working copy in force: its blocks act on it by notices alone. -/
theorem adoptItems_noticed (items : List Nat) (s : State) : Noticed s.link (adoptItems items s).link := by
  have hdesign : ∀ old, Noticed s.link
      (designChange old ((keepInterval s).modSettings fun c => { c with items := items })).link := fun old =>
    keepInterval_link s ▸ designChange_noticed old ((keepInterval s).modSettings _)
  unfold adoptItems
  dsimp only
  rw [updateWait_link]
  refine Noticed.trans ?_ (judgeSpace_noticed _)
  split
  · exact hdesign _
  · exact (hdesign _).trans (judgeLatch_noticed _)

/-! ## The settings under PUT-SETTINGS (R195) -/

theorem judgeLatch_settings (s : State) : (judgeLatch s).settings = s.settings := by
  unfold judgeLatch raiseCareful
  split <;> simp

theorem judgeSpace_settings (s : State) : (judgeSpace s).settings = s.settings := by
  change (judgeSpace s).kept.settings = s.kept.settings
  rw [kept_judgeSpace]

theorem designChange_settings (old : Nat) (s : State) : (designChange old s).settings = s.settings := by
  unfold designChange
  split
  · rfl
  · dsimp only
    split <;> simp [raiseBattery]

theorem keepInterval_settings (s : State) : (keepInterval s).settings = s.settings := by
  unfold keepInterval
  split <;> rfl

theorem adoptItems_settings (items : List Nat) (s : State) :
    (adoptItems items s).settings = { s.settings with items := items } := by
  unfold adoptItems
  dsimp only
  split <;> simp [judgeSpace_settings, judgeLatch_settings, designChange_settings, keepInterval_settings]

/-- The item is written in the words of R195: a value for it, and for its group all of one that holds. -/
theorem putWrites_eq (first : Nat) (vs items : List Nat) (i : Nat) :
    putWrites first vs items i = (placed first vs.length i && (groupOf i).all fun g =>
      decide (first ≤ g.1) && decide (g.1 + g.2 ≤ first + vs.length) && constraintOk g.1 (putCandidate first vs items)) := by
  unfold putWrites
  cases groupOf i <;> rfl

theorem placed_of_putWrites {first : Nat} {vs items : List Nat} {i : Nat} (h : putWrites first vs items i = true) :
    placed first vs.length i = true := (Bool.and_eq_true_iff.mp h).1

theorem putItems_written (first : Nat) (vs items : List Nat) (i : Nat) (hi : i < items.length) :
    (putItems first vs items).getD i 0 =
      if putWrites first vs items i then clampItem i (vs.getD (i - first) 0) else items.getD i 0 := by
  rw [putItems_getD _ _ _ _ hi, putCandidate_getD _ _ _ _ hi]
  split
  · rename_i hw
    rw [if_pos (placed_of_putWrites hw)]
  · rfl

theorem putItems_length (first : Nat) (vs items : List Nat) : (putItems first vs items).length = items.length := by
  simp [putItems]

/-- The reply of PUT-SETTINGS, behind the working copy in force. -/
theorem putSettings_enters (tag : Byte) (body : List Byte) (s : State) :
    let first := field 1 body 0
    let vs := putValues body
    let written := putWrites first vs s.settings.items
    let count := fun p : Nat → Bool => le1 ((List.range 42).countP p)
    EntersFifo (immediateReply CmdKind.putSettings.code tag (if 42 < first + vs.length then .partialDone else .ok)
        (count written ++
          count (fun i => placed first vs.length i && clampItem i (vs.getD (i - first) 0) != vs.getD (i - first) 0) ++
          count fun i => placed first vs.length i && !written i))
      (adoptItems (putItems first vs s.settings.items) s) (putSettings tag body s) := by
  intro first vs written count
  have hcode : (if 42 < first + vs.length then Code.partialDone else .ok) =
      if decide (42 < first + vs.length) = true then .partialDone else .ok := by simp only [decide_eq_true_eq]
  rw [hcode]
  exact reply_enters ..

theorem putSettings_settings (tag : Byte) (body : List Byte) (s : State) :
    (putSettings tag body s).settings =
      { s.settings with items := putItems (field 1 body 0) (putValues body) s.settings.items } := by
  rw [(putSettings_enters tag body s).settings, adoptItems_settings]

/-! ## LINE-INFO -/

theorem lineInfo_none {tag : Byte} {n : Nat} {s : State} (h : s.line n = none) :
    lineInfo tag n s = reply CmdKind.lineInfo.code tag .noSuchLine [] s := by simp only [lineInfo, h]

theorem lineInfo_some {tag : Byte} {n : Nat} {l : Line} {s : State} (h : s.line n = some l) :
    lineInfo tag n s = reply CmdKind.lineInfo.code tag .ok (lineReport l s) s := by simp only [lineInfo, h]

/-! ## INTAKE, FILTER-RESET and ACK-RESUME -/

theorem heard_isRunning (s : State) (k : CmdKind) : s.heard.isRunning k = s.isRunning k := by
  simp [State.isRunning]

/-- A CLOSED-OUT store returns to READY as the intake is opened (R184). -/
def Power.reopened (p : Power) : Power :=
  if p.store = .closedOut then { p with store := .ready, lastCause := none } else p

theorem reopened_frame (p : Power) : p.reopened.mount = p.mount ∧ p.reopened.closeout = p.closeout := by
  unfold Power.reopened
  split <;> exact ⟨rfl, rfl⟩

/-- The state in which INTAKE with action OPEN is answered, before the wait line follows. -/
def State.intakeOpened (s : State) : State := (s.modPower Power.reopened).modIntake fun i => { i with openReq := true }

theorem intakeOpened_still {s : State} (h : Still s) : Still s.intakeOpened :=
  have ⟨hmount, hclose⟩ := reopened_frame s.power
  still_congr h rfl rfl rfl rfl (fun _ => rfl) hmount h.notPausing (by
    simp only [State.emergency, State.intakeOpened, modIntake_power, modPower_power, hclose])

theorem openIntake_refused {tag : Byte} {s : State} {code : Code} (h : openRefusal s = some code) :
    openIntake tag s = reply CmdKind.intake.code tag code [] s := by simp only [openIntake, h]

theorem openIntake_opens {tag : Byte} {s : State} (h : openRefusal s = none) (hs : Still s) :
    openIntake tag s = intakeReply tag (updateWait s.intakeOpened) := by
  rw [← finish_still _ (intakeOpened_still hs)]
  simp only [openIntake, h]
  rfl

/-! ## GAUGE-ANCHOR -/

theorem judgeBattery_noticed (conf : Confidence) (s : State) : Noticed s.link (judgeBattery conf s).link :=
  raiseIf_noticed _ _ (s.modGauge fun g => { g with decade := s.gauge.soc / 10 })

/-- The notice rule moves the decade, and the control link where it raises BATTERY. -/
theorem judgeBattery_frame (conf : Confidence) (s : State) :
    ∃ l, judgeBattery conf s = { s with link := l, gauge := { s.gauge with decade := s.gauge.soc / 10 } } := by
  unfold judgeBattery
  dsimp only
  split <;> exact ⟨_, rfl⟩

/-- The gauge after a full anchor by command, but for the decade. -/
def State.anchored (s : State) : State :=
  s.modGauge fun g => (g.fullAnchor s.power.clock ((s.gauge.last.map PackSample.t).getD 0)).report

theorem commandAnchor_eq (s : State) : commandAnchor s = judgeBattery s.gauge.conf s.anchored := rfl

end Sys2Proof.Machine

namespace Sys2Proof
open Machine

/-! ## The statements -/

/-- Settles O13: each of the six is served by one reply and nothing else. -/
theorem reportsAreAnsweredAndChangeNothing : Obligations.ReportsAreAnsweredAndChangeNothing := by
  intro tag body s hopen u ok
  refine ⟨fun h => ⟨_, exec_served rfl hopen h, reply_enters ..⟩, fun h => ⟨_, exec_served rfl hopen h, reply_enters ..⟩,
    fun h => ⟨_, exec_served rfl hopen h, reply_enters ..⟩, fun h => ⟨_, exec_served rfl hopen h, reply_enters ..⟩,
    fun h => ⟨_, exec_served rfl hopen h, reply_enters ..⟩, fun h hl => ⟨_, exec_served rfl hopen h, ?_⟩,
    fun h l hl => ⟨_, exec_served rfl hopen h, ?_⟩⟩
  · rw [serve, lineInfo_none hl]
    exact reply_enters ..
  · rw [serve, lineInfo_some hl]
    exact reply_enters ..

/-- Settles O15: the working copy goes item by item, and what the blocks do about it moves the link by notices alone. -/
theorem putSettingsWritesWholeGroupsClamped : Obligations.PutSettingsWritesWholeGroupsClamped := by
  intro tag body s hopen hlen hcheck first vs placed' written count
  have hfirst : field 1 body 0 = first := field_one body 0
  have hwritten : written = putWrites first vs s.settings.items := funext fun i => (putWrites_eq ..).symm
  have hlink := adoptItems_noticed (putItems first vs s.settings.items) s.heard
  have henters := putSettings_enters tag body s.heard
  simp only [hfirst, heard_settings] at henters
  have hset : (putSettings tag body s.heard).settings = { s.settings with items := putItems first vs s.settings.items } := by
    rw [putSettings_settings, hfirst, heard_settings]
  refine ⟨_, _, exec_served rfl hopen hcheck, fun i hi => ?_, ?_, by rw [serve, hset], by rw [serve, hset], ?_, ?_, ?_,
    hlink.dropped, fun h => (hlink.fifo h).1⟩
  · rw [serve, hset, hwritten]
    exact putItems_written first vs _ i (hlen.symm ▸ hi)
  · rw [serve, hset]
    exact (putItems_length ..).trans hlen
  · rw [hwritten]
    exact henters
  · exact hlink.running.trans (heard_running s)
  · exact hlink.waiting.trans (heard_waiting s)

/-- Settles O16: each of the four is one small change and one reply. -/
theorem intakeFilterResetAndAckResume : Obligations.IntakeFilterResetAndAckResume := by
  intro tag body s hopen u replied
  have hreplied : ∀ (c : Instr) (k : CmdKind) (b : List Byte) (code : Code) (content : List Byte) (v : State),
      rowFrame c = some (k, tag, b) → checkCommand k tag b u = none → serve k tag b u = reply k.code tag code content v →
      v.settings = s.settings → v.gauge = s.gauge → v.store = s.store → v.flash = s.flash → v.staging = s.staging →
      v.motion = u.motion → replied c k code content v := by
    intro c k b code content v hrow hcheck hserve h1 h2 h3 h4 h5 h6
    exact ⟨_, (exec_served hrow hopen hcheck).trans (congrArg _ hserve), reply_enters .., h1, h2, h3, h4, h5, h6⟩
  refine ⟨fun hcheck hnone hs => ?_, fun code hcheck hcode => ?_, fun hcheck => ?_, fun hcheck => ?_, fun hcheck => ?_,
    fun hawake => ?_⟩
  · exact hreplied _ _ _ _ _ _ rfl hcheck (openIntake_opens hnone (heard_still hs)) (heard_settings s) (heard_gauge s)
      (heard_store s) (heard_flash s) (heard_staging s) rfl
  · exact hreplied _ _ _ _ _ _ rfl hcheck (openIntake_refused hcode) (heard_settings s) (heard_gauge s) (heard_store s)
      (heard_flash s) (heard_staging s) rfl
  · exact hreplied _ _ _ _ _ _ rfl hcheck rfl (heard_settings s) (heard_gauge s) (heard_store s)
      (heard_flash s) (heard_staging s) rfl
  · rw [← heard_intake_slots s]
    exact hreplied _ _ _ _ _ _ rfl hcheck rfl (heard_settings s) (heard_gauge s) (heard_store s) (heard_flash s)
      (heard_staging s) rfl
  · exact hreplied _ _ _ _ _ _ rfl hcheck rfl (heard_settings s) (heard_gauge s) (heard_store s) (heard_flash s)
      (heard_staging s) rfl
  · simp [u, State.heard, controlWake_awake hawake, State.setCtl]

/-- Settles O17: the anchor is taken first, the notice rule moves the decade alone, and the reply reports what stands then. -/
theorem gaugeAnchorTakesTheFullAnchor : Obligations.GaugeAnchorTakesTheFullAnchor := by
  intro tag body s hopen hcheck
  obtain ⟨l, hl⟩ := judgeBattery_frame s.heard.gauge.conf s.heard.anchored
  have hlink : Noticed s.heard.link (commandAnchor s.heard).link := judgeBattery_noticed _ s.heard.anchored
  have henters : EntersFifo (immediateReply CmdKind.gaugeAnchor.code tag .ok (gaugeReport (commandAnchor s.heard)))
    (commandAnchor s.heard) (gaugeAnchor tag s.heard) := reply_enters ..
  have hgauge : (gaugeAnchor tag s.heard).gauge =
      { s.heard.anchored.gauge with decade := s.heard.anchored.gauge.soc / 10 } := by
    rw [henters.gauge, commandAnchor_eq, hl]
  refine ⟨gaugeAnchor tag s.heard, _, exec_served rfl hopen hcheck, henters, ?_, ?_, ?_, ?_, ?_, ?_, ?_, ?_, ?_, ?_, ?_,
    hlink.running.trans (heard_running s), hlink.waiting.trans (heard_waiting s), hlink.dropped,
    fun h => (hlink.fifo h).1⟩
  iterate 7
    rw [hgauge]
    simp [State.anchored, Gauge.fullAnchor, Gauge.report, satInc, Config.max32]
  · rw [henters.settings, commandAnchor_eq, hl]
    exact heard_settings s
  · rw [henters.store, commandAnchor_eq, hl]
    exact heard_store s
  · rw [henters.flash, commandAnchor_eq, hl]
    exact heard_flash s
  · rw [henters.intake, commandAnchor_eq, hl]
    exact heard_intake_slots s

end Sys2Proof
end

section
/-!
PROOFS. The end of a retrieval, CANCEL and RESET, and the transmitter: a message sent, and a message that waited for room.
-/
namespace Sys2Proof.Machine

/-! ## The walk of a retrieval that stops at once (R123, R127 to R129) -/

/-- The walk has fuel for its first round. -/
theorem runWalk_succ {s : State} {c : RetrCtx} (h : s.retr.ctx = some c) :
    runWalk s = walk (c.bound - c.cursor + c.todo.length + 3 + 1) s := by simp only [runWalk, h]

/-- A stop request ends the retrieval where no record is in progress. -/
theorem runWalk_stopped {s : State} {c : RetrCtx} {code : Code} (h : s.retr.ctx = some c) (hstop : c.stop.code = some code)
    (hended : c.ended = false) (hmsg : c.msg = none) (hread : c.inFlight = false) : runWalk s = endRetr c code s := by
  simp [runWalk_succ h, walk, h, hstop, hended, hmsg, hread]

/-- A stop request waits for the message held, or for the read in flight. -/
theorem runWalk_waits {s : State} {c : RetrCtx} {code : Code} (h : s.retr.ctx = some c) (hstop : c.stop.code = some code)
    (hbusy : c.msg.isSome = true ∨ c.inFlight = true) : runWalk s = s := by
  rcases hbusy with hb | hb <;> simp [runWalk_succ h, walk, h, hstop, hb]

/-- At the maximum of records the retrieval ends with PARTIAL. -/
theorem runWalk_full {s : State} {c : RetrCtx} (h : s.retr.ctx = some c) (hstop : c.stop = .none)
    (hended : c.ended = false) (hmsg : c.msg = none) (hread : c.read = none) (hmax : c.max ≤ c.sent) :
    runWalk s = endRetr c .partialDone s := by
  simp [runWalk_succ h, walk, h, hstop, StopReq.code, hended, hmsg, hread, hmax]

/-! ## The final reply of a retrieval (R128) -/

/-- No block waits for the retrieval to end. -/
theorem releasePending_none {s : State} (h : s.flash.pendingRec = []) : releasePending s = s := by
  have hflash : { s.flash with pendingRec := [] } = s.flash := by rw [← h]
  simp only [releasePending, h, List.foldl_nil, State.modFlash, hflash]

/-- The running READ-RECORDS ends with room for its reply and no block to release. -/
def State.retrEnded (c : RetrCtx) (tag : Byte) (code : Code) (s : State) : State :=
  { s with
    retr := { s.retr with ctx := none },
    link := LinkUnit.choose s.paused { s.link with
      running := none,
      fifo := s.link.fifo ++ [{ cls := .final, kind := CmdKind.readRecords.code, tag := tag,
                                body := replyBody code (le2 c.sent ++ le4 (s.stagedRecords c.line)) }] },
    power := { s.power with pause := .none, fmt := .none } }

theorem endRetr_ended {c : RetrCtx} {r : Running} {code : Code} {s : State} (hctx : s.retr.ctx.isSome = true)
    (hrun : s.link.running = some r) (hkind : r.cmd.kind = .readRecords) (hroom : s.link.fifo.length < 32)
    (hpend : s.flash.pendingRec = []) : endRetr c code s = s.retrEnded c r.cmd.tag code := by
  have hrel : ∀ f g h k, releasePending ((((s.modRetr f).modPower g).modLink h).modLink k |>.modRetr fun r =>
      { r with ctx := none }) = ((((s.modRetr f).modPower g).modLink h).modLink k |>.modRetr fun r => { r with ctx := none }) :=
    fun f g h k => releasePending_none hpend
  obtain ⟨x, hx⟩ := Option.isSome_iff_exists.mp hctx
  simp only [endRetr, endCommand, State.modCtx, modRetr_link, hrun, modPower_link, Config.replyFifo, hroom, if_true,
    finalPlaced, hkind, State.retrieving, modLink_retr, modPower_retr, modRetr_retr, hx, Option.map_some, Option.isSome_some,
    hrel]
  simp only [State.modLink, State.modPower, State.modRetr, LinkUnit.enter, choose_run, State.retrEnded, finalMessage, hkind]
  rfl

/-! ## Follow-up work behind a retrieval that has moved -/

/-- Whatever a retrieval reads next, on a die that is READY, nothing else that follow-up work reads has moved. -/
theorem still_retrieval {s t : State} (h : Still s)
    (hread : ∀ q, t.retr.ctx.bind RetrCtx.read = some q → s.dieReady q.addr.die = true) (hwalk : t.store.walk = s.store.walk)
    (hflash : t.flash = s.flash) (hmount : t.power.mount = s.power.mount) (hpause : t.isRunning .pause = false)
    (hclose : t.emergency = s.emergency) : Still t := by
  obtain ⟨h1, _, h3, h4, _, h6⟩ := h
  have hdie : ∀ d, t.dieReady d = s.dieReady d := fun d => by simp only [State.dieReady, State.die, hflash]
  refine ⟨?_, fun q hq => ?_, fun q hq => ?_, hmount.trans h4, hpause, hclose.trans h6⟩
  · unfold WalkStill at h1 ⊢
    rw [hwalk, hflash]
    exact h1
  · rw [hdie]
    exact hread q hq
  · rw [hdie]
    rw [hflash] at hq
    exact h3 q hq

theorem isRunning_none {s : State} (k : CmdKind) (h : s.link.running = none) : s.isRunning k = false := by
  simp only [State.isRunning, h]

theorem isRunning_congr {s t : State} (k : CmdKind) (h : t.link.running = s.link.running) : t.isRunning k = s.isRunning k := by
  simp only [State.isRunning, h]

@[simp] theorem immediate_running (b : Bool) (m : Message) (l : LinkUnit) : (l.immediate b m).running = l.running := by
  unfold LinkUnit.immediate
  split <;> simp [LinkUnit.enter]

@[simp] theorem reply_running (k t : Byte) (c : Code) (l : List Byte) (s : State) :
    (reply k t c l s).link.running = s.link.running := immediate_running ..

/-! ## CANCEL (R15) -/

section Cancel
variable {tag target : Byte} {s : State}

theorem cancelCommand_waiting {c : StoreCmd} (hrun : ∀ r, s.link.running = some r → r.cmd.tag ≠ target)
    (hwait : s.link.waiting.find? (fun x => x.tag == target) = some c) :
    cancelCommand tag target s = reply CmdKind.cancel.code tag .ok [] (cancelWaiting c s) := by
  have hnone : (s.link.running.filter fun r => r.cmd.tag == target) = none := by
    cases hr : s.link.running with
    | none => rfl
    | some r => simp [Option.filter, hrun r hr]
  simp only [cancelCommand, hnone, hwait]

theorem cancelCommand_running {r : Running} (hrun : s.link.running = some r) (htag : r.cmd.tag = target) :
    cancelCommand tag target s = cancelRunning tag r s := by
  simp [cancelCommand, hrun, htag, Option.filter]

theorem cancelRunning_other {r : Running} (h : r.cmd.kind ≠ .readRecords) :
    cancelRunning tag r s = reply CmdKind.cancel.code tag .notCancellable [] s := if_pos h

theorem cancelRunning_retrieval {r : Running} {c : RetrCtx} (h : r.cmd.kind = .readRecords) (hctx : s.retr.ctx = some c) :
    cancelRunning tag r s = finish (reply CmdKind.cancel.code tag .ok [] (stopRetr .cancel s)) :=
  (if_neg (not_not_intro h)).trans (if_pos (by simp [State.retrieving, hctx]))

/-- With room for its final reply the waiting command leaves the waiting list. -/
theorem cancelWaiting_room {c : StoreCmd} (h : s.link.fifo.length < 32) :
    cancelWaiting c s = { s with link := LinkUnit.choose s.paused { s.link with
      waiting := s.link.waiting.filter fun x => x.tag != c.tag,
      fifo := s.link.fifo ++ [{ cls := .final, kind := c.kind.code, tag := c.tag,
                                body := replyBody .cancelled (unrunContent c .cancelled s) }] } } := if_pos h

/-- Without room it keeps its place with the cancelled mark. -/
theorem cancelWaiting_full {c : StoreCmd} (h : 32 ≤ s.link.fifo.length) :
    cancelWaiting c s = { s with link := { s.link with
      waiting := s.link.waiting.map fun x => if x.tag = c.tag then { x with cancelled := true } else x } } := by
  have hmap : mapIf (fun x : StoreCmd => x.tag == c.tag) (fun x => { x with cancelled := true }) s.link.waiting =
      s.link.waiting.map fun x => if x.tag = c.tag then { x with cancelled := true } else x :=
    List.map_congr_left fun x _ => by simp only [beq_iff_eq]
  rw [← hmap]
  exact if_neg h.not_gt

theorem stopRetr_again {c : RetrCtx} {q : StopReq} (hctx : s.retr.ctx = some c) (hstop : c.stop ≠ .none) :
    stopRetr q s = s := by simp [stopRetr, hctx, hstop]

/-- The first stop request is noted in the context, and the walk judges it. -/
theorem stopRetr_first {c : RetrCtx} {q : StopReq} (hctx : s.retr.ctx = some c) (hstop : c.stop = .none)
    (hended : c.ended = false) :
    stopRetr q s = runWalk { s with retr := { s.retr with ctx := some { c with stop := q } } } := by
  simp [stopRetr, hctx, hstop, hended, State.modCtx, State.modRetr]

end Cancel

/-! ## The transmitter (R18) -/

section Choose
variable {l : LinkUnit}

theorem choose_reply {m : Message} {ms : List Message} (hidle : l.sending = none) (hfifo : l.fifo = m :: ms) :
    l.choose false = { l with fifo := ms, sending := some m } := by simp [LinkUnit.choose, hidle, hfifo]

theorem choose_notice {n : NoticeEntry} {ns : List NoticeEntry} (hidle : l.sending = none) (hfifo : l.fifo = [])
    (hnotices : l.notices = n :: ns) : l.choose false = { l with notices := ns, sending := some n.message } := by
  simp [LinkUnit.choose, hidle, hfifo, hnotices]

theorem choose_nothing (hfifo : l.fifo = []) (hnotices : l.notices = []) : l.choose false = l := by
  simp [LinkUnit.choose, hfifo, hnotices]

end Choose

/-- A message that is no RESET's reply is sent with no pause entry in sight: the transmitter chooses anew. -/
theorem messageSent_chooses {m : Message} {s : State} (hsend : s.link.sending = some m) (hreset : m.isResetReply = false)
    (hmark : s.power.pauseMark = none) (hawake : s.paused = false) :
    messageSent s = { s with link := LinkUnit.choose false { s.link with sending := none } } := by
  have hr : s.sendingReset = false := by simp [State.sendingReset, hsend, hreset]
  have hp : s.sendingPause = false := by simp [State.sendingPause, hmark]
  have hk : ((s.modLink fun l => { l with sending := none }).kick) =
      { s with link := LinkUnit.choose s.paused { s.link with sending := none } } := rfl
  simp only [messageSent, hsend, hr, hp, hk, hawake, Option.isNone_some, Bool.false_eq_true, if_false]

/-! ## A final reply, or a record, that waited for room (R17, R127) -/

/-- Of these kinds nothing but the running position follows the placing of the final reply. -/
theorem finalPlaced_plain {c : StoreCmd} {f : Final} {s : State}
    (h : c.kind ∈ [CmdKind.lineClose, .lineLock, .lineUnlock, .lineErase, .permitLoad, .saveSettings, .closeout]) :
    finalPlaced c f s = s.modLink fun l => { l with running := none } := by
  simp only [List.mem_cons, List.not_mem_nil, or_false] at h
  rcases h with h | h | h | h | h | h | h <;> simp only [finalPlaced, h]

theorem placeFinal_running {r : Running} {f : Final} {s : State} (hroom : s.link.fifo.length < 32)
    (hrem : s.link.removed = []) (hrun : s.link.running = some r) (hfinal : r.final = some f) :
    placeFinal s = finish (finalPlaced r.cmd f (s.modLink fun l => l.enter s.paused (finalMessage r.cmd f))) := by
  simp only [placeFinal, Config.replyFifo, hroom.not_ge, if_false, hrem, hrun, hfinal]

/-- The held message enters where fewer than 8 wait, and the retrieval goes on (R127). -/
theorem heldEnters_record {c : RetrCtx} {r : Running} {x : Rec} {s : State} (hctx : s.retr.ctx = some c)
    (hmsg : c.msg = some (.record x)) (hrun : s.link.running = some r) (hroom : s.link.fifo.length < 8) :
    heldEnters s = runWalk { s with
      link := LinkUnit.choose s.paused { s.link with
        fifo := s.link.fifo ++ [retrMessage c.line r.cmd.tag (.record x)] },
      retr := { s.retr with ctx := some { c with msg := none, sent := c.sent + 1 } } } := by
  have htag : s.runTag = r.cmd.tag := by simp only [State.runTag, hrun]
  simp only [heldEnters, hctx, hmsg, placeMsg, Config.retrievalLimit, hroom, if_true, htag, HeldMsg.isRecord, State.modCtx,
    State.modRetr, State.modLink]
  rfl

end Sys2Proof.Machine

namespace Sys2Proof
open Machine

/-! ## The statements -/

/-- Settles O18: the target is found among the waiting commands or at the running position, and of a READ-RECORDS the stop request
decides between an end at once and one that waits. -/
theorem cancelRemovesAWaitingCommand : Obligations.CancelRemovesAWaitingCommand := by
  intro tag body s hopen hcheck u cancel answered
  have hcancel : cancel = .next (cancelCommand tag (byteAt body 0) u) := exec_served rfl hopen hcheck
  have hrunning : u.link.running = s.link.running := heard_running s
  have hwaiting : u.link.waiting = s.link.waiting := heard_waiting s
  refine ⟨fun c hno hfind => ?_, fun r hr htag => ?_⟩
  · rw [cancelCommand_waiting (by rwa [hrunning]) (by rwa [hwaiting])] at hcancel
    refine ⟨fun hroom => ⟨_, hcancel, ?_⟩, fun hfull => ⟨_, hcancel, ?_⟩⟩
    · rw [cancelWaiting_room hroom, hwaiting, heard_paused]
      exact reply_enters ..
    · rw [cancelWaiting_full hfull, hwaiting]
      exact reply_enters ..
  · rw [cancelCommand_running (hrunning.trans hr) htag] at hcancel
    refine ⟨fun hkind => ⟨_, hcancel.trans (congrArg _ (cancelRunning_other hkind)), reply_enters ..⟩,
      fun c hkind hctx hs => ?_⟩
    have hctx' : u.retr.ctx = some c := (congrArg Retrieval.ctx (heard_retr s)).trans hctx
    have hs' : Still u := heard_still hs
    rw [cancelRunning_retrieval hkind hctx'] at hcancel
    refine ⟨fun hstop hended hmsg hread hroom hpend => ?_, fun hstop hended hbusy => ?_, fun hstop => ?_⟩
    · have hend : stopRetr .cancel u = u.retrEnded c r.cmd.tag .cancelled := by
        rw [stopRetr_first hctx' hstop hended, runWalk_stopped (c := { c with stop := .cancel }) rfl rfl hended hmsg hread]
        exact endRetr_ended (c := { c with stop := .cancel })
          (s := { u with retr := { u.retr with ctx := some { c with stop := .cancel } } }) rfl (hrunning.trans hr) hkind hroom
          ((congrArg Flash.pendingRec (heard_flash s)).trans hpend)
      have henters : EntersFifo (immediateReply CmdKind.cancel.code tag .ok []) _ _ :=
        reply_enters CmdKind.cancel.code tag .ok [] (u.retrEnded c r.cmd.tag .cancelled)
      refine ⟨_, _, ?_, henters, ?_⟩
      · rw [hcancel, hend, finish_still]
        refine still_retrieval hs' (fun q hq => ?_) rfl rfl rfl (isRunning_none _ ?_) rfl
        · cases hq
        · rw [reply_running]
          exact choose_running ..
      · have hstaged : u.stagedRecords c.line = s.stagedRecords c.line := by
          simp [State.stagedRecords, State.stagedBufs, u]
        rw [State.retrEnded, hstaged]
    · have hwaits : stopRetr .cancel u = { u with retr := { u.retr with ctx := some { c with stop := .cancel } } } := by
        rw [stopRetr_first hctx' hstop hended, runWalk_waits (c := { c with stop := .cancel }) rfl rfl hbusy]
      refine ⟨_, ?_, reply_enters CmdKind.cancel.code tag .ok [] _⟩
      rw [hcancel, hwaits, finish_still]
      refine still_retrieval hs' (fun q hq => hs'.retrRead q ?_) rfl rfl rfl ?_ rfl
      · rw [hctx']
        exact hq
      · exact (isRunning_congr .pause (reply_running ..)).trans hs'.notPausing
    · refine ⟨_, ?_, reply_enters CmdKind.cancel.code tag .ok [] u⟩
      rw [hcancel, stopRetr_again hctx' hstop, finish_still]
      refine still_retrieval hs' hs'.retrRead rfl rfl rfl ?_ rfl
      exact (isRunning_congr .pause (reply_running ..)).trans hs'.notPausing

/-- Settles O19: with room the reply is placed behind the mark, and with the mark no frame is taken. -/
theorem resetIsAnsweredAndTheReceiverDiscards : Obligations.ResetIsAnsweredAndTheReceiverDiscards := by
  refine ⟨fun tag body s hopen hcheck hroom => ⟨_, exec_served rfl hopen hcheck, ?_⟩, fun c k tag body s hrow hdisc => ?_⟩
  · have hreset : resetCommand tag s.heard = reply CmdKind.reset.code tag .ok [] (s.heard.modLink fun l =>
        { l with discard := true }) := if_pos hroom
    rw [serve, hreset]
    exact reply_enters ..
  · rw [exec_rowFrame s hrow, commandFrame_discarded k tag body s hdisc]

/-- Settles O20: the choice falls on the oldest reply, then on the oldest notice, then on nothing. -/
theorem messageSentBeginsTheNext : Obligations.MessageSentBeginsTheNext := by
  intro m s hsend hreset hmark hawake
  have hsent : exec .messageSent s = .next { s with link := LinkUnit.choose false { s.link with sending := none } } :=
    congrArg Host.Outcome.next (messageSent_chooses hsend hreset hmark hawake)
  refine ⟨fun x xs hx => ?_, fun n ns hx hn => ?_, fun hx hn => ?_⟩ <;> rw [hsent]
  · rw [choose_reply (l := { s.link with sending := none }) rfl hx]
  · rw [choose_notice (l := { s.link with sending := none }) rfl hx hn]
  · rw [choose_nothing (l := { s.link with sending := none }) hx hn]

/-- Settles O21: for these kinds the placing of the reply empties the running position and nothing else. -/
theorem aHeldFinalReplyEntersTheFifo : Obligations.AHeldFinalReplyEntersTheFifo := by
  intro r f s hrem hrun hfinal hkind hs hroom
  have hplaced : finalPlaced r.cmd f (s.modLink fun l => l.enter s.paused (finalMessage r.cmd f)) =
      { s with link := LinkUnit.choose s.paused { s.link with
        running := none, fifo := s.link.fifo ++ [finalMessage r.cmd f] } } := by
    rw [finalPlaced_plain hkind]
    simp only [State.modLink, LinkUnit.enter, choose_run]
  refine ⟨_, congrArg Host.Outcome.next (placeFinal_running hroom hrem hrun hfinal), ?_⟩
  rw [hplaced, finish_still]
  · exact ⟨rfl, rfl, rfl, rfl⟩
  · exact still_congr hs rfl rfl rfl rfl (fun _ => rfl) rfl (isRunning_none _ (choose_running ..)) rfl

/-- Settles O22: the record enters, and the walk finds the maximum reached. -/
theorem aHeldRecordEntersTheFifo : Obligations.AHeldRecordEntersTheFifo := by
  intro r c x s hrun hkind hctx hmsg hended hstop hread hmax hroom hs hpend l
  have hentered : heldEnters s = State.retrEnded { c with msg := none, sent := c.sent + 1 } r.cmd.tag .partialDone
      { s with link := l, retr := { s.retr with ctx := some { c with msg := none, sent := c.sent + 1 } } } := by
    rw [heldEnters_record hctx hmsg hrun hroom, runWalk_full (c := { c with msg := none, sent := c.sent + 1 }) rfl hstop hended rfl hread hmax.le]
    refine endRetr_ended rfl ((choose_running ..).trans hrun) hkind ?_ hpend
    refine (choose_fifo_length ..).trans_lt ?_
    rw [List.length_append, List.length_singleton]
    omega
  refine ⟨_, rfl, ?_⟩
  rw [hentered, finish_still]
  · exact ⟨rfl, rfl, rfl, rfl⟩
  · exact still_retrieval hs (fun q hq => nomatch hq) rfl rfl rfl (isRunning_none _ (choose_running ..)) rfl

end Sys2Proof
end

section
/-!
PROOFS. Store commands at their owners: those that end as they start, and those whose one change is made at once.
-/
namespace Sys2Proof.Machine

/-! ## A command row that runs -/

theorem exec_runs {c : Instr} {k : CmdKind} {tag : Byte} {body : List Byte} {s : State}
    (hrow : rowFrame c = some (k, tag, body)) (h : Runs k tag body s) :
    exec c s = .next (finish (runOwner (frameCmd k tag body) (s.atOwner k tag body))) := by
  rw [exec_rowFrame s hrow, commandFrame_runs h]

section AtOwner
variable (k : CmdKind) (tag : Byte) (body : List Byte) (s : State)

theorem atOwner_running :
    (s.atOwner k tag body).link.running = some { cmd := frameCmd k tag body, handed := true, final := none } := rfl
theorem atOwner_awake : (s.atOwner k tag body).paused = false := heard_paused s
theorem atOwner_retr : (s.atOwner k tag body).retr = s.retr := heard_retr s
theorem atOwner_store : (s.atOwner k tag body).store = s.store := heard_store s
theorem atOwner_staging : (s.atOwner k tag body).staging = s.staging := heard_staging s
theorem atOwner_flash : (s.atOwner k tag body).flash = s.flash := heard_flash s
theorem atOwner_settings : (s.atOwner k tag body).settings = s.settings := heard_settings s
theorem atOwner_gauge : (s.atOwner k tag body).gauge = s.gauge := heard_gauge s
theorem atOwner_slots : (s.atOwner k tag body).intake.slots = s.intake.slots := heard_intake_slots s

/-- Of no kind but PAUSE follow-up work stands once the command is at its owner. -/
theorem atOwner_still {k : CmdKind} {s : State} (h : Still s) (hk : k ≠ .pause) : Still (s.atOwner k tag body) :=
  still_congr (heard_still h) rfl rfl rfl rfl (fun _ => rfl) rfl
    (by simp [State.isRunning, atOwner_running, frameCmd, hk]) rfl

end AtOwner

/-! ## The running command ends with room for its reply -/

/-- The final reply of `c` has entered the reply FIFO, the running position is empty, and the wait line stands at `w`. -/
def State.commandEnded (c : StoreCmd) (code : Code) (content : List Byte) (w : Bool) (s : State) : State :=
  { s with
    link := LinkUnit.choose s.paused { s.link with
      running := none, fifo := s.link.fifo ++ [finalMessage c ⟨code, content⟩] },
    power := { s.power with pause := .none, fmt := .none },
    intake := { s.intake with wait := w } }

/-- Unless a retrieval is to be ended or a pause state entered, the wait line is all that follows the end of a command. -/
theorem finalPlaced_wait {c : StoreCmd} {f : Final} {s : State} (hretr : c.kind = .readRecords → s.retr.ctx = none)
    (hpause : c.kind = .pause → f.code ≠ .ok) :
    ∃ w, finalPlaced c f s = { s with link := { s.link with running := none }, intake := { s.intake with wait := w } } := by
  have hplain : s.modLink (fun l => { l with running := none }) =
      { s with link := { s.link with running := none }, intake := { s.intake with wait := s.intake.wait } } := rfl
  unfold finalPlaced
  cases hk : c.kind
  case readRecords => exact ⟨s.intake.wait, by simp [State.retrieving, hretr hk, State.modLink]⟩
  case pause => exact ⟨_, if_neg (hpause hk)⟩
  case format => exact ⟨_, rfl⟩
  all_goals exact ⟨_, hplain⟩

theorem endCommand_ended {r : Running} {code : Code} {content : List Byte} {s : State} (hrun : s.link.running = some r)
    (hroom : s.link.fifo.length < 32) (hretr : r.cmd.kind = .readRecords → s.retr.ctx = none)
    (hpause : r.cmd.kind = .pause → code ≠ .ok) :
    ∃ w, endCommand code content s = s.commandEnded r.cmd code content w := by
  let u : State := (s.modPower fun p => { p with pause := .none, fmt := .none }).modLink fun l =>
    l.enter s.paused (finalMessage r.cmd ⟨code, content⟩)
  obtain ⟨w, hw⟩ := finalPlaced_wait (c := r.cmd) (f := ⟨code, content⟩) (s := u) hretr hpause
  have hend : endCommand code content s = finalPlaced r.cmd ⟨code, content⟩ u := by
    simp only [endCommand, hrun, modPower_link, Config.replyFifo, hroom, if_true]
    rfl
  refine ⟨w, (hend.trans hw).trans ?_⟩
  have hlink : { u.link with running := none } = LinkUnit.choose s.paused { s.link with
      running := none, fifo := s.link.fifo ++ [finalMessage r.cmd ⟨code, content⟩] } := choose_run ..
  rw [hlink]
  rfl

theorem commandEnded_still {c : StoreCmd} {code : Code} {content : List Byte} {w : Bool} {s t : State} (h : Still s)
    (hwalk : t.store.walk = s.store.walk) (hrefresh : t.flash.refresh = s.flash.refresh) (hctx : t.retr.ctx = s.retr.ctx)
    (hreads : t.flash.reads = s.flash.reads) (hdies : ∀ d, t.dieReady d = s.dieReady d)
    (hmount : t.power.mount = s.power.mount) (hclose : t.emergency = s.emergency) :
    Still (t.commandEnded c code content w) :=
  still_congr h hwalk hrefresh hctx hreads hdies hmount (isRunning_none _ (choose_running ..)) hclose

/-- From `s` to `t` a store command runs and ends at once: its final reply, and nothing else. -/
structure EndsAtOnce (k : CmdKind) (tag : Byte) (code : Code) (content : List Byte) (s t : State) : Prop where
  finished : Finished k tag code content s.heard.link t.link
  store : t.store = s.store
  staging : t.staging = s.staging
  flash : t.flash = s.flash
  retr : t.retr = s.retr
  slots : t.intake.slots = s.intake.slots
  settings : t.settings = s.settings
  gauge : t.gauge = s.gauge

theorem endsAtOnce_of_owner {c : Instr} {k : CmdKind} {tag : Byte} {body : List Byte} {code : Code} {content : List Byte}
    {s : State} (hrow : rowFrame c = some (k, tag, body)) (h : Runs k tag body s) (hs : Still s)
    (hretr : k = .readRecords → s.retr.ctx = none) (hpause : k = .pause → code ≠ .ok)
    (howner : runOwner (frameCmd k tag body) (s.atOwner k tag body) = endCommand code content (s.atOwner k tag body)) :
    ∃ t, exec c s = .next t ∧ EndsAtOnce k tag code content s t := by
  have hroom : (s.atOwner k tag body).link.fifo.length < 32 :=
    have ⟨_, _, _, _, _, _, h7⟩ := h
    h7
  obtain ⟨w, hw⟩ := endCommand_ended (code := code) (content := content) (atOwner_running k tag body s) hroom
    (fun hk => (congrArg Retrieval.ctx (heard_retr s)).trans (hretr hk)) hpause
  have hstill : Still ((s.atOwner k tag body).commandEnded (frameCmd k tag body) code content w) :=
    commandEnded_still (heard_still hs) rfl rfl rfl rfl (fun _ => rfl) rfl rfl
  refine ⟨_, exec_runs hrow h, ?_⟩
  rw [howner, hw, finish_still _ hstill]
  refine ⟨?_, heard_store s, heard_staging s, heard_flash s, heard_retr s, heard_intake_slots s, heard_settings s,
    heard_gauge s⟩
  simp only [updateWait_link, State.commandEnded, atOwner_awake]
  rfl

/-! ## LINE-CLOSE, LINE-LOCK and LINE-UNLOCK at their owner -/

theorem lineClose_none {n : Nat} {s : State} (h : s.line n = none) : lineClose n s = endCommand .noSuchLine [] s := by
  simp only [lineClose, h]

theorem lineClose_some {n : Nat} {l : Line} {s : State} (h : s.line n = some l) :
    lineClose n s = endCommand .ok [] (requestClose n .command false s) := by simp only [lineClose, h]

theorem requestClose_not_opened {n : Nat} {l : Line} {r : CloseReason} {cut : Bool} {s : State} (h : s.line n = some l)
    (hst : l.st ≠ .opened) : requestClose n r cut s = s := by simp [requestClose, h, hst]

theorem lineLock_none {n : Nat} {s : State} (h : s.line n = none) : lineLock n s = endCommand .noSuchLine [] s := by
  simp only [lineLock, h]

theorem lineLock_indexing {n : Nat} {l : Line} {s : State} (h : s.line n = some l) (hst : l.st = .opened ∨ l.st = .closing) :
    lineLock n s = endCommand .lineOpen [] s := by
  rcases hst with hst | hst <;> simp only [lineLock, h, hst]

theorem lineLock_locked {n : Nat} {l : Line} {s : State} (h : s.line n = some l) (hst : l.st = .locked) :
    lineLock n s = endCommand .ok [] s := by simp only [lineLock, h, hst]

theorem lineLock_closed {n : Nat} {l : Line} {s : State} (h : s.line n = some l) (hst : l.st = .closed) :
    lineLock n s = lockChange n .locked s := by simp only [lineLock, h, hst]

theorem lineUnlock_none {n : Nat} {s : State} (h : s.line n = none) : lineUnlock n s = endCommand .noSuchLine [] s := by
  simp only [lineUnlock, h]

theorem lineUnlock_locked {n : Nat} {l : Line} {s : State} (h : s.line n = some l) (hst : l.st = .locked) :
    lineUnlock n s = lockChange n .closed s := by simp only [lineUnlock, h, hst]

theorem lineUnlock_not_locked {n : Nat} {l : Line} {s : State} (h : s.line n = some l) (hst : l.st ≠ .locked) :
    lineUnlock n s = endCommand .ok [] s := by
  cases e : l.st
  case locked => exact absurd e hst
  all_goals simp only [lineUnlock, h, e]

theorem getD_set_none {α : Type} (l : List (Option α)) (i : Nat) : (l.set i none).getD i none = none := by
  by_cases h : i < l.length <;> simp [List.getD, h]

end Sys2Proof.Machine

namespace Sys2Proof
open Machine

/-- Settles O24: an OPEN line is closed ahead of the reply, and of any other line there is nothing to do. -/
theorem lineCloseMovesAnOpenLineToClosing : Obligations.LineCloseMovesAnOpenLineToClosing := by
  intro tag body s h hs
  have hline : ∀ n, (s.atOwner .lineClose tag body).line n = s.line n := atOwner_line .lineClose tag body s
  refine ⟨fun hl => ?_, fun l hl hst => ?_, fun l hl hst => ?_⟩
  · obtain ⟨t, ht, e⟩ := endsAtOnce_of_owner (c := .lineClose tag body) rfl h hs nofun nofun (lineClose_none ((hline _).trans hl))
    exact ⟨t, ht, e.store, e.staging, e.flash, e.slots, e.finished⟩
  · have howner := lineClose_some ((hline _).trans hl)
    rw [requestClose_not_opened ((hline _).trans hl) hst] at howner
    obtain ⟨t, ht, e⟩ := endsAtOnce_of_owner (c := .lineClose tag body) rfl h hs nofun nofun howner
    exact ⟨t, ht, e.store, e.staging, e.flash, e.slots, e.finished⟩
  · have hclosed := requestClose_opened .command false ((hline _).trans hl) hst
    have hroom : (s.atOwner .lineClose tag body).link.fifo.length < 32 :=
      have ⟨_, _, _, _, _, _, h7⟩ := h
      h7
    obtain ⟨w, hw⟩ := endCommand_ended (code := .ok) (content := [])
      (hclosed.running.trans (atOwner_running .lineClose tag body s)) (hclosed.fifo.trans_lt hroom) nofun nofun
    have hstill := atOwner_still tag body hs (k := .lineClose) nofun
    refine ⟨_, exec_runs rfl h, ?_⟩
    have howner : runOwner (frameCmd .lineClose tag body) (s.atOwner .lineClose tag body) = _ :=
      (lineClose_some ((hline _).trans hl)).trans hw
    rw [howner, finish_still _ (commandEnded_still hstill hclosed.walk hclosed.refresh (congrArg _ hclosed.retr)
      hclosed.reads hclosed.dies (congrArg _ hclosed.power) (by simp only [State.emergency, hclosed.power]))]
    refine ⟨hclosed.state, choose_running .., fun i hi => ?_, hclosed.blocks.trans (congrArg _ (heard_flash s)),
      hclosed.settings.trans (heard_settings s), hclosed.gauge.trans (heard_gauge s)⟩
    have hslot : (s.atOwner .lineClose tag body).slotOf (lineArg body) = some i := by
      rw [← hi]
      simp only [State.slotOf, atOwner_slots]
    have hslots := hclosed.slots
    rw [hslot] at hslots
    exact (congrArg (fun x => List.getD x i none) hslots).trans (getD_set_none _ i)

/-- Settles O25: in each of these cases the owner ends the command as it comes. -/
theorem lockAndUnlockThatChangeNothing : Obligations.LockAndUnlockThatChangeNothing := by
  intro tag body s hs done
  have hdone : ∀ (c : Instr) (k : CmdKind) (code : Code), rowFrame c = some (k, tag, body) → Runs k tag body s →
      k ≠ .readRecords → k ≠ .pause →
      runOwner (frameCmd k tag body) (s.atOwner k tag body) = endCommand code [] (s.atOwner k tag body) → done c k code := by
    intro c k code hrow h hk hk' howner
    obtain ⟨t, ht, e⟩ := endsAtOnce_of_owner hrow h hs (fun e => absurd e hk) (fun e => absurd e hk') howner
    exact ⟨t, ht, e.store, e.staging, e.flash, e.settings, e.finished⟩
  have hline : ∀ k n, (s.atOwner k tag body).line n = s.line n := fun k => atOwner_line k tag body s
  refine ⟨fun h => ⟨fun hl => ?_, fun l hl hst => ?_, fun l hl hst => ?_⟩, fun h => ⟨fun hl => ?_, fun l hl hst => ?_⟩⟩
  · exact hdone _ _ _ rfl h nofun nofun (lineLock_none ((hline _ _).trans hl))
  · exact hdone _ _ _ rfl h nofun nofun (lineLock_indexing ((hline _ _).trans hl) hst)
  · exact hdone _ _ _ rfl h nofun nofun (lineLock_locked ((hline _ _).trans hl) hst)
  · exact hdone _ _ _ rfl h nofun nofun (lineUnlock_none ((hline _ _).trans hl))
  · exact hdone _ _ _ rfl h nofun nofun (lineUnlock_not_locked ((hline _ _).trans hl) hst)

end Sys2Proof
end

section
/-!
PROOFS. Store commands at their owners, continued: READ-RECORDS, the changes that ask for a checkpoint, PERMIT-LOAD and
SAVE-SETTINGS.
-/
namespace Sys2Proof.Machine

/-! ## READ-RECORDS (R121, R122) -/

/-- The retrieval context that a READ-RECORDS of a line with this next arrival index starts with. -/
def startCtx (body : List Byte) (l : Line) : RetrCtx :=
  { line := rrLine body, lo := rrLo body, hi := rrHi body, mask := rrMask body, max := rrMax body, sent := 0,
    bound := l.next, cursor := 1, held := !l.indexing, root := none, noFill := false, read := none, msg := none, todo := [],
    stop := .none, ended := false }

def State.withCtx (c : RetrCtx) (s : State) : State := { s with retr := { s.retr with ctx := some c } }

theorem startRetr_none {body : List Byte} {s : State} (h : s.line (rrLine body) = none) :
    startRetr body s = endCommand .noSuchLine (retrContent 0 (rrLine body) s) s := by simp only [startRetr, h]

theorem startRetr_empty {body : List Byte} {l : Line} {s : State} (h : s.line (rrLine body) = some l)
    (hload : l.loading = false) (hpages : l.pages = 0) :
    startRetr body s = endRetr (startCtx body l) .ok (s.withCtx (startCtx body l)) := by
  simp [startRetr, h, hload, hpages, startCtx, State.withCtx, State.modRetr]

theorem startRetr_walks {body : List Byte} {l : Line} {s : State} (h : s.line (rrLine body) = some l)
    (hidx : l.indexing = false) (hpages : l.pages ≠ 0) : startRetr body s = runWalk (s.withCtx (startCtx body l)) := by
  simp [startRetr, h, hidx, hpages, startCtx, State.withCtx, State.modRetr]

/-- The first step of a HELD view asks for the root (R122). -/
theorem walkStep_heldRoot {c : RetrCtx} {l : Line} {r : Loc} {s : State} (hctx : s.retr.ctx = some c)
    (hheld : c.held = true) (hroot : c.root = none) (hbound : c.cursor < c.bound) (hl : s.line c.line = some l)
    (hr : l.root = some r) :
    walkStep c s = s.withCtx { c with read := some { addr := r.addr, purpose := .root, started := false, stale := false } } := by
  have hread : ∀ (d : RetrCtx) (u : State), d.line = c.line → u.line c.line = some l →
      readHeldRoot d u = requestRetr r.addr .root u := by
    intro d u hd hu
    simp only [readHeldRoot, hd, hu, Option.bind_some, hr]
  have hstep : walkStep c s = requestRetr r.addr .root (s.modCtx fun x => { x with held := true }) := by
    simp only [walkStep, hbound.not_ge, if_false, RetrCtx.holds, hheld, Bool.true_or, hroot, Option.isNone_none, Bool.and_self,
      if_true]
    exact hread _ _ rfl hl
  rw [hstep]
  simp only [requestRetr, State.modCtx, State.modRetr, hctx, Option.map_some, State.withCtx, ← hheld]

/-- With a read outstanding the walk rests (R124). -/
theorem walk_reading {fuel : Nat} {c : RetrCtx} {s : State} (hctx : s.retr.ctx = some c) (hstop : c.stop = .none)
    (hread : c.read.isSome = true) : walk fuel s = s := by
  cases fuel with
  | zero => rfl
  | succ fuel => simp [walk, hctx, hstop, StopReq.code, hread]

/-- A retrieval with nothing outstanding and room in its count takes a step of its walk. -/
theorem walk_steps {fuel : Nat} {c : RetrCtx} {s : State} (hctx : s.retr.ctx = some c) (hended : c.ended = false)
    (hmsg : c.msg = none) (hstop : c.stop = .none) (hread : c.read = none) (hmax : c.sent < c.max) (htodo : c.todo = []) :
    walk (fuel + 1) s = walk fuel (walkStep c s) := by
  simp [walk, hctx, hended, hmsg, hstop, StopReq.code, hread, hmax.not_ge, htodo]

/-- The retrieval of a line with a root begins with the read of that root. -/
theorem runWalk_heldRoot {c : RetrCtx} {l : Line} {r : Loc} {s : State} (hctx : s.retr.ctx = some c)
    (hheld : c.held = true) (hroot : c.root = none) (hbound : c.cursor < c.bound) (hl : s.line c.line = some l)
    (hr : l.root = some r) (hstop : c.stop = .none) (hended : c.ended = false) (hmsg : c.msg = none) (hread : c.read = none)
    (hmax : c.sent < c.max) (htodo : c.todo = []) :
    runWalk s = s.withCtx { c with read := some { addr := r.addr, purpose := .root, started := false, stale := false } } := by
  let c' : RetrCtx := { c with read := some { addr := r.addr, purpose := .root, started := false, stale := false } }
  rw [runWalk_succ hctx, walk_steps hctx hended hmsg hstop hread hmax htodo, walkStep_heldRoot hctx hheld hroot hbound hl hr]
  exact walk_reading (c := c') (s := s.withCtx c') rfl hstop rfl

/-! ## A checkpoint is requested (R116) -/

/-- With no checkpoint in progress and no line to flush its flush step is over at once. -/
theorem requestCheckpoint_unflushed {w : Option Waiter} {s : State} (hc : s.store.ckpt = none)
    (hl : ∀ l ∈ s.store.lines, l.indexing = false) :
    requestCheckpoint w s = (addWaiter w s).modStore fun t => { t with ckpt := some (.flushing [] []), ckptPend := false } := by
  have hstart : ∀ u : State, u.store.lines = s.store.lines →
      startCheckpoint u = u.modStore fun t => { t with ckpt := some (.flushing [] []), ckptPend := false } := by
    intro u hu
    have hnone : u.store.lines.filter u.stepsFlush = [] := by
      rw [hu, List.filter_eq_nil_iff]
      intro l hm
      simp [State.stepsFlush, hl l hm]
    simp only [startCheckpoint, hnone, List.map_nil, runFlushes, List.foldl_nil]
    rfl
  cases w with
  | none =>
    simp only [requestCheckpoint, addWaiter, hc]
    exact hstart s rfl
  | some w =>
    simp only [requestCheckpoint, addWaiter, modStore_store, hc]
    exact hstart _ rfl

/-- The lock state of a line that is neither OPEN nor CLOSING is changed, and a checkpoint is requested (R110). -/
theorem lockChange_eq {n : Nat} {st : LineState} {s : State} (hc : s.store.ckpt = none)
    (hl : ∀ l ∈ s.store.lines, l.indexing = false) (hst : st = .closed ∨ st = .locked) :
    lockChange n st s = (s.modLine n fun l => { l with st := st }).modStore fun t => { t with
      waiters := t.waiters ++ [(.command, t.ckptSeq + 1)], ckpt := some (.flushing [] []), ckptPend := false } := by
  refine requestCheckpoint_unflushed (w := some .command) hc fun l hm => ?_
  obtain ⟨m, hin, rfl⟩ := List.mem_map.mp hm
  dsimp only
  split
  · rcases hst with rfl | rfl <;> rfl
  · exact hl m hin

/-! ## SAVE-SETTINGS (R197) -/

theorem settingsDue_frame (s : State) : ∃ fl, settingsDue s = { s with flash := fl } := by
  unfold settingsDue
  split
  · exact ⟨s.flash, rfl⟩
  · exact ⟨_, rfl⟩

/-- With a buffer to be had and die 0 READY the SETTINGS image is built and queued. -/
theorem requestImage_settings {copy : List Byte} {b : Nat} {s : State} (hdie : s.dieReady 0 = true)
    (hreq : s.staging.requests = []) (hfree : s.freeBuffer = some b) :
    requestImage (.settings copy) s = putImage b (settingsImage copy) s := by
  simp only [requestImage, addRequest, hreq, hfree, State.unwritable, hdie, Bool.not_true, Bool.and_false,
    Bool.false_eq_true, if_false, buildRequest, nextRequest]
  rfl

/-- With no buffer to be had, or behind requests that wait, it joins the image wait list. -/
theorem requestImage_waits {q : ImageReq} {s : State} (h : s.staging.requests ≠ [] ∨ s.freeBuffer = none) :
    requestImage q s = s.modStaging fun t => { t with requests := t.requests ++ [q] } := by
  unfold requestImage addRequest
  split
  · rename_i hreq hfree
    rcases h with h | h
    · exact absurd hreq h
    · rw [hfree] at h
      cases h
  · rfl

/-- With die 0 unable to take the page SAVE-SETTINGS is told so. -/
theorem requestImage_unwritable {copy : List Byte} {s : State} (hdie : s.dieReady 0 = false)
    (hreq : s.staging.requests = []) (hfree : s.freeBuffer.isSome = true) :
    requestImage (.settings copy) s = settingsUnwritten s := by
  obtain ⟨b, hb⟩ := Option.isSome_iff_exists.mp hfree
  simp [requestImage, addRequest, hreq, hb, State.unwritable, hdie, ImageReq.isSettings]

/-- The buffer in which a SETTINGS image of this body is queued. -/
def settingsBuf (copy : List Byte) : Buf :=
  { st := .queued, origin := .index, slot := none, fill := 0, hdr := blankHdr .settings, body := .raw copy, target := none,
    exposed := false, reported := false, handed := false, job := .settings }

/-- A SETTINGS image put in a buffer: staging and the wait line, and what becomes due of the settings position. -/
theorem putImage_settings (b : Nat) (copy : List Byte) (s : State) :
    ∃ fl w, putImage b (settingsImage copy) s = { s with
      flash := fl, intake := { s.intake with wait := w },
      staging := { s.staging with
        bufs := s.staging.bufs.set b (some (settingsBuf copy)), queue := s.staging.queue ++ [b] } } := by
  obtain ⟨fl, hfl⟩ := settingsDue_frame (updateWait ((s.setBuf b (some (settingsBuf copy))).modStaging fun t =>
    { t with queue := t.queue ++ [b] }))
  exact ⟨fl, _, hfl⟩

theorem freeBuffer_lt {s : State} {b : Nat} (h : s.freeBuffer = some b) : b < s.staging.bufs.length :=
  (List.findIdx?_eq_some_iff_getElem.mp h).1

end Sys2Proof.Machine

namespace Sys2Proof
open Machine

/-! ## The statements -/

/-- At its owner READ-RECORDS sees the line and the staged records of the state it was decoded in. -/
theorem atOwner_stagedRecords (k : CmdKind) (tag : Byte) (body : List Byte) (n : Nat) (s : State) :
    (s.atOwner k tag body).stagedRecords n = s.stagedRecords n := by
  simp only [State.stagedRecords, State.stagedBufs, atOwner_staging]

/-- READ-RECORDS of a line with no pages ends with OK, no record sent. -/
theorem readRecords_empty {tag : Byte} {body : List Byte} {l : Line} {s : State} (h : Runs .readRecords tag body s)
    (hs : Still s) (hctx : s.retr.ctx = none) (hl : s.line (rrLine body) = some l) (hload : l.loading = false)
    (hpages : l.pages = 0) (hpend : s.flash.pendingRec = []) :
    ∃ t, exec (.readRecords tag body) s = .next t ∧ t.retr = s.retr ∧ t.store = s.store ∧ t.flash = s.flash ∧
      Finished .readRecords tag .ok (le2 0 ++ le4 (s.stagedRecords (rrLine body))) s.heard.link t.link := by
  let u := (s.atOwner .readRecords tag body).withCtx (startCtx body l)
  have hroom : u.link.fifo.length < 32 :=
    have ⟨_, _, _, _, _, _, hroom⟩ := h
    hroom
  have howner : runOwner (frameCmd .readRecords tag body) (s.atOwner .readRecords tag body) =
      u.retrEnded (startCtx body l) tag .ok :=
    (startRetr_empty ((atOwner_line _ _ _ _ _).trans hl) hload hpages).trans
      (endRetr_ended (r := { cmd := frameCmd .readRecords tag body, handed := true, final := none }) rfl rfl rfl hroom
        ((congrArg Flash.pendingRec (heard_flash s)).trans hpend))
  have hended : Still (u.retrEnded (startCtx body l) tag .ok) :=
    still_retrieval (atOwner_still tag body hs (k := .readRecords) nofun) (fun q hq => by cases hq) rfl rfl rfl
      (isRunning_none _ (choose_running ..)) rfl
  have hexec := exec_runs (c := .readRecords tag body) rfl h
  rw [howner, finish_still _ hended] at hexec
  refine ⟨_, hexec, ?_, heard_store s, heard_flash s, ?_⟩
  · have hretr : ({ s.retr with ctx := none } : Retrieval) = s.retr := by rw [← hctx]
    rw [← hretr, ← atOwner_retr .readRecords tag body s]
    rfl
  · have hstaged : u.stagedRecords (rrLine body) = s.stagedRecords (rrLine body) :=
      atOwner_stagedRecords .readRecords tag body _ s
    have hawake : u.paused = false := heard_paused s
    simp only [updateWait_link, State.retrEnded, startCtx]
    rw [hstaged, hawake]
    rfl

/-- READ-RECORDS of a line with pages and a root, neither OPEN nor CLOSING, reads the root. -/
theorem readRecords_root {tag : Byte} {body : List Byte} {l : Line} {r : Loc} {s : State}
    (h : Runs .readRecords tag body s) (hs : Still s) (hl : s.line (rrLine body) = some l) (hidx : l.indexing = false)
    (hr : l.root = some r) (hpages : l.pages ≠ 0) (hnext : 1 < l.next) (hdie : s.dieReady r.addr.die = true) :
    ∃ t, exec (.readRecords tag body) s = .next t ∧ t.store = s.store ∧ t.staging = s.staging ∧ t.flash = s.flash ∧
      t.link.running = some { cmd := frameCmd .readRecords tag body, handed := true, final := none } ∧
      t.retr.cache = s.retr.cache ∧ t.retr.ctx = some { startCtx body l with
        read := some { addr := r.addr, purpose := .root, started := false, stale := false } } := by
  have hmax : 0 < rrMax body := by
    obtain ⟨_, _, hcheck, _⟩ := h
    obtain ⟨_, _, _, _, harg⟩ := checkCommand_none hcheck
    simp only [argumentBad, Bool.or_eq_false_iff, beq_eq_false_iff_ne] at harg
    omega
  have hline : (s.atOwner .readRecords tag body).line (rrLine body) = some l := (atOwner_line _ _ _ _ _).trans hl
  let c : RetrCtx := { startCtx body l with
    read := some { addr := r.addr, purpose := .root, started := false, stale := false } }
  have howner : runOwner (frameCmd .readRecords tag body) (s.atOwner .readRecords tag body) =
      (s.atOwner .readRecords tag body).withCtx c :=
    (startRetr_walks hline hidx hpages).trans
      (runWalk_heldRoot (c := startCtx body l) rfl (by simp [startCtx, hidx]) rfl hnext hline hr rfl rfl rfl rfl hmax rfl)
  have hstill := atOwner_still tag body hs (k := .readRecords) nofun
  have hreads : Still ((s.atOwner .readRecords tag body).withCtx c) := by
    refine still_retrieval hstill (fun q hq => ?_) rfl rfl rfl hstill.notPausing rfl
    cases hq
    exact (heard_dieReady s _).trans hdie
  have hexec := exec_runs (c := .readRecords tag body) rfl h
  rw [howner, finish_still _ hreads] at hexec
  refine ⟨_, hexec, heard_store s, heard_staging s, heard_flash s, rfl, ?_, rfl⟩
  simp only [updateWait_retr, State.withCtx, atOwner_retr]

/-- Settles O23: the line table decides between an end at once, an empty walk, and a view that reads the root. -/
theorem readRecordsStartsWithTheLineTable : Obligations.ReadRecordsStartsWithTheLineTable := by
  intro tag body s h hs hctx
  refine ⟨fun hl => ?_, fun l hl hload hpages hpend => readRecords_empty h hs hctx hl hload hpages hpend,
    fun l r hl hidx hr hpages hnext hdie => ?_⟩
  · have howner := startRetr_none ((atOwner_line .readRecords tag body s (rrLine body)).trans hl)
    rw [retrContent, atOwner_stagedRecords] at howner
    obtain ⟨t, ht, e⟩ := endsAtOnce_of_owner (c := .readRecords tag body) rfl h hs (fun _ => hctx) nofun howner
    exact ⟨t, ht, e.retr, e.store, e.finished⟩
  · obtain ⟨t, ht, hstore, hstaging, hflash, hrun, hcache, hread⟩ := readRecords_root h hs hl hidx hr hpages hnext hdie
    refine ⟨t, ht, hstore, hstaging, hflash, hrun, hcache, ?_⟩
    simp [hread, startCtx, hidx]

/-- Settles O26: the change, and the request of a checkpoint with nothing to flush. -/
theorem lockAndUnlockChangeTheLineAndAskForACheckpoint : Obligations.LockAndUnlockChangeTheLineAndAskForACheckpoint := by
  intro tag body l s hs hl hidx hc changed
  have hchanged : ∀ (c : Instr) (k : CmdKind) (st : LineState), rowFrame c = some (k, tag, body) → Runs k tag body s →
      k ≠ .pause → st = .closed ∨ st = .locked →
      runOwner (frameCmd k tag body) (s.atOwner k tag body) = lockChange (lineArg body) st (s.atOwner k tag body) →
      ∃ t, exec c s = .next t ∧ changed t st := by
    intro c k st hrow h hk hst howner
    have hstore := atOwner_store k tag body s
    rw [lockChange_eq (by rw [hstore]; exact hc) (by rw [hstore]; exact hidx) hst] at howner
    have hstill := atOwner_still tag body hs hk
    refine ⟨_, exec_runs hrow h, ?_⟩
    have hchange := still_congr (t := ((s.atOwner k tag body).modLine (lineArg body) fun l => { l with st := st }).modStore
      fun t => { t with
        waiters := t.waiters ++ [(.command, t.ckptSeq + 1)], ckpt := some (.flushing [] []), ckptPend := false })
      hstill rfl rfl rfl rfl (fun _ => rfl) rfl hstill.notPausing rfl
    rw [howner, finish_still _ hchange]
    refine ⟨?_, ?_, rfl, rfl, heard_flash s, heard_staging s⟩
    · have hline : ((s.atOwner k tag body).modLine (lineArg body) fun l => { l with st := st }).line (lineArg body) =
          some { l with st := st } := by
        rw [line_modLine _ _ (fun l : Line => { l with st := st }) (fun _ => rfl), atOwner_line, hl]
        simp [line_num hl]
      exact congrArg (Option.map Line.st) hline
    · simp only [updateWait_store, modStore_store, State.modLine, hstore]
  refine ⟨fun h hst => ?_, fun h hst => ?_⟩
  · exact hchanged _ _ _ rfl h nofun (.inr rfl) (lineLock_closed ((atOwner_line _ _ _ _ _).trans hl) hst)
  · exact hchanged _ _ _ rfl h nofun (.inl rfl) (lineUnlock_locked ((atOwner_line _ _ _ _ _).trans hl) hst)

/-- Settles O28: the map is replaced ahead of the reply. -/
theorem permitLoadReplacesThePermitMap : Obligations.PermitLoadReplacesThePermitMap := by
  intro tag body s h hs
  obtain ⟨l, hl, hfin⟩ := finish_ended h hs .ok []
    ((s.atOwner .permitLoad tag body).modSettings fun c => { c with permit := parsePermit body 0 }) rfl (heard_paused s)
    (by decide) (by simp) (by simp) (by simp) (by simp) (heard_dieReady s) (by simp) (heard_emergency s)
  refine ⟨_, (exec_runs rfl h).trans (congrArg _ hl), ?_, heard_store s, heard_flash s, heard_staging s, heard_gauge s, hfin⟩
  simp only [updateWait_settings, modSettings_settings, atOwner_settings]

/-- Settles O29: the request of the image takes a buffer, joins the wait list, or ends the command. -/
theorem saveSettingsQueuesAnImageOfTheWorkingCopy : Obligations.SaveSettingsQueuesAnImageOfTheWorkingCopy := by
  intro tag body s h hs copy waits
  have hstill := atOwner_still tag body hs (k := .saveSettings) nofun
  have hstaging := atOwner_staging .saveSettings tag body s
  have hsettings := atOwner_settings .saveSettings tag body s
  have hdie : (s.atOwner .saveSettings tag body).dieReady 0 = s.dieReady 0 := heard_dieReady s 0
  have hfreeBuffer : (s.atOwner .saveSettings tag body).freeBuffer = s.freeBuffer := by
    simp only [State.freeBuffer, hstaging]
  have howner : runOwner (frameCmd .saveSettings tag body) (s.atOwner .saveSettings tag body) =
      requestImage (.settings copy) (s.atOwner .saveSettings tag body) := by
    simp only [copy, ← hsettings]
    rfl
  refine ⟨fun b hready hreq hfree => ?_, fun hwait => ?_, fun hfault hreq hfree => ?_⟩
  · have hunstaged := unstaged_requestImage (.settings copy) (s.atOwner .saveSettings tag body) (.inr (hdie.trans hready))
    have hfinish := finish_still _ (still_of_unstaged hunstaged hstill)
    rw [← howner] at hfinish
    rw [requestImage_settings (hdie.trans hready) (by rw [hstaging, hreq]) (hfreeBuffer.trans hfree)] at howner
    obtain ⟨fl, w, hput⟩ := putImage_settings b copy (s.atOwner .saveSettings tag body)
    rw [howner, hput] at hfinish
    have hlen := freeBuffer_lt hfree
    refine ⟨_, (exec_runs rfl h).trans ((congrArg (fun u => Host.Outcome.next (finish u)) (howner.trans hput)).trans
      (congrArg _ hfinish)), ?_, ⟨settingsBuf copy, ?_, rfl, rfl, rfl, rfl⟩, fun c hc => ?_, hsettings, heard_store s, rfl⟩
    · simp only [updateWait_staging, hstaging]
    · simp only [State.buf, updateWait_staging, hstaging, List.getD, List.getElem?_set_self hlen, Option.getD_some]
    · simp only [State.buf, updateWait_staging, hstaging, List.getD, List.getElem?_set_ne hc.symm]
  · have hrequest := requestImage_waits (q := .settings copy) (s := s.atOwner .saveSettings tag body)
      (by rwa [hstaging, hfreeBuffer])
    refine ⟨_, exec_runs rfl h, ?_⟩
    have hwaits := still_congr (t := (s.atOwner .saveSettings tag body).modStaging fun t =>
      { t with requests := t.requests ++ [.settings copy] }) hstill rfl rfl rfl rfl (fun _ => rfl) rfl hstill.notPausing rfl
    rw [howner, hrequest, finish_still _ hwaits]
    refine ⟨?_, heard_flash s, hsettings, heard_store s, rfl⟩
    simp only [updateWait_staging, modStaging_staging, hstaging]
  · rw [requestImage_unwritable (hdie.trans hfault) (by rw [hstaging, hreq]) (by rw [hfreeBuffer, hfree])] at howner
    obtain ⟨t, ht, e⟩ := endsAtOnce_of_owner (c := .saveSettings tag body) rfl h hs nofun nofun howner
    exact ⟨t, ht, e.staging, e.flash, e.settings, e.store, e.finished⟩

end Sys2Proof
end

section
/-!
PROOFS. FORMAT: a statement that fails.
-/
namespace Sys2Proof.Machine

/-! ## FORMAT while a page of a checkpoint is QUEUED (R117, R183) -/

/-- An OPEN line whose index flush is due and waits for a buffer. -/
def flushDueLine : Line := { freshLine 5 with st := .opened, flush := some { built := false, stale := false, pressure := false } }

/-- A page of a checkpoint that is QUEUED. -/
def queuedCkptBuf : Buf :=
  { st := .queued, origin := .checkpoint, slot := none, fill := 0, hdr := blankHdr .checkpoint, body := .raw [], target := none,
    exposed := false, reported := false, handed := false, job := .checkpoint 0 }

/-- A READY store with a checkpoint page QUEUED and a flush of an OPEN line that waits for a buffer: FORMAT drops the page, and
its buffer goes to the flush, which is built at once. -/
def formatCounterexample : State :=
  { State.reset with
    store := { LineStore.reset with lines := [flushDueLine] },
    staging := { Staging.reset with
      bufs := some queuedCkptBuf :: List.replicate 23 none, queue := [0], requests := [.flush 5] },
    flash := { Flash.reset with dies := [{ ready := true, op := none, active := none, due := [] }] },
    power := { Power.reset .powerOn 7 with store := .ready, mount := none } }

theorem formatCounterexample_still : Still formatCounterexample :=
  ⟨rfl, nofun, nofun, rfl, rfl, rfl⟩

theorem formatCounterexample_runs : Runs .format 1 [] formatCounterexample :=
  ⟨rfl, rfl, by decide +kernel, rfl, rfl, rfl, by decide⟩

/-- FORMAT builds the flush here, and the line is not the one it was. -/
theorem format_builds_flush :
    (finish (runOwner (frameCmd .format 1 []) (formatCounterexample.atOwner .format 1 []))).store.lines ≠
      formatCounterexample.store.lines := by decide +kernel

end Sys2Proof.Machine

namespace Sys2Proof
open Machine

/-- Refutes O30: FORMAT drops a QUEUED page of a checkpoint, and the buffer builds the flush that waits for one, which changes
the line. -/
theorem not_formatBeginsOrIsRefusedByALockedLine : ¬ Obligations.FormatBeginsOrIsRefusedByALockedLine := by
  intro holds
  obtain ⟨_, hbegins⟩ := holds 1 [] formatCounterexample formatCounterexample_runs formatCounterexample_still
  obtain ⟨t, ht, _, _, _, hlines, _⟩ := hbegins (by decide)
  rw [exec_runs (c := .format 1 []) rfl formatCounterexample_runs] at ht
  cases ht
  exact format_builds_flush hlines

end Sys2Proof
end

section
/-!
PROOFS. CLOSEOUT and PAUSE at the power manager, and the command queue.
-/
namespace Sys2Proof.Machine

/-! ## Close requests, one after another (R106, R181) -/

/-- What any run of close requests leaves as it was. -/
structure ClosesLines (s t : State) : Prop where
  openReq : t.intake.openReq = s.intake.openReq
  running : t.link.running = s.link.running
  power : t.power = s.power
  retr : t.retr = s.retr
  walk : t.store.walk = s.store.walk
  reads : t.flash.reads = s.flash.reads
  refresh : t.flash.refresh = s.flash.refresh
  blocks : t.flash.blocks = s.flash.blocks
  dies : ∀ d, t.dieReady d = s.dieReady d
  settings : t.settings = s.settings
  gauge : t.gauge = s.gauge

theorem ClosesLines.refl (s : State) : ClosesLines s s := ⟨rfl, rfl, rfl, rfl, rfl, rfl, rfl, rfl, fun _ => rfl, rfl, rfl⟩

theorem ClosesLines.trans {s t u : State} (h : ClosesLines s t) (k : ClosesLines t u) : ClosesLines s u where
  openReq := k.openReq.trans h.openReq
  running := k.running.trans h.running
  power := k.power.trans h.power
  retr := k.retr.trans h.retr
  walk := k.walk.trans h.walk
  reads := k.reads.trans h.reads
  refresh := k.refresh.trans h.refresh
  blocks := k.blocks.trans h.blocks
  dies d := (k.dies d).trans (h.dies d)
  settings := k.settings.trans h.settings
  gauge := k.gauge.trans h.gauge

theorem ClosesLines.still {s t : State} (h : ClosesLines s t) (hs : Still s) : Still t :=
  still_congr hs h.walk h.refresh (congrArg _ h.retr) h.reads h.dies (congrArg _ h.power)
    ((isRunning_congr _ h.running).trans hs.notPausing) (by simp only [State.emergency, h.power])

theorem still_updateWait {s : State} (h : Still s) : Still (updateWait s) :=
  still_congr h rfl rfl rfl rfl (fun _ => rfl) rfl h.notPausing rfl

theorem requestClose_closesLines (n : Nat) (r : CloseReason) (cut : Bool) (s : State) :
    ClosesLines s (requestClose n r cut s) := by
  cases hl : s.line n with
  | none => simpa only [requestClose, hl] using ClosesLines.refl s
  | some l =>
    by_cases hst : l.st = .opened
    · have c := requestClose_opened r cut hl hst
      exact ⟨c.openReq, c.running, c.power, c.retr, c.walk, c.reads, c.refresh, c.blocks, c.dies, c.settings, c.gauge⟩
    · simpa only [requestClose_not_opened hl hst] using ClosesLines.refl s

theorem closeEach_closesLines (ns : List Nat) (r : CloseReason) (cut : Bool) (s : State) :
    ClosesLines s (ns.foldl (fun s n => requestClose n r cut s) s) := by
  induction ns generalizing s with
  | nil => exact .refl s
  | cons n ns ih => exact (requestClose_closesLines n r cut s).trans (ih _)

theorem closePause_other {r : Running} {s : State} (hrun : s.link.running = some r) (hk : r.cmd.kind ≠ .pause) :
    closePause s = s := by simp [closePause, hrun, hk]

/-- The power manager and the open request as an orderly closeout begins (R181). -/
def State.closingOut (cause : CloseoutCause) (s : State) : State :=
  { s with
    power := { s.power with
      store := .closingOut, closeout := some { kind := .orderly false false, cause := cause }, lastCause := none },
    intake := { s.intake with openReq := false } }

/-- An orderly closeout begins while no PAUSE runs: only lines are closed. -/
theorem beginOrderly_closesLines {cause : CloseoutCause} {r : Running} {s : State} (hrun : s.link.running = some r)
    (hk : r.cmd.kind ≠ .pause) :
    ∃ t, ClosesLines (s.closingOut cause) t ∧ beginOrderly cause s = updateWait t := by
  have hpause : closePause (s.closingOut cause) = s.closingOut cause := closePause_other hrun hk
  refine ⟨_, closeEach_closesLines ((s.closingOut cause).intake.slots.filterMap fun x => x.map Slot.line) .closeout
    (cause == .reserve) _, ?_⟩
  rw [← hpause]
  rfl

/-! ## PAUSE (R177) -/

/-- Where no follow-up work stands but that a PAUSE runs which has been judged by what now stands, the judgements after an
event re-derive the wait line alone. -/
theorem finish_judged {s : State} (hwalk : WalkStill s)
    (hretr : ∀ q, s.retr.ctx.bind RetrCtx.read = some q → s.dieReady q.addr.die = true)
    (hreads : ∀ q ∈ s.flash.reads, s.dieReady q.addr.die = true) (hmount : s.power.mount = none)
    (hcalm : s.emergency = false) (hseen : s.power.pauseSeen = some s.pauseView) : finish s = updateWait s := by
  have hjudge : judgePause s = s := by simp [judgePause, hseen]
  rw [finish, startWalk_idle s hwalk, drainDead_ready _ s hretr hreads, mountPump_none s hmount, hjudge,
    lowHaltCheck_calm s hcalm]

/-- The state of a PAUSE that waits for a quiet store, judged by what stands. -/
def State.pauseWaits (s : State) : State :=
  { s with
    power := { s.power with pause := .quiet, pauseSeen := some s.pauseView }, intake := { s.intake with wait := true } }

theorem held_of_running_pause {s : State} (h : s.isRunning .pause = true) : s.held = true := by simp [State.held, h]

theorem intakeState_of_held {s : State} (h : s.held = true) : s.intakeState = .closed := by simp [State.intakeState, h]

theorem waitLevel_of_closed {s : State} (h : s.intakeState = .closed) : waitLevel s = true := by simp [waitLevel, h]

/-- While a PAUSE runs the wait line is ASSERTED. -/
theorem updateWait_of_running_pause {s : State} (h : s.isRunning .pause = true) :
    updateWait s = s.modIntake fun i => { i with wait := true } := by
  rw [updateWait, waitLevel_of_closed (intakeState_of_held (held_of_running_pause h))]

theorem startPause_judges {s : State} (h : s.isRunning .pause = true) : startPause s = endStuckPause s.pauseWaits := by
  have hrun : ∀ f, (s.modPower f).isRunning .pause = true := fun _ => h
  rw [startPause, updateWait_of_running_pause (hrun _)]
  have hpause : ((s.modPower fun p => { p with pause := .quiet, pauseSeen := none }).modIntake
      fun i => { i with wait := true }).isRunning .pause = true := h
  simp only [judgePause, hpause, Bool.true_and]
  rfl

section SameFlash
variable {s t : State}

theorem dieReady_congr (h : t.flash = s.flash) : t.dieReady = s.dieReady := by
  funext d
  simp only [State.dieReady, State.die, h]

theorem storeFull_congr (h : t.flash = s.flash) : t.storeFull = s.storeFull := by
  rw [State.storeFull, State.freeReady, dieReady_congr h, h]
  rfl

theorem dataRoom_congr (h : t.flash = s.flash) : t.dataRoom = s.dataRoom := by
  rw [State.dataRoom, dieReady_congr h, h]
  rfl

theorem pauseView_congr (h : t.flash = s.flash) : t.pauseView = s.pauseView := by
  rw [State.pauseView, storeFull_congr h, dieReady_congr h, h]
  rfl

theorem eligible_congr (h : t.flash = s.flash) (hstore : t.power.store = s.power.store)
    (hclose : t.power.closeout = s.power.closeout) (b : Buf) : t.eligible b = s.eligible b := by
  have hemergency : t.emergency = s.emergency := by rw [State.emergency, hclose, State.emergency]
  have horderly : t.orderly = s.orderly := by rw [State.orderly, hclose, State.orderly]
  simp only [State.eligible, hemergency, horderly, storeFull_congr h, h, hstore]

theorem queueStuck_congr (hstaging : t.staging = s.staging) (h : t.flash = s.flash) (hstore : t.power.store = s.power.store)
    (hclose : t.power.closeout = s.power.closeout) : t.queueStuck = s.queueStuck := by
  simp only [State.queueStuck, State.buf, dataRoom_congr h, eligible_congr h hstore hclose, hstaging]

end SameFlash

/-! ## The command queue (R12, R13) -/

/-- The oldest waiting command has moved up to the running position. -/
def State.movedUp (c : StoreCmd) (cs : List StoreCmd) (handed : Bool) (s : State) : State :=
  { s with link := { s.link with waiting := cs, running := some { cmd := c, handed := handed, final := none } } }

theorem exec_storeCommandAdvance {c : StoreCmd} {cs : List StoreCmd} {s : State} (hrun : s.link.running = none)
    (hwait : s.link.waiting = c :: cs) :
    exec .storeCommandAdvance s = .next (finish (handRunning (s.movedUp c cs false))) := by
  have hexec : exec .storeCommandAdvance s = .next (storeAdvance s) := rfl
  have hadvance : storeAdvance s = finish (moveUp c (s.modLink fun l => { l with waiting := cs })) := by
    simp only [storeAdvance, hrun, hwait]
  rw [hexec, hadvance]
  rfl

section HandRunning
variable {c : StoreCmd} {cs : List StoreCmd} {s : State}

theorem handRunning_cancelled (h : c.cancelled = true) :
    handRunning (s.movedUp c cs false) = endCommand .cancelled (unrunContent c .cancelled s) (s.movedUp c cs false) := by
  simp only [handRunning, State.movedUp, h, Bool.false_or, Option.isSome_none, Bool.false_eq_true, if_false, if_true]
  rfl

theorem handRunning_refused {code : Code} (h : c.cancelled = false)
    (hrefused : refusedBy c.kind s.power.st s.power.store = some code) :
    handRunning (s.movedUp c cs false) = endCommand code (unrunContent c code s) (s.movedUp c cs false) := by
  simp only [handRunning, State.movedUp, h, Bool.false_or, Option.isSome_none, Bool.false_eq_true, if_false, hrefused]
  rfl

theorem handRunning_waits (h : c.cancelled = false) (hrefused : refusedBy c.kind s.power.st s.power.store = none)
    (hpausing : s.pausing = true) : handRunning (s.movedUp c cs false) = s.movedUp c cs false := by
  have hpausing' : (s.movedUp c cs false).pausing = true := hpausing
  simp only [State.movedUp] at hpausing'
  simp only [handRunning, State.movedUp, h, Bool.false_or, Option.isSome_none, Bool.false_eq_true, if_false, hrefused,
    hpausing', if_true]

theorem handRunning_runs (h : c.cancelled = false) (hrefused : refusedBy c.kind s.power.st s.power.store = none)
    (hpausing : s.pausing = false) : handRunning (s.movedUp c cs false) = runOwner c (s.movedUp c cs true) := by
  have hpausing' : (s.movedUp c cs false).pausing = false := hpausing
  simp only [State.movedUp] at hpausing'
  simp only [handRunning, State.movedUp, h, Bool.false_or, Option.isSome_none, Bool.false_eq_true, if_false, hrefused,
    hpausing']
  rfl

end HandRunning

/-- What refuses a command is never OK. -/
theorem refusedBy_ne_ok (k : CmdKind) (p : PowerState) (st : StoreState) : refusedBy k p st ≠ some .ok := by
  cases k <;> cases p <;> cases st <;> decide

theorem arrayStopped_idle {s : State} (h : s.link.running = none) : s.arrayStopped = s.pausing := by
  simp [State.arrayStopped, State.pauseBuilt, h]

end Sys2Proof.Machine

namespace Sys2Proof
open Machine

/-- Settles O31: in CLOSED-OUT the command ends as it comes, in READY the closeout begins and closes the OPEN lines. -/
theorem closeoutBeginsAnOrderlyCloseout : Obligations.CloseoutBeginsAnOrderlyCloseout := by
  intro tag body s h hs
  have hstore : (s.atOwner .closeout tag body).power.store = s.power.store := heard_store_state s
  refine ⟨fun hout => ?_, fun hready => ?_⟩
  · have howner : runOwner (frameCmd .closeout tag body) (s.atOwner .closeout tag body) =
        endCommand .ok (le1 StoreState.closedOut.code) (s.atOwner .closeout tag body) := if_pos (hstore.trans hout)
    obtain ⟨t, ht, e⟩ := endsAtOnce_of_owner (c := .closeout tag body) rfl h hs nofun nofun howner
    exact ⟨t, ht, e.store, e.flash, e.staging, e.finished⟩
  · have hbegins : runOwner (frameCmd .closeout tag body) (s.atOwner .closeout tag body) =
        beginOrderly .command (s.atOwner .closeout tag body) := if_neg (by rw [hstore, hready]; nofun)
    obtain ⟨t, ht, hbegin⟩ := beginOrderly_closesLines (cause := .command) (atOwner_running .closeout tag body s) nofun
    have hstill : Still ((s.atOwner .closeout tag body).closingOut .command) :=
      have hk := atOwner_still tag body hs (k := .closeout) nofun
      still_congr hk rfl rfl rfl rfl (fun _ => rfl) rfl hk.notPausing hk.calm.symm
    have hexec := exec_runs (c := .closeout tag body) rfl h
    rw [hbegins, hbegin, finish_still _ (still_updateWait (ht.still hstill))] at hexec
    exact ⟨_, hexec, congrArg Power.store ht.power, congrArg Power.closeout ht.power, congrArg Power.lastCause ht.power,
      ht.openReq, ht.blocks.trans (congrArg _ (heard_flash s)), ht.settings.trans (heard_settings s),
      ht.gauge.trans (heard_gauge s), ht.running⟩

/-- Settles O32: PAUSE is judged as it starts, and either waits or ends. -/
theorem pauseWaitsForAQuietStore : Obligations.PauseWaitsForAQuietStore := by
  intro tag body s h hs
  let u := s.atOwner .pause tag body
  have hrun : u.isRunning .pause = true := rfl
  have hstill := heard_still hs
  have hstuck : u.pauseWaits.queueStuck = s.queueStuck :=
    queueStuck_congr (heard_staging s) (heard_flash s) (heard_store_state s) (heard_closeout s)
  have hview : u.pauseView = s.pauseView := pauseView_congr (heard_flash s)
  have hexec := exec_runs (c := .pause tag body) rfl h
  have howner : runOwner (frameCmd .pause tag body) u = endStuckPause u.pauseWaits := startPause_judges hrun
  rw [howner] at hexec
  refine ⟨fun hfree => ?_, fun hfull => ?_⟩
  · have hwaits : endStuckPause u.pauseWaits = u.pauseWaits := by
      simp only [endStuckPause, hstuck, hfree, Bool.false_eq_true, if_false]
    have hfinish : finish u.pauseWaits = updateWait u.pauseWaits :=
      finish_judged hstill.walk hstill.retrRead hstill.reads hstill.mount hstill.calm rfl
    rw [hwaits, hfinish, updateWait_of_running_pause (s := u.pauseWaits) hrun] at hexec
    refine ⟨_, hexec, ?_, intakeState_of_held (held_of_running_pause hrun), rfl, heard_store s, heard_flash s,
      heard_staging s, rfl⟩
    rw [← hview]
    rfl
  · have hroom : (forgetCommand u.pauseWaits).link.fifo.length < 32 :=
      have ⟨_, _, _, _, _, _, hroom⟩ := h
      hroom
    obtain ⟨w, hw⟩ := endCommand_ended (code := .storeFull) (content := []) (s := forgetCommand u.pauseWaits)
      (atOwner_running .pause tag body s) hroom nofun nofun
    have hends : endStuckPause u.pauseWaits = updateWait (endCommand .storeFull [] (forgetCommand u.pauseWaits)) := by
      simp only [endStuckPause, hstuck, hfull, if_true]
      rfl
    have hended : Still ((forgetCommand u.pauseWaits).commandEnded (frameCmd .pause tag body) .storeFull [] w) :=
      commandEnded_still hstill rfl rfl rfl rfl (fun _ => rfl) rfl rfl
    rw [hends, hw, finish_still _ (still_updateWait hended)] at hexec
    have hlines : s.heard.store.lines = s.store.lines := congrArg LineStore.lines (heard_store s)
    refine ⟨_, hexec, ?_, rfl, hlines, heard_flash s, heard_staging s, heard_settings s⟩
    have hawake : (forgetCommand u.pauseWaits).paused = false := heard_paused s
    simp only [updateWait_link, State.commandEnded, hawake]
    rfl

/-- Settles O33: the command moved up is tested again and then handed to its owner. -/
theorem storeCommandAdvanceRunsTheOldestWaiting : Obligations.StoreCommandAdvanceRunsTheOldestWaiting := by
  intro c cs s hrun hwait hs hroom final ended
  have hexec := exec_storeCommandAdvance hrun hwait
  have hends : ∀ code, s.retr.ctx = none → code ≠ .ok → handRunning (s.movedUp c cs false) =
      endCommand code (unrunContent c code s) (s.movedUp c cs false) → ended code := by
    intro code hctx hok hhand
    obtain ⟨w, hw⟩ := endCommand_ended (r := { cmd := c, handed := false, final := none }) (code := code)
      (content := unrunContent c code s) (s := s.movedUp c cs false) rfl hroom (fun _ => hctx) (fun _ => hok)
    have hended : Still ((s.movedUp c cs false).commandEnded c code (unrunContent c code s) w) :=
      commandEnded_still hs rfl rfl rfl rfl (fun _ => rfl) rfl rfl
    rw [hhand, hw, finish_still _ hended] at hexec
    exact ⟨_, hexec, rfl, rfl, rfl, rfl, rfl, rfl⟩
  refine ⟨fun hcancel hctx => hends _ hctx nofun (handRunning_cancelled hcancel), fun code hcancel hrefused hctx => ?_,
    fun hcancel hrefused => ?_⟩
  · refine hends code hctx (fun hok => ?_) (handRunning_refused hcancel hrefused)
    exact refusedBy_ne_ok _ _ _ (hok ▸ hrefused)
  have hstopped := arrayStopped_idle hrun
  refine ⟨fun hstop _ => ?_, fun hgo => ?_, fun hgo hkind => ?_⟩
  · have hmoved : Still (s.movedUp c cs false) := still_congr hs rfl rfl rfl rfl (fun _ => rfl) rfl rfl rfl
    rw [handRunning_waits hcancel hrefused (hstopped.symm.trans hstop), finish_still _ hmoved] at hexec
    exact hexec
  · rw [handRunning_runs hcancel hrefused (hstopped.symm.trans hgo)] at hexec
    exact hexec
  · have howner : runOwner c (s.movedUp c cs true) = endCommand .ok []
        ((s.movedUp c cs true).modSettings fun p => { p with permit := parsePermit c.body 0 }) := by
      simp only [runOwner, hkind]
      rfl
    obtain ⟨w, hw⟩ := endCommand_ended (r := { cmd := c, handed := true, final := none }) (code := .ok) (content := [])
      (s := (s.movedUp c cs true).modSettings fun p => { p with permit := parsePermit c.body 0 }) rfl hroom
      (fun hk => by rw [hkind] at hk; cases hk) (fun hk => by rw [hkind] at hk; cases hk)
    have hended : Still (((s.movedUp c cs true).modSettings fun p =>
        { p with permit := parsePermit c.body 0 }).commandEnded c .ok [] w) :=
      commandEnded_still hs rfl rfl rfl rfl (fun _ => rfl) rfl rfl
    rw [handRunning_runs hcancel hrefused (hstopped.symm.trans hgo), howner, hw, finish_still _ hended] at hexec
    exact ⟨_, hexec, rfl, rfl, rfl, rfl, rfl⟩

end Sys2Proof
end

section
/-!
PROOFS. LINE-ERASE: the lines of the range leave the table, and what the checkpoint that is requested flushes.
-/
namespace Sys2Proof.Machine

/-! ## Flushes and closes move OPEN and CLOSING lines alone (R102 to R107) -/

/-- What any run of flushes and closes leaves: every line in its place, and one that is neither OPEN nor CLOSING as it was. -/
structure FlushesLines (s t : State) : Prop extends ClosesLines s t where
  nums : t.store.lines.map Line.num = s.store.lines.map Line.num
  rest : ∀ m l, s.line m = some l → l.indexing = false → t.line m = some l
  erase : t.store.erase = s.store.erase

theorem FlushesLines.refl (s : State) : FlushesLines s s := ⟨.refl s, rfl, fun _ _ h _ => h, rfl⟩

theorem FlushesLines.trans {s t u : State} (h : FlushesLines s t) (k : FlushesLines t u) : FlushesLines s u where
  toClosesLines := h.toClosesLines.trans k.toClosesLines
  nums := k.nums.trans h.nums
  rest m l hl hidx := k.rest m l (h.rest m l hl hidx) hidx
  erase := k.erase.trans h.erase

theorem closesLines_of_unstaged {s t : State} (h : t.unstaged = s.unstaged) : ClosesLines s t where
  openReq := openReq_of_unstaged h
  running := congrArg LinkUnit.running (link_of_unstaged h)
  power := power_of_unstaged h
  retr := retr_of_unstaged h
  walk := walk_of_unstaged h
  reads := reads_of_unstaged h
  refresh := refresh_of_unstaged h
  blocks := by
    have e := congrArg (fun u : State => u.flash.blocks) h
    exact e
  dies := dieReady_of_unstaged h
  settings := settings_of_unstaged h
  gauge := gauge_of_unstaged h

theorem nums_of_unstaged {s t : State} (h : t.unstaged = s.unstaged) :
    t.store.lines.map Line.num = s.store.lines.map Line.num := by
  have hbare : ∀ ls : List Line, (ls.map Line.bare).map Line.num = ls.map Line.num := fun ls => List.map_map ..
  have e := congrArg (fun u : State => u.store.lines.map Line.num) h
  exact (hbare _).symm.trans (e.trans (hbare _))

theorem erase_of_unstaged {s t : State} (h : t.unstaged = s.unstaged) : t.store.erase = s.store.erase := by
  have e := congrArg (fun u : State => u.store.erase) h
  exact e

/-- An operation on staging and the images of line `n` alone, which is OPEN or CLOSING, is one of flushes and closes. -/
theorem flushesLines_of_unstaged {n : Nat} {s t : State} (h : t.unstaged = s.unstaged)
    (hn : ∀ l, s.line n = some l → l.indexing = true) (hrest : ∀ m, m ≠ n → t.line m = s.line m) : FlushesLines s t where
  toClosesLines := closesLines_of_unstaged h
  nums := nums_of_unstaged h
  rest m l hl hidx := by
    have hm : m ≠ n := by
      rintro rfl
      rw [hn l hl] at hidx
      cases hidx
    rw [hrest m hm, hl]
  erase := erase_of_unstaged h

/-- A line found by its number is another's where that other is changed under its own. -/
theorem find_mapIf_ne {n m : Nat} (hm : m ≠ n) (f : Line → Line) (hf : ∀ l, (f l).num = l.num) (ls : List Line) :
    (mapIf (fun l => l.num == n) f ls).find? (fun l => l.num == m) = ls.find? fun l => l.num == m := by
  rw [find_mapIf_same n m f hf]
  cases h : ls.find? fun l => l.num == m with
  | none => rfl
  | some l =>
    have hl : l.num = m := by simpa using List.find?_some h
    simp [hl, hm]

theorem line_modLine_ne {n m : Nat} (hm : m ≠ n) (f : Line → Line) (hf : ∀ l, (f l).num = l.num) (s : State) :
    (s.modLine n f).line m = s.line m := find_mapIf_ne hm f hf s.store.lines

theorem settingsDue_store (s : State) : (settingsDue s).store = s.store := by
  obtain ⟨fl, h⟩ := settingsDue_frame s
  rw [h]

theorem giveBuffer_store (b : Nat) (im : Image) (t : LineStore) (s : State) : (giveBuffer b im t s).store = t := by
  unfold giveBuffer putImage
  dsimp only
  split
  · exact settingsDue_store _
  · rfl

/-- A request but one of a checkpoint or of a SETTINGS image leaves the line store, or builds its image. -/
theorem requestImage_store {q : ImageReq} {s : State} (hc : q.isCheckpoint = false) (hs : q.isSettings = false) :
    (requestImage q s).store = s.store ∨ ∃ im, buildRequest q s = some (im, (requestImage q s).store) := by
  have hnext : ∀ u, nextRequest q u = none := by
    intro u
    cases q <;> first | rfl | cases hc
  unfold requestImage addRequest
  split
  · rw [if_neg (by rw [writable_of_notSettings s hs]; nofun)]
    cases hb : buildRequest q s with
    | none => exact .inl rfl
    | some x =>
      refine .inr ⟨x.1, ?_⟩
      simp only [hnext, giveBuffer_store]
  · exact .inl rfl

/-- A flush or a ROOT image of the close of line `n` that is built notes it of that line alone. -/
theorem line_of_build {q : ImageReq} {n : Nat} {im : Image} {t : LineStore} {s : State} (hq : q = .flush n ∨ q = .closeRoot n)
    (h : buildRequest q s = some (im, t)) {m : Nat} (hm : m ≠ n) : (t.lines.find? fun l => l.num == m) = s.line m := by
  rcases hq with rfl | rfl
  · simp only [buildRequest, buildFlush] at h
    split at h
    · cases h
    · split at h
      · cases h
      · cases h
        exact find_mapIf_ne hm _ (by intro; rfl) _
  · simp only [buildRequest, buildCloseRoot] at h
    split at h
    · cases h
    · split at h
      · cases h
        exact find_mapIf_ne hm _ (by intro; rfl) _
      · cases h

theorem requestImage_line {q : ImageReq} {n : Nat} {s : State} (hq : q = .flush n ∨ q = .closeRoot n) {m : Nat} (hm : m ≠ n) :
    (requestImage q s).line m = s.line m := by
  have hplain : q.isCheckpoint = false ∧ q.isSettings = false := by rcases hq with rfl | rfl <;> exact ⟨rfl, rfl⟩
  rcases requestImage_store (s := s) hplain.1 hplain.2 with h | ⟨im, h⟩
  · rw [State.line, h, State.line]
  · exact line_of_build hq h hm

theorem requestFlush_line {n m : Nat} (hm : m ≠ n) (pressure : Bool) (s : State) :
    (requestFlush n pressure s).line m = s.line m := by
  unfold requestFlush
  split
  · rfl
  · dsimp only
    split
    · rfl
    · exact (requestImage_line (.inl rfl) hm).trans (line_modLine_ne hm _ (by intro; rfl) s)

theorem closeAdvance_line {n m : Nat} (hm : m ≠ n) (s : State) : (closeAdvance n s).line m = s.line m := by
  unfold closeAdvance
  split
  · rfl
  · split
    · rfl
    · split
      · exact requestFlush_line hm false s
      · split
        · rfl
        · exact (requestImage_line (.inr rfl) hm).trans (line_modLine_ne hm _ (by intro; rfl) s)

theorem requestFlush_flushes {n : Nat} {s : State} (pressure : Bool) (hn : ∀ l, s.line n = some l → l.indexing = true) :
    FlushesLines s (requestFlush n pressure s) :=
  flushesLines_of_unstaged (unstaged_requestFlush n pressure s) hn fun _ hm => requestFlush_line hm pressure s

theorem closeAdvance_flushes {n : Nat} {s : State} (hn : ∀ l, s.line n = some l → l.indexing = true) :
    FlushesLines s (closeAdvance n s) :=
  flushesLines_of_unstaged (unstaged_closeAdvance n s) hn fun _ hm => closeAdvance_line hm s

theorem queueSlot_line (i m : Nat) (s : State) : (queueSlot i s).line m = s.line m := by
  unfold queueSlot
  split <;> rfl

theorem raiseNotice_flushes (k : NoticeKind) (d : List Byte) (s : State) : FlushesLines s (raiseNotice k d s) where
  toClosesLines := { ClosesLines.refl s with running := (raiseNotice_noticed k d s).running }
  nums := rfl
  rest _ _ h _ := h
  erase := rfl

theorem setSlot_flushes (i : Nat) (x : Option Slot) (s : State) : FlushesLines s (s.setSlot i x) where
  toClosesLines := ⟨rfl, rfl, rfl, rfl, rfl, rfl, rfl, rfl, fun _ => rfl, rfl, rfl⟩
  nums := rfl
  rest _ _ h _ := h
  erase := rfl

theorem queueSlot_flushes (i : Nat) (s : State) : FlushesLines s (queueSlot i s) where
  toClosesLines := closesLines_of_unstaged (unstaged_queueSlot i s)
  nums := nums_of_unstaged (unstaged_queueSlot i s)
  rest m _ h _ := (queueSlot_line i m s).trans h
  erase := erase_of_unstaged (unstaged_queueSlot i s)

/-- A change of an OPEN or CLOSING line that keeps its number is among the flushes and closes. -/
theorem modLine_flushes {n : Nat} {f : Line → Line} {s : State} (hf : ∀ l, (f l).num = l.num)
    (hn : ∀ l, s.line n = some l → l.indexing = true) : FlushesLines s (s.modLine n f) where
  toClosesLines := ⟨rfl, rfl, rfl, rfl, rfl, rfl, rfl, rfl, fun _ => rfl, rfl, rfl⟩
  nums := map_mapIf_same _ _ _ hf _
  rest m l hl hidx := by
    have hm : m ≠ n := by
      rintro rfl
      rw [hn l hl] at hidx
      cases hidx
    rw [line_modLine_ne hm f hf, hl]
  erase := rfl

/-- The line as a close request moves it to CLOSING (R106). -/
def Line.toClosing (r : CloseReason) (cut : Bool) (l : Line) : Line :=
  { l with st := .closing, flags := { l.flags with limit := l.flags.limit || r == .limit, cut := l.flags.cut || cut } }

theorem requestClose_flushes (n : Nat) (r : CloseReason) (cut : Bool) (s : State) :
    FlushesLines s (requestClose n r cut s) := by
  cases hl : s.line n with
  | none => simpa only [requestClose, hl] using FlushesLines.refl s
  | some l =>
    by_cases hst : l.st = .opened
    · have hfree : ∃ u, FlushesLines s u ∧ u.line n = some l ∧ requestClose n r cut s =
          closeAdvance n (raiseLineClosed n r (u.modLine n (Line.toClosing r cut))) := by
        simp only [requestClose, hl, hst, ne_eq, not_true_eq_false, if_false]
        split
        · next i _ =>
          exact ⟨_, (queueSlot_flushes i s).trans (setSlot_flushes i none _), (queueSlot_line i n s).trans hl, rfl⟩
        · exact ⟨s, .refl s, hl, rfl⟩
      obtain ⟨u, hu, hline, hclose⟩ := hfree
      rw [hclose]
      refine ((hu.trans (modLine_flushes (by intro; rfl) fun m hm => ?_)).trans
        (raiseNotice_flushes _ _ _)).trans (closeAdvance_flushes fun m hm => ?_)
      · rw [hline] at hm
        cases hm
        simp [Line.indexing, hst]
      · have hm : (u.modLine n (Line.toClosing r cut)).line n = some m := hm
        rw [line_modLine n n _ (by intro; rfl), hline] at hm
        simp only [line_num hline, Option.map_some, beq_self_eq_true, if_true, Option.some.injEq] at hm
        rw [← hm]
        rfl
    · simpa only [requestClose_not_opened hl hst] using FlushesLines.refl s

theorem rootCut_flushes (s : State) : FlushesLines s (rootCut s) := by
  unfold rootCut
  split
  · exact requestClose_flushes _ _ _ s
  · exact .refl s

theorem flushLine_flushes (n : Nat) (pressure : Bool) (s : State) : FlushesLines s (flushLine n pressure s) := by
  unfold flushLine
  split
  · exact .refl s
  · next l hl =>
    split
    · exact .refl s
    · next hcan =>
      split
      · exact requestClose_flushes n _ _ s
      · split
        · exact rootCut_flushes s
        · refine requestFlush_flushes pressure fun m hm => ?_
          rw [hl] at hm
          cases hm
          simp only [State.canFlush, Bool.not_eq_true, Bool.not_eq_false', Bool.and_eq_true] at hcan
          exact hcan.1.1.1

theorem modStore_flushes {f : LineStore → LineStore} {s : State} (hlines : ∀ t, (f t).lines = t.lines)
    (hwalk : ∀ t, (f t).walk = t.walk) (herase : ∀ t, (f t).erase = t.erase) : FlushesLines s (s.modStore f) where
  toClosesLines := ⟨rfl, rfl, rfl, rfl, hwalk _, rfl, rfl, rfl, fun _ => rfl, rfl, rfl⟩
  nums := congrArg _ (hlines _)
  rest m l hl _ := by
    rw [← hl, State.line, State.line, modStore_store, hlines]
  erase := herase _

theorem flushStep_flushes (acc : List Nat × List Nat × State) (n : Nat) : FlushesLines acc.2.2 (flushStep acc n).2.2 := by
  obtain ⟨todo, wait, s⟩ := acc
  simp only [flushStep]
  split
  · exact .refl s
  · split
    · exact .refl s
    · split
      · exact .refl s
      · split <;> exact flushLine_flushes n false s

theorem flushSteps_flushes (ns : List Nat) (acc : List Nat × List Nat × State) :
    FlushesLines acc.2.2 (ns.foldl flushStep acc).2.2 := by
  induction ns generalizing acc with
  | nil => exact .refl _
  | cons n ns ih => exact (flushStep_flushes acc n).trans (ih _)

theorem runFlushes_flushes (ns wait : List Nat) (s : State) : FlushesLines s (runFlushes ns wait s) :=
  let acc := ns.foldl flushStep ([], wait, s)
  (flushSteps_flushes ns ([], wait, s)).trans (modStore_flushes
    (f := fun t => { t with ckpt := some (.flushing acc.1 acc.2.1) }) (fun _ => rfl) (fun _ => rfl) fun _ => rfl)

/-- A checkpoint that is requested flushes lines, and moves its own marks. -/
theorem requestCheckpoint_flushes (w : Option Waiter) (s : State) : FlushesLines s (requestCheckpoint w s) := by
  have hwaiter : FlushesLines s (addWaiter w s) := by
    cases w with
    | none => exact .refl s
    | some w =>
      exact modStore_flushes (f := fun t => { t with waiters := t.waiters ++ [(w, t.ckptSeq + 1)] }) (fun _ => rfl)
        (fun _ => rfl) fun _ => rfl
  refine hwaiter.trans ?_
  unfold requestCheckpoint
  dsimp only
  split
  · exact (modStore_flushes (by intro; rfl) (by intro; rfl) (by intro; rfl)).trans (runFlushes_flushes _ _ _)
  · exact .refl _
  · exact modStore_flushes (by intro; rfl) (by intro; rfl) (by intro; rfl)

end Sys2Proof.Machine
end

section
/-!
PROOFS. LINE-ERASE, continued: the references of the removed lines are dropped.
-/
namespace Sys2Proof.Machine

/-! ## References that fall (R71, R87, R89) -/

/-- What references that fall leave: the line store but for a walk that stops, and all that follow-up work is judged by. -/
structure DropsRefs (s t : State) : Prop where
  store : { t.store with walk := none } = { s.store with walk := none }
  phase : t.store.walk.map Walk.phase = s.store.walk.map Walk.phase
  refresh : s.flash.refresh = [] → t.flash.refresh = []
  reads : t.flash.reads = s.flash.reads
  dies : t.flash.dies = s.flash.dies
  running : t.link.running = s.link.running
  retr : t.retr = s.retr
  power : t.power = s.power
  settings : t.settings = s.settings
  gauge : t.gauge = s.gauge

theorem DropsRefs.refl (s : State) : DropsRefs s s := ⟨rfl, rfl, id, rfl, rfl, rfl, rfl, rfl, rfl, rfl⟩

theorem DropsRefs.trans {s t u : State} (h : DropsRefs s t) (k : DropsRefs t u) : DropsRefs s u where
  store := k.store.trans h.store
  phase := k.phase.trans h.phase
  refresh e := k.refresh (h.refresh e)
  reads := k.reads.trans h.reads
  dies := k.dies.trans h.dies
  running := k.running.trans h.running
  retr := k.retr.trans h.retr
  power := k.power.trans h.power
  settings := k.settings.trans h.settings
  gauge := k.gauge.trans h.gauge

theorem DropsRefs.lines {s t : State} (h : DropsRefs s t) : t.store.lines = s.store.lines := by
  have e := congrArg LineStore.lines h.store
  exact e

theorem DropsRefs.erase {s t : State} (h : DropsRefs s t) : t.store.erase = s.store.erase := by
  have e := congrArg LineStore.erase h.store
  exact e

theorem modBlock_drops (b : Blk) (f : BlockRec → BlockRec) (s : State) : DropsRefs s (s.modBlock b f) :=
  ⟨rfl, rfl, id, rfl, rfl, rfl, rfl, rfl, rfl, rfl⟩

theorem raiseNotice_drops (k : NoticeKind) (d : List Byte) (s : State) : DropsRefs s (raiseNotice k d s) :=
  ⟨rfl, rfl, id, rfl, rfl, (raiseNotice_noticed k d s).running, rfl, rfl, rfl, rfl⟩

theorem raiseSpace_drops (c low : Bool) (s : State) : DropsRefs s (if c then raiseSpace low s else s) := by
  split
  · exact raiseNotice_drops _ _ s
  · exact .refl s

theorem judgeSpace_drops (s : State) : DropsRefs s (judgeSpace s) := by
  unfold judgeSpace
  dsimp only
  split
  · exact .refl s
  · exact ((raiseSpace_drops _ _ s).trans (raiseSpace_drops _ _ _)).trans ⟨rfl, rfl, id, rfl, rfl, rfl, rfl, rfl, rfl, rfl⟩

theorem joinFree_drops (b : Blk) (s : State) : DropsRefs s (joinFree b s) :=
  let u := (s.modBlock b fun r => { r with st := .free, seq := (s.flash.freeCtr + 1) % Config.clockModulus }).modFlash
    fun fl => { fl with freeList := fl.freeList ++ [b], freeCtr := (s.flash.freeCtr + 1) % Config.clockModulus }
  DropsRefs.trans (t := u) ⟨rfl, rfl, id, rfl, rfl, rfl, rfl, rfl, rfl, rfl⟩ (judgeSpace_drops u)

theorem leaveRefresh_drops (b : Blk) (s : State) : DropsRefs s (leaveRefresh b s) where
  store := rfl
  phase := by
    simp only [leaveRefresh, State.setRefresh, modStore_store, modFlash_store, Option.map_map]
    rfl
  refresh h := by
    have herase : (leaveRefresh b s).flash.refresh = s.flash.refresh.erase b := rfl
    rw [herase, h]
    rfl
  reads := rfl
  dies := rfl
  running := rfl
  retr := rfl
  power := rfl
  settings := rfl
  gauge := rfl

theorem reclaim_drops (b : Blk) (s : State) : DropsRefs s (reclaim b s) := by
  refine (leaveRefresh_drops b s).trans ?_
  unfold reclaim
  dsimp only
  split
  · exact ⟨rfl, rfl, id, rfl, rfl, rfl, rfl, rfl, rfl, rfl⟩
  · exact joinFree_drops b _

theorem refDown_drops (a : Addr) (s : State) : DropsRefs s (refDown a s) := by
  unfold refDown
  split
  · exact .refl s
  · split
    · exact .refl s
    · refine (modBlock_drops a.blk (fun r => { r with live := r.live - 1 }) s).trans ?_
      dsimp only
      split
      · split
        · exact reclaim_drops _ _
        · exact leaveRefresh_drops _ _
      · exact .refl _

theorem refDownAll_drops (as : List Addr) (s : State) : DropsRefs s (refDownAll as s) := by
  induction as generalizing s with
  | nil => exact .refl s
  | cons a as ih => exact (refDown_drops a s).trans (ih _)

/-- References that fall bring about no follow-up work where no walk waits to read its page again. -/
theorem DropsRefs.still {s t : State} (h : DropsRefs s t) (hs : Still s)
    (hwalk : ∀ w, s.store.walk = some w → w.phase ≠ .retry) : Still t := by
  have hready : ∀ d, t.dieReady d = s.dieReady d := fun d => by rw [State.dieReady, State.die, h.dies, State.dieReady, State.die]
  refine ⟨?_, fun q hq => ?_, fun q hq => ?_, (congrArg _ h.power).trans hs.mount,
    (isRunning_congr _ h.running).trans hs.notPausing, ?_⟩
  · have hphase := h.phase
    have hstill := hs.walk
    unfold WalkStill at hstill ⊢
    cases hw : s.store.walk with
    | none =>
      rw [hw] at hphase hstill
      rw [Option.map_eq_none_iff.mp hphase]
      exact h.refresh hstill
    | some w =>
      rw [hw] at hphase
      obtain ⟨v, hv, hvw⟩ := Option.map_eq_some_iff.mp hphase
      rw [hv]
      exact .inl (hvw ▸ hwalk w hw)
  · rw [hready]
    rw [h.retr] at hq
    exact hs.retrRead q hq
  · rw [hready]
    rw [h.reads] at hq
    exact hs.reads q hq
  · rw [State.emergency, h.power]
    exact hs.calm

/-! ## The job of an erase (R111) -/

def State.setErase (j : EraseJob) (s : State) : State := s.modStore fun t => { t with erase := some j }

theorem DropsRefs.setErase {s t : State} (h : DropsRefs s t) (j : EraseJob) : DropsRefs (s.setErase j) (t.setErase j) where
  store := congrArg (fun u : LineStore => { u with erase := some j }) h.store
  phase := h.phase
  refresh := h.refresh
  reads := h.reads
  dies := h.dies
  running := h.running
  retr := h.retr
  power := h.power
  settings := h.settings
  gauge := h.gauge

/-- A job of which no root is read drops the lines that have none, and then reads a root, or requests the checkpoint. -/
theorem eraseAdvance_drops (fuel : Nat) : ∀ {s : State} {j : EraseJob}, s.store.erase = some j → j.refs = none →
    j.lines.length < fuel → ∃ i u, i.count = j.count ∧ DropsRefs (s.setErase i) u ∧
      ((∃ l ∈ j.lines, ∃ r, l.root = some r ∧ eraseAdvance fuel s = requestRead r.addr .eraseRoot u) ∨
        (∀ l ∈ j.lines, l.root = none) ∧ eraseAdvance fuel s = requestCheckpoint (some .command) u) := by
  induction fuel with
  | zero => nofun
  | succ fuel ih =>
    intro s j hjob hrefs hfuel
    have hsame : s.setErase j = s := by
      simp only [State.setErase, State.modStore, ← hjob]
    cases hlines : j.lines with
    | nil =>
      refine ⟨j, s, rfl, hsame.symm ▸ .refl s, .inr ⟨nofun, ?_⟩⟩
      simp only [eraseAdvance, hjob, hlines]
    | cons l ls =>
      cases hroot : l.root with
      | some r =>
        refine ⟨j, s, rfl, hsame.symm ▸ .refl s, .inl ⟨l, by simp, r, hroot, ?_⟩⟩
        simp only [eraseAdvance, hjob, hlines, hrefs, hroot]
      | none =>
        have hdrop := refDownAll_drops l.extra (s.setErase { j with lines := ls })
        obtain ⟨i, u, hcount, hu, hend⟩ := ih (j := { j with lines := ls }) hdrop.erase hrefs (by
          rw [hlines, List.length_cons] at hfuel
          exact Nat.lt_of_succ_lt_succ hfuel)
        have hstep : eraseAdvance (fuel + 1) s = eraseAdvance fuel (refDownAll l.extra (s.setErase { j with lines := ls })) := by
          simp only [eraseAdvance, hjob, hlines, hrefs, hroot]
          rfl
        refine ⟨i, u, hcount, (hdrop.setErase i).trans hu, ?_⟩
        rw [hstep]
        refine hend.imp (fun ⟨m, hm, r, hr, e⟩ => ⟨m, List.mem_cons_of_mem _ hm, r, hr, e⟩) (fun ⟨hnone, e⟩ => ⟨?_, e⟩)
        simpa only [List.forall_mem_cons] using ⟨hroot, hnone⟩

/-! ## The lines of the range leave the table (R111, R133) -/

/-- Reads of a retrieval that were asked for are asked for still: an invalidation marks them. -/
theorem invalidated_reads (n : Nat) (k : Option Nat) (c : RetrCtx) (q : RetrRead) (h : (c.invalidated n k).read = some q) :
    ∃ p, c.read = some p ∧ p.addr = q.addr := by
  unfold RetrCtx.invalidated at h
  split at h
  · obtain ⟨p, hp, hq⟩ := Option.map_eq_some_iff.mp h
    refine ⟨p, hp, ?_⟩
    rw [← hq]
    split <;> rfl
  · exact ⟨q, h, rfl⟩

/-- From `r` to `t` the retrieval asks for no other read. -/
def Retrieval.ReadsOf (r t : Retrieval) : Prop :=
  ∀ q, t.ctx.bind RetrCtx.read = some q → ∃ p, r.ctx.bind RetrCtx.read = some p ∧ p.addr = q.addr

theorem invalidateLine_reads (n : Nat) (s : State) :
    ∃ r, invalidateLine n s = { s with retr := r } ∧ s.retr.ReadsOf r := by
  refine ⟨_, rfl, fun q hq => ?_⟩
  dsimp only at hq
  cases hc : s.retr.ctx with
  | none =>
    rw [hc] at hq
    cases hq
  | some c =>
    rw [hc] at hq
    exact invalidated_reads n none c q hq

theorem invalidateLines_reads (ls : List Line) (s : State) :
    ∃ r, ls.foldl (fun s l => invalidateLine l.num s) s = { s with retr := r } ∧ s.retr.ReadsOf r := by
  induction ls generalizing s with
  | nil => exact ⟨s.retr, rfl, fun q hq => ⟨q, hq, rfl⟩⟩
  | cons l ls ih =>
    obtain ⟨r, hr, hreads⟩ := invalidateLine_reads l.num s
    obtain ⟨v, hv, hreads'⟩ := ih (invalidateLine l.num s)
    rw [hr] at hv hreads'
    refine ⟨v, (congrArg (fun u => List.foldl _ u ls) hr).trans hv, fun q hq => ?_⟩
    obtain ⟨p, hp, hpq⟩ := hreads' q hq
    obtain ⟨p', hp', hpp⟩ := hreads p hp
    exact ⟨p', hp', hpp.trans hpq⟩

/-- The lines of a range, and the others. -/
def State.inRange (lo hi : Nat) (s : State) : List Line := s.store.lines.filter fun l => Machine.inRange lo hi l.num
def State.outRange (lo hi : Nat) (s : State) : List Line := s.store.lines.filter fun l => !Machine.inRange lo hi l.num

/-- The removal leaves what follow-up work is judged by, and the job of the lines removed. -/
structure RemovesLines (lo hi : Nat) (s t : State) : Prop where
  lines : t.store.lines = s.outRange lo hi
  job : t.store.erase = some
    { lo := lo, hi := hi, count := (s.inRange lo hi).length, refs := none, lines := (s.inRange lo hi).map s.erasedLine }
  walk : t.store.walk = s.store.walk
  flash : t.flash = s.flash
  link : t.link = s.link
  power : t.power = s.power
  settings : t.settings = s.settings
  gauge : t.gauge = s.gauge
  reads : s.retr.ReadsOf t.retr

theorem removeLines_removes (lo hi : Nat) (s : State) : RemovesLines lo hi s (removeLines lo hi s) := by
  unfold removeLines
  dsimp only
  obtain ⟨r, hr, hreads⟩ := invalidateLines_reads (s.store.lines.filter fun l => Machine.inRange lo hi l.num) _
  rw [hr]
  exact ⟨rfl, rfl, rfl, rfl, rfl, rfl, rfl, rfl, hreads⟩

theorem RemovesLines.still {lo hi : Nat} {s t : State} (h : RemovesLines lo hi s t) (hs : Still s) : Still t := by
  refine still_retrieval hs (fun q hq => ?_) h.walk h.flash (congrArg _ h.power)
    ((isRunning_congr _ (congrArg _ h.link)).trans hs.notPausing) (by rw [State.emergency, h.power, State.emergency])
  obtain ⟨p, hp, hpq⟩ := h.reads q hq
  rw [← hpq]
  exact hs.retrRead p hp

/-- With no line OPEN or CLOSING a checkpoint that is requested leaves every line. -/
theorem requestCheckpoint_lines {w : Option Waiter} {s : State} (h : ∀ l ∈ s.store.lines, l.indexing = false) :
    (requestCheckpoint w s).store.lines = s.store.lines := by
  have hwaiter : (addWaiter w s).store.lines = s.store.lines ∧ (addWaiter w s).store.ckpt = s.store.ckpt := by
    cases w <;> exact ⟨rfl, rfl⟩
  cases hc : s.store.ckpt with
  | none =>
    rw [requestCheckpoint_unflushed hc h]
    exact hwaiter.1
  | some c =>
    cases c <;> simp only [requestCheckpoint, hwaiter.2, hc, modStore_store, hwaiter.1]

theorem lineErase_locked {lo hi : Nat} {s : State} (h : ∃ l ∈ s.inRange lo hi, l.st = .locked) :
    lineErase lo hi s = endCommand .lineLocked (le2 0) s := by
  obtain ⟨l, hl, hst⟩ := h
  exact if_pos (List.any_eq_true.mpr ⟨l, hl, by simp [hst]⟩)

theorem lineErase_open {lo hi : Nat} {s : State} (h : ∀ l ∈ s.inRange lo hi, l.st ≠ .locked)
    (ho : ∃ l ∈ s.inRange lo hi, l.indexing = true) : lineErase lo hi s = endCommand .lineOpen (le2 0) s := by
  obtain ⟨l, hl, hidx⟩ := ho
  have hnone : ((s.inRange lo hi).any fun l => l.st == .locked) = false := by simpa using h
  exact (if_neg (by rw [State.inRange] at hnone; rw [hnone]; nofun)).trans (if_pos (List.any_eq_true.mpr ⟨l, hl, hidx⟩))

theorem lineErase_removes {lo hi : Nat} {s : State} (h : ∀ l ∈ s.inRange lo hi, l.st ≠ .locked ∧ l.indexing = false) :
    lineErase lo hi s = runErase (removeLines lo hi s) := by
  have hlocked : ((s.inRange lo hi).any fun l => l.st == .locked) = false := by simpa using fun l hl => (h l hl).1
  have hopen : (s.inRange lo hi).any Line.indexing = false := by simpa using fun l hl => (h l hl).2
  rw [State.inRange] at hlocked hopen
  simp only [lineErase, hlocked, hopen, Bool.false_eq_true, if_false]

/-- What LINE-ERASE leaves of a state whose lines of the range are neither LOCKED, OPEN nor CLOSING. -/
structure ErasesRange (lo hi : Nat) (s t : State) : Prop where
  still : Still t
  nums : t.store.lines.map Line.num = (s.outRange lo hi).map Line.num
  same : (∃ l ∈ s.inRange lo hi, l.root.isSome = true) ∨ (∀ l ∈ s.store.lines, l.indexing = false) →
    t.store.lines = s.outRange lo hi
  rest : ∀ m l, ((s.outRange lo hi).find? fun l => l.num == m) = some l → l.indexing = false → t.line m = some l
  count : t.store.erase.map EraseJob.count = some (s.inRange lo hi).length
  running : t.link.running = s.link.running
  settings : t.settings = s.settings
  gauge : t.gauge = s.gauge

theorem runErase_erases {lo hi : Nat} {s v : State} (hv : RemovesLines lo hi s v) (hs : Still s)
    (hroots : ∀ l ∈ s.inRange lo hi, ∀ r, l.root = some r → s.dieReady r.addr.die = true)
    (hwalk : ∀ w, s.store.walk = some w → w.phase ≠ .retry) : ErasesRange lo hi s (runErase v) := by
  obtain ⟨i, u, hcount, hu, hend⟩ := eraseAdvance_drops ((s.inRange lo hi).length + 2) hv.job rfl
    (by rw [List.length_map]; omega)
  have hrun : runErase v = eraseAdvance ((s.inRange lo hi).length + 2) v := by
    simp only [runErase, hv.job, List.length_map, Option.getD_none, List.length_nil, Nat.add_zero]
  have hstill : Still u := hu.still (still_congr (t := v.setErase i) (hv.still hs) rfl rfl rfl rfl (fun _ => rfl) rfl
    (hv.still hs).notPausing rfl) fun w hw => hwalk w (hv.walk.symm.trans hw)
  have hlines : u.store.lines = s.outRange lo hi := hu.lines.trans hv.lines
  have hjob : u.store.erase.map EraseJob.count = some (s.inRange lo hi).length := by
    rw [hu.erase]
    exact congrArg some hcount
  have hrunning : u.link.running = s.link.running := hu.running.trans (congrArg _ hv.link)
  have hsettings := hu.settings.trans hv.settings
  have hgauge := hu.gauge.trans hv.gauge
  rw [hrun]
  rcases hend with ⟨m, hm, r, hr, hread⟩ | ⟨hnone, hckpt⟩
  · rw [hread]
    refine ⟨?_, congrArg _ hlines, fun _ => hlines, fun m l hl _ => ?_, hjob, hrunning, hsettings, hgauge⟩
    · obtain ⟨l, hl, rfl⟩ := List.mem_map.mp hm
      refine ⟨hstill.walk, hstill.retrRead, fun q hq => ?_, hstill.mount, hstill.notPausing, hstill.calm⟩
      rcases List.mem_append.mp hq with hq | hq
      · exact hstill.reads q hq
      · rw [List.mem_singleton.mp hq]
        have hready := hroots l hl r hr
        rw [State.dieReady, State.die] at hready ⊢
        rw [show (requestRead r.addr .eraseRoot u).flash.dies = s.flash.dies from
          hu.dies.trans (congrArg Flash.dies hv.flash)]
        exact hready
    · rw [← hl, ← hlines]
      rfl
  · rw [hckpt]
    have hflush := requestCheckpoint_flushes (some .command) u
    refine ⟨hflush.still hstill, hflush.nums.trans (congrArg _ hlines), fun hsame => ?_, fun m l hl hidx => ?_,
      (congrArg _ hflush.erase).trans hjob, hflush.running.trans hrunning, hflush.settings.trans hsettings,
      hflush.gauge.trans hgauge⟩
    · rcases hsame with ⟨l, hl, hroot⟩ | hidx
      · have hgone : l.root = none := hnone (s.erasedLine l) (List.mem_map_of_mem hl)
        rw [hgone] at hroot
        cases hroot
      · rw [requestCheckpoint_lines]
        · exact hlines
        · rw [hlines]
          exact fun l hl => hidx l (List.mem_of_mem_filter hl)
    · exact hflush.rest m l (by rw [State.line, hlines, hl]) hidx

end Sys2Proof.Machine

namespace Sys2Proof
open Machine

/-- Settles O27: a LOCKED, OPEN or CLOSING line of the range ends the command; else the range leaves the table, a root of it is
read or the checkpoint requested. -/
theorem lineEraseRemovesTheRange : Obligations.LineEraseRemovesTheRange := by
  intro tag body s h hs hit
  let u := s.atOwner .lineErase tag body
  have hstore : u.store = s.store := atOwner_store .lineErase tag body s
  have hin : ∀ l, l ∈ u.inRange (eraseLo body) (eraseHi body) ↔ l ∈ s.store.lines ∧ hit l := by
    intro l
    simp only [State.inRange, hstore, List.mem_filter, inRange, Bool.and_eq_true, decide_eq_true_eq, hit]
  have hend : ∀ code, lineErase (eraseLo body) (eraseHi body) u = endCommand code (le2 0) u →
      ∃ t, exec (.lineErase tag body) s = .next t ∧ t.store = s.store ∧ t.flash = s.flash ∧ t.staging = s.staging ∧
        Finished .lineErase tag code (le2 0) s.heard.link t.link := by
    intro code howner
    obtain ⟨t, ht, e⟩ := endsAtOnce_of_owner (c := .lineErase tag body) rfl h hs nofun nofun howner
    exact ⟨t, ht, e.store, e.flash, e.staging, e.finished⟩
  refine ⟨fun ⟨l, hl, hhit, hst⟩ => ?_, fun hnone ⟨l, hl, hhit, hidx⟩ => ?_, ?_⟩
  · exact hend _ (lineErase_locked ⟨l, (hin l).mpr ⟨hl, hhit⟩, hst⟩)
  · exact hend _ (lineErase_open (fun m hm => hnone m ((hin m).mp hm).1 ((hin m).mp hm).2) ⟨l, (hin l).mpr ⟨hl, hhit⟩, hidx⟩)
  · intro hfree hroots hwalk kept
    have hkept : u.outRange (eraseLo body) (eraseHi body) = kept := by
      simp only [State.outRange, hstore]
      rfl
    have howner : runOwner (frameCmd .lineErase tag body) u =
        runErase (removeLines (eraseLo body) (eraseHi body) u) :=
      lineErase_removes fun m hm => hfree m ((hin m).mp hm).1 ((hin m).mp hm).2
    have herase := runErase_erases (removeLines_removes (eraseLo body) (eraseHi body) u)
      (atOwner_still tag body hs (k := .lineErase) nofun)
      (fun m hm r hr => (heard_dieReady s _).trans (hroots m ((hin m).mp hm).1 ((hin m).mp hm).2 r hr))
      (fun w hw => hwalk w (by rw [hstore] at hw; exact hw))
    have hexec := exec_runs (c := .lineErase tag body) rfl h
    rw [howner, finish_still _ herase.still] at hexec
    refine ⟨_, hexec, hkept ▸ herase.nums, fun hsame => ?_, fun m l hl hout hidx => ?_, ?_, ?_,
      herase.settings.trans (heard_settings s), herase.gauge.trans (heard_gauge s)⟩
    · refine (herase.same ?_).trans hkept
      rw [hstore]
      exact hsame.imp_left fun ⟨l, hl, hhit, hroot⟩ => ⟨l, (hin l).mpr ⟨hl, hhit⟩, hroot⟩
    · refine herase.rest m l ?_ hidx
      rw [hkept]
      have hnum := line_num hl
      have hmiss : (!(decide (eraseLo body ≤ m) && decide (m ≤ eraseHi body))) = true := by
        have hout : ¬(eraseLo body ≤ m ∧ m ≤ eraseHi body) := hnum ▸ hout
        rw [← Bool.decide_and]
        simpa only [Bool.not_eq_true', decide_eq_false_iff_not] using hout
      have hsame : ∀ x : Line, decide ((!(decide (eraseLo body ≤ x.num) && decide (x.num ≤ eraseHi body))) = true ∧
          (x.num == m) = true) = (x.num == m) := by
        intro x
        by_cases hx : x.num = m <;> simp [hx, hmiss]
      simp only [kept, List.find?_filter, hsame]
      exact hl
    · refine herase.count.trans (congrArg some ?_)
      simp only [State.inRange, hstore, List.countP_eq_length_filter]
      rfl
    · rw [updateWait_link, herase.running]
      rfl

end Sys2Proof
end

section
/-!
PROOFS. The acquisition link: bytes in HUNT, hunt marks and broken frames, and frames that fail a check.
-/
namespace Sys2Proof.Machine

/-! ## Bytes in HUNT (R24, R25) -/

section Hunt
variable {b : Byte} {s : State}

theorem exec_acquisition_hunt (h : s.intake.parser.st = .hunt) :
    exec (.acquisitionByteReceived b) s = .next (huntByte b s) := by
  simp only [exec, execAcquisitionByteReceived, acqByte, h]

/-- The sync pair is complete: the parser is in HEADER. -/
def State.synced (s : State) : State :=
  { s with intake := { s.intake with
    hunt := 0, parser := { AcqParser.reset with st := .header, crc := 0xFFFFFFFF } } }

theorem huntByte_sync (hhalf : s.intake.parser.half = true) (hb : b = 0xA2) :
    huntByte b s = if s.paused then wake .acquisition s.synced else s.synced := by
  simp only [huntByte, hhalf, hb, Bool.not_true, Bool.false_eq_true, if_false, if_true]
  rfl

theorem wake_intake (c : WakeCause) (s : State) :
    (wake c s).intake = { s.intake with wait := (wake c s).intake.wait } := by
  unfold wake
  split <;> rfl

/-- One byte discarded. -/
theorem discardByte_below (h : s.intake.hunt + 1 < s.huntBytes) :
    discardByte s = s.modIntake fun i => { i with hunt := i.hunt + 1 } := if_neg h.not_ge

/-- The byte whose discarding counts a hunt mark. -/
theorem discardByte_marks (h : s.huntBytes ≤ s.intake.hunt + 1) :
    discardByte s = { s with intake := { s.intake with
      hunt := 0, errored := s.intake.errored || s.timerRuns,
      counters := { s.intake.counters with huntMarks := min (s.intake.counters.huntMarks + 1) 4294967295 } } } :=
  (if_pos h).trans (markErrored_eq _)

/-- The hunt counter and the half-sync mark after a byte that completes no sync pair. -/
def State.hunted (n : Nat) (half : Bool) (s : State) : State :=
  { s with intake := { s.intake with hunt := n, parser := { s.intake.parser with half := half } } }

/-- A byte that completes no sync pair is discarded or held, and an earlier 7Ch with it. -/
theorem huntByte_discards (h : s.intake.parser.half = true → b ≠ 0xA2) :
    huntByte b s =
      if s.intake.parser.half then (if b = 0x7C then discardByte s else
        (discardByte (discardByte s)).modIntake fun i => { i with parser := { i.parser with half := false } })
      else if b = 0x7C then s.modIntake fun i => { i with parser := { i.parser with half := true } } else discardByte s := by
  cases hhalf : s.intake.parser.half with
  | false => simp only [huntByte, hhalf, Bool.not_false, if_true, Bool.false_eq_true, if_false]
  | true => simp only [huntByte, hhalf, h hhalf, Bool.not_true, Bool.false_eq_true, if_false, if_true]

/-- The parser with its half-sync mark written as it stands. -/
theorem setHalf_same {p : AcqParser} {v : Bool} (h : p.half = v) : { p with half := v } = p := by rw [← h]

/-- How many bytes a byte discards that completes no sync pair. -/
def discarded (half : Bool) (b : Byte) : Nat := if half then (if b = 0x7C then 1 else 2) else (if b = 0x7C then 0 else 1)

theorem huntByte_below (h : s.intake.parser.half = true → b ≠ 0xA2)
    (hbelow : s.intake.hunt + discarded s.intake.parser.half b < s.huntBytes) :
    huntByte b s = s.hunted (s.intake.hunt + discarded s.intake.parser.half b) (b == 0x7C) := by
  rw [huntByte_discards h]
  unfold discarded at hbelow ⊢
  cases hhalf : s.intake.parser.half <;> by_cases hb : b = 0x7C <;>
    simp only [hhalf, hb, Bool.false_eq_true, if_true, if_false] at hbelow ⊢
  · rfl
  · rw [discardByte_below hbelow, State.hunted, setHalf_same (hhalf.trans (beq_false_of_ne hb).symm)]
    rfl
  · rw [discardByte_below hbelow, State.hunted, setHalf_same (by simpa [hb] using hhalf)]
    rfl
  · have hfirst : s.intake.hunt + 1 < s.huntBytes := by omega
    have hsecond : (s.modIntake fun i => { i with hunt := i.hunt + 1 }).intake.hunt + 1 < s.huntBytes := hbelow
    rw [discardByte_below hfirst, discardByte_below hsecond, beq_false_of_ne hb]
    rfl

/-- A byte whose discarding counts a hunt mark: what it discards beyond the mark stands in the hunt counter. -/
theorem huntByte_marks (h : s.intake.parser.half = true → b ≠ 0xA2) (hmin : 2 ≤ s.huntBytes)
    (hunder : s.intake.hunt < s.huntBytes) (hmarks : s.huntBytes ≤ s.intake.hunt + discarded s.intake.parser.half b) :
    huntByte b s = { s with intake := { s.intake with
      hunt := s.intake.hunt + discarded s.intake.parser.half b - s.huntBytes,
      parser := { s.intake.parser with half := b == 0x7C }, errored := s.intake.errored || s.timerRuns,
      counters := { s.intake.counters with huntMarks := min (s.intake.counters.huntMarks + 1) 4294967295 } } } := by
  rw [huntByte_discards h]
  unfold discarded at hmarks ⊢
  cases hhalf : s.intake.parser.half <;> by_cases hb : b = 0x7C <;>
    simp only [hhalf, hb, Bool.false_eq_true, if_true, if_false] at hmarks ⊢
  · omega
  · have hhunt : s.intake.hunt + 1 - s.huntBytes = 0 := by omega
    rw [discardByte_marks hmarks, hhunt, setHalf_same (hhalf.trans (beq_false_of_ne hb).symm)]
  · have hhunt : s.intake.hunt + 1 - s.huntBytes = 0 := by omega
    rw [discardByte_marks hmarks, hhunt, setHalf_same (by simpa [hb] using hhalf)]
  · rw [beq_false_of_ne hb]
    by_cases hfirst : s.huntBytes ≤ s.intake.hunt + 1
    · have hhunt : s.intake.hunt + 2 - s.huntBytes = 0 + 1 := by omega
      rw [discardByte_marks hfirst, discardByte_below (s := { s with intake := _ }) (by exact hmin), hhunt]
      rfl
    · have hhunt : s.intake.hunt + 2 - s.huntBytes = 0 := by omega
      have hsecond : s.huntBytes ≤ (s.modIntake fun i => { i with hunt := i.hunt + 1 }).intake.hunt + 1 := hmarks
      rw [discardByte_below (s := s) (by omega), discardByte_marks hsecond, hhunt]
      rfl

theorem exec_huntMark (hst : s.intake.parser.st = .hunt) (hpos : 0 < discards s.intake.parser.half b)
    (hmarks : s.huntBytes ≤ s.intake.hunt + discards s.intake.parser.half b) :
    exec (.huntMark b) s = .next (huntByte b s) := by
  have hmark : huntMarkByte b s = acqByte b s := if_pos ⟨hst, hpos, hmarks⟩
  have hbyte : acqByte b s = huntByte b s := by simp only [acqByte, hst]
  exact congrArg Host.Outcome.next (hmark.trans hbyte)

/-- A byte that discards one completes no sync pair. -/
theorem discards_pos (h : 0 < discards s.intake.parser.half b) :
    (s.intake.parser.half = true → b ≠ 0xA2) ∧ discards s.intake.parser.half b = discarded s.intake.parser.half b := by
  by_cases hhalf : s.intake.parser.half = true
  · have hb : b ≠ 0xA2 := by
      rintro rfl
      simp [discards, hhalf] at h
    exact ⟨fun _ => hb, by simp only [discards, discarded, hhalf, hb, if_true, if_false]⟩
  · exact ⟨fun hh => absurd hh hhalf, by simp [discards, discarded, hhalf]⟩

end Hunt

end Sys2Proof.Machine

namespace Sys2Proof
open Machine

/-- Settles O34: the sync pair, and the bytes that are none. -/
theorem acquisitionByteInHuntAwaitsTheSyncPair : Obligations.AcquisitionByteInHuntAwaitsTheSyncPair := by
  intro b s hst p synced discarded
  rw [exec_acquisition_hunt hst]
  refine ⟨fun hhalf hb hawake => ?_, fun hhalf hb hpaused => ?_, fun hb hbelow => ?_⟩
  · rw [huntByte_sync hhalf hb, hawake]
    rfl
  · rw [huntByte_sync hhalf hb, hpaused]
    exact ⟨_, rfl, by simp [wake_power, State.synced], by rw [if_pos rfl, wake_intake]; rfl, by simp [State.synced],
      by simp [State.synced], by simp [State.synced], by simp [State.synced], by simp [State.synced]⟩
  · rw [huntByte_below hb hbelow]
    rfl

/-- Settles O35: each broken frame counts under its name and marks the link interval. -/
theorem huntMarksAndBrokenFramesAreCounted : Obligations.HuntMarksAndBrokenFramesAreCounted := by
  intro b s p c errored discarded
  refine ⟨fun hst hpos hmin hunder hmarks => ?_, congrArg _ (markErrored_eq _), fun hst => ?_, fun hst => ?_⟩
  · obtain ⟨hsync, heq⟩ := discards_pos hpos
    have hmarks' : s.huntBytes ≤ s.intake.hunt + Machine.discarded s.intake.parser.half b := heq ▸ hmarks
    rw [exec_huntMark hst hpos hmarks, huntByte_marks hsync hmin hunder hmarks', ← heq]
    rfl
  · exact congrArg Host.Outcome.next ((if_neg hst).trans (markErrored_eq _))
  · exact congrArg Host.Outcome.next (if_pos hst)

end Sys2Proof
end

section
/-!
PROOFS. Frames that are taken: those that fail a check, closes, and the end of a link interval.
-/
namespace Sys2Proof.Machine

/-! ## A frame is taken and counted (R27) -/

/-- The intake as a frame is taken: the parser in HUNT, the frame counted, and `f` done to the counters. -/
def State.taken (f : IntakeCounters → IntakeCounters) (s : State) : State :=
  { s with intake := { s.intake with
    parser := .reset, hunt := 0,
    counters := f { s.intake.counters with frames := min (s.intake.counters.frames + 1) 4294967295 } } }

section Taken
variable {k : FrameKind} {f : AcqFrame} {s : State}

theorem acqFrame_taken (k : Option FrameKind) : acqFrame k f s = finish (checkFrame k f (s.taken id)) := rfl

theorem taken_still {g : IntakeCounters → IntakeCounters} (h : Still s) : Still (s.taken g) :=
  still_congr h rfl rfl rfl rfl (fun _ => rfl) rfl h.notPausing rfl

theorem count_taken (g : IntakeCounters → IntakeCounters) : (s.taken id).count g = s.taken g := rfl

theorem finish_taken {g : IntakeCounters → IntakeCounters} (h : Still s) : finish (s.taken g) = updateWait (s.taken g) :=
  finish_still _ (taken_still h)

theorem checkFrame_malformed (k : Option FrameKind) (h : k = none ∨ f.line = 0) : checkFrame k f s = malformed s := by
  cases k with
  | none => rfl
  | some k => exact if_pos (h.resolve_left nofun)

theorem checkFrame_closed (hline : f.line ≠ 0) (h : s.intakeState = .closed) :
    checkFrame (some k) f s = s.count fun c => { c with closed := satInc Config.max32 c.closed } := by
  simp only [checkFrame, hline, if_false, h]

theorem checkFrame_suspended (hline : f.line ≠ 0) (h : s.intakeState = .suspended) :
    checkFrame (some k) f s = s.count fun c => { c with suspended := satInc Config.max32 c.suspended } := by
  simp only [checkFrame, hline, if_false, h]

theorem checkFrame_opened (hline : f.line ≠ 0) (h : s.intakeState = .opened) :
    checkFrame (some k) f s = handleFrame k f s := by simp only [checkFrame, hline, if_false, h]

theorem handleFrame_short (h : f.payload.length < k.least) (hs : s.discardShort = true) :
    handleFrame k f s = s.count fun c => { c with short := satInc Config.max32 c.short } := by
  simp [handleFrame, h, hs]

/-- The row of each frame kind of Table 2-1. -/
def FrameKind.row (f : AcqFrame) : FrameKind → Instr
  | .openLine => .openLine f | .trace => .trace f | .mark => .mark f | .status => .statusFrame f
  | .closeLine => .closeLine f

theorem exec_row (k : FrameKind) (f : AcqFrame) (s : State) : exec (k.row f) s = .next (takenFrame (some k) f s) := by
  cases k <;> rfl

/-- A row whose frame fits is taken. -/
theorem exec_row_taken (k : FrameKind) (h : f.payload.length ≤ s.maxPayload) :
    exec (k.row f) s = .next (finish (checkFrame (some k) f (s.taken id))) := by
  rw [exec_row, takenFrame_fits h, acqFrame_taken]

theorem mem_rows {c : Instr} (h : c ∈ [Instr.openLine f, .trace f, .mark f, .statusFrame f, .closeLine f]) :
    ∃ k : FrameKind, c = k.row f := by
  simp only [List.mem_cons, List.not_mem_nil, or_false] at h
  rcases h with rfl | rfl | rfl | rfl | rfl
  exacts [⟨.openLine, rfl⟩, ⟨.trace, rfl⟩, ⟨.mark, rfl⟩, ⟨.status, rfl⟩, ⟨.closeLine, rfl⟩]

end Taken

theorem exec_malformedFrame {kind : Byte} {f : AcqFrame} {s : State} (hk : f.line = 0 ∨ FrameKind.ofCode kind = none)
    (h : f.payload.length ≤ s.maxPayload) :
    exec (.malformedFrame kind f) s = .next (finish (malformed (s.taken id))) := by
  have hrow : exec (.malformedFrame kind f) s = .next (takenFrame (FrameKind.ofCode kind) f s) :=
    congrArg Host.Outcome.next (if_pos hk)
  rw [hrow, takenFrame_fits h, acqFrame_taken, checkFrame_malformed _ hk.symm]

end Sys2Proof.Machine

namespace Sys2Proof
open Machine

/-- Settles O36: each check counts the frame under its name, and no work follows. -/
theorem framesThatFailACheckAreCounted : Obligations.FramesThatFailACheckAreCounted := by
  intro kind f s rows
  refine ⟨fun hlong => ⟨?_, fun c hc => ?_⟩, ?_⟩
  · have htaken : takenFrame (FrameKind.ofCode kind) f s = s := if_pos hlong
    refine congrArg Host.Outcome.next ?_
    split
    · exact htaken
    · rfl
  · obtain ⟨k, rfl⟩ := mem_rows hc
    exact (exec_row k f s).trans (congrArg _ (if_pos hlong))
  intro hs hfits d counted
  refine ⟨fun hbad => ?_, fun hline => ⟨fun hclosed c hc => ?_, fun hsusp c hc => ?_, ?_⟩⟩
  · have hk : f.line = 0 ∨ FrameKind.ofCode kind = none :=
      hbad.imp_right fun h => (ofCode_none_iff kind).mpr (h.imp_left fun h => BitVec.eq_of_toNat_eq h)
    rw [exec_malformedFrame hk hfits, malformed, count_taken, finish_taken hs]
    rfl
  · obtain ⟨k, rfl⟩ := mem_rows hc
    rw [exec_row_taken k hfits, checkFrame_closed hline (s := s.taken id) hclosed, count_taken, finish_taken hs]
    rfl
  · obtain ⟨k, rfl⟩ := mem_rows hc
    rw [exec_row_taken k hfits, checkFrame_suspended hline (s := s.taken id) hsusp, count_taken, finish_taken hs]
    rfl
  · intro hopen hdiscard short
    have hshort : ∀ k : FrameKind, f.payload.length < k.least → exec (k.row f) s = short := by
      intro k hk
      rw [exec_row_taken k hfits, checkFrame_opened hline (s := s.taken id) hopen,
        handleFrame_short (s := s.taken id) hk hdiscard, count_taken, finish_taken hs]
      rfl
    exact ⟨hshort .trace, hshort .mark, hshort .status⟩

end Sys2Proof
end

section
/-!
PROOFS. CLOSE-LINE frames, orphans, and the end of a link interval.
-/
namespace Sys2Proof.Machine

/-! ## CLOSE-LINE and orphans (R39) -/

section Slots
variable {n i : Nat} {s : State}

/-- The line of a slot in use is OPEN. -/
theorem openSlot_some (h : s.openSlot n = some i) : ∃ l, s.line n = some l ∧ l.st = .opened ∧ s.slotOf n = some i := by
  unfold State.openSlot at h
  split at h
  · rename_i l hl
    split at h
    · rename_i ho
      exact ⟨l, hl, by simpa [Line.open?] using ho, h⟩
    · cases h
  · cases h

theorem handleClose_open {f : AcqFrame} (h : s.openSlot f.line = some i) :
    handleClose f s = requestClose f.line .instrument false s := by simp only [handleClose, h]

/-- A frame of a line that is not OPEN is an orphan, but an OPEN-LINE. -/
theorem handleFrame_orphan {k : FrameKind} {f : AcqFrame} (hk : k ≠ .openLine) (h : s.openSlot f.line = none)
    (hleast : s.discardShort = true → k.least ≤ f.payload.length) : handleFrame k f s = orphan s := by
  have hshort : (decide (f.payload.length < k.least) && s.discardShort) = false := by
    cases hd : s.discardShort with
    | false => exact Bool.and_false _
    | true => simpa using hleast hd
  have hlong : handleFrame k f s = match k with
      | .openLine => handleOpen f s
      | .trace => appendPlain .trace (decide (f.payload.length < k.least)) f s
      | .mark => appendPlain .mark (decide (f.payload.length < k.least)) f s
      | .status => appendStatus (decide (f.payload.length < k.least)) f s
      | .closeLine => handleClose f s := by
    simp only [handleFrame, hshort, Bool.false_eq_true, if_false]
    cases k <;> rfl
  rw [hlong]
  cases k
  case openLine => exact absurd rfl hk
  case trace => simp only [appendPlain, h]
  case mark => simp only [appendPlain, h]
  case status => simp only [appendStatus, h]
  case closeLine => simp only [handleClose, h]

end Slots

/-! ## What the records of the intake leave (R45 to R50) -/

/-- The state without what the store's follow-up work moves, and without the intake counters and the time of LOST. -/
def State.uncounted (s : State) : State :=
  { s.kept with intake := { s.kept.intake with counters := .zero, lostClock := none } }

theorem uncounted_of_kept {s t : State} (h : t.kept = s.kept) : t.uncounted = s.uncounted := by
  rw [State.uncounted, h, State.uncounted]

theorem uncounted_count (f : IntakeCounters → IntakeCounters) (s : State) : (s.count f).uncounted = s.uncounted := rfl

theorem kept_bindAndPack (i n : Nat) (l : Line) (r : Rec) (s : State) : (bindAndPack i n l r s).1.kept = s.kept := by
  unfold bindAndPack
  split
  · rfl
  · split <;> simp

theorem kept_placeRecord (i : Nat) (d : Draft) (s : State) : (placeRecord i d s).1.kept = s.kept := by
  unfold placeRecord
  split
  · rfl
  · split
    · rfl
    · dsimp only
      split
      · split
        · exact kept_packInto _ _ _ s
        · exact (kept_bindAndPack _ _ _ _ _).trans (kept_queueFilling _ s)
      · exact kept_bindAndPack _ _ _ _ s

theorem uncounted_limitDrop (n : Nat) (s : State) : (limitDrop n s).uncounted = s.uncounted :=
  (uncounted_of_kept (kept_requestClose _ _ _ _)).trans (uncounted_count _ s)

theorem uncounted_gapLine (payload : List Byte) (s : State) (i : Nat) : (gapLine payload s i).uncounted = s.uncounted := by
  unfold gapLine
  split
  · rfl
  · next t _ =>
    dsimp only
    have hplace := uncounted_of_kept (kept_placeRecord i
      { kind := .gap, short := false, iflags := 0, station := t.station, time := t.time, supCount := 0, payload := payload } s)
    refine (uncounted_of_kept (kept_setFilter i .fresh _)).trans ?_
    split <;> rename_i e <;> rw [e] at hplace
    · exact hplace
    · exact (uncounted_count _ _).trans ((uncounted_limitDrop _ _).trans hplace)
    · exact (uncounted_count _ _).trans hplace
    · exact (uncounted_count _ _).trans hplace

theorem uncounted_foldl {α : Type} (f : State → α → State) (h : ∀ s a, (f s a).uncounted = s.uncounted) (l : List α)
    (s : State) : (l.foldl f s).uncounted = s.uncounted := by
  induction l generalizing s with
  | nil => rfl
  | cons a l ih => exact (ih _).trans (h s a)

theorem uncounted_gapRecords (payload : List Byte) (s : State) : (gapRecords payload s).uncounted = s.uncounted :=
  uncounted_foldl _ (uncounted_gapLine payload) _ s

theorem uncounted_linkChange (old new : LinkState) (s : State) : (linkChange old new s).uncounted = s.uncounted := by
  have hraise : ∀ k d, (raiseNotice k d s).uncounted = s.uncounted := fun k d => uncounted_of_kept (kept_raiseNotice k d s)
  unfold linkChange
  dsimp only
  generalize hu : (if new = .good then _ else _ : State) = u
  have hflags : u.uncounted = s.uncounted := by
    rw [← hu]
    split
    · exact hraise _ _
    · exact (uncounted_of_kept (kept_modStore _ _)).trans (hraise _ _)
  split
  · exact (uncounted_gapRecords _ _).trans hflags
  · split
    · refine (uncounted_of_kept (kept_updateWait _)).trans ?_
      exact (uncounted_gapRecords _ u).trans hflags
    · exact hflags

/-! ## The end of a link interval (R48, R49) -/

theorem nextLink_eq (st : LinkState) (lq degraded lost : Nat) :
    nextLink st lq degraded lost =
      if st = .lost then (if degraded ≤ lq then .lost else .good)
      else if lost ≤ lq then .lost else if degraded ≤ lq then .degraded else .good := by
  cases st <;> rfl

/-- A new link interval begins with this link quality and link state. -/
def State.newInterval (lq : Nat) (new : LinkState) (s : State) : State :=
  { s with intake := { s.intake with
    lq := lq, linkState := new, elapsed := 0, errored := false, intervalLen := some s.intervalMs } }

/-- The link quality at the end of the interval. -/
def State.nextLq (s : State) : Nat := if s.intake.errored then min 255 (s.intake.lq + s.lqUp) else s.intake.lq - s.lqDown

theorem exec_linkIntervalEnd {s : State} (h : s.timerRuns = true) :
    exec .linkIntervalEnd s = .next (finish
      (if nextLink s.intake.linkState s.nextLq s.lqDegraded s.lqLost = s.intake.linkState then
        s.newInterval s.nextLq (nextLink s.intake.linkState s.nextLq s.lqDegraded s.lqLost)
      else linkChange s.intake.linkState (nextLink s.intake.linkState s.nextLq s.lqDegraded s.lqLost)
        (s.newInterval s.nextLq (nextLink s.intake.linkState s.nextLq s.lqDegraded s.lqLost)))) := by
  have hexec : exec .linkIntervalEnd s = .next (intervalEnd s) := rfl
  rw [hexec, intervalEnd, h]
  rfl

/-- What `uncounted` keeps whole of the intake. -/
theorem intake_of_uncounted {s t : State} (h : t.uncounted = s.uncounted) :
    t.intake.lq = s.intake.lq ∧ t.intake.linkState = s.intake.linkState ∧ t.intake.elapsed = s.intake.elapsed ∧
      t.intake.errored = s.intake.errored ∧ t.intake.intervalLen = s.intake.intervalLen := by
  have e := congrArg State.intake h
  simp only [State.uncounted, State.kept, Intake.mk.injEq] at e
  grind

theorem settings_of_uncounted {s t : State} (h : t.uncounted = s.uncounted) : t.settings = s.settings := by
  have e := congrArg State.settings h
  exact e

theorem gauge_of_uncounted {s t : State} (h : t.uncounted = s.uncounted) : t.gauge = s.gauge := by
  have e := congrArg State.gauge h
  exact e

theorem motion_of_uncounted {s t : State} (h : t.uncounted = s.uncounted) : t.motion = s.motion := by
  have e := congrArg State.motion h
  exact e

theorem clock_of_uncounted {s t : State} (h : t.uncounted = s.uncounted) : t.power.clock = s.power.clock := by
  have e := congrArg (fun u : State => u.power.clock) h
  exact e

end Sys2Proof.Machine

namespace Sys2Proof
open Machine

/-- Settles O40: an OPEN line is closed, and of any other line the frame is an orphan. -/
theorem closeLineMovesTheLineToClosing : Obligations.CloseLineMovesTheLineToClosing := by
  intro f s hs hopen hline hfits c
  refine ⟨fun i hslot => ?_, fun hslot r least hr hleast => ?_⟩
  · obtain ⟨l, hl, hst, hslotOf⟩ := openSlot_some hslot
    have hclosed := requestClose_opened (s := s.taken id) .instrument false hl hst
    have hhandle : handleFrame .closeLine f (s.taken id) = requestClose f.line .instrument false (s.taken id) :=
      handleClose_open (s := s.taken id) hslot
    have hexec := exec_row_taken .closeLine hfits
    rw [checkFrame_opened hline (s := s.taken id) hopen, hhandle, finish_still _ (hclosed.still (taken_still hs))] at hexec
    refine ⟨_, hexec, hclosed.state, ?_, hclosed.counters, hclosed.blocks, hclosed.settings, hclosed.gauge, hclosed.motion,
      hclosed.power⟩
    have hslots := hclosed.slots
    rw [show (s.taken id).slotOf f.line = some i from hslotOf] at hslots
    rw [updateWait_intake_slots, hslots]
    exact getD_set_none _ i
  · have horphan : ∀ k : FrameKind, k ≠ .openLine → (s.discardShort = true → k.least ≤ f.payload.length) →
        exec (k.row f) s = .next (updateWait (s.taken fun c => { c with orphan := min (c.orphan + 1) 4294967295 })) := by
      intro k hk hk'
      rw [exec_row_taken k hfits, checkFrame_opened hline (s := s.taken id) hopen,
        handleFrame_orphan (s := s.taken id) hk hslot hk', orphan, count_taken, finish_taken hs]
      rfl
    simp only [List.mem_cons, Prod.mk.injEq, List.not_mem_nil, or_false] at hr
    rcases hr with ⟨rfl, rfl⟩ | ⟨rfl, rfl⟩ | ⟨rfl, rfl⟩ | ⟨rfl, rfl⟩
    exacts [horphan .trace nofun hleast, horphan .mark nofun hleast, horphan .status nofun hleast,
      horphan .closeLine nofun hleast]

/-- Settles O41: the link quality moves, and what a change of the link state brings about leaves it. -/
theorem linkIntervalEndMovesTheLinkQuality : Obligations.LinkIntervalEndMovesTheLinkQuality := by
  intro s lq new
  have hnew : nextLink s.intake.linkState s.nextLq s.lqDegraded s.lqLost = new := nextLink_eq _ _ _ _
  refine ⟨fun hrun => ?_, fun hrun hs hsame => ?_, fun hstop => ?_⟩
  · have hexec := exec_linkIntervalEnd hrun
    rw [hnew] at hexec
    refine ⟨_, hexec, ?_⟩
    generalize hv : (if new = s.intake.linkState then _ else _ : State) = v
    have hfinish : (finish v).uncounted = (s.newInterval lq new).uncounted := by
      refine (uncounted_of_kept (kept_finish v)).trans ?_
      rw [← hv]
      split
      · rfl
      · exact uncounted_linkChange _ _ _
    obtain ⟨h1, h2, h3, h4, h5⟩ := intake_of_uncounted hfinish
    let u := s.newInterval lq new
    exact ⟨h1, h2, h3, h4, h5, settings_of_uncounted (s := u) hfinish, gauge_of_uncounted (s := u) hfinish,
      motion_of_uncounted (s := u) hfinish, clock_of_uncounted (s := u) hfinish⟩
  · have hbegun : Still (s.newInterval lq new) := still_congr hs rfl rfl rfl rfl (fun _ => rfl) rfl hs.notPausing rfl
    have hexec := exec_linkIntervalEnd hrun
    rw [hnew, if_pos hsame] at hexec
    refine hexec.trans ((congrArg Host.Outcome.next (finish_still _ hbegun)).trans ?_)
    rw [State.newInterval, hsame]
  · have hexec : exec .linkIntervalEnd s = .next (intervalEnd s) := rfl
    rw [hexec, intervalEnd, hstop]
    rfl

end Sys2Proof
end

section
/-!
PROOFS. Records that are appended: to the FILLING buffer, and to a new one.
-/
namespace Sys2Proof.Machine

/-! ## Slots (R38, R44) -/

theorem getElem_of_getD {α : Type} {xs : List (Option α)} {i : Nat} {x : α} (h : xs.getD i none = some x) :
    xs[i]? = some (some x) := by
  rw [List.getD_eq_getElem?_getD] at h
  cases e : xs[i]? with
  | none =>
    rw [e] at h
    cases h
  | some y =>
    rw [e] at h
    exact congrArg some h

theorem slot_lt {α : Type} {xs : List (Option α)} {i : Nat} {x : α} (h : xs.getD i none = some x) : i < xs.length :=
  (List.getElem?_eq_some_iff.mp (getElem_of_getD h)).1

theorem modify_some_eq_set {α : Type} {xs : List (Option α)} {i : Nat} {x : α} (f : α → α) (h : xs.getD i none = some x) :
    xs.modify i (Option.map f) = xs.set i (some (f x)) := by
  rw [modify_eq_set xs i (Option.map f) none (slot_lt h), h]
  rfl

theorem getD_set_self {α : Type} {xs : List (Option α)} {i : Nat} {y : Option α} (h : i < xs.length) :
    (xs.set i y).getD i none = y := by simp [List.getD, h]

/-- What a stored instrument record leaves of its slot, as the append counter stands at `n` (R38, R41 to R44). -/
def Slot.stored (n : Nat) (d : Draft) (x : Slot) : Slot :=
  { x with
    ordinal := n, station := d.station, time := d.time,
    filter := if d.short || d.kind == .trace || d.kind == .mark then .fresh else x.filter,
    reference := if d.kind == .status && !d.short then some (d.payload.length, d.payload.take 8) else x.reference,
    suppressed := if d.kind == .status then 0 else x.suppressed }

/-- The append counter's next value (R38). -/
def State.nextOrdinal (s : State) : Nat := (s.intake.appends + 1) % 4294967296

/-- What a stored instrument record leaves of the intake. -/
theorem slotStored_eq {i : Nat} {d : Draft} {x : Slot} {s : State} (h : s.intake.slots.getD i none = some x) :
    slotStored i d s = { s with intake := { s.intake with
      appends := s.nextOrdinal, slots := s.intake.slots.set i (some (x.stored s.nextOrdinal d)),
      counters := { s.intake.counters with stored := min (s.intake.counters.stored + 1) 4294967295 } } } := by
  have hfirst := modify_some_eq_set (fun y : Slot => { y with ordinal := s.nextOrdinal }) h
  have hset := modify_some_eq_set (fun y : Slot => { y with
      station := d.station, time := d.time,
      filter := if d.short || d.kind == .trace || d.kind == .mark then .fresh else y.filter,
      reference := if d.kind == .status && !d.short then some (d.payload.length, d.payload.take 8) else y.reference,
      suppressed := if d.kind == .status then 0 else y.suppressed })
    (getD_set_self (y := some { x with ordinal := s.nextOrdinal }) (slot_lt h))
  rw [List.set_set, ← hfirst] at hset
  have hslots : (slotStored i d s).intake.slots = s.intake.slots.set i (some (x.stored s.nextOrdinal d)) := hset
  rw [← hslots]
  rfl

/-- The slot of a line is the slot that names it. -/
theorem slotOf_line {n i : Nat} {x : Slot} {s : State} (h : s.slotOf n = some i) (hx : s.intake.slots.getD i none = some x) :
    x.line = n := by
  obtain ⟨hi, hn, _⟩ := List.findIdx?_eq_some_iff_getElem.mp h
  have hget := getElem_of_getD hx
  rw [List.getElem?_eq_getElem hi, Option.some.injEq] at hget
  rw [hget] at hn
  simpa using hn

/-- An OPEN intake may store: the store is READY, no closeout runs and the part is in RUN. -/
theorem mayStore_of_opened {s : State} (h : s.intakeState = .opened) : s.mayStore = true := by
  unfold State.intakeState at h
  split at h
  · cases h
  · rename_i hheld
    simp only [State.held, Bool.or_eq_true, not_or, bne_iff_ne, ne_eq, Bool.not_eq_true, Option.isSome_eq_false_iff,
      Classical.not_not] at hheld
    obtain ⟨_, ⟨⟨⟨⟨⟨hst, hstore⟩, hclose⟩, _⟩, _⟩, _⟩, hresume⟩ := hheld
    simp [State.mayStore, hst, hstore, hclose, hresume]

/-! ## A record is packed (R45, R54) -/

/-- The record that a draft becomes for a line with this next arrival index. -/
def State.recordOf (d : Draft) (l : Line) (s : State) : Rec :=
  d.record l.next s.power.clock (s.intake.linkState != .good)

section Append
variable {i b : Nat} {d : Draft} {x : Slot} {l : Line} {y : Buf} {s : State}

theorem placeRecord_fits (hmay : s.mayStore = true) (hslot : s.intake.slots.getD i none = some x)
    (hl : s.line x.line = some l) (hb : s.fillingOf i = some b) (hy : s.buf b = some y)
    (hroom : y.fill + recordSize d.payload.length ≤ 16320) :
    placeRecord i d s = (packInto b x.line (s.recordOf d l) s, .stored) := by
  have hsize : y.fill + (s.recordOf d l).size ≤ Config.recordBytes := hroom
  rw [State.recordOf] at hsize
  simp only [placeRecord, hmay, Bool.not_true, Bool.false_eq_true, if_false, hslot, Option.bind_some, hl, hb, hy,
    Option.map_some, Option.getD_some, hsize, if_true, line_num hl, State.recordOf]

/-- A record that finds its slot with no FILLING buffer begins one in the lowest-numbered FREE buffer. -/
theorem placeRecord_begins (hmay : s.mayStore = true) (hslot : s.intake.slots.getD i none = some x)
    (hl : s.line x.line = some l) (hb : s.fillingOf i = none) (hpages : s.pageNumber l < 520200)
    (hfree : s.freeBuffer = some b) :
    placeRecord i d s =
      (updateWait (packInto b x.line (s.recordOf d l) (s.setBuf b (some (fillingBuf i x.line)))), .stored) := by
  have hlimit : ¬Config.pagesPerLine ≤ s.pageNumber l := hpages.not_ge
  simp only [placeRecord, hmay, Bool.not_true, Bool.false_eq_true, if_false, hslot, Option.bind_some, hl, hb, bindAndPack,
    hlimit, hfree, line_num hl, State.recordOf]

theorem appendInstrument_stored {n : Nat} {t : State} (h : placeRecord i d s = (t, .stored)) :
    appendInstrument i n d s = (slotStored i d t, true) := by simp only [appendInstrument, h]

/-- Where a record is packed: the buffer that takes it, and its line. -/
theorem packInto_buf {n c : Nat} {r : Rec} (hy : s.buf b = some y) :
    (packInto b n r s).buf c = if c = b then some (y.pack r) else s.buf c := buf_modBuf hy

theorem packInto_line {n m : Nat} {r : Rec} (hl : s.line n = some l) :
    (packInto b n r s).line m = if m = n then some (l.placed r) else s.line m := by
  have hline : (packInto b n r s).line m = (s.line m).map fun l => if l.num == n then l.placed r else l :=
    line_modLine n m (Line.placed r) (fun _ => rfl) (s.modBuf b (Buf.pack r))
  rw [hline]
  split
  · rename_i h
    rw [h, hl]
    simp [line_num hl]
  · rename_i h
    cases hm : s.line m with
    | none => rfl
    | some k => simp [line_num hm, h]

end Append

/-- An instrument record moves its line's instrument times (R94). -/
theorem placed_instrument {r : Rec} (h : recInstrument r = true) (l : Line) :
    l.placed r = { l with next := l.next + 1, tFirst := some (l.tFirst.getD r.time), tLast := some r.time } := by
  unfold Line.placed
  cases l.tFirst <;> simp [h]

/-- A record packed behind others. -/
theorem pack_records {y : Buf} {r : Rec} {rs : List Rec} (h : y.body = .records rs) :
    (y.pack r).body = .records (rs ++ [r]) ∧ (y.pack r).fill = y.fill + r.size ∧ (y.pack r).hdr.count = y.hdr.count + 1 ∧
      (y.pack r).st = y.st := by
  refine ⟨?_, rfl, rfl, rfl⟩
  simp only [Buf.pack, h]

/-! ## Frames of an OPEN line whose records are appended (R39, R41) -/

section Rows
variable {i : Nat} {f : AcqFrame} {x : Slot} {s : State}

/-- A record frame that is not discarded as short. -/
def FrameKind.shortOf (k : FrameKind) (f : AcqFrame) : Bool := decide (f.payload.length < k.least)

theorem handleFrame_long {k : FrameKind} (h : k.shortOf f = true → s.discardShort = false) :
    handleFrame k f s = match k with
      | .openLine => handleOpen f s
      | .trace => appendPlain .trace (k.shortOf f) f s
      | .mark => appendPlain .mark (k.shortOf f) f s
      | .status => appendStatus (k.shortOf f) f s
      | .closeLine => handleClose f s := by
  have hshort : (decide (f.payload.length < k.least) && s.discardShort) = false := by
    cases hk : k.shortOf f with
    | false =>
      rw [FrameKind.shortOf] at hk
      rw [hk]
      rfl
    | true => rw [h hk, Bool.and_false]
  simp only [handleFrame, hshort, Bool.false_eq_true, if_false]
  cases k <;> rfl

theorem appendPlain_open {k : RecordKind} {short : Bool} (h : s.openSlot f.line = some i) :
    appendPlain k short f s = (appendInstrument i f.line (draftOf k short f 0) s).1 := by simp only [appendPlain, h]

/-- With the filter disabled a STATUS frame is appended, and its slot's filter is FRESH. -/
theorem appendStatus_unfiltered {short : Bool} (h : s.openSlot f.line = some i)
    (hx : s.intake.slots.getD i none = some x) (hfilter : s.filterEnable = false) :
    appendStatus short f s = (appendInstrument i f.line (draftOf .status short f x.suppressed) (setFilter i .fresh s)).1 := by
  simp only [appendStatus, h, hx, hfilter, Bool.not_false, if_true]

end Rows

/-- From `u` to `t` the draft `d` is appended on slot `i`, where `x` stands, to the FILLING buffer `b`, and nothing else. -/
structure Appends (i b : Nat) (d : Draft) (x : Slot) (l : Line) (y : Buf) (u t : State) : Prop where
  taken : t.buf b = some (y.pack (u.recordOf d l))
  bufs : ∀ c, c ≠ b → t.buf c = u.buf c
  line : t.line x.line = some (l.placed (u.recordOf d l))
  lines : ∀ m, m ≠ x.line → t.line m = u.line m
  intake : ∃ w, t.intake = { u.intake with
    appends := u.nextOrdinal, slots := u.intake.slots.set i (some (x.stored u.nextOrdinal d)),
    counters := { u.intake.counters with stored := min (u.intake.counters.stored + 1) 4294967295 }, wait := w }
  walk : t.store.walk = u.store.walk
  link : t.link = u.link
  flash : t.flash = u.flash
  retr : t.retr = u.retr
  motion : t.motion = u.motion
  gauge : t.gauge = u.gauge
  power : t.power = u.power
  settings : t.settings = u.settings

theorem Appends.still {i b : Nat} {d : Draft} {x : Slot} {l : Line} {y : Buf} {u t : State} (h : Appends i b d x l y u t)
    (hs : Still u) : Still t :=
  still_congr hs h.walk (congrArg _ h.flash) (congrArg _ h.retr) (congrArg _ h.flash)
    (fun d => by rw [State.dieReady, State.die, h.flash, State.dieReady, State.die]) (congrArg _ h.power)
    ((isRunning_congr _ (congrArg _ h.link)).trans hs.notPausing) (by rw [State.emergency, h.power, State.emergency])

/-- The wait line re-derived stands beside what is appended. -/
theorem Appends.updateWait {i b : Nat} {d : Draft} {x : Slot} {l : Line} {y : Buf} {u t : State}
    (h : Appends i b d x l y u t) : Appends i b d x l y u (updateWait t) :=
  { h with
    intake := by
      obtain ⟨w, hw⟩ := h.intake
      exact ⟨waitLevel t, congrArg (fun v : Intake => { v with wait := waitLevel t }) hw⟩ }

section Append
variable {i b : Nat} {d : Draft} {x : Slot} {l : Line} {y : Buf} {u : State}

/-- What is packed into buffer `b` of `v`, where `v` holds there `y`, is appended. -/
theorem appends_of_packed {v t : State} {w : Bool} (hslot : u.intake.slots.getD i none = some x) (hl : v.line x.line = some l)
    (hy : v.buf b = some y) (hv : v = { u with staging := v.staging }) (hbufs : ∀ c, c ≠ b → v.buf c = u.buf c)
    (ht : t = { packInto b x.line (u.recordOf d l) v with intake := { u.intake with wait := w } }) :
    Appends i b d x l y u (slotStored i d t) := by
  have hslot' : t.intake.slots.getD i none = some x := by
    rw [ht]
    exact hslot
  rw [slotStored_eq hslot', ht]
  have hbuf : ∀ c, (packInto b x.line (u.recordOf d l) v).buf c = if c = b then some (y.pack (u.recordOf d l)) else v.buf c :=
    fun c => packInto_buf hy
  have hline : ∀ m, (packInto b x.line (u.recordOf d l) v).line m =
      if m = x.line then some (l.placed (u.recordOf d l)) else v.line m := fun m => packInto_line hl
  refine
    { taken := (hbuf b).trans (if_pos rfl)
      bufs := fun c hc => (hbuf c).trans ((if_neg hc).trans (hbufs c hc))
      line := (hline _).trans (if_pos rfl)
      lines := fun m hm => (hline m).trans ((if_neg hm).trans (by rw [hv]; rfl))
      intake := ⟨w, rfl⟩
      walk := by rw [hv]; rfl
      link := by rw [hv]; rfl
      flash := by rw [hv]; rfl
      retr := by rw [hv]; rfl
      motion := by rw [hv]; rfl
      gauge := by rw [hv]; rfl
      power := by rw [hv]; rfl
      settings := by rw [hv]; rfl }

theorem appendInstrument_fits (n : Nat) (hmay : u.mayStore = true) (hslot : u.intake.slots.getD i none = some x)
    (hl : u.line x.line = some l) (hb : u.fillingOf i = some b) (hy : u.buf b = some y)
    (hroom : y.fill + recordSize d.payload.length ≤ 16320) :
    ∃ t, appendInstrument i n d u = (t, true) ∧ Appends i b d x l y u t :=
  ⟨_, appendInstrument_stored (placeRecord_fits hmay hslot hl hb hy hroom),
    appends_of_packed (w := u.intake.wait) hslot hl hy rfl (fun _ _ => rfl) rfl⟩

theorem appendInstrument_begins (n : Nat) (hmay : u.mayStore = true) (hslot : u.intake.slots.getD i none = some x)
    (hl : u.line x.line = some l) (hb : u.fillingOf i = none) (hpages : u.pageNumber l < 520200)
    (hfree : u.freeBuffer = some b) :
    ∃ t, appendInstrument i n d u = (t, true) ∧ Appends i b d x l (fillingBuf i x.line) u t := by
  have hbuf : ∀ c, (u.setBuf b (some (fillingBuf i x.line))).buf c = if c = b then some (fillingBuf i x.line) else u.buf c :=
    fun c => buf_setBuf (freeBuffer_lt hfree)
  exact ⟨_, appendInstrument_stored (placeRecord_begins hmay hslot hl hb hpages hfree),
    appends_of_packed (v := u.setBuf b (some (fillingBuf i x.line))) hslot hl ((hbuf b).trans (if_pos rfl)) rfl
      (fun c hc => (hbuf c).trans (if_neg hc)) rfl⟩

end Append

end Sys2Proof.Machine
end

section
/-!
PROOFS. TRACE, MARK and STATUS of an OPEN line, and an OPEN-LINE that opens a new one.
-/
namespace Sys2Proof.Machine

/-! ## The state in which a frame of an OPEN line is appended -/

/-- The intake as a frame of slot `i` is taken and the slot's filter moves to `st`. -/
def State.takenFilter (i : Nat) (st : FilterState) (s : State) : State := setFilter i st (s.taken id)

theorem takenFilter_eq {i : Nat} {st : FilterState} {x : Slot} {s : State} (h : s.intake.slots.getD i none = some x) :
    s.takenFilter i st = { s.taken id with intake := { (s.taken id).intake with
      slots := s.intake.slots.set i (some { x with filter := st }) } } := by
  rw [← modify_some_eq_set (fun y : Slot => { y with filter := st }) h]
  rfl

/-- What a frame that is appended leaves: its record in the FILLING buffer, its line and its slot moved, both counters. -/
structure FrameAppended (f : AcqFrame) (i b : Nat) (l : Line) (y : Buf) (rs : List Rec) (r : Rec) (x' : Slot) (s t : State) :
    Prop where
  taken : ∃ y', t.buf b = some y' ∧ y'.body = .records (rs ++ [r]) ∧ y'.fill = y.fill + recordSize f.payload.length ∧
    y'.hdr.count = y.hdr.count + 1 ∧ y'.st = y.st
  bufs : ∀ c, c ≠ b → t.buf c = s.buf c
  line : t.line f.line = some { l with next := l.next + 1, tFirst := some (l.tFirst.getD f.time), tLast := some f.time }
  lines : ∀ m, m ≠ f.line → t.line m = s.line m
  slots : t.intake.slots = s.intake.slots.set i (some x')
  appends : t.intake.appends = (s.intake.appends + 1) % 4294967296
  counters : t.intake.counters = { s.intake.counters with
    frames := min (s.intake.counters.frames + 1) 4294967295, stored := min (s.intake.counters.stored + 1) 4294967295 }
  link : t.link = s.link
  flash : t.flash = s.flash
  retr : t.retr = s.retr
  motion : t.motion = s.motion
  gauge : t.gauge = s.gauge
  power : t.power = s.power
  settings : t.settings = s.settings

/-- The draft of an instrument record of the frame `f`. -/
theorem frameAppended_of_appends {f : AcqFrame} {i b sup : Nat} {k : RecordKind} {short : Bool} {x : Slot} {l : Line}
    {y : Buf} {rs : List Rec} {s u t : State} (h : Appends i b (draftOf k short f sup) x l y u t)
    (hu : u = { s with intake := { (s.taken id).intake with slots := u.intake.slots } })
    (hset : ∀ z, u.intake.slots.set i z = s.intake.slots.set i z) (hx : x.line = f.line) (hy : y.body = .records rs)
    (hk : recInstrument ((draftOf k short f sup).record l.next s.power.clock (s.intake.linkState != .good)) = true) :
    FrameAppended f i b l y rs ((draftOf k short f sup).record l.next s.power.clock (s.intake.linkState != .good))
      (x.stored ((s.intake.appends + 1) % 4294967296) (draftOf k short f sup)) s t := by
  have hrec : u.recordOf (draftOf k short f sup) l =
      (draftOf k short f sup).record l.next s.power.clock (s.intake.linkState != .good) := by rw [hu]; rfl
  have hord : u.nextOrdinal = (s.intake.appends + 1) % 4294967296 := by rw [hu]; rfl
  have hbuf : ∀ c, u.buf c = s.buf c := fun c => by rw [hu]; rfl
  have hline : ∀ m, u.line m = s.line m := fun m => by rw [hu]; rfl
  obtain ⟨w, hintake⟩ := h.intake
  have hcount : u.intake.counters = (s.taken id).intake.counters := by rw [hu]
  obtain ⟨hbody, hfill, hcnt, hst⟩ := pack_records (r := u.recordOf (draftOf k short f sup) l) hy
  have hplaced := h.line
  rw [hrec, placed_instrument hk, hx] at hplaced
  exact
    { taken := ⟨_, h.taken, hrec ▸ hbody, by rw [hfill, hrec]; rfl, hcnt, hst⟩
      bufs := fun c hc => (h.bufs c hc).trans (hbuf c)
      line := hplaced
      lines := fun m hm => (h.lines m (hx ▸ hm)).trans (hline m)
      slots := by rw [hintake]; exact (hset _).trans (by rw [hord])
      appends := by rw [hintake]; exact hord
      counters := by rw [hintake, hcount]; rfl
      link := h.link.trans (by rw [hu])
      flash := h.flash.trans (by rw [hu])
      retr := h.retr.trans (by rw [hu])
      motion := h.motion.trans (by rw [hu])
      gauge := h.gauge.trans (by rw [hu])
      power := h.power.trans (by rw [hu])
      settings := h.settings.trans (by rw [hu]) }

end Sys2Proof.Machine

namespace Sys2Proof
open Machine

/-- Settles O39: each row packs its record behind those of the FILLING buffer. -/
theorem recordsAreAppendedToTheFillingBuffer : Obligations.RecordsAreAppendedToTheFillingBuffer := by
  intro f i b l x y rs s hs hopen hline hfits hslot hl hx hb hy hbody hroom appended kept
  obtain ⟨_, _, _, hslotOf⟩ := openSlot_some hslot
  have hxline : x.line = f.line := slotOf_line hslotOf hx
  have hmay := mayStore_of_opened hopen
  have happ : ∀ (k : FrameKind) (rk : RecordKind) (sup : Nat) (x₀ x' : Slot) (u : State), Still u →
      u = { s with intake := { (s.taken id).intake with slots := u.intake.slots } } →
      (∀ z, u.intake.slots.set i z = s.intake.slots.set i z) → u.intake.slots.getD i none = some x₀ → x₀.line = f.line →
      (∀ short, recInstrument ((draftOf rk short f sup).record l.next s.power.clock (s.intake.linkState != .good)) = true) →
      x₀.stored ((s.intake.appends + 1) % 4294967296) (draftOf rk (k.shortOf f) f sup) = x' →
      ((f.payload.length < k.least → s.discardShort = false) →
        handleFrame k f (s.taken id) = (appendInstrument i f.line (draftOf rk (k.shortOf f) f sup) u).1) →
      appended (k.row f) rk k.least sup x' := by
    intro k rk sup x₀ x' u hus hu hset hslot₀ hx₀ hinstr hx' hrow hshort r
    have hmay' : u.mayStore = true := by rw [hu]; exact hmay
    have hb' : u.fillingOf i = some b := by rw [hu]; exact hb
    have hy' : u.buf b = some y := by rw [hu]; exact hy
    have hl' : u.line x₀.line = some l := by rw [hu, hx₀]; exact hl
    obtain ⟨t, ht, hap⟩ := appendInstrument_fits (d := draftOf rk (k.shortOf f) f sup) f.line hmay' hslot₀ hl' hb' hy' hroom
    have hexec := exec_row_taken k hfits
    rw [checkFrame_opened hline (s := s.taken id) hopen, hrow hshort, ht, finish_still _ (hap.still hus)] at hexec
    have hfa := frameAppended_of_appends hap.updateWait hu hset hx₀ hbody (hinstr _)
    obtain ⟨y', h1, h2, h3, h4, h5⟩ := hfa.taken
    exact ⟨_, y', hexec, h1, h2, h3, h4, h5, hfa.bufs, hfa.line, hfa.lines, hx' ▸ hfa.slots, hfa.counters, hfa.link,
      hfa.flash, hfa.retr, hfa.motion, hfa.gauge, hfa.power, hfa.settings⟩
  refine ⟨?_, ?_, fun hfilter => ?_⟩
  · exact happ .trace .trace 0 x kept (s.taken id) (taken_still hs) rfl (fun _ => rfl) hx hxline (fun _ => rfl)
      (by simp [Slot.stored, draftOf, kept]) fun hshort =>
        (handleFrame_long (s := s.taken id) (fun h => hshort (of_decide_eq_true h))).trans
          (appendPlain_open (s := s.taken id) hslot)
  · exact happ .mark .mark 0 x kept (s.taken id) (taken_still hs) rfl (fun _ => rfl) hx hxline (fun _ => rfl)
      (by simp [Slot.stored, draftOf, kept]) fun hshort =>
        (handleFrame_long (s := s.taken id) (fun h => hshort (of_decide_eq_true h))).trans
          (appendPlain_open (s := s.taken id) hslot)
  · have hfresh := takenFilter_eq (st := .fresh) hx
    refine happ .status .status x.suppressed { x with filter := .fresh } _ (s.takenFilter i .fresh) ?_ ?_ (fun z => ?_) ?_ hxline
      (fun _ => rfl) ?_ fun hshort =>
        (handleFrame_long (s := s.taken id) (fun h => hshort (of_decide_eq_true h))).trans
          (appendStatus_unfiltered (s := s.taken id) hslot hx hfilter)
    · rw [hfresh]
      exact still_congr hs rfl rfl rfl rfl (fun _ => rfl) rfl hs.notPausing rfl
    · rw [hfresh]
      rfl
    · rw [hfresh]
      exact List.set_set ..
    · rw [hfresh]
      exact getD_set_self (slot_lt hx)
    · simp only [Slot.stored, draftOf, kept, FrameKind.shortOf, FrameKind.least]
      by_cases h : f.payload.length < 4 <;> simp [h]

end Sys2Proof
end

section
/-!
PROOFS. An OPEN-LINE that opens a new line.
-/
namespace Sys2Proof.Machine

/-! ## A new line in the table (R36, R37) -/

/-- A line put in the table by number is found there, and every other as before. -/
theorem find_insertLine {l : Line} {ls : List Line} (m : Nat) (h : ls.find? (fun x => x.num == l.num) = none) :
    (insertLine l ls).find? (fun x => x.num == m) = if m = l.num then some l else ls.find? fun x => x.num == m := by
  induction ls with
  | nil =>
    by_cases hm : m = l.num
    · simp [insertLine, hm]
    · simp [insertLine, hm, Ne.symm hm]
  | cons a ls ih =>
    rw [List.find?_cons] at h
    cases ha : a.num == l.num with
    | true =>
      rw [ha] at h
      cases h
    | false =>
      rw [ha] at h
      unfold insertLine
      split
      · by_cases hm : m = l.num
        · simp [hm]
        · simp [hm, Ne.symm hm]
      · rw [List.find?_cons, ih h, List.find?_cons]
        by_cases hm : m = l.num
        · simp [hm, ha]
        · simp [hm]

/-- A new line as it is opened while the link is GOOD, or not. -/
def openedLine (n : Nat) (degraded : Bool) : Line :=
  { freshLine n with flags := { (freshLine n).flags with degraded := degraded } }

/-- The slot as a line takes it (R37). -/
def openedSlot (f : AcqFrame) (n : Nat) : Slot :=
  { line := f.line, ordinal := n, station := f.station, time := f.time, filter := .fresh, reference := none, suppressed := 0 }

/-- The table with a new line of this number, OPEN. -/
def State.withLine (n : Nat) (s : State) : State :=
  degradeOpened n (s.modStore fun t => { t with lines := insertLine (freshLine n) t.lines })

theorem degradeOpened_frame (n : Nat) (s : State) :
    ∃ ls, degradeOpened n s = { s with store := { s.store with lines := ls } } := by
  unfold degradeOpened
  split
  · exact ⟨s.store.lines, rfl⟩
  · exact ⟨_, rfl⟩

theorem degradeOpened_line {n : Nat} {l : Line} {s : State} (h : s.line n = some l) (m : Nat) :
    (degradeOpened n s).line m = if m = n then some { l with
      flags := { l.flags with degraded := l.flags.degraded || s.intake.linkState != .good } } else s.line m := by
  unfold degradeOpened
  by_cases hg : s.intake.linkState = .good
  · simp only [hg, if_true, bne_self_eq_false, Bool.or_false]
    split
    · rename_i hm
      rw [hm, h]
    · rfl
  · rw [if_neg hg]
    have hline : (s.flagLine n fun f => { f with degraded := true }).line m = (s.line m).map fun l =>
        if l.num == n then { l with flags := { l.flags with degraded := true } } else l :=
      line_modLine n m (fun l : Line => { l with flags := { l.flags with degraded := true } }) (fun _ => rfl) s
    rw [hline, bne_iff_ne.mpr hg, Bool.or_true]
    split
    · rename_i hm
      rw [hm, h]
      simp [line_num h]
    · rename_i hm
      cases hk : s.line m with
      | none => rfl
      | some k => simp [line_num hk, hm]

theorem withLine_frame (n : Nat) (s : State) : ∃ ls, s.withLine n = { s with store := { s.store with lines := ls } } :=
  degradeOpened_frame n _

theorem withLine_line {n : Nat} {s : State} (h : s.line n = none) (m : Nat) :
    (s.withLine n).line m = if m = n then some (openedLine n (s.intake.linkState != .good)) else s.line m := by
  have hfresh : ∀ m, (s.modStore fun t => { t with lines := insertLine (freshLine n) t.lines }).line m =
      if m = n then some (freshLine n) else s.line m := fun m => find_insertLine m h
  refine (degradeOpened_line ((hfresh n).trans (if_pos rfl)) m).trans ?_
  rw [hfresh]
  split
  · exact congrArg some (by rw [openedLine]; rfl)
  · rfl

/-! ## A slot is taken (R37) -/

theorem takeSlot_stored {f : AcqFrame} {i : Nat} {s t : State} (hi : s.intake.slots.findIdx? Option.isNone = some i)
    (h : appendInstrument i f.line (draftOf .header false f 0) (s.setSlot i (some (openedSlot f 0))) = (t, true)) :
    takeSlot f s = t := by
  rw [openedSlot] at h
  simp only [takeSlot, hi, h]

theorem freeASlot_free {i : Nat} {s : State} (hi : s.intake.slots.findIdx? Option.isNone = some i) : freeASlot s = s := by
  refine if_pos (List.any_eq_true.mpr ?_)
  obtain ⟨hlt, hnone, _⟩ := List.findIdx?_eq_some_iff_getElem.mp hi
  exact ⟨_, List.getElem_mem hlt, hnone⟩

theorem freeSlot_lt {i : Nat} {xs : List (Option Slot)} (hi : xs.findIdx? Option.isNone = some i) : i < xs.length :=
  (List.findIdx?_eq_some_iff_getElem.mp hi).1

/-- The HEADER record of a line that takes a free slot begins a buffer. -/
theorem takeSlot_begins {f : AcqFrame} {i b : Nat} {l : Line} {s : State} (hmay : s.mayStore = true)
    (hi : s.intake.slots.findIdx? Option.isNone = some i) (hl : s.line f.line = some l) (hb : s.fillingOf i = none)
    (hpages : s.pageNumber l < 520200) (hfree : s.freeBuffer = some b) :
    Appends i b (draftOf .header false f 0) (openedSlot f 0) l (fillingBuf i f.line)
      (s.setSlot i (some (openedSlot f 0))) (takeSlot f s) := by
  obtain ⟨t, ht, happ⟩ := appendInstrument_begins (d := draftOf .header false f 0) (x := openedSlot f 0)
    (u := s.setSlot i (some (openedSlot f 0))) f.line hmay (getD_set_self (freeSlot_lt hi)) hl hb hpages hfree
  rw [takeSlot_stored hi ht]
  exact happ

theorem handleOpen_new {f : AcqFrame} {s : State} (hpermit : s.settings.permit.allows f.line = true)
    (hl : s.line f.line = none) (herase : s.erasing f.line = false) (hroom : s.store.lines.length < 2048) :
    handleOpen f s = openNew f s := by
  have hfull : ¬Config.lineTableEntries ≤ s.store.lines.length := hroom.not_ge
  simp [handleOpen, hpermit, hl, herase, hfull]

end Sys2Proof.Machine

namespace Sys2Proof
open Machine

/-- Settles O37: the line enters the table, takes its slot, and its HEADER record begins a buffer. -/
theorem openLineOpensANewLine : Obligations.OpenLineOpensANewLine := by
  intro f i b s hs hopen hline hfits hpermit hl herase hroom hi hb hfree hstaged degraded r n
  let u := (s.taken id).withLine f.line
  obtain ⟨ls, hu⟩ := withLine_frame f.line (s.taken id)
  have hu : u = { s.taken id with store := { s.store with lines := ls } } := hu
  have huline : ∀ m, u.line m = if m = f.line then some (openedLine f.line degraded) else s.line m :=
    withLine_line (s := s.taken id) hl
  have hpages : u.pageNumber (openedLine f.line degraded) < 520200 := by
    have hstaged' : u.stagedBufs f.line = [] := by rw [hu]; exact hstaged
    have hzero : u.pageNumber (openedLine f.line degraded) = 0 + (u.stagedBufs f.line).length := rfl
    rw [hzero, hstaged']
    decide
  have happ := takeSlot_begins (f := f) (i := i) (b := b) (s := u) (by rw [hu]; exact mayStore_of_opened hopen)
    (by rw [hu]; exact hi) ((huline _).trans (if_pos rfl)) (by rw [hu]; exact hb) hpages (by rw [hu]; exact hfree)
  have hnew : handleFrame .openLine f (s.taken id) = takeSlot f u := by
    have hopenNew := handleOpen_new (s := s.taken id) hpermit hl herase hroom
    rw [openNew, freeASlot_free (s := s.taken id) hi] at hopenNew
    exact (handleFrame_long (s := s.taken id) (by simp [FrameKind.shortOf, FrameKind.least])).trans hopenNew
  have hstill : Still (u.setSlot i (some (openedSlot f 0))) := by
    rw [hu]
    exact still_congr hs rfl rfl rfl rfl (fun _ => rfl) rfl hs.notPausing rfl
  have hexec := exec_row_taken .openLine hfits
  rw [checkFrame_opened hline (s := s.taken id) hopen, hnew, finish_still _ (happ.still hstill)] at hexec
  have happ := happ.updateWait
  obtain ⟨w, hintake⟩ := happ.intake
  have hrec : (u.setSlot i (some (openedSlot f 0))).recordOf (draftOf .header false f 0) (openedLine f.line degraded) = r := by
    rw [hu]
    rfl
  have hord : (u.setSlot i (some (openedSlot f 0))).nextOrdinal = n := by
    rw [hu]
    rfl
  have hlineOf := happ.line
  rw [hrec, placed_instrument rfl] at hlineOf
  have hbuf := happ.taken
  rw [hrec] at hbuf
  refine ⟨_, hexec, hlineOf, fun m hm => ?_, ?_, ?_, ?_, ⟨_, hbuf, rfl, rfl, rfl, rfl, ?_, rfl, rfl, rfl, rfl, rfl⟩,
    fun c hc => (happ.bufs c hc).trans (by rw [hu]; rfl), happ.link.trans (by rw [hu]; rfl), happ.flash.trans (by rw [hu]; rfl),
    happ.retr.trans (by rw [hu]; rfl), happ.motion.trans (by rw [hu]; rfl), happ.gauge.trans (by rw [hu]; rfl),
    happ.power.trans (by rw [hu]; rfl), happ.settings.trans (by rw [hu]; rfl)⟩
  · exact (happ.lines m hm).trans ((huline m).trans (if_neg hm))
  · rw [hintake]
    exact hord
  · rw [hintake, hord, hu]
    exact List.set_set ..
  · rw [hintake, hu]
    rfl
  · exact Nat.zero_add _

end Sys2Proof
end

section
/-!
PROOFS. An OPEN-LINE that is refused, that reopens a line, or that takes the slot of another; and the status filter.
-/
namespace Sys2Proof.Machine

/-! ## A refused OPEN-LINE (R36) -/

section Refused
variable {f : AcqFrame} {s : State}

theorem handleOpen_permit (h : s.settings.permit.allows f.line = false) : handleOpen f s = refuseOpen .permit f.line s := by
  simp [handleOpen, h]

theorem handleOpen_locked {l : Line} (hp : s.settings.permit.allows f.line = true) (hl : s.line f.line = some l)
    (hst : l.st = .locked) : handleOpen f s = refuseOpen .locked f.line s := by simp [handleOpen, hp, hl, hst]

theorem handleOpen_busy {l : Line} (hp : s.settings.permit.allows f.line = true) (hl : s.line f.line = some l)
    (hst : l.st = .closing ∨ (l.st ≠ .locked ∧ s.erasing f.line = true)) : handleOpen f s = refuseOpen .busy f.line s := by
  rcases hst with hst | ⟨hst, he⟩
  · simp [handleOpen, hp, hl, hst]
  · cases hk : l.st
    case locked => exact absurd hk hst
    all_goals simp [handleOpen, hp, hl, hk, he]

theorem handleOpen_erasing (hp : s.settings.permit.allows f.line = true) (hl : s.line f.line = none)
    (he : s.erasing f.line = true) : handleOpen f s = refuseOpen .busy f.line s := by simp [handleOpen, hp, hl, he]

theorem handleOpen_full (hp : s.settings.permit.allows f.line = true) (hl : s.line f.line = none)
    (he : s.erasing f.line = false) (hfull : 2048 ≤ s.store.lines.length) :
    handleOpen f s = refuseOpen .tableFull f.line s := by
  have hfull : Config.lineTableEntries ≤ s.store.lines.length := hfull
  simp [handleOpen, hp, hl, he, hfull]

theorem handleOpen_reopens {l : Line} (hp : s.settings.permit.allows f.line = true) (hl : s.line f.line = some l)
    (hst : l.st = .closed) (he : s.erasing f.line = false) : handleOpen f s = reopen f s := by
  simp [handleOpen, hp, hl, hst, he]

/-- The counter of a refusal. -/
def RefuseReason.counted (r : RefuseReason) (c : IntakeCounters) : IntakeCounters :=
  match r with
  | .permit => { c with permit := min (c.permit + 1) 4294967295 }
  | .locked => { c with locked := min (c.locked + 1) 4294967295 }
  | .busy => { c with busy := min (c.busy + 1) 4294967295 }
  | .tableFull => { c with tableFull := min (c.tableFull + 1) 4294967295 }
  | .overrun => c

theorem refuseOpen_taken (r : RefuseReason) (n : Nat) (s : State) :
    refuseOpen r n (s.taken id) = raiseNotice .intakeRefused (le1 r.code ++ le2 n) (s.taken r.counted) := by
  cases r <;> rfl

theorem raiseNotice_still {k : NoticeKind} {d : List Byte} (h : Still s) : Still (raiseNotice k d s) :=
  still_congr h rfl rfl rfl rfl (fun _ => rfl) rfl
    ((isRunning_congr _ (raiseNotice_noticed k d s).running).trans h.notPausing) rfl

/-- A refused OPEN-LINE is counted and raises INTAKE-REFUSED. -/
theorem exec_openLine_refused {r : RefuseReason} (hs : Still s) (hopen : s.intakeState = .opened) (hline : f.line ≠ 0)
    (hfits : f.payload.length ≤ s.maxPayload) (h : handleOpen f (s.taken id) = refuseOpen r f.line (s.taken id)) :
    exec (.openLine f) s =
      .next (updateWait (raiseNotice .intakeRefused (le1 r.code ++ le2 f.line) (s.taken r.counted))) := by
  have hexec := exec_row_taken .openLine hfits
  have hlong : handleFrame .openLine f (s.taken id) = handleOpen f (s.taken id) :=
    handleFrame_long (s := s.taken id) (by simp [FrameKind.shortOf, FrameKind.least])
  rw [checkFrame_opened hline (s := s.taken id) hopen, hlong, h, refuseOpen_taken,
    finish_still _ (raiseNotice_still (taken_still hs))] at hexec
  exact hexec

end Refused

/-! ## A reopen (R37, R109) -/

/-- One line changed under its own number: where it is looked for, and where another is. -/
theorem line_modLine_at {n : Nat} {l : Line} {s : State} {f : Line → Line} (hf : ∀ l, (f l).num = l.num)
    (h : s.line n = some l) (m : Nat) : (s.modLine n f).line m = if m = n then some (f l) else s.line m := by
  split
  · rename_i hm
    rw [hm, line_modLine n n f hf, h]
    simp [line_num h]
  · rename_i hm
    exact line_modLine_ne hm f hf s

/-- The line as it is reopened, its root to be read. -/
def Line.reopened (degraded : Bool) (l : Line) : Line :=
  { l with
    st := .opened, load := .readRoot,
    flags := { l.flags with reopened := true, degraded := l.flags.degraded || degraded } }

/-- The state of a reopen before a slot is taken. -/
def State.reopening (n : Nat) (s : State) : State :=
  beginLoad n (degradeOpened n (s.modLine n fun l => { l with st := .opened, flags := { l.flags with reopened := true } }))

theorem reopen_eq {f : AcqFrame} {i : Nat} {s : State} (hi : s.intake.slots.findIdx? Option.isNone = some i) :
    reopen f s = takeSlot f (s.reopening f.line) := by
  simp only [reopen, freeASlot_free hi]
  rfl

/-- A line with a root, of which no rewrite is under way, is reopened with the read of its root. -/
theorem reopening_eq {n : Nat} {l : Line} {r : Loc} {s : State} (hl : s.line n = some l) (hr : l.root = some r)
    (hbusy : s.lineBusy n = false) :
    (∀ m, (s.reopening n).line m =
        if m = n then some (l.reopened (s.intake.linkState != .good)) else s.line m) ∧
      ∃ ls, s.reopening n = { s with
        store := { s.store with lines := ls },
        flash := { s.flash with reads := s.flash.reads ++ [{ addr := r.addr, purpose := .loadRoot n }] } } := by
  let f : Line → Line := fun l => { l with st := .opened, flags := { l.flags with reopened := true } }
  let u := s.modLine n f
  have hu : ∀ m, u.line m = if m = n then some (f l) else s.line m := line_modLine_at (fun _ => rfl) hl
  have hdeg := degradeOpened_line ((hu n).trans (if_pos rfl))
  obtain ⟨ls, hframe⟩ := degradeOpened_frame n u
  have hload : s.reopening n = requestRead r.addr (.loadRoot n) (setLoad n .readRoot (degradeOpened n u)) := by
    have hbusy' : (degradeOpened n u).lineBusy n = false := by
      rw [hframe]
      exact hbusy
    have hroot : ((degradeOpened n u).line n).bind Line.root = some r := by
      rw [hdeg, if_pos rfl]
      exact hr
    have hbegin : s.reopening n = beginLoad n (degradeOpened n u) := rfl
    simp only [hbegin, beginLoad, hbusy', Bool.false_eq_true, if_false, startRootLoad, hroot]
  refine ⟨fun m => ?_, _, hload.trans (by rw [hframe]; rfl)⟩
  rw [hload]
  refine (line_modLine_at (f := fun l : Line => { l with load := .readRoot }) (fun _ => rfl)
    ((hdeg n).trans (if_pos rfl)) m).trans ?_
  rw [hdeg, hu]
  split
  · rfl
  · rfl

/-! ## The status filter (R41, Table 2-3) -/

/-- Two payload heads agree under the mask, byte `k` of the mask on. -/
theorem maskEqual_iff {s : State} (as : List Byte) : ∀ {bs : List Byte} {k : Nat}, as.length = bs.length →
    (maskEqual s k as bs = true ↔
      ∀ j, j < bs.length → byteAt as j &&& s.filterMask (k + j) = byteAt bs j &&& s.filterMask (k + j)) := by
  induction as with
  | nil =>
    intro bs k h
    cases bs with
    | nil => simp [maskEqual]
    | cons b bs => cases h
  | cons a as ih =>
    intro bs k h
    cases bs with
    | nil => cases h
    | cons b bs =>
      have hlen : as.length = bs.length := Nat.succ.inj h
      rw [maskEqual, Bool.and_eq_true, beq_iff_eq, ih hlen]
      refine ⟨fun ⟨h0, hrest⟩ j hj => ?_, fun hall => ⟨hall 0 (Nat.zero_lt_succ _), fun j hj => ?_⟩⟩
      · cases j with
        | zero => exact h0
        | succ j =>
          have := hrest j (Nat.lt_of_succ_lt_succ hj)
          rwa [Nat.succ_add_eq_add_succ] at this
      · have := hall (j + 1) (Nat.succ_lt_succ hj)
        rwa [← Nat.succ_add_eq_add_succ k j] at this

theorem byteAt_take {xs : List Byte} {j n : Nat} (h : j < n) : byteAt (xs.take n) j = byteAt xs j := by
  simp [byteAt, List.getD, h]

/-- A STATUS payload agrees with the reference of its slot: its length, and the masked bytes of its head. -/
def State.sameStatus (reference : Option (Nat × List Byte)) (payload : List Byte) (s : State) : Prop :=
  ∃ bs, reference = some (payload.length, bs) ∧ bs.length = min 8 payload.length ∧
    ∀ j, j < bs.length → byteAt payload j &&& s.filterMask j = byteAt bs j &&& s.filterMask j

/-- The comparison of R41, where the reference holds the head of the payload it was taken from. -/
theorem filterMatches_iff {reference : Option (Nat × List Byte)} {payload : List Byte} {s : State}
    (hhead : ∀ m bs, reference = some (m, bs) → bs.length = min 8 m) :
    filterMatches s reference payload = true ↔ s.sameStatus reference payload := by
  have hmask : ∀ bs : List Byte, bs.length = min 8 payload.length → (maskEqual s 0 (payload.take 8) bs = true ↔
      ∀ j, j < bs.length → byteAt payload j &&& s.filterMask j = byteAt bs j &&& s.filterMask j) := by
    intro bs hlen
    rw [maskEqual_iff _ (by rw [List.length_take, hlen])]
    refine forall_congr' fun j => imp_congr_right fun hj => ?_
    rw [Nat.zero_add, byteAt_take (by omega)]
  cases reference with
  | none => exact ⟨nofun, fun ⟨_, h, _⟩ => by cases h⟩
  | some p =>
    obtain ⟨m, bs⟩ := p
    have hlen := hhead m bs rfl
    rw [filterMatches, Bool.and_eq_true, beq_iff_eq]
    refine ⟨fun ⟨hm, he⟩ => ⟨bs, by rw [hm], by rw [hlen, hm], (hmask bs (by rw [hlen, hm])).mp he⟩, ?_⟩
    rintro ⟨bs', h, hlen', hall⟩
    cases h
    exact ⟨rfl, (hmask bs hlen').mpr hall⟩

/-- With the reference that it agrees with, the length of the head is that of the payload's. -/
theorem filterMatches_of_same {reference : Option (Nat × List Byte)} {payload : List Byte} {s : State}
    (h : s.sameStatus reference payload) : filterMatches s reference payload = true := by
  refine (filterMatches_iff fun m bs hr => ?_).mpr h
  obtain ⟨bs', hr', hlen, _⟩ := h
  rw [hr] at hr'
  cases hr'
  exact hlen

section Filter
variable {i : Nat} {f : AcqFrame} {x : Slot} {s : State}

/-- A STATUS frame that the filter drops. -/
theorem appendStatus_dropped (h : s.openSlot f.line = some i) (hx : s.intake.slots.getD i none = some x)
    (hfilter : s.filterEnable = true) {next : FilterState}
    (hstep : filterStep x.filter (filterMatches s x.reference f.payload) = (next, false)) :
    appendStatus false f s = ((setFilter i next s).modSlot i fun x =>
      { x with suppressed := min (x.suppressed + 1) 65535 }).count fun c =>
        { c with suppressed := min (c.suppressed + 1) 4294967295 } := by
  simp only [appendStatus, h, hx, hfilter, hstep, Bool.not_true, Bool.false_eq_true, if_false]
  rfl

/-- A STATUS frame that the filter passes. -/
theorem appendStatus_passed (h : s.openSlot f.line = some i) (hx : s.intake.slots.getD i none = some x)
    (hfilter : s.filterEnable = true) {next : FilterState}
    (hstep : filterStep x.filter (filterMatches s x.reference f.payload) = (next, true)) :
    appendStatus false f s =
      (appendInstrument i f.line (draftOf .status false f x.suppressed) (setFilter i next s)).1 := by
  simp only [appendStatus, h, hx, hfilter, hstep, Bool.not_true, Bool.false_eq_true, if_false, if_true]

end Filter

end Sys2Proof.Machine
end

section
/-!
PROOFS. An OPEN-LINE that takes the slot of another line.
-/
namespace Sys2Proof.Machine

/-! ## The slot that is freed (R38) -/

/-- The step of the search for the oldest slot. -/
def olderSlot (b x : Option Slot) : Option Slot :=
  match b, x with
  | none, x => x
  | some y, none => some y
  | some y, some x => if x.ordinal < y.ordinal then some x else some y

theorem oldestSlot_eq (xs : List (Option Slot)) : oldestSlot xs = xs.foldl olderSlot none := rfl

/-- A slot whose ordinal is smaller than every other's is found. -/
theorem foldl_olderSlot {x : Slot} (xs : List (Option Slot)) : ∀ b : Option Slot,
    (∀ y, b = some y ∨ some y ∈ xs → y = x ∨ x.ordinal < y.ordinal) → (b = some x ∨ some x ∈ xs) →
    xs.foldl olderSlot b = some x := by
  induction xs with
  | nil => exact fun b _ hx => hx.resolve_right (by simp)
  | cons a xs ih =>
    intro b hall hx
    have hstep : ∀ y, olderSlot b a = some y → b = some y ∨ a = some y := by
      intro y hy
      cases b with
      | none => exact .inr hy
      | some p =>
        cases a with
        | none => exact .inl hy
        | some q =>
          unfold olderSlot at hy
          dsimp only at hy
          split at hy
          · exact .inr hy
          · exact .inl hy
    refine ih _ (fun y hy => hall y ?_) ?_
    · rcases hy with hy | hy
      · exact (hstep y hy).imp_right fun h => by simp [h]
      · exact .inr (List.mem_cons_of_mem _ hy)
    · have hkept : (b = some x ∨ a = some x) → olderSlot b a = some x := by
        intro h
        cases b with
        | none => exact h.resolve_left nofun
        | some p =>
          cases a with
          | none => exact h.resolve_right nofun
          | some q =>
            have hp := hall p (.inl rfl)
            have hq := hall q (.inr (by simp))
            unfold olderSlot
            rcases h with h | h <;> cases h
            · rcases hq with rfl | hq
              · exact ite_self _
              · exact if_neg hq.not_gt
            · rcases hp with rfl | hp
              · exact ite_self _
              · exact if_pos hp
      rcases hx with hx | hx
      · exact .inl (hkept (.inl hx))
      · rcases List.mem_cons.mp hx with hx | hx
        · exact .inl (hkept (.inr hx.symm))
        · exact .inr hx

theorem oldestSlot_of_least {xs : List (Option Slot)} {i : Nat} {x : Slot} (hx : xs[i]? = some (some x))
    (hleast : ∀ j y, j ≠ i → xs[j]? = some (some y) → x.ordinal < y.ordinal) : oldestSlot xs = some x := by
  refine foldl_olderSlot xs none (fun y hy => ?_) (.inr (List.mem_of_getElem? hx))
  obtain ⟨j, hj⟩ := List.mem_iff_getElem?.mp (hy.resolve_left nofun)
  by_cases h : j = i
  · subst h
    rw [hx] at hj
    cases hj
    exact .inl rfl
  · exact .inr (hleast j y h hj)

/-- The slot of a line is the first that names it. -/
theorem slotOf_of_only {n i : Nat} {x : Slot} {s : State} (hx : s.intake.slots[i]? = some (some x)) (hn : x.line = n)
    (honly : ∀ j y, j ≠ i → s.intake.slots[j]? = some (some y) → y.line ≠ n) : s.slotOf n = some i := by
  obtain ⟨hi, hget⟩ := List.getElem?_eq_some_iff.mp hx
  refine List.findIdx?_eq_some_iff_getElem.mpr ⟨hi, by simp [hget, hn], fun j hj => ?_⟩
  have hjl : j < s.intake.slots.length := by omega
  cases hy : s.intake.slots[j] with
  | none => simp
  | some y =>
    have := honly j y (by omega) (by rw [List.getElem?_eq_getElem hjl, hy])
    simpa using this

/-- Where one slot of all is freed it is the lowest-numbered free one. -/
theorem findIdx_isNone_set {xs : List (Option Slot)} {i : Nat} (hi : i < xs.length) (hall : ∀ y ∈ xs, y.isSome = true) :
    (xs.set i none).findIdx? Option.isNone = some i := by
  refine List.findIdx?_eq_some_iff_getElem.mpr ⟨by simpa using hi, by simp, fun j hj => ?_⟩
  have hjl : j < xs.length := by omega
  rw [List.getElem_set_ne (by omega)]
  have hsome := hall _ (List.getElem_mem hjl)
  simpa [Option.isSome_iff_ne_none] using hsome

/-! ## Pages of a line in staging (R45) -/

/-- No buffer holds a page of line `n` that the intake is to be told of. -/
def State.noneStaged (n : Nat) (s : State) : Prop :=
  ∀ b, some b ∈ s.staging.bufs → (b.origin == .intake && b.hdr.line == n && !b.reported) = false

theorem stagedBufs_nil_iff (n : Nat) (s : State) : s.stagedBufs n = [] ↔ s.noneStaged n := by
  simp only [State.stagedBufs, List.filter_eq_nil_iff, List.mem_filterMap, id_eq, exists_eq_right, State.noneStaged,
    Bool.not_eq_true]

theorem noneStaged_modBuf {n b : Nat} {f : Buf → Buf} {s : State} (h : s.noneStaged n)
    (hf : ∀ x, (f x).origin = x.origin ∧ (f x).hdr = x.hdr ∧ (f x).reported = x.reported) : (s.modBuf b f).noneStaged n := by
  intro y hy
  obtain ⟨j, hj⟩ := List.mem_iff_getElem?.mp hy
  have hj : (s.staging.bufs.modify b (Option.map f))[j]? = some (some y) := hj
  rw [List.getElem?_modify] at hj
  obtain ⟨z, hz, hzy⟩ := Option.map_eq_some_iff.mp hj
  split at hzy
  · obtain ⟨x, rfl, rfl⟩ := Option.map_eq_some_iff.mp hzy
    obtain ⟨h1, h2, h3⟩ := hf x
    rw [h1, h2, h3]
    exact h x (List.mem_of_getElem? hz)
  · subst hzy
    exact h y (List.mem_of_getElem? hz)

theorem noneStaged_congr {n : Nat} {s t : State} (h : s.noneStaged n) (hb : t.staging.bufs = s.staging.bufs) :
    t.noneStaged n := by
  rw [State.noneStaged, hb]
  exact h

theorem noneStaged_queueFilling {n b : Nat} {s : State} (h : s.noneStaged n) : (queueFilling b s).noneStaged n :=
  noneStaged_congr (noneStaged_modBuf (b := b) (f := fun x => { x with st := .queued, slot := none }) h
    fun _ => ⟨rfl, rfl, rfl⟩) rfl

theorem noneStaged_setBuf {n b : Nat} {x : Buf} {s : State} (h : s.noneStaged n) (hx : x.origin ≠ .intake) :
    (s.setBuf b (some x)).noneStaged n := by
  intro y hy
  rcases List.mem_or_eq_of_mem_set hy with hy | hy
  · exact h y hy
  · cases hy
    simp [hx]

/-- The image of a flush or of a close is none of the intake. -/
theorem origin_of_build {q : ImageReq} {n : Nat} {im : Image} {t : LineStore} {s : State}
    (hq : q = .flush n ∨ q = .closeRoot n) (h : buildRequest q s = some (im, t)) : im.origin ≠ .intake := by
  have hindex : Origin.index ≠ .intake := by decide
  rcases hq with rfl | rfl
  · simp only [buildRequest, buildFlush] at h
    split at h
    · cases h
    · split at h
      · cases h
      · cases h
        exact hindex
  · simp only [buildRequest, buildCloseRoot] at h
    split at h
    · cases h
    · split at h
      · cases h
        exact hindex
      · cases h

theorem noneStaged_requestImage {q : ImageReq} {m n : Nat} {s : State} (hq : q = .flush m ∨ q = .closeRoot m)
    (h : s.noneStaged n) : (requestImage q s).noneStaged n := by
  have hnext : ∀ u, nextRequest q u = none := by rcases hq with rfl | rfl <;> exact fun _ => rfl
  have hs : q.isSettings = false := by rcases hq with rfl | rfl <;> rfl
  unfold requestImage addRequest
  split
  · rw [if_neg (by rw [writable_of_notSettings s hs]; nofun)]
    cases hb : buildRequest q s with
    | none => exact h
    | some x =>
      simp only [hnext]
      unfold giveBuffer putImage
      dsimp only
      have hput : ∀ u : State, u.staging.bufs = s.staging.bufs → ∀ b, (u.setBuf b (some
          { st := .queued, origin := x.1.origin, slot := none, fill := 0, hdr := x.1.hdr, body := x.1.body, target := none,
            exposed := false, reported := false, handed := false, job := x.1.job })).noneStaged n :=
        fun u hu b => noneStaged_setBuf (noneStaged_congr h hu) (origin_of_build hq hb)
      split
      · obtain ⟨fl, hfl⟩ := settingsDue_frame (updateWait _)
        rw [hfl]
        exact hput (s.modStore fun _ => x.2) rfl _
      · exact hput (s.modStore fun _ => x.2) rfl _
  · exact h

theorem noneStaged_requestFlush {n m : Nat} {pressure : Bool} {s : State} (h : s.noneStaged m) :
    (requestFlush n pressure s).noneStaged m := by
  unfold requestFlush
  split
  · exact h
  · dsimp only
    split
    · exact h
    · exact noneStaged_requestImage (.inl rfl) h

theorem noneStaged_closeAdvance {n m : Nat} {s : State} (h : s.noneStaged m) : (closeAdvance n s).noneStaged m := by
  unfold closeAdvance
  split
  · exact h
  · split
    · exact h
    · split
      · exact noneStaged_requestFlush h
      · split
        · exact h
        · exact noneStaged_requestImage (.inr rfl) h

theorem noneStaged_requestClose {n m : Nat} {r : CloseReason} {cut : Bool} {s : State} (h : s.noneStaged m) :
    (requestClose n r cut s).noneStaged m := by
  unfold requestClose
  split
  · exact h
  · split
    · exact h
    · dsimp only
      refine noneStaged_closeAdvance ?_
      split
      · next i _ =>
        have hqueue : (queueSlot i s).noneStaged m := by
          unfold queueSlot
          split
          · exact noneStaged_queueFilling h
          · exact h
        exact noneStaged_congr hqueue rfl
      · exact h

/-! ## A slot taken in any state (R37, R45, R46) -/

/-- What the placing of a record leaves alone: from `s` to `t` staging, the wait line, and how far its line has come. -/
structure Places (s t : State) : Prop where
  frame : ∃ ls w, t = { s with
    staging := t.staging, store := { s.store with lines := ls }, intake := { s.intake with wait := w } }
  states : ∀ m, (t.line m).map Line.st = (s.line m).map Line.st

theorem Places.refl (s : State) : Places s s := ⟨⟨s.store.lines, s.intake.wait, rfl⟩, fun _ => rfl⟩

theorem Places.trans {s t u : State} (h : Places s t) (k : Places t u) : Places s u := by
  obtain ⟨⟨ls, w, ht⟩, hst⟩ := h
  obtain ⟨⟨ls', w', hu⟩, hst'⟩ := k
  refine ⟨⟨ls', w', ?_⟩, fun m => (hst' m).trans (hst m)⟩
  rw [ht] at hu
  exact hu

theorem states_modLine {n : Nat} {f : Line → Line} {s : State} (hf : ∀ l, (f l).num = l.num) (hst : ∀ l, (f l).st = l.st)
    (m : Nat) : ((s.modLine n f).line m).map Line.st = (s.line m).map Line.st := by
  rw [line_modLine n m f hf]
  cases s.line m with
  | none => rfl
  | some l =>
    rw [Option.map_some, Option.map_some, Option.map_some]
    split
    · rw [hst]
    · rfl

theorem packInto_places (b n : Nat) (r : Rec) (s : State) : Places s (packInto b n r s) :=
  ⟨⟨_, s.intake.wait, rfl⟩, states_modLine (s := s.modBuf b (Buf.pack r)) (fun _ => rfl) fun _ => rfl⟩

theorem bindAndPack_places (i n : Nat) (l : Line) (r : Rec) (s : State) : Places s (bindAndPack i n l r s).1 := by
  unfold bindAndPack
  split
  · exact .refl s
  · split
    · exact .refl s
    · next b _ =>
      exact (Places.trans (t := s.setBuf b (some (fillingBuf i n))) ⟨⟨s.store.lines, s.intake.wait, rfl⟩, fun _ => rfl⟩
        (packInto_places b n r _)).trans ⟨⟨_, _, rfl⟩, fun _ => rfl⟩

theorem placeRecord_places (i : Nat) (d : Draft) (s : State) : Places s (placeRecord i d s).1 := by
  unfold placeRecord
  split
  · exact .refl s
  · split
    · exact .refl s
    · dsimp only
      split
      · split
        · exact packInto_places _ _ _ s
        · next b _ _ =>
          exact (Places.trans (t := queueFilling b s) ⟨⟨s.store.lines, s.intake.wait, rfl⟩, fun _ => rfl⟩
            (bindAndPack_places _ _ _ _ _))
      · exact bindAndPack_places _ _ _ _ s

/-- A record of a line with no page in staging and few programmed is not dropped at the page limit. -/
theorem placeRecord_not_limit {i : Nat} {d : Draft} {x : Slot} {l : Line} {s : State}
    (hslot : s.intake.slots.getD i none = some x) (hl : s.line x.line = some l) (hpages : l.pages < 520200)
    (hstaged : s.noneStaged x.line) : (placeRecord i d s).2 ≠ .limit := by
  have hbind : ∀ u : State, u.noneStaged x.line → ∀ r, (bindAndPack i l.num l r u).2 ≠ .limit := by
    intro u hu r
    have hnone : u.stagedBufs l.num = [] := (stagedBufs_nil_iff _ u).mpr (by rw [line_num hl]; exact hu)
    have hroom : ¬Config.pagesPerLine ≤ u.pageNumber l := by
      rw [State.pageNumber, hnone]
      exact hpages.not_ge
    unfold bindAndPack
    rw [if_neg hroom]
    split <;> nofun
  unfold placeRecord
  split
  · nofun
  · simp only [hslot, Option.bind_some, hl]
    split
    · split
      · nofun
      · exact hbind _ (noneStaged_queueFilling hstaged) _
    · exact hbind s hstaged _

end Sys2Proof.Machine
end

section
/-!
PROOFS. An OPEN-LINE in every case, and the status filter.
-/
namespace Sys2Proof.Machine

/-! ## A line takes the slot that was freed (R37, R38) -/

/-- The append counter's step leaves its value on the slot. -/
theorem advanceOrdinal_eq {i : Nat} {x : Slot} {s : State} (h : s.intake.slots.getD i none = some x) :
    advanceOrdinal i s = { s with intake := { s.intake with
      appends := s.nextOrdinal, slots := s.intake.slots.set i (some { x with ordinal := s.nextOrdinal }) } } := by
  rw [← modify_some_eq_set (fun y : Slot => { y with ordinal := s.nextOrdinal }) h]
  rfl

/-- What an overrun leaves: it is counted and told of. -/
theorem overrun_frame (n : Nat) (s : State) :
    ∃ l i, overrun n s = { s with link := l, intake := i } ∧ i.slots = s.intake.slots ∧ i.appends = s.intake.appends ∧
      l.running = s.link.running := by
  have hrun : ∀ (k : NoticeKind) (d : List Byte) (u : State), (raiseNotice k d u).link.running = u.link.running :=
    fun k d u => (raiseNotice_noticed k d u).running
  unfold overrun
  dsimp only
  split
  · rw [markErrored_eq]
    exact ⟨_, _, rfl, rfl, rfl, hrun _ _ _⟩
  · exact ⟨_, _, rfl, rfl, rfl, hrun _ _ _⟩

/-- From `s` to `t` the line of the frame takes slot `i`; every line keeps its state. -/
structure TakesSlot (f : AcqFrame) (i : Nat) (s t : State) : Prop where
  slots : t.intake.slots = s.intake.slots.set i (some (openedSlot f s.nextOrdinal))
  appends : t.intake.appends = s.nextOrdinal
  states : ∀ m, (t.line m).map Line.st = (s.line m).map Line.st
  walk : t.store.walk = s.store.walk
  running : t.link.running = s.link.running
  flash : t.flash = s.flash
  retr : t.retr = s.retr
  power : t.power = s.power
  motion : t.motion = s.motion
  gauge : t.gauge = s.gauge
  settings : t.settings = s.settings

theorem TakesSlot.still {f : AcqFrame} {i : Nat} {s t : State} (h : TakesSlot f i s t) (hs : Still s) : Still t :=
  still_congr hs h.walk (congrArg _ h.flash) (congrArg _ h.retr) (congrArg _ h.flash)
    (fun d => by rw [State.dieReady, State.die, h.flash, State.dieReady, State.die]) (congrArg _ h.power)
    ((isRunning_congr _ h.running).trans hs.notPausing) (by rw [State.emergency, h.power, State.emergency])

theorem takeSlot_takes {f : AcqFrame} {i : Nat} {l : Line} {s : State}
    (hi : s.intake.slots.findIdx? Option.isNone = some i) (hl : s.line f.line = some l) (hpages : l.pages < 520200)
    (hstaged : s.noneStaged f.line) : TakesSlot f i s (takeSlot f s) := by
  let u := s.setSlot i (some (openedSlot f 0))
  let d := draftOf .header false f 0
  have hslot : u.intake.slots.getD i none = some (openedSlot f 0) := getD_set_self (freeSlot_lt hi)
  have hplaces := placeRecord_places i d u
  have hlimit : (placeRecord i d u).2 ≠ .limit := placeRecord_not_limit hslot hl hpages (noneStaged_congr hstaged rfl)
  have htake : takeSlot f s = match appendInstrument i f.line d u with
      | (t, true) => t
      | (t, false) => advanceOrdinal i t := by
    simp only [takeSlot, hi]
    rfl
  have happend : appendInstrument i f.line d u = match placeRecord i d u with
      | (t, .stored) => (slotStored i d t, true)
      | (t, .noBuffer) => (overrun f.line t, false)
      | (t, .limit) => (limitDrop f.line t, false)
      | (t, .forbidden) => (t, false) := rfl
  rw [htake, happend]
  cases hp : placeRecord i d u with
  | mk t p =>
    rw [hp] at hplaces hlimit
    obtain ⟨⟨ls, w, ht⟩, hstates⟩ := hplaces
    dsimp only at ht hstates hlimit
    have hslot' : t.intake.slots.getD i none = some (openedSlot f 0) := by
      rw [ht]
      exact hslot
    have hslots : ∀ z, t.intake.slots.set i z = s.intake.slots.set i z := by
      intro z
      rw [ht]
      exact List.set_set ..
    have hord : t.nextOrdinal = s.nextOrdinal := by
      rw [ht]
      rfl
    have hstep : ∀ v : State, (∃ l i', v = { t with link := l, intake := i' } ∧ i'.slots = t.intake.slots ∧
        i'.appends = t.intake.appends ∧ l.running = t.link.running) → TakesSlot f i s (advanceOrdinal i v) := by
      rintro v ⟨l', i', rfl, hsl, hap, hrun⟩
      rw [advanceOrdinal_eq (s := { t with link := l', intake := i' }) (by rw [← hslot', ← hsl])]
      have hord' : State.nextOrdinal { t with link := l', intake := i' } = s.nextOrdinal := by
        rw [← hord, State.nextOrdinal, State.nextOrdinal, hap]
      rw [hord']
      refine ⟨?_, rfl, hstates, by rw [ht]; rfl, hrun.trans (by rw [ht]; rfl), by rw [ht]; rfl, by rw [ht]; rfl,
        by rw [ht]; rfl, by rw [ht]; rfl, by rw [ht]; rfl, by rw [ht]; rfl⟩
      rw [hsl]
      exact hslots _
    cases p with
    | stored =>
      dsimp only
      rw [slotStored_eq hslot', hord]
      exact ⟨hslots _, rfl, hstates, by rw [ht]; rfl, by rw [ht]; rfl, by rw [ht]; rfl, by rw [ht]; rfl, by rw [ht]; rfl,
        by rw [ht]; rfl, by rw [ht]; rfl, by rw [ht]; rfl⟩
    | noBuffer => exact hstep _ (overrun_frame f.line t)
    | forbidden => exact hstep t ⟨t.link, t.intake, rfl, rfl, rfl, rfl⟩
    | limit => exact absurd rfl hlimit

/-- With all slots in use the line of the oldest slot is closed. -/
theorem freeASlot_closes {i : Nat} {x : Slot} {s : State} (hall : ∀ y ∈ s.intake.slots, y.isSome = true)
    (hx : s.intake.slots[i]? = some (some x))
    (hleast : ∀ j y, j ≠ i → s.intake.slots[j]? = some (some y) → x.ordinal < y.ordinal) :
    freeASlot s = requestClose x.line .slots false s := by
  have hany : s.intake.slots.any Option.isNone = false := by
    rw [List.any_eq_false]
    intro y hy
    have := hall y hy
    simpa [Option.isSome_iff_ne_none] using this
  simp only [freeASlot, hany, Bool.false_eq_true, if_false, oldestSlot_of_least hx hleast]

theorem appends_of_kept {s t : State} (h : t.kept = s.kept) : t.intake.appends = s.intake.appends := by
  have e := congrArg (fun u : State => u.intake.appends) h
  exact e

/-- Table 2-3 for a STATUS payload that agrees with the reference, or not. -/
theorem filterStep_passes {st next : FilterState} {reference : Option (Nat × List Byte)} {payload : List Byte} {s : State}
    (hhead : ∀ m bs, reference = some (m, bs) → bs.length = min 8 m)
    (h : (s.sameStatus reference payload ∧ st = .fresh ∧ next = .once) ∨
      (s.sameStatus reference payload ∧ st = .once ∧ next = .twice) ∨ (¬s.sameStatus reference payload ∧ next = .fresh)) :
    filterStep st (filterMatches s reference payload) = (next, true) := by
  rcases h with ⟨h, rfl, rfl⟩ | ⟨h, rfl, rfl⟩ | ⟨h, rfl⟩
  · rw [filterMatches_of_same h]
    rfl
  · rw [filterMatches_of_same h]
    rfl
  · rw [Bool.eq_false_iff.mpr (mt (filterMatches_iff hhead).mp h)]
    cases st <;> rfl

end Sys2Proof.Machine

namespace Sys2Proof
open Machine

/-- An OPEN-LINE of a new line while all slots are in use: the line whose slot is the oldest is closed. -/
theorem exec_openLine_evicts {f : AcqFrame} {i : Nat} {s : State} {l : Line} {x : Slot} (hs : Still s)
    (hopen : s.intakeState = .opened) (hline : f.line ≠ 0) (hfits : f.payload.length ≤ s.maxPayload)
    (hpermit : s.settings.permit.allows f.line = true) (hnone : s.line f.line = none) (herase : s.erasing f.line = false)
    (hroom : s.store.lines.length < 2048) (hstaged : s.stagedBufs f.line = []) (hall : ∀ y ∈ s.intake.slots, y.isSome = true)
    (hx : s.intake.slots[i]? = some (some x))
    (hother : ∀ j y, j ≠ i → s.intake.slots[j]? = some (some y) → x.ordinal < y.ordinal ∧ y.line ≠ x.line)
    (hl : s.line x.line = some l) (hst : l.st = .opened) :
    ∃ t, exec (.openLine f) s = .next t ∧ ((t.line x.line).map Line.st) = some .closing ∧
      ((t.line f.line).map Line.st) = some .opened ∧
      t.intake.slots = s.intake.slots.set i (some (openedSlot f ((s.intake.appends + 1) % 4294967296))) ∧
      t.intake.appends = (s.intake.appends + 1) % 4294967296 ∧ t.settings = s.settings ∧ t.gauge = s.gauge ∧
      t.motion = s.motion ∧ t.power = s.power := by
  let u := s.taken id
  let v := requestClose x.line .slots false u
  have hclosed : ClosedFrom x.line u v := requestClose_opened .slots false (s := u) hl hst
  have hne : f.line ≠ x.line := by
    intro h
    rw [h, hl] at hnone
    cases hnone
  have hfree : freeASlot u = v := freeASlot_closes (s := u) hall hx fun j y hj hy => (hother j y hj hy).1
  have hslotOf : u.slotOf x.line = some i := slotOf_of_only (s := u) hx rfl fun j y hj hy => (hother j y hj hy).2
  have hvslots : v.intake.slots = s.intake.slots.set i none := by
    have h := hclosed.slots
    rw [hslotOf] at h
    exact h
  have hvnone : v.line f.line = none := by
    have h := hclosed.others f.line hne
    rw [show u.line f.line = none from hnone] at h
    exact Option.map_eq_none_iff.mp h
  obtain ⟨ls, hw⟩ := withLine_frame f.line v
  have hwline := withLine_line hvnone
  have hi : (v.withLine f.line).intake.slots.findIdx? Option.isNone = some i := by
    rw [hw]
    exact hvslots ▸ findIdx_isNone_set (List.getElem?_eq_some_iff.mp hx).1 hall
  have hnoneStaged : (v.withLine f.line).noneStaged f.line :=
    noneStaged_congr (noneStaged_requestClose (s := u) ((stagedBufs_nil_iff f.line u).mp hstaged)) (by rw [hw])
  have htakes := takeSlot_takes hi ((hwline f.line).trans (if_pos rfl)) (show (0 : Nat) < 520200 by decide) hnoneStaged
  have hnew : handleFrame .openLine f u = takeSlot f (v.withLine f.line) := by
    have hopenNew := handleOpen_new (s := u) hpermit hnone herase hroom
    rw [openNew, hfree] at hopenNew
    exact (handleFrame_long (s := u) (by simp [FrameKind.shortOf, FrameKind.least])).trans hopenNew
  have hstill : Still (v.withLine f.line) := by
    have hv : Still v := hclosed.still (taken_still hs)
    rw [hw]
    exact still_congr hv rfl rfl rfl rfl (fun _ => rfl) rfl hv.notPausing rfl
  have hexec := exec_row_taken .openLine hfits
  rw [checkFrame_opened hline (s := s.taken id) hopen, hnew, finish_still _ (htakes.still hstill)] at hexec
  have hord : (v.withLine f.line).nextOrdinal = (s.intake.appends + 1) % 4294967296 := by
    have hv : v.intake.appends = u.intake.appends := appends_of_kept (kept_requestClose x.line .slots false u)
    rw [hw]
    exact congrArg (fun n => (n + 1) % 4294967296) hv
  refine ⟨_, hexec, ?_, ?_, ?_, htakes.appends.trans hord, htakes.settings.trans (by rw [hw]; exact hclosed.settings),
    htakes.gauge.trans (by rw [hw]; exact hclosed.gauge), htakes.motion.trans (by rw [hw]; exact hclosed.motion),
    htakes.power.trans (by rw [hw]; exact hclosed.power)⟩
  · refine (htakes.states x.line).trans ?_
    rw [hwline, if_neg hne.symm]
    exact hclosed.state
  · refine (htakes.states f.line).trans ?_
    rw [hwline, if_pos rfl]
    rfl
  · rw [updateWait_intake_slots, htakes.slots, hord]
    have hwslots : (v.withLine f.line).intake.slots = s.intake.slots.set i none := by
      rw [hw]
      exact hvslots
    rw [hwslots, List.set_set]

/-- An OPEN-LINE that reopens a CLOSED line with a root. -/
theorem exec_openLine_reopens {f : AcqFrame} {i b : Nat} {s : State} {l : Line} {r : Loc} (hs : Still s)
    (hopen : s.intakeState = .opened) (hline : f.line ≠ 0) (hfits : f.payload.length ≤ s.maxPayload)
    (hpermit : s.settings.permit.allows f.line = true) (hl : s.line f.line = some l) (hst : l.st = .closed)
    (herase : s.erasing f.line = false) (hi : s.intake.slots.findIdx? Option.isNone = some i) (hb : s.fillingOf i = none)
    (hfree : s.freeBuffer = some b) (hstaged : s.stagedBufs f.line = []) (hpages : l.pages < 520200) (hr : l.root = some r)
    (hbusy : s.lineBusy f.line = false) (hdie : s.dieReady r.addr.die = true) :
    ∃ t, exec (.openLine f) s = .next t ∧ t.flash.reads = s.flash.reads ++ [{ addr := r.addr, purpose := .loadRoot f.line }] ∧
      t.link = s.link ∧ t.settings = s.settings ∧ t.gauge = s.gauge ∧
      ∃ u : State, Appends i b (draftOf .header false f 0) (openedSlot f 0) (l.reopened (s.intake.linkState != .good))
          (fillingBuf i f.line) u t ∧
        (∀ m, m ≠ f.line → u.line m = s.line m) ∧ u.staging = s.staging ∧ u.power = s.power ∧
        u.intake = { (s.taken id).intake with slots := s.intake.slots.set i (some (openedSlot f 0)) } := by
  let v := (s.taken id).reopening f.line
  obtain ⟨hvline, ls, hv⟩ := reopening_eq (s := s.taken id) (n := f.line) hl hr hbusy
  have hv : v = { s.taken id with
      store := { s.store with lines := ls },
      flash := { s.flash with reads := s.flash.reads ++ [{ addr := r.addr, purpose := .loadRoot f.line }] } } := hv
  let k := l.reopened (s.intake.linkState != .good)
  have hvpages : v.pageNumber k < 520200 := by
    have hnone : v.stagedBufs l.num = [] := by
      rw [hv, line_num hl]
      exact hstaged
    have hnumber : v.pageNumber k = l.pages + (v.stagedBufs l.num).length := rfl
    rw [hnumber, hnone]
    exact hpages
  have happ := takeSlot_begins (f := f) (i := i) (b := b) (s := v) (by rw [hv]; exact mayStore_of_opened hopen)
    (by rw [hv]; exact hi) ((hvline _).trans (if_pos rfl)) (by rw [hv]; exact hb) hvpages (by rw [hv]; exact hfree)
  have hnew : handleFrame .openLine f (s.taken id) = takeSlot f v := by
    have hreopen := handleOpen_reopens (s := s.taken id) hpermit hl hst herase
    rw [reopen_eq (s := s.taken id) hi] at hreopen
    exact (handleFrame_long (s := s.taken id) (by simp [FrameKind.shortOf, FrameKind.least])).trans hreopen
  have hstill : Still (v.setSlot i (some (openedSlot f 0))) := by
    rw [hv]
    refine ⟨hs.walk, hs.retrRead, fun q hq => ?_, hs.mount, hs.notPausing, hs.calm⟩
    rcases List.mem_append.mp hq with hq | hq
    · exact hs.reads q hq
    · rw [List.mem_singleton.mp hq]
      exact hdie
  have hexec := exec_row_taken .openLine hfits
  rw [checkFrame_opened hline (s := s.taken id) hopen, hnew, finish_still _ (happ.still hstill)] at hexec
  refine ⟨_, hexec, ?_, happ.link.trans (by rw [hv]; rfl), happ.settings.trans (by rw [hv]; rfl),
    happ.gauge.trans (by rw [hv]; rfl), _, happ.updateWait, fun m hm => (hvline m).trans (if_neg hm), by rw [hv]; rfl,
    by rw [hv]; rfl, by rw [hv]; rfl⟩
  rw [updateWait_flash, happ.flash, hv]
  rfl

/-- A STATUS frame that the filter of its slot drops. -/
theorem exec_statusFrame_dropped {f : AcqFrame} {i : Nat} {x : Slot} {s : State} (hs : Still s)
    (hopen : s.intakeState = .opened) (hline : f.line ≠ 0) (hfits : f.payload.length ≤ s.maxPayload)
    (hslot : s.openSlot f.line = some i) (hx : s.intake.slots.getD i none = some x) (hfilter : s.filterEnable = true)
    (hlong : 4 ≤ f.payload.length) (hsame : s.sameStatus x.reference f.payload) (htwice : x.filter = .twice) :
    exec (.statusFrame f) s = .next (updateWait { s with intake := { s.intake with
      parser := .reset, hunt := 0,
      counters := { s.intake.counters with
        frames := min (s.intake.counters.frames + 1) 4294967295,
        suppressed := min (s.intake.counters.suppressed + 1) 4294967295 },
      slots := s.intake.slots.set i (some { x with suppressed := min (x.suppressed + 1) 65535 }) } }) := by
  have hshort : FrameKind.status.shortOf f = false := decide_eq_false hlong.not_gt
  have hstep : filterStep x.filter (filterMatches (s.taken id) x.reference f.payload) = (.twice, false) := by
    rw [filterMatches_of_same (s := s.taken id) hsame, htwice]
    rfl
  have hrow : handleFrame .status f (s.taken id) = appendStatus false f (s.taken id) := by
    rw [handleFrame_long (s := s.taken id) (by rw [hshort]; nofun)]
    dsimp only
    rw [hshort]
  have hsame : { x with filter := .twice } = x := by rw [← htwice]
  have hslots := modify_some_eq_set (fun y : Slot => { y with suppressed := min (y.suppressed + 1) 65535 })
    (getD_set_self (y := some x) (slot_lt hx))
  have hfilterSlots := modify_some_eq_set (fun y : Slot => { y with filter := .twice }) hx
  rw [hsame] at hfilterSlots
  rw [List.set_set, ← hfilterSlots] at hslots
  have hexec := exec_row_taken .status hfits
  rw [checkFrame_opened hline (s := s.taken id) hopen, hrow, appendStatus_dropped (s := s.taken id) hslot hx hfilter hstep,
    finish_still] at hexec
  · rw [← hslots]
    exact hexec
  · exact still_congr hs rfl rfl rfl rfl (fun _ => rfl) rfl hs.notPausing rfl

/-- Settles O38: the refusals, the reopen, the slot that is taken from another line, and the filter of Table 2-3. -/
theorem openLineIsRefusedOrReopensAndStatusIsFiltered : Obligations.OpenLineIsRefusedOrReopensAndStatusIsFiltered := by
  intro f i s hs hopen hline hfits c stored n refused opened
  have hrefused : ∀ r, handleOpen f (s.taken id) = refuseOpen r f.line (s.taken id) →
      refused r (r.counted c) := fun r h => exec_openLine_refused hs hopen hline hfits h
  refine ⟨fun hp => hrefused .permit (handleOpen_permit (s := s.taken id) hp), fun hp => ⟨fun l hl => ⟨fun hst => ?_,
    fun hst => ?_, ?_⟩, fun hl => ⟨fun he => ?_, fun he hfull => ?_, ?_⟩⟩, fun x hslot hx hfilter hlong => ?_⟩
  · exact hrefused .locked (handleOpen_locked (s := s.taken id) hp hl hst)
  · exact hrefused .busy (handleOpen_busy (s := s.taken id) hp hl hst)
  · intro b r hst he hi hb hfree hstaged hpages hr hbusy hdie degraded
    obtain ⟨t, ht, hreads, hlink, hsettings, hgauge, u, happ, hlines, hstaging, hpower, hintake⟩ :=
      exec_openLine_reopens hs hopen hline hfits hp hl hst he hi hb hfree hstaged hpages hr hbusy hdie
    have hord : u.nextOrdinal = n := by
      rw [State.nextOrdinal, hintake]
      rfl
    have hplaced := happ.line
    rw [placed_instrument rfl] at hplaced
    obtain ⟨w, hafter⟩ := happ.intake
    refine ⟨t, _, _, ht, hplaced, hreads, ?_, ?_, ?_, happ.taken, rfl, rfl, rfl, rfl, rfl, rfl, fun m hm =>
      (happ.lines m hm).trans (hlines m hm), fun d hd => (happ.bufs d hd).trans ?_, hlink, hsettings, hgauge⟩
    · rw [hafter, hord, hintake]
      exact List.set_set ..
    · rw [hafter]
      exact hord
    · rw [hafter, hintake]
      rfl
    · rw [State.buf, hstaging, State.buf]
  · exact hrefused .busy (handleOpen_erasing (s := s.taken id) hp hl he)
  · exact hrefused .tableFull (handleOpen_full (s := s.taken id) hp hl he hfull)
  · intro l x he hroom hstaged hall hx hother hxl hst
    exact exec_openLine_evicts hs hopen hline hfits hp hl he hroom hstaged hall hx hother hxl hst
  · intro same
    refine ⟨fun hsame htwice => exec_statusFrame_dropped hs hopen hline hfits hslot hx hfilter hlong hsame htwice, ?_⟩
    intro b l y rs next hhead hnext hl hb hy hbody hroom
    obtain ⟨_, _, _, hslotOf⟩ := openSlot_some hslot
    have hxline : x.line = f.line := slotOf_line hslotOf hx
    have hstep : filterStep x.filter (filterMatches (s.taken id) x.reference f.payload) = (next, true) :=
      filterStep_passes (s := s.taken id) hhead hnext
    have hshort : FrameKind.status.shortOf f = false := decide_eq_false hlong.not_gt
    let u := s.takenFilter i next
    have hu : u = { s.taken id with intake := { (s.taken id).intake with
        slots := s.intake.slots.set i (some { x with filter := next }) } } := takenFilter_eq hx
    obtain ⟨t, ht, happ⟩ := appendInstrument_fits (u := u) (d := draftOf .status false f x.suppressed) f.line
      (by rw [hu]; exact mayStore_of_opened hopen) (x := { x with filter := next })
      (by rw [hu]; exact getD_set_self (slot_lt hx)) (by rw [hu, hxline]; exact hl) (by rw [hu]; exact hb)
      (by rw [hu]; exact hy) hroom
    have hstill : Still u := by
      rw [hu]
      exact still_congr hs rfl rfl rfl rfl (fun _ => rfl) rfl hs.notPausing rfl
    have hrow : handleFrame .status f (s.taken id) = t := by
      rw [handleFrame_long (s := s.taken id) (by rw [hshort]; nofun)]
      dsimp only
      rw [hshort, appendStatus_passed (s := s.taken id) hslot hx hfilter hstep]
      exact congrArg Prod.fst ht
    have hexec := exec_row_taken .status hfits
    rw [checkFrame_opened hline (s := s.taken id) hopen, hrow, finish_still _ (happ.still hstill)] at hexec
    have hfa := frameAppended_of_appends happ.updateWait (s := s) (by rw [hu]; rfl) (fun z => by rw [hu]; exact List.set_set ..)
      hxline hbody rfl
    obtain ⟨y', h1, h2, _⟩ := hfa.taken
    exact ⟨_, y', _, hexec, h1, h2, rfl, rfl, rfl, rfl, rfl, hfa.bufs, hfa.counters, hfa.appends, hfa.slots, hfa.link,
      hfa.settings, hfa.gauge⟩

end Sys2Proof
end

section
/-!
PROOFS. What a battery sample moves: the charge, the anchors and the estimate.
-/
namespace Sys2Proof.Machine

/-! ## What a sample's follow-up work leaves (R157 to R170) -/

/-- The gauge, the settings, the run clock and the count of strap levels stand. -/
structure GaugeStays (s t : State) : Prop where
  settings : t.settings = s.settings
  gauge : t.gauge = s.gauge
  clock : t.power.clock = s.power.clock
  straps : t.straps = s.straps

namespace GaugeStays

theorem refl (s : State) : GaugeStays s s := ⟨rfl, rfl, rfl, rfl⟩

theorem trans {s t u : State} (h : GaugeStays s t) (k : GaugeStays t u) : GaugeStays s u :=
  ⟨k.settings.trans h.settings, k.gauge.trans h.gauge, k.clock.trans h.clock, k.straps.trans h.straps⟩

theorem of_kept {s t : State} (h : t.kept = s.kept) : GaugeStays s t :=
  ⟨(congrArg State.settings h :), (congrArg State.gauge h :), (congrArg (fun x : State => x.power.clock) h :),
    (congrArg State.straps h :)⟩

theorem ite {s t u : State} {c : Prop} [Decidable c] (ht : GaugeStays s t) (hu : GaugeStays s u) :
    GaugeStays s (if c then t else u) := by
  split
  · exact ht
  · exact hu

end GaugeStays

theorem gaugeStays_wake (cause : WakeCause) (s : State) : GaugeStays s (wake cause s) := by
  unfold wake
  dsimp only
  split
  · exact GaugeStays.trans (t := ({ s with motion := s.motion.resumed } : State).modPower fun p =>
      { p with st := .run, wake := cause, resume := true, pauseMark := none }) ⟨rfl, rfl, rfl, rfl⟩ (.of_kept (by simp; rfl))
  · exact GaugeStays.trans (t := s.modPower fun p =>
      { p with st := .run, wake := cause, resume := true, pauseMark := none }) ⟨rfl, rfl, rfl, rfl⟩ (.of_kept (by simp))

theorem gaugeStays_wakeBy (cause : WakeCause) (s : State) : GaugeStays s (wakeBy cause s) :=
  .ite (gaugeStays_wake cause s) (.refl s)

theorem gaugeStays_raiseNotice (k : NoticeKind) (d : List Byte) (s : State) : GaugeStays s (raiseNotice k d s) :=
  .of_kept (kept_raiseNotice k d s)

theorem gaugeStays_beginOrderly (cause : CloseoutCause) (s : State) : GaugeStays s (beginOrderly cause s) :=
  GaugeStays.trans
    (t := (s.modPower fun p => { p with
      store := .closingOut, closeout := some { kind := .orderly false false, cause := cause }, lastCause := none }).modIntake
        fun i => { i with openReq := false })
    ⟨rfl, rfl, rfl, rfl⟩ (.of_kept (by simp [beginOrderly]))

theorem gaugeStays_actOnReserve (s : State) : GaugeStays s (actOnReserve s) := by
  unfold actOnReserve
  split
  · exact .refl s
  · split
    · exact gaugeStays_beginOrderly _ s
    · exact ⟨rfl, rfl, rfl, rfl⟩
    · exact ⟨rfl, rfl, rfl, rfl⟩
    all_goals exact .refl s

theorem gaugeStays_reserveChange (s : State) : GaugeStays s (reserveChange s) := by
  have told := (gaugeStays_wakeBy .reserve s).trans (gaugeStays_raiseNotice .reserve
    (leBool (wakeBy .reserve s).gauge.reserve ++ leInt 4 (wakeBy .reserve s).gauge.headroom) _)
  exact .ite (told.trans (gaugeStays_actOnReserve _)) told

/-- The emergency closeout as it stands before the buffers are queued and PAUSE ends (R185). -/
def State.emergencyBegun (s : State) : State :=
  { s with
    power := { s.power with
      closeout := some { kind := .emergency, cause := .collapse }, lastCause := none, mount := none,
      store := if s.power.store = .ready ∨ s.power.store = .closedOut then .closingOut else s.power.store }
    intake := { s.intake with openReq := false }
    store := { s.store with waiters := s.store.waiters.filter fun w => w.1 == .command } }

theorem kept_beginEmergency {s : State} (h : s.power.st ≠ .lowHalt) :
    (beginEmergency s).kept = (wakeBy .collapse s).emergencyBegun.kept := by
  unfold beginEmergency
  rw [if_neg h]
  dsimp only
  rw [kept_lowHaltCheck, kept_updateWait, kept_closePause, kept_foldl _ fun s i => kept_queueSlot i s]
  rfl

theorem gaugeStays_beginEmergency (s : State) : GaugeStays s (beginEmergency s) := by
  by_cases h : s.power.st = .lowHalt
  · rw [beginEmergency, if_pos h]
    exact .refl s
  · exact ((gaugeStays_wakeBy .collapse s).trans (t := wakeBy .collapse s) (u := (wakeBy .collapse s).emergencyBegun)
      ⟨rfl, rfl, rfl, rfl⟩).trans (.of_kept (kept_beginEmergency h))

theorem gaugeStays_collapseHanded (v : Nat) (s : State) : GaugeStays s (collapseHanded v s) :=
  ((gaugeStays_wakeBy .collapse s).trans (gaugeStays_raiseNotice _ _ _)).trans (gaugeStays_beginEmergency _)

/-! ## The gauge after each step of a sample (Table 8-1) -/

/-- The gauge with its ring and its charge counted by a sample: steps 1 to 4. -/
def Gauge.counted (cells : Nat) (x : PackSample) (g : Gauge) : Gauge :=
  ({ g with last := some x, prevOk := true, answered := satInc Config.max32 g.answered }.countStep cells x).ringStep x

/-- Steps 5 to 7 on the gauge alone. -/
def Gauge.anchored (design cutoff clock : Nat) (x : PackSample) (g : Gauge) : Gauge :=
  let g' := if x.done && !g.lastDone then ({ g with lastDone := x.done } : Gauge).fullAnchor clock x.t
    else { g with lastDone := x.done }
  (g'.emptyStep design cutoff x).reportAt (g'.emptyDue cutoff x)

/-- The state with another gauge. -/
def State.withGauge (g : Gauge) (s : State) : State := { s with gauge := g }

/-- The gauge of `t` is `g`, and the settings, the run clock and the count of strap levels are those of `s`. -/
def GaugeIs (s : State) (g : Gauge) (t : State) : Prop := GaugeStays (s.withGauge g) t

theorem GaugeIs.of_stays {s t u : State} {g : Gauge} (h : GaugeIs s g t) (k : GaugeStays t u) : GaugeIs s g u :=
  GaugeStays.trans h k

theorem GaugeIs.modGauge {s t : State} {g : Gauge} (f : Gauge → Gauge) (h : GaugeIs s g t) : GaugeIs s (f g) (t.modGauge f) :=
  ⟨h.settings, congrArg f h.gauge, h.clock, h.straps⟩

theorem GaugeIs.item {s t : State} {g : Gauge} (h : GaugeIs s g t) (k : Nat) : t.item k = s.item k :=
  congrArg (fun c : Settings => c.items.getD k 0) h.settings

theorem gaugeIs_anchorSteps {s t : State} {g : Gauge} (x : PackSample) (h : GaugeIs s g t) :
    GaugeIs s (g.anchored s.design s.cutoffMv s.power.clock x) (anchorSteps x t) := by
  have hdone : GaugeIs s { g with lastDone := x.done } (t.modGauge fun g => { g with lastDone := x.done }) :=
    h.modGauge fun g => { g with lastDone := x.done }
  have hlast : t.gauge.lastDone = g.lastDone := congrArg Gauge.lastDone h.gauge
  have hclock : t.power.clock = s.power.clock := h.clock
  have hsteps (g' : Gauge) (u : State) (k : GaugeIs s g' u) :
      GaugeIs s ((g'.emptyStep s.design s.cutoffMv x).reportAt (g'.emptyDue s.cutoffMv x))
        (u.modGauge fun g => (g.emptyStep u.design u.cutoffMv x).reportAt (g.emptyDue u.cutoffMv x)) := by
    have hd : u.design = s.design := congrArg (· * Config.qPerMah) (k.item 33)
    have hc : u.cutoffMv = s.cutoffMv := k.item 35
    rw [hd, hc]
    exact k.modGauge fun g => (g.emptyStep s.design s.cutoffMv x).reportAt (g.emptyDue s.cutoffMv x)
  unfold anchorSteps Gauge.anchored
  dsimp only
  rw [hlast]
  by_cases hr : (x.done && !g.lastDone) = true
  · rw [if_pos hr, if_pos hr]
    refine hsteps _ _ (GaugeIs.of_stays ?_ (gaugeStays_wakeBy _ _))
    have hfull := hdone.modGauge (Gauge.fullAnchor s.power.clock x.t)
    rwa [← hclock] at hfull ⊢
  · rw [if_neg hr, if_neg hr]
    exact hsteps _ _ hdone

/-- Step 8 on the gauge alone. -/
def State.reserved (s : State) (x : PackSample) (g : Gauge) : Gauge :=
  g.reserveStep s.closeoutPeak s.cutoffMv s.marginMv s.floorPermille x

theorem gaugeIs_reserveSteps {s t : State} {g : Gauge} (x : PackSample) (h : GaugeIs s g t) :
    GaugeIs s (s.reserved x g) (reserveSteps x t) := by
  have hstep : GaugeIs s (s.reserved x g)
      (t.modGauge (Gauge.reserveStep t.closeoutPeak t.cutoffMv t.marginMv t.floorPermille x)) := by
    have hp : t.closeoutPeak = s.closeoutPeak := h.item 37
    have hc : t.cutoffMv = s.cutoffMv := h.item 35
    have hm : t.marginMv = s.marginMv := h.item 38
    have hf : t.floorPermille = s.floorPermille := h.item 39
    rw [hp, hc, hm, hf]
    exact h.modGauge _
  unfold reserveSteps
  dsimp only
  split
  · exact hstep
  · exact hstep.of_stays (gaugeStays_reserveChange _)

/-- The gauge after step 9. -/
def Gauge.collapsed (low : Bool) (cutoff : Nat) (x : PackSample) (g : Gauge) : Gauge :=
  let g' := (g.recoveryStep low cutoff x).collapseStep cutoff x
  if g.collapse && decide (40 ≤ g'.recRun) then { g' with collapse := false, collRun := 0, recRun := 0 } else g'

theorem gaugeIs_collapseStep {s t : State} {g : Gauge} (x : PackSample) (h : GaugeIs s g t) :
    GaugeIs s (g.collapsed (t.power.st == .lowHalt) s.cutoffMv x) (collapseStep x t).1 := by
  have hstep : GaugeIs s ((g.recoveryStep (t.power.st == .lowHalt) s.cutoffMv x).collapseStep s.cutoffMv x)
      (t.modGauge fun g => (g.recoveryStep (t.power.st == .lowHalt) t.cutoffMv x).collapseStep t.cutoffMv x) := by
    have hc : t.cutoffMv = s.cutoffMv := h.item 35
    rw [hc]
    exact h.modGauge fun g => (g.recoveryStep (t.power.st == .lowHalt) s.cutoffMv x).collapseStep s.cutoffMv x
  have hmark : t.gauge.collapse = g.collapse := congrArg Gauge.collapse h.gauge
  have hrun := congrArg Gauge.recRun hstep.gauge
  unfold collapseStep Gauge.collapsed
  dsimp only
  rw [hmark]
  cases hg : g.collapse with
  | false =>
    simp only [Bool.not_false, if_true, Bool.false_and, Bool.false_eq_true, if_false]
    split
    · exact hstep.of_stays (gaugeStays_collapseHanded _ _)
    · exact hstep
  | true =>
    simp only [Bool.not_true, Bool.false_eq_true, if_false, Bool.true_and, decide_eq_true_eq]
    by_cases h40 : 40 ≤ ((g.recoveryStep (t.power.st == .lowHalt) s.cutoffMv x).collapseStep s.cutoffMv x).recRun
    · rw [if_pos h40, if_pos (hrun.symm ▸ h40)]
      exact hstep.modGauge fun g => { g with collapse := false, collRun := 0, recRun := 0 }
    · rw [if_neg h40, if_neg (hrun.symm ▸ h40)]
      exact hstep

/-- The recovery is handed over where the mark was set and the recovery run reaches 40. -/
theorem collapseStep_recovered {s t : State} {g : Gauge} (x : PackSample) (h : GaugeIs s g t) :
    (collapseStep x t).2 =
      (g.collapse && decide (40 ≤ (g.recoveryStep (t.power.st == .lowHalt) s.cutoffMv x).recRun)) := by
  have hc : t.cutoffMv = s.cutoffMv := h.item 35
  have hgauge : t.gauge = g := h.gauge
  have hrun : ∀ g' : Gauge, (g'.collapseStep s.cutoffMv x).recRun = g'.recRun := by
    intro g'
    unfold Gauge.collapseStep
    split <;> rfl
  unfold collapseStep
  dsimp only [State.modGauge]
  rw [hgauge, hc, hrun]
  cases g.collapse with
  | false => rfl
  | true =>
    simp only [Bool.not_true, Bool.false_eq_true, if_false, Bool.true_and]
    split
    · rename_i h40
      exact (decide_eq_true h40).symm
    · rename_i h40
      exact (decide_eq_false h40).symm

/-- The notice rule at the end of a sample sets the decade and nothing else of the gauge. -/
theorem gaugeIs_batteryStep {s t : State} {g : Gauge} (first : Bool) (conf : Confidence) (h : GaugeIs s g t) :
    GaugeIs s { g with decade := g.soc / 10 } (batteryStep first conf t) := by
  have hset : GaugeIs s { g with decade := g.soc / 10 } (t.modGauge fun g => { g with decade := g.soc / 10 }) :=
    h.modGauge fun g => { g with decade := g.soc / 10 }
  unfold batteryStep
  split
  · exact hset.of_stays (.of_kept (kept_raiseBattery _))
  · obtain ⟨l, hl⟩ := judgeBattery_frame conf t
    rw [hl]
    exact ⟨hset.settings, hset.gauge, hset.clock, hset.straps⟩

/-! ## An answered sample as a whole -/

/-- The states of an answered sample before the collapse is judged, and at its end. -/
def State.judgedSample (s : State) (x : PackSample) : State :=
  reserveSteps x (anchorSteps x (s.modGauge (Gauge.counted s.cells x)))

/-- The gauge of an answered sample before the collapse is judged. -/
def State.judgedGauge (s : State) (x : PackSample) : Gauge :=
  s.reserved x ((s.gauge.counted s.cells x).anchored s.design s.cutoffMv s.power.clock x)

/-- The gauge of an answered sample once the notice rule has been applied. -/
def State.sampledGauge (s : State) (x : PackSample) : Gauge :=
  let g := ((s.judgedGauge x).collapsed ((s.judgedSample x).power.st == .lowHalt) s.cutoffMv x).learnStep
    (if s.gauge.prevOk then s.gauge.last else none) x
  { g with decade := g.soc / 10 }

/-- The part recovers from a collapse at this sample. -/
def State.recovers (s : State) (x : PackSample) : Bool := (collapseStep x (s.judgedSample x)).2

/-- The state of an answered sample before it is finished. -/
def State.sampled (s : State) (x : PackSample) : State :=
  batteryStep (!s.gauge.estimated) s.gauge.conf
    ((collapseStep x (s.judgedSample x)).1.modGauge (Gauge.learnStep (if s.gauge.prevOk then s.gauge.last else none) x))

theorem gaugeIs_judgedSample (s : State) (x : PackSample) : GaugeIs s (s.judgedGauge x) (s.judgedSample x) :=
  gaugeIs_reserveSteps x (gaugeIs_anchorSteps x ⟨rfl, rfl, rfl, rfl⟩)

theorem gaugeIs_sampled (s : State) (x : PackSample) : GaugeIs s (s.sampledGauge x) (s.sampled x) :=
  gaugeIs_batteryStep _ _ ((gaugeIs_collapseStep x (gaugeIs_judgedSample s x)).modGauge _)

theorem answeredSample_eq (r : PackRead) (s : State) :
    answeredSample r s = if s.recovers (sampleOf r) then sampledReset .lowRecovery (s.sampled (sampleOf r))
      else finish (s.sampled (sampleOf r)) := rfl

/-- What an answered sample leaves of the gauge: what its steps make of it, with the run closed and the recovery run judged
where the part is reset. -/
theorem gaugeIs_answeredSample (r : PackRead) (s : State) :
    (answeredSample r s).settings = s.settings ∧ (answeredSample r s).power.clock = s.power.clock ∧
      (answeredSample r s).gauge =
        if s.recovers (sampleOf r) then (s.sampledGauge (sampleOf r)).afterReset else s.sampledGauge (sampleOf r) := by
  have h := gaugeIs_sampled s (sampleOf r)
  rw [answeredSample_eq]
  split
  · refine ⟨h.settings, ?_, congrArg Gauge.afterReset h.gauge⟩
    show (powerAfter _ _ _).clock = _
    unfold powerAfter
    dsimp only
    split
    · exact h.clock
    · exact h.clock
  · have k := h.of_stays (.of_kept (kept_finish (s.sampled (sampleOf r))))
    exact ⟨k.settings, k.clock, k.gauge⟩

/-- What the sample's judgement of reserve, collapse, resistance and notices leaves of the gauge: all of it but these. -/
def Gauge.charge (g : Gauge) : Gauge :=
  { g with reserve := false, headroom := 0, lowRun := 0, clearRun := 0, collapse := false, collRun := 0, recRun := 0, res := 0,
           resUpd := 0, decade := 0 }

theorem charge_reserved (s : State) (x : PackSample) (g : Gauge) : (s.reserved x g).charge = g.charge := by
  unfold State.reserved Gauge.reserveStep
  dsimp only
  split
  · split <;> split <;> rfl
  · split <;> split <;> rfl

theorem charge_recoveryStep (low : Bool) (cutoff : Nat) (x : PackSample) (g : Gauge) :
    (g.recoveryStep low cutoff x).charge = g.charge := by
  unfold Gauge.recoveryStep
  split <;> rfl

theorem charge_collapseStep (cutoff : Nat) (x : PackSample) (g : Gauge) : (g.collapseStep cutoff x).charge = g.charge := by
  unfold Gauge.collapseStep
  split <;> rfl

theorem charge_collapsed (low : Bool) (cutoff : Nat) (x : PackSample) (g : Gauge) :
    (g.collapsed low cutoff x).charge = g.charge := by
  have h := (charge_collapseStep cutoff x (g.recoveryStep low cutoff x)).trans (charge_recoveryStep low cutoff x g)
  unfold Gauge.collapsed
  dsimp only
  split
  · exact h
  · exact h

theorem charge_learnStep (prev : Option PackSample) (x : PackSample) (g : Gauge) : (g.learnStep prev x).charge = g.charge := by
  unfold Gauge.learnStep
  split
  · split <;> rfl
  · rfl

theorem charge_sampledGauge (s : State) (x : PackSample) :
    (s.sampledGauge x).charge = ((s.gauge.counted s.cells x).anchored s.design s.cutoffMv s.power.clock x).charge :=
  (charge_learnStep _ x _).trans ((charge_collapsed _ _ x _).trans (charge_reserved s x _))

/-- The part recovers only where the collapse mark was set. -/
theorem recovers_collapse {s : State} {x : PackSample} (h : s.recovers x = true) : (s.judgedGauge x).collapse = true := by
  rw [State.recovers, collapseStep_recovered x (gaugeIs_judgedSample s x), Bool.and_eq_true] at h
  exact h.1

end Sys2Proof.Machine
end

section
/-!
PROOFS. Battery samples: counting, the voltage estimate and the anchors (O46).
-/
namespace Sys2Proof.Machine

/-! ## The steps of a sample on the gauge (R158 to R169) -/

section Steps
variable {design cutoff clock cells : Nat} {x : PackSample} {g : Gauge}

theorem counted_estimated (h : g.estimated = true) :
    g.counted cells x = { g with
      last := some x, prevOk := true, answered := satInc Config.max32 g.answered,
      rc := (clampInt 0 g.fcc (g.rc - x.i)).toNat, run := g.run.map (Discharge.count x),
      conf := if g.conf = .estimated then .counting else g.conf,
      ring := g.ring.drop 1 ++ [x.i], locked := lockedCharge g.fcc x.t } := by
  simp only [Gauge.counted, Gauge.countStep, h, if_true, Gauge.ringStep]

theorem counted_first (h : g.estimated = false) :
    g.counted cells x = { g with
      last := some x, prevOk := true, answered := satInc Config.max32 g.answered,
      rc := g.fcc * estimateOf (x.v / cells) / 100, conf := .estimated, run := none, estimated := true,
      ring := g.ring.drop 1 ++ [x.i], locked := lockedCharge g.fcc x.t } := by
  simp only [Gauge.counted, Gauge.countStep, h, Bool.false_eq_true, if_false, Gauge.ringStep]

/-- What both ways of counting a sample leave and set alike. -/
theorem counted_stream :
    (g.counted cells x).last = some x ∧ (g.counted cells x).answered = satInc Config.max32 g.answered ∧
      (g.counted cells x).missed = g.missed ∧ (g.counted cells x).ring = g.ring.drop 1 ++ [x.i] ∧
      (g.counted cells x).armed = g.armed ∧ (g.counted cells x).emptyRun = g.emptyRun ∧
      (g.counted cells x).lastDone = g.lastDone ∧ (g.counted cells x).fcc = g.fcc ∧
      (g.counted cells x).collapse = g.collapse ∧ (g.counted cells x).fulls = g.fulls ∧
      (g.counted cells x).empties = g.empties := by
  cases h : g.estimated with
  | true =>
    rw [counted_estimated h]
    exact ⟨rfl, rfl, rfl, rfl, rfl, rfl, rfl, rfl, rfl, rfl, rfl⟩
  | false =>
    rw [counted_first h]
    exact ⟨rfl, rfl, rfl, rfl, rfl, rfl, rfl, rfl, rfl, rfl, rfl⟩

/-- The gauge after step 6 where the empty anchor is not taken. -/
def Gauge.emptyCounted (cutoff : Nat) (x : PackSample) (g : Gauge) : Gauge :=
  { g with emptyRun := g.emptyNext cutoff x, armed := g.armed || decide (cutoff + 200 ≤ x.v) }

theorem anchored_plain (hd : (x.done && !g.lastDone) = false) (he : g.emptyDue cutoff x = false) :
    g.anchored design cutoff clock x = (Gauge.emptyCounted cutoff x { g with lastDone := x.done }).report := by
  have hdue : Gauge.emptyDue cutoff x { g with lastDone := x.done } = false := he
  simp only [Gauge.anchored, hd, Bool.false_eq_true, if_false, Gauge.emptyStep, hdue, Gauge.reportAt]
  rfl

/-- The sample that takes the empty anchor. -/
theorem anchored_empty (hd : (x.done && !g.lastDone) = false) (he : g.emptyDue cutoff x = true) :
    g.anchored design cutoff clock x =
      { ((Gauge.emptyCounted cutoff x { g with lastDone := x.done }).emptyAnchor design x.t).report with tte := 0 } := by
  have hdue : Gauge.emptyDue cutoff x { g with lastDone := x.done } = true := he
  simp only [Gauge.anchored, hd, Bool.false_eq_true, if_false, Gauge.emptyStep, hdue, Gauge.reportAt, if_true]
  rfl

theorem anchored_full (hd : x.done = true) (hl : g.lastDone = false) :
    g.anchored design cutoff clock x =
      (Gauge.emptyCounted cutoff x (({ g with lastDone := x.done } : Gauge).fullAnchor clock x.t)).report := by
  have hdue : (({ g with lastDone := x.done } : Gauge).fullAnchor clock x.t).emptyDue cutoff x = false := by
    unfold Gauge.emptyDue Gauge.emptyNext
    split
    · rfl
    · rfl
  have hr : (x.done && !g.lastDone) = true := by rw [hd, hl]; rfl
  simp only [Gauge.anchored, hr, if_true, Gauge.emptyStep, hdue, Gauge.reportAt, Bool.false_eq_true, if_false]
  rfl

/-- Capacity learning leaves all that a sample's stream and counters hold. -/
theorem learnCapacity_stream :
    (g.learnCapacity design).last = g.last ∧ (g.learnCapacity design).answered = g.answered ∧
      (g.learnCapacity design).missed = g.missed ∧ (g.learnCapacity design).ring = g.ring ∧
      (g.learnCapacity design).empties = g.empties ∧ (g.learnCapacity design).fulls = g.fulls ∧
      (g.learnCapacity design).collapse = g.collapse := by
  unfold Gauge.learnCapacity
  split
  · split <;> exact ⟨rfl, rfl, rfl, rfl, rfl, rfl, rfl⟩
  · exact ⟨rfl, rfl, rfl, rfl, rfl, rfl, rfl⟩

theorem anchored_stream :
    (g.anchored design cutoff clock x).last = g.last ∧ (g.anchored design cutoff clock x).answered = g.answered ∧
      (g.anchored design cutoff clock x).missed = g.missed ∧ (g.anchored design cutoff clock x).ring = g.ring ∧
      (g.anchored design cutoff clock x).collapse = g.collapse := by
  by_cases hd : (x.done && !g.lastDone) = true
  · rw [Bool.and_eq_true, Bool.not_eq_true'] at hd
    rw [anchored_full hd.1 hd.2]
    exact ⟨rfl, rfl, rfl, rfl, rfl⟩
  · rw [Bool.not_eq_true] at hd
    cases he : g.emptyDue cutoff x with
    | false =>
      rw [anchored_plain hd he]
      exact ⟨rfl, rfl, rfl, rfl, rfl⟩
    | true =>
      rw [anchored_empty hd he]
      obtain ⟨hlast, hans, hmiss, hring, -, -, hcoll⟩ :=
        learnCapacity_stream (design := design) (g := Gauge.emptyCounted cutoff x { g with lastDone := x.done })
      exact ⟨hlast, hans, hmiss, hring, hcoll⟩

/-- The empty anchor is due where a low sample follows seven with the mark set. -/
theorem emptyDue_iff :
    g.emptyDue cutoff x = true ↔ g.armed = true ∧ x.v < cutoff + 200 ∧ 100 < x.i ∧ 7 ≤ g.emptyRun := by
  unfold Gauge.emptyDue Gauge.emptyNext
  simp only [decide_eq_true_eq, Bool.and_eq_true]
  split
  · rename_i h
    obtain ⟨⟨ha, hv⟩, hi⟩ := h
    simp only [ha, hv, hi, true_and]
    omega
  · rename_i h
    refine ⟨fun h8 => absurd h8 (by omega), ?_⟩
    rintro ⟨ha, hv, hi, -⟩
    exact absurd ⟨⟨ha, hv⟩, hi⟩ h

theorem emptyDue_counted : (g.counted cells x).emptyDue cutoff x = g.emptyDue cutoff x := by
  obtain ⟨-, -, -, -, harmed, hrun, -⟩ := counted_stream (cells := cells) (x := x) (g := g)
  unfold Gauge.emptyDue Gauge.emptyNext
  rw [harmed, hrun]

end Steps

/-! ## The voltage estimate (R169) -/

theorem estimateFrom_between {v lo hi : Nat} (hlo : lo ≤ v) (hhi : v < hi) :
    ∀ (ps : List Nat) (i j : Nat), ps.Pairwise (· ≤ ·) → ps[i]? = some lo → ps[i + 1]? = some hi →
      estimateFrom v j ps = 10 * (j + i) + 10 * (v - lo) / (hi - lo)
  | [], _, _, _, hl, _ => by simp at hl
  | [a], i, _, _, _, hr => by simp at hr
  | a :: b :: rest, 0, j, _, hl, hr => by
    have ha : a = lo := Option.some.inj hl
    have hb : b = hi := Option.some.inj hr
    rw [estimateFrom, ha, hb, if_pos hhi, Nat.add_zero]
  | a :: b :: rest, i + 1, j, hs, hl, hr => by
    have hle : b ≤ lo := by
      cases i with
      | zero => exact Nat.le_of_eq (Option.some.inj hl)
      | succ k =>
        have hmem : lo ∈ rest := List.mem_of_getElem? (i := k) hl
        exact (List.pairwise_cons.mp (List.pairwise_cons.mp hs).2).1 lo hmem
    rw [estimateFrom, if_neg (by omega), estimateFrom_between hlo hhi (b :: rest) i (j + 1) (List.pairwise_cons.mp hs).2 hl hr,
      show j + 1 + i = j + (i + 1) by omega]

theorem estimateFrom_above {v : Nat} : ∀ (ps : List Nat) (j : Nat), (∀ p ∈ ps, p ≤ v) → estimateFrom v j ps = 100
  | [], _, _ => rfl
  | [_], _, _ => rfl
  | a :: b :: rest, j, h => by
    have hb : b ≤ v := h b (List.mem_cons_of_mem _ List.mem_cons_self)
    rw [estimateFrom, if_neg (by omega)]
    exact estimateFrom_above (b :: rest) (j + 1) fun p hp => h p (List.mem_cons_of_mem _ hp)

theorem estimateOf_below {v : Nat} (h : v < 3300) : estimateOf v = 0 := if_pos h

theorem estimateOf_above {v : Nat} (h : 4180 ≤ v) : estimateOf v = 100 := by
  rw [estimateOf, if_neg (by omega)]
  refine estimateFrom_above openCircuit 0 fun p hp => ?_
  have hmax : ∀ p ∈ openCircuit, p ≤ 4180 := by decide
  exact (hmax p hp).trans h

theorem estimateOf_between {v lo hi i : Nat} (hl : openCircuit[i]? = some lo) (hr : openCircuit[i + 1]? = some hi)
    (hlo : lo ≤ v) (hhi : v < hi) : estimateOf v = 10 * i + 10 * (v - lo) / (hi - lo) := by
  have hmin : ∀ p ∈ openCircuit, 3300 ≤ p := by decide
  have h3300 : 3300 ≤ lo := hmin lo (List.mem_of_getElem? hl)
  rw [estimateOf, if_neg (by omega), estimateFrom_between hlo hhi openCircuit i 0 (by decide) hl hr, Nat.zero_add]

/-! ## The gauge at the end of an answered sample -/

section Answered
variable {r : PackRead} {s : State}

/-- The gauge of `s` after the count and the anchors of the sample. -/
def State.anchoredGauge (s : State) (x : PackSample) : Gauge :=
  (s.gauge.counted s.cells x).anchored s.design s.cutoffMv s.power.clock x

theorem collapse_judgedGauge (s : State) (x : PackSample) : (s.judgedGauge x).collapse = s.gauge.collapse := by
  obtain ⟨-, -, -, -, hanch⟩ := anchored_stream (design := s.design) (cutoff := s.cutoffMv) (clock := s.power.clock) (x := x)
    (g := s.gauge.counted s.cells x)
  obtain ⟨-, -, -, -, -, -, -, -, hcount, -⟩ := counted_stream (cells := s.cells) (x := x) (g := s.gauge)
  refine Eq.trans ?_ (hanch.trans hcount)
  unfold State.judgedGauge State.reserved Gauge.reserveStep
  dsimp only
  split <;> split <;> split <;> rfl

/-- The charge of the gauge after an answered sample is that of the anchored gauge, but for the run that a reset closes. -/
theorem charge_answeredSample (r : PackRead) (s : State) :
    ∃ run, (answeredSample r s).gauge.charge = { (s.anchoredGauge (sampleOf r)).charge with run := run } ∧
      (run = (s.anchoredGauge (sampleOf r)).run ∨ run = none ∧ s.gauge.collapse = true) := by
  obtain ⟨-, -, hg⟩ := gaugeIs_answeredSample r s
  have hc : (s.sampledGauge (sampleOf r)).charge = (s.anchoredGauge (sampleOf r)).charge := charge_sampledGauge s _
  rw [hg]
  cases hr : s.recovers (sampleOf r) with
  | true =>
    refine ⟨none, ?_, .inr ⟨rfl, (collapse_judgedGauge s _).symm.trans (recovers_collapse hr)⟩⟩
    exact congrArg (fun g : Gauge => { g with run := none }) hc
  | false => exact ⟨(s.anchoredGauge (sampleOf r)).run, hc, .inl rfl⟩

theorem gaugeRead_answered (h : s.gauge.sampling = true) : gaugeRead (some r) s = answeredSample r s := by
  simp only [gaugeRead, h, Bool.not_true, Bool.false_eq_true, if_false]

/-- The parts of the gauge that every answered sample sets alike. -/
theorem answered_stream (r : PackRead) (s : State) :
    (answeredSample r s).gauge.last = some (sampleOf r) ∧
      (answeredSample r s).gauge.answered = satInc Config.max32 s.gauge.answered ∧
      (answeredSample r s).gauge.missed = s.gauge.missed ∧
      (answeredSample r s).gauge.ring = s.gauge.ring.drop 1 ++ [(sampleOf r).i] := by
  obtain ⟨run, hg, -⟩ := charge_answeredSample r s
  obtain ⟨hlast, hans, hmiss, hring, -⟩ := anchored_stream (design := s.design) (cutoff := s.cutoffMv) (clock := s.power.clock)
    (x := sampleOf r) (g := s.gauge.counted s.cells (sampleOf r))
  obtain ⟨clast, cans, cmiss, cring, -⟩ := counted_stream (cells := s.cells) (x := sampleOf r) (g := s.gauge)
  have gl : (answeredSample r s).gauge.last = (s.anchoredGauge (sampleOf r)).last := (congrArg Gauge.last hg :)
  have ga : (answeredSample r s).gauge.answered = (s.anchoredGauge (sampleOf r)).answered := (congrArg Gauge.answered hg :)
  have gm : (answeredSample r s).gauge.missed = (s.anchoredGauge (sampleOf r)).missed := (congrArg Gauge.missed hg :)
  have gr : (answeredSample r s).gauge.ring = (s.anchoredGauge (sampleOf r)).ring := (congrArg Gauge.ring hg :)
  exact ⟨gl.trans (hlast.trans clast), ga.trans (hans.trans cans), gm.trans (hmiss.trans cmiss), gr.trans (hring.trans cring)⟩

/-- A counted sample that takes no anchor (R158, R160). -/
theorem answered_counts (he : s.gauge.estimated = true) (hd : ((sampleOf r).done && !s.gauge.lastDone) = false)
    (hdue : s.gauge.emptyDue s.cutoffMv (sampleOf r) = false) :
    (answeredSample r s).gauge.rc = (clampInt 0 s.gauge.fcc (s.gauge.rc - (sampleOf r).i)).toNat ∧
      (answeredSample r s).gauge.fcc = s.gauge.fcc ∧
      (answeredSample r s).gauge.locked = lockedCharge s.gauge.fcc (sampleOf r).t ∧
      (answeredSample r s).gauge.conf = if s.gauge.conf = .estimated then .counting else s.gauge.conf := by
  obtain ⟨run, hg, -⟩ := charge_answeredSample r s
  obtain ⟨-, -, -, -, -, -, hld, -⟩ := counted_stream (cells := s.cells) (x := sampleOf r) (g := s.gauge)
  rw [State.anchoredGauge, anchored_plain (by rw [hld]; exact hd) (emptyDue_counted.trans hdue), counted_estimated he] at hg
  exact ⟨(congrArg Gauge.rc hg :), (congrArg Gauge.fcc hg :), (congrArg Gauge.locked hg :), (congrArg Gauge.conf hg :)⟩

/-- The first answered sample estimates the charge from the voltage per cell (R169). -/
theorem answered_estimates (he : s.gauge.estimated = false) (hd : ((sampleOf r).done && !s.gauge.lastDone) = false)
    (hdue : s.gauge.emptyDue s.cutoffMv (sampleOf r) = false) :
    (answeredSample r s).gauge.estimated = true ∧ (answeredSample r s).gauge.conf = .estimated ∧
      (answeredSample r s).gauge.run = none ∧ (answeredSample r s).gauge.fcc = s.gauge.fcc ∧
      (answeredSample r s).gauge.rc = s.gauge.fcc * estimateOf ((sampleOf r).v / s.cells) / 100 := by
  obtain ⟨run, hg, hrun⟩ := charge_answeredSample r s
  obtain ⟨-, -, -, -, -, -, hld, -⟩ := counted_stream (cells := s.cells) (x := sampleOf r) (g := s.gauge)
  rw [State.anchoredGauge, anchored_plain (by rw [hld]; exact hd) (emptyDue_counted.trans hdue), counted_first he] at hg hrun
  have hnone : run = none := hrun.elim id And.left
  exact ⟨(congrArg Gauge.estimated hg :), (congrArg Gauge.conf hg :), (congrArg Gauge.run hg :).trans hnone,
    (congrArg Gauge.fcc hg :), (congrArg Gauge.rc hg :)⟩

/-- The sample whose charge-done level rises takes the full anchor (R167). -/
theorem answered_fullAnchor (hd : r.done = true) (hl : s.gauge.lastDone = false) (hc : s.gauge.collapse = false) :
    (answeredSample r s).gauge.rc = s.gauge.fcc ∧ (answeredSample r s).gauge.fcc = s.gauge.fcc ∧
      (answeredSample r s).gauge.conf = .anchored ∧ (answeredSample r s).gauge.lastDone = true ∧
      (answeredSample r s).gauge.run =
        some { start := s.power.clock, drawn := 0, warm := decide (100 ≤ (sampleOf r).t) } ∧
      (answeredSample r s).gauge.armed = true ∧
      (answeredSample r s).gauge.emptyRun =
        (if (sampleOf r).v < s.cutoffMv + 200 ∧ 100 < (sampleOf r).i then 1 else 0) ∧
      (answeredSample r s).gauge.fulls = satInc Config.max32 s.gauge.fulls ∧
      (answeredSample r s).gauge.empties = s.gauge.empties := by
  obtain ⟨run, hg, hrun⟩ := charge_answeredSample r s
  obtain ⟨-, -, -, -, -, -, hld, hfcc, -, hfulls, hempties⟩ :=
    counted_stream (cells := s.cells) (x := sampleOf r) (g := s.gauge)
  rw [State.anchoredGauge, anchored_full hd (hld.trans hl)] at hg hrun
  have hkept : run = some { start := s.power.clock, drawn := 0, warm := decide (100 ≤ (sampleOf r).t) } := by
    refine hrun.elim id fun h => ?_
    rw [hc] at h
    cases h.2
  refine ⟨(congrArg Gauge.rc hg :).trans hfcc, (congrArg Gauge.fcc hg :).trans hfcc, (congrArg Gauge.conf hg :),
    (congrArg Gauge.lastDone hg :).trans hd, (congrArg Gauge.run hg :).trans hkept, (congrArg Gauge.armed hg :),
    (congrArg Gauge.emptyRun hg :).trans ?_, (congrArg Gauge.fulls hg :).trans (congrArg (satInc Config.max32) hfulls),
    (congrArg Gauge.empties hg :).trans hempties⟩
  show (if (true && decide _ && decide _) = true then 0 + 1 else 0) = _
  simp only [Bool.true_and, Bool.and_eq_true, decide_eq_true_eq, Nat.zero_add]

/-- The capacity that the empty anchor of this sample leaves (R168). -/
def State.learntCapacity (s : State) (x : PackSample) : Nat :=
  match s.gauge.run with
  | some d =>
    if d.warm = true ∧ 100 ≤ x.t then
      clampNat (s.design / 2) s.design
        ((3 * s.gauge.fcc + ((clampInt 0 864000000 (d.drawn + x.i)).toNat + lockedCharge s.gauge.fcc x.t)) / 4)
    else s.gauge.fcc
  | none => s.gauge.fcc

theorem fcc_learnCapacity {x : PackSample} (he : s.gauge.estimated = true) :
    (Gauge.learnCapacity s.design
      (Gauge.emptyCounted s.cutoffMv x { s.gauge.counted s.cells x with lastDone := x.done })).fcc = s.learntCapacity x := by
  rw [counted_estimated he]
  unfold State.learntCapacity Gauge.learnCapacity Gauge.emptyCounted
  cases hr : s.gauge.run with
  | none => rfl
  | some d =>
    simp only [Option.map_some, Discharge.count, Bool.and_eq_true, decide_eq_true_eq]
    split <;> rfl

/-- The sample that takes the empty anchor (R168). -/
theorem answered_emptyAnchor (he : s.gauge.estimated = true) (hd : ((sampleOf r).done && !s.gauge.lastDone) = false)
    (hdue : s.gauge.emptyDue s.cutoffMv (sampleOf r) = true) :
    (answeredSample r s).gauge.fcc = s.learntCapacity (sampleOf r) ∧
      (answeredSample r s).gauge.locked = lockedCharge (s.learntCapacity (sampleOf r)) (sampleOf r).t ∧
      (answeredSample r s).gauge.rc = (answeredSample r s).gauge.locked ∧
      (answeredSample r s).gauge.conf = .anchored ∧ (answeredSample r s).gauge.armed = false ∧
      (answeredSample r s).gauge.run = none ∧ (answeredSample r s).gauge.soc = 0 ∧ (answeredSample r s).gauge.tte = 0 ∧
      (answeredSample r s).gauge.empties = satInc Config.max32 s.gauge.empties ∧
      (answeredSample r s).gauge.fulls = s.gauge.fulls := by
  obtain ⟨run, hg, hrun⟩ := charge_answeredSample r s
  obtain ⟨-, -, -, -, -, -, hld, -, -, hfulls, hempties⟩ :=
    counted_stream (cells := s.cells) (x := sampleOf r) (g := s.gauge)
  have hfcc := fcc_learnCapacity (x := sampleOf r) he
  rw [State.anchoredGauge, anchored_empty (by rw [hld]; exact hd) (emptyDue_counted.trans hdue)] at hg hrun
  have hnone : run = none := hrun.elim id And.left
  obtain ⟨-, -, -, -, lempties, lfulls, -⟩ := learnCapacity_stream (design := s.design)
    (g := Gauge.emptyCounted s.cutoffMv (sampleOf r) { s.gauge.counted s.cells (sampleOf r) with lastDone := (sampleOf r).done })
  have hlocked := (congrArg Gauge.locked hg :)
  have hrc := (congrArg Gauge.rc hg :)
  refine ⟨(congrArg Gauge.fcc hg :).trans hfcc, hlocked.trans (congrArg (lockedCharge · _) hfcc), hrc.trans hlocked.symm,
    (congrArg Gauge.conf hg :), (congrArg Gauge.armed hg :), (congrArg Gauge.run hg :).trans hnone,
    (congrArg Gauge.soc hg :).trans ?_, (congrArg Gauge.tte hg :),
    (congrArg Gauge.empties hg :).trans (congrArg (satInc Config.max32) (lempties.trans hempties)),
    (congrArg Gauge.fulls hg :).trans (lfulls.trans hfulls)⟩
  exact if_pos (Nat.le_refl _)

end Answered

end Sys2Proof.Machine

namespace Sys2Proof
open Machine

/-- Settles O46: an answered sample's gauge is that of its counting and anchoring steps, since reserve, collapse, resistance
and the notices after them touch other fields. -/
theorem gaugeSamplesCountTheCharge : Obligations.GaugeSamplesCountTheCharge := by
  intro r o s g x
  refine ⟨?_, ?_, ?_, ?_⟩
  · intro h
    have hread : gaugeRead o s = s := by simp only [gaugeRead, show s.gauge.sampling = false from h, Bool.not_false, if_true]
    have hrow : exec (.gaugeSample o) s = .next (gaugeRead o s) := rfl
    rw [hrow, hread]
  · intro h
    have hread : gaugeRead none s = s.modGauge Gauge.missSample := by
      simp only [gaugeRead, show s.gauge.sampling = true from h, Bool.not_true, Bool.false_eq_true, if_false]
    have hrow : exec (.gaugeSample none) s = .next (gaugeRead none s) := rfl
    rw [hrow, hread]
    rfl
  · intro h
    have hrow : exec (.gaugeSample (some r)) s = .next (gaugeRead (some r) s) := rfl
    obtain ⟨hset, hclock, -⟩ := gaugeIs_answeredSample r s
    obtain ⟨hlast, hans, hmiss, hring⟩ := answered_stream r s
    refine ⟨answeredSample r s, by rw [hrow, gaugeRead_answered h], hset, hclock, ?_, hans, hmiss, hring, ?_, ?_, ?_⟩
    · rw [hlast, Bool.decide_or]
      rfl
    · intro he hd hlow
      have hdue : s.gauge.emptyDue s.cutoffMv (sampleOf r) = false := by
        rw [← Bool.not_eq_true, emptyDue_iff]
        rintro ⟨ha, hv, hi, h7⟩
        exact absurd (hlow ha hv hi) (Nat.not_lt.mpr h7)
      have hno : ((sampleOf r).done && !s.gauge.lastDone) = false := by
        rw [show (sampleOf r).done = false from hd]
        rfl
      exact answered_counts he hno hdue
    · intro he hd h7 v points
      have hdue : s.gauge.emptyDue s.cutoffMv (sampleOf r) = false := by
        rw [← Bool.not_eq_true, emptyDue_iff]
        rintro ⟨-, -, -, hge⟩
        exact absurd h7 (Nat.not_lt.mpr hge)
      have hno : ((sampleOf r).done && !s.gauge.lastDone) = false := by
        rcases hd with hd | hd
        · rw [show (sampleOf r).done = false from hd]
          rfl
        · rw [show s.gauge.lastDone = true from hd, Bool.not_true, Bool.and_false]
      obtain ⟨hest, hconf, hrun, hfcc, hrc⟩ := answered_estimates he hno hdue
      refine ⟨hest, hconf, hrun, hfcc, ?_, ?_, ?_⟩
      · intro hv
        rw [hrc, estimateOf_below hv, Nat.mul_zero, Nat.zero_div]
      · intro hv
        rw [hrc, estimateOf_above hv, Nat.mul_div_cancel _ (by decide : 0 < 100)]
      · intro i lo hi hl hr hlo hhi
        rw [hrc, estimateOf_between hl hr hlo hhi]
    · intro hd hl hc
      exact answered_fullAnchor hd hl hc
  · intro h he ha hd hv hi h7 fcc
    have hdue : s.gauge.emptyDue s.cutoffMv (sampleOf r) = true := emptyDue_iff.mpr ⟨ha, hv, hi, h7⟩
    have hno : ((sampleOf r).done && !s.gauge.lastDone) = false := by
      rw [show (sampleOf r).done = false from hd]
      rfl
    have hanchored : s.emptyAnchored (some r) = true := by
      simp only [State.emptyAnchored, show s.gauge.sampling = true from h, hno, hdue, Bool.not_false, Bool.and_self]
    have hrow : exec (.emptyAnchor (some r)) s = .next (answeredSample r s) := by
      have hexec : exec (.emptyAnchor (some r)) s = .next (emptyAnchorRow (some r) s) := rfl
      rw [hexec, emptyAnchorRow, gaugeRow, gaugeRead_answered h]
      rw [if_pos hanchored]
    obtain ⟨hset, hclock, -⟩ := gaugeIs_answeredSample r s
    exact ⟨answeredSample r s, hrow, hset, hclock, answered_emptyAnchor he hno hdue⟩

end Sys2Proof
end

section
/-!
PROOFS. Reserve, collapse and the recovery from a collapse (O47).
-/
namespace Sys2Proof.Machine

/-! ## The marks of the gauge across a sample's steps (R163 to R165) -/

/-- The reserve and collapse marks with their runs, and the resistance they are judged with. -/
structure Gauge.SameMarks (g h : Gauge) : Prop where
  reserve : h.reserve = g.reserve
  lowRun : h.lowRun = g.lowRun
  clearRun : h.clearRun = g.clearRun
  res : h.res = g.res
  collapse : h.collapse = g.collapse
  collRun : h.collRun = g.collRun
  recRun : h.recRun = g.recRun

theorem Gauge.SameMarks.trans {g h k : Gauge} (a : g.SameMarks h) (b : h.SameMarks k) : g.SameMarks k :=
  ⟨b.reserve.trans a.reserve, b.lowRun.trans a.lowRun, b.clearRun.trans a.clearRun, b.res.trans a.res,
    b.collapse.trans a.collapse, b.collRun.trans a.collRun, b.recRun.trans a.recRun⟩

theorem sameMarks_counted (cells : Nat) (x : PackSample) (g : Gauge) : g.SameMarks (g.counted cells x) := by
  cases h : g.estimated with
  | true =>
    rw [counted_estimated h]
    exact ⟨rfl, rfl, rfl, rfl, rfl, rfl, rfl⟩
  | false =>
    rw [counted_first h]
    exact ⟨rfl, rfl, rfl, rfl, rfl, rfl, rfl⟩

theorem sameMarks_learnCapacity (design : Nat) (g : Gauge) : g.SameMarks (g.learnCapacity design) := by
  unfold Gauge.learnCapacity
  split
  · split <;> exact ⟨rfl, rfl, rfl, rfl, rfl, rfl, rfl⟩
  · exact ⟨rfl, rfl, rfl, rfl, rfl, rfl, rfl⟩

theorem sameMarks_anchored (design cutoff clock : Nat) (x : PackSample) (g : Gauge) :
    g.SameMarks (g.anchored design cutoff clock x) := by
  by_cases hd : (x.done && !g.lastDone) = true
  · rw [Bool.and_eq_true, Bool.not_eq_true'] at hd
    rw [anchored_full hd.1 hd.2]
    exact ⟨rfl, rfl, rfl, rfl, rfl, rfl, rfl⟩
  · rw [Bool.not_eq_true] at hd
    cases he : g.emptyDue cutoff x with
    | false =>
      rw [anchored_plain hd he]
      exact ⟨rfl, rfl, rfl, rfl, rfl, rfl, rfl⟩
    | true =>
      rw [anchored_empty hd he]
      obtain ⟨hres, hlow, hclear, hr, hc, hcoll, hrec⟩ :=
        sameMarks_learnCapacity design (Gauge.emptyCounted cutoff x { g with lastDone := x.done })
      exact ⟨hres, hlow, hclear, hr, hc, hcoll, hrec⟩

theorem sameMarks_anchoredGauge (s : State) (x : PackSample) : s.gauge.SameMarks (s.anchoredGauge x) :=
  (sameMarks_counted s.cells x s.gauge).trans (sameMarks_anchored _ _ _ x _)

/-! ## The reserve flag after a sample (R164) -/

/-- The reserve flag, its headroom and its runs. -/
def Gauge.margin (g : Gauge) : Bool × Int × Nat × Nat := (g.reserve, g.headroom, g.lowRun, g.clearRun)

theorem margin_collapsed (low : Bool) (cutoff : Nat) (x : PackSample) (g : Gauge) :
    (g.collapsed low cutoff x).margin = g.margin := by
  have hrec : (g.recoveryStep low cutoff x).margin = g.margin := by
    unfold Gauge.recoveryStep
    split <;> rfl
  have hcoll : ((g.recoveryStep low cutoff x).collapseStep cutoff x).margin = g.margin := by
    rw [← hrec]
    unfold Gauge.collapseStep
    split <;> rfl
  unfold Gauge.collapsed
  dsimp only
  split
  · exact hcoll
  · exact hcoll

theorem margin_learnStep (prev : Option PackSample) (x : PackSample) (g : Gauge) : (g.learnStep prev x).margin = g.margin := by
  unfold Gauge.learnStep
  split
  · split <;> rfl
  · rfl

theorem margin_answeredSample (r : PackRead) (s : State) :
    (answeredSample r s).gauge.margin = (s.judgedGauge (sampleOf r)).margin := by
  obtain ⟨-, -, hg⟩ := gaugeIs_answeredSample r s
  have hs : (s.sampledGauge (sampleOf r)).margin = (s.judgedGauge (sampleOf r)).margin :=
    (margin_learnStep _ _ _).trans (margin_collapsed _ _ _ _)
  rw [hg]
  split
  · exact hs
  · exact hs

/-- The headroom of a sample in the words of R163. -/
theorem headroomOf_eq (peak cutoff res : Nat) (x : PackSample) :
    headroomOf peak cutoff res x =
      x.v - (if x.i < peak then ((peak - x.i).toNat * res + 999) / 1000 else 0 : Int) - cutoff := by
  unfold headroomOf dropOf
  split <;> simp

theorem reserveStep_raises {peak cutoff margin permille : Nat} {x : PackSample} {g : Gauge} (hr : g.reserve = false)
    (h : (headroomOf peak cutoff g.res x < margin ∧ 3 ≤ g.lowRun) ∨ g.free < g.floorQ permille) :
    (g.reserveStep peak cutoff margin permille x).reserve = true ∧
      (g.reserveStep peak cutoff margin permille x).headroom = headroomOf peak cutoff g.res x ∧
      (g.reserveStep peak cutoff margin permille x).clearRun = 0 := by
  have hdue : 4 ≤ (if headroomOf peak cutoff g.res x < margin then g.lowRun + 1 else 0) ∨ g.free < g.floorQ permille := by
    rcases h with ⟨hm, h3⟩ | hf
    · rw [if_pos hm]
      exact .inl (Nat.succ_le_succ h3)
    · exact .inr hf
  have hstep : g.reserveStep peak cutoff margin permille x =
      { g with
        headroom := headroomOf peak cutoff g.res x, reserve := true,
        lowRun := if headroomOf peak cutoff g.res x < margin then g.lowRun + 1 else 0, clearRun := 0 } := by
    unfold Gauge.reserveStep
    dsimp only
    rw [hr, if_neg Bool.false_ne_true]
    exact if_pos hdue
  rw [hstep]
  exact ⟨rfl, rfl, rfl⟩

theorem reserveStep_clears {peak cutoff margin permille : Nat} {x : PackSample} {g : Gauge} (hr : g.reserve = true)
    (hm : (margin : Int) + 100 ≤ headroomOf peak cutoff g.res x) (hf : (g.floorQ permille : Int) < g.free)
    (h39 : 39 ≤ g.clearRun) :
    (g.reserveStep peak cutoff margin permille x).reserve = false ∧
      (g.reserveStep peak cutoff margin permille x).headroom = headroomOf peak cutoff g.res x ∧
      (g.reserveStep peak cutoff margin permille x).lowRun = 0 := by
  have hclear : 40 ≤ (if (margin : Int) + 100 ≤ headroomOf peak cutoff g.res x ∧ (g.floorQ permille : Int) < g.free
      then g.clearRun + 1 else 0) := by
    rw [if_pos ⟨hm, hf⟩]
    exact Nat.succ_le_succ h39
  have hstep : g.reserveStep peak cutoff margin permille x =
      { g with
        headroom := headroomOf peak cutoff g.res x, reserve := false, lowRun := 0,
        clearRun := if (margin : Int) + 100 ≤ headroomOf peak cutoff g.res x ∧ (g.floorQ permille : Int) < g.free
          then g.clearRun + 1 else 0 } := by
    unfold Gauge.reserveStep
    dsimp only
    rw [hr, if_pos rfl]
    exact if_pos hclear
  rw [hstep]
  exact ⟨rfl, rfl, rfl⟩

/-- The charge that is not locked and the floor, where the sample is counted and takes no anchor (R164). -/
theorem free_anchoredGauge {s : State} {x : PackSample} (he : s.gauge.estimated = true)
    (hd : (x.done && !s.gauge.lastDone) = false) (hdue : s.gauge.emptyDue s.cutoffMv x = false) :
    (s.anchoredGauge x).free = clampInt 0 s.gauge.fcc (s.gauge.rc - x.i) - (lockedCharge s.gauge.fcc x.t : Nat) ∧
      (s.anchoredGauge x).floorQ s.floorPermille = s.gauge.fcc * s.floorPermille / 1000 := by
  obtain ⟨-, -, -, -, -, -, hld, -⟩ := counted_stream (cells := s.cells) (x := x) (g := s.gauge)
  rw [State.anchoredGauge, anchored_plain (by rw [hld]; exact hd) (emptyDue_counted.trans hdue), counted_estimated he]
  refine ⟨?_, rfl⟩
  have hpos : 0 ≤ clampInt 0 s.gauge.fcc (s.gauge.rc - x.i) := by
    unfold clampInt
    omega
  exact congrArg (· - ((lockedCharge s.gauge.fcc x.t : Nat) : Int)) (Int.toNat_of_nonneg hpos)

/-- A read that raises, clears, collapses or recovers is the event of its row. -/
theorem gaugeRow_answered {p : State → State → Bool} {r : PackRead} {s : State} (h : s.gauge.sampling = true)
    (hp : p s (answeredSample r s) = true) : gaugeRow p (some r) s = answeredSample r s := by
  rw [gaugeRow, gaugeRead_answered h]
  exact if_pos hp

/-! ## Collapse (R165) -/

theorem collapsed_marks {low : Bool} {cutoff : Nat} {x : PackSample} {g : Gauge} (hg : g.collapse = false)
    (hv : x.v < cutoff) (h1 : 1 ≤ g.collRun) : (g.collapsed low cutoff x).collapse = true := by
  have hrec : g.recoveryStep low cutoff x = { g with recRun := 0 } := by
    rw [Gauge.recoveryStep, hg, Bool.and_false, if_neg Bool.false_ne_true]
  unfold Gauge.collapsed
  dsimp only
  rw [hrec, hg, Bool.false_and, if_neg Bool.false_ne_true]
  unfold Gauge.collapseStep
  dsimp only
  rw [if_neg Bool.false_ne_true, if_pos hv]
  exact decide_eq_true (Nat.succ_le_succ h1)

theorem collapsed_recovers {cutoff : Nat} {x : PackSample} {g : Gauge} (hg : g.collapse = true)
    (hv : cutoff + 300 ≤ x.v) (h39 : 39 ≤ g.recRun) :
    g.collapsed true cutoff x = { g with collapse := false, collRun := 0, recRun := 0 } ∧
      40 ≤ (g.recoveryStep true cutoff x).recRun := by
  have hrec : g.recoveryStep true cutoff x = { g with recRun := g.recRun + 1 } := by
    rw [Gauge.recoveryStep, hg, Bool.and_self, if_pos rfl, if_pos hv]
  have hcoll : ({ g with recRun := g.recRun + 1 } : Gauge).collapseStep cutoff x = { g with recRun := g.recRun + 1 } := by
    unfold Gauge.collapseStep
    exact if_pos hg
  rw [hrec]
  refine ⟨?_, Nat.succ_le_succ h39⟩
  unfold Gauge.collapsed
  dsimp only
  rw [hrec, hcoll, hg, Bool.true_and]
  exact if_pos (decide_eq_true (Nat.succ_le_succ h39))

theorem collapse_learnStep (prev : Option PackSample) (x : PackSample) (g : Gauge) :
    (g.learnStep prev x).collapse = g.collapse ∧ (g.learnStep prev x).collRun = g.collRun ∧
      (g.learnStep prev x).recRun = g.recRun := by
  unfold Gauge.learnStep
  split
  · split <;> exact ⟨rfl, rfl, rfl⟩
  · exact ⟨rfl, rfl, rfl⟩

theorem sameMarks_collapse_reserved (s : State) (x : PackSample) (g : Gauge) :
    (s.reserved x g).collapse = g.collapse ∧ (s.reserved x g).collRun = g.collRun ∧ (s.reserved x g).recRun = g.recRun := by
  unfold State.reserved Gauge.reserveStep
  dsimp only
  split <;> split <;> split <;> exact ⟨rfl, rfl, rfl⟩

/-- The collapse mark and both its runs before the collapse is judged are those before the sample. -/
theorem collapse_of_judgedGauge (s : State) (x : PackSample) :
    (s.judgedGauge x).collapse = s.gauge.collapse ∧ (s.judgedGauge x).collRun = s.gauge.collRun ∧
      (s.judgedGauge x).recRun = s.gauge.recRun := by
  obtain ⟨hc, hcoll, hrec⟩ := sameMarks_collapse_reserved s x (s.anchoredGauge x)
  have hm := sameMarks_anchoredGauge s x
  exact ⟨hc.trans hm.collapse, hcoll.trans hm.collRun, hrec.trans hm.recRun⟩

/-! ## The power state up to the judgement of a collapse -/

theorem closePause_st (s : State) : (closePause s).power.st = s.power.st := by
  unfold closePause
  split
  · rfl
  · rename_i r hr
    split
    · rfl
    · rename_i hk
      have hpause : r.cmd.kind = .pause := by
        by_contra hne
        exact hk (.inl hne)
      dsimp only
      split
      · rfl
      · unfold endCommand
        rw [modStore_link, hr]
        dsimp only
        split
        · unfold finalPlaced
          rw [hpause]
          rfl
        · rfl

theorem beginOrderly_st (cause : CloseoutCause) (s : State) : (beginOrderly cause s).power.st = s.power.st := by
  unfold beginOrderly
  dsimp only
  rw [updateWait_power, (closeEach_closesLines _ _ _ _).power]
  exact closePause_st _

theorem actOnReserve_st (s : State) : (actOnReserve s).power.st = s.power.st := by
  unfold actOnReserve
  split
  · rfl
  · split
    · exact beginOrderly_st _ s
    all_goals rfl

theorem wakeBy_st {cause : WakeCause} {s : State} (h : s.power.st ≠ .lowHalt) : (wakeBy cause s).power.st ≠ .lowHalt := by
  unfold wakeBy
  split
  · unfold wake
    dsimp only
    split <;> exact (by decide : PowerState.run ≠ PowerState.lowHalt)
  · exact h

theorem reserveChange_st {s : State} (h : s.power.st ≠ .lowHalt) : (reserveChange s).power.st ≠ .lowHalt := by
  unfold reserveChange
  dsimp only
  split
  · rw [actOnReserve_st, raiseNotice_power]
    exact wakeBy_st h
  · rw [raiseNotice_power]
    exact wakeBy_st h

/-- Outside LOW-HALT the anchors and the reserve do not enter it. -/
theorem judgedSample_st {s : State} (x : PackSample) (h : s.power.st ≠ .lowHalt) : (s.judgedSample x).power.st ≠ .lowHalt := by
  have hanch : (anchorSteps x (s.modGauge (Gauge.counted s.cells x))).power.st ≠ .lowHalt := by
    unfold anchorSteps
    dsimp only
    rw [modGauge_power]
    split
    · exact wakeBy_st h
    · exact h
  unfold State.judgedSample reserveSteps
  dsimp only
  split
  · exact hanch
  · exact reserveChange_st hanch

/-- A state without the gauge and the messages. -/
def State.unlinked (s : State) : State := { s with gauge := State.reset.gauge, link := State.reset.link }

theorem wakeBy_lowHalt {cause : WakeCause} {s : State} (hst : s.power.st = .lowHalt) (hp : s.power.pauseMark = none) :
    wakeBy cause s = s := by
  have hno : s.pausing = false := by
    rw [State.pausing, State.paused, hst, hp]
    rfl
  rw [wakeBy, hno, if_neg Bool.false_ne_true]

/-- In LOW-HALT the anchors and the reserve move the gauge and the notices alone. -/
theorem judgedSample_lowHalt {s : State} (x : PackSample) (hst : s.power.st = .lowHalt) (hp : s.power.pauseMark = none) :
    (s.judgedSample x).unlinked = s.unlinked := by
  have hanch : (anchorSteps x (s.modGauge (Gauge.counted s.cells x))).unlinked = s.unlinked := by
    unfold anchorSteps
    dsimp only
    split
    · rw [wakeBy_lowHalt (by exact hst) (by exact hp)]
      rfl
    · rfl
  have hpower : (anchorSteps x (s.modGauge (Gauge.counted s.cells x))).power = s.power :=
    (congrArg State.power hanch :)
  unfold State.judgedSample reserveSteps
  dsimp only
  generalize anchorSteps x (s.modGauge (Gauge.counted s.cells x)) = t at hanch hpower
  split
  · exact hanch
  · have ht : t.power.st = .lowHalt := by rw [hpower, hst]
    unfold reserveChange
    dsimp only
    rw [wakeBy_lowHalt (by exact ht) (by rw [modGauge_power, hpower, hp])]
    split
    · rw [actOnReserve, if_pos (.inl ht)]
      exact hanch
    · exact hanch

/-! ## What an answered sample does at a collapse and at a recovery -/

theorem collapse_sampledGauge (s : State) (x : PackSample) :
    (s.sampledGauge x).collapse =
      ((s.judgedGauge x).collapsed ((s.judgedSample x).power.st == .lowHalt) s.cutoffMv x).collapse :=
  (collapse_learnStep _ x _).1

/-- The part does not recover where the collapse mark is clear. -/
theorem not_recovers {s : State} {x : PackSample} (h : s.gauge.collapse = false) : s.recovers x = false := by
  cases hr : s.recovers x with
  | false => rfl
  | true => exact absurd ((collapse_judgedGauge s x).symm.trans (recovers_collapse hr)) (by rw [h]; exact Bool.false_ne_true)

/-- The state in which the collapse is judged, where the mark is clear and the sample sets it. -/
theorem collapseStep_handed {s : State} {x : PackSample} (hc : s.gauge.collapse = false) (hv : x.v < s.cutoffMv)
    (h1 : 1 ≤ s.gauge.collRun) : ∃ g, (collapseStep x (s.judgedSample x)).1 =
      collapseHanded x.v { s.judgedSample x with gauge := g } := by
  obtain ⟨hjc, hjr, -⟩ := collapse_of_judgedGauge s x
  have his := gaugeIs_judgedSample s x
  have hmark : (s.judgedSample x).gauge.collapse = false := (congrArg Gauge.collapse his.gauge).trans (hjc.trans hc)
  have hcut : (s.judgedSample x).cutoffMv = s.cutoffMv := his.item 35
  have hset := collapsed_marks (low := (s.judgedSample x).power.st == .lowHalt) (hjc.trans hc) hv (hjr.symm ▸ h1)
  have hgauge : (s.judgedSample x).gauge = s.judgedGauge x := his.gauge
  unfold Gauge.collapsed at hset
  dsimp only at hset
  rw [hjc.trans hc, Bool.false_and, if_neg Bool.false_ne_true, ← hgauge, ← hcut] at hset
  refine ⟨((s.judgedSample x).gauge.recoveryStep ((s.judgedSample x).power.st == .lowHalt) (s.judgedSample x).cutoffMv x).collapseStep
    (s.judgedSample x).cutoffMv x, ?_⟩
  unfold collapseStep
  dsimp only
  rw [hmark, Bool.not_false, if_pos rfl]
  exact if_pos hset

/-- A collapse outside LOW-HALT begins an emergency closeout and closes the intake (R185). -/
theorem answered_collapse {r : PackRead} {s : State} (hc : s.gauge.collapse = false) (hv : (sampleOf r).v < s.cutoffMv)
    (h1 : 1 ≤ s.gauge.collRun) (hst : s.power.st ≠ .lowHalt) :
    (answeredSample r s).power.closeout = some { kind := .emergency, cause := .collapse } ∧
      (answeredSample r s).intake.openReq = false := by
  obtain ⟨g, hstep⟩ := collapseStep_handed hc hv h1
  have hwake : (raiseNotice .collapse (le2 (sampleOf r).v)
      (wakeBy .collapse { s.judgedSample (sampleOf r) with gauge := g })).power.st ≠ .lowHalt := by
    rw [raiseNotice_power]
    exact wakeBy_st (judgedSample_st _ hst)
  have hbegun := kept_beginEmergency hwake
  have hclose := congrArg (fun t : State => t.power.closeout) hbegun
  have hopen := congrArg (fun t : State => t.intake.openReq) hbegun
  rw [answeredSample_eq, not_recovers hc, if_neg Bool.false_ne_true]
  have hfin := kept_finish (s.sampled (sampleOf r))
  have hpower : (s.sampled (sampleOf r)).power = (collapseStep (sampleOf r) (s.judgedSample (sampleOf r))).1.power ∧
      (s.sampled (sampleOf r)).intake = (collapseStep (sampleOf r) (s.judgedSample (sampleOf r))).1.intake := by
    unfold State.sampled batteryStep
    split
    · exact ⟨rfl, rfl⟩
    · obtain ⟨l, hl⟩ := judgeBattery_frame s.gauge.conf ((collapseStep (sampleOf r) (s.judgedSample (sampleOf r))).1.modGauge
        (Gauge.learnStep (if s.gauge.prevOk then s.gauge.last else none) (sampleOf r)))
      rw [hl]
      exact ⟨rfl, rfl⟩
  obtain ⟨hp, hi⟩ := hpower
  have hfc : (finish (s.sampled (sampleOf r))).power.closeout = (s.sampled (sampleOf r)).power.closeout :=
    (congrArg (fun t : State => t.power.closeout) hfin :)
  have hfo : (finish (s.sampled (sampleOf r))).intake.openReq = (s.sampled (sampleOf r)).intake.openReq :=
    (congrArg (fun t : State => t.intake.openReq) hfin :)
  rw [hfc, hfo, hp, hi, hstep]
  exact ⟨hclose, hopen⟩

/-- The power state, the count of strap levels and the run clock of a sample that recovers, before the part is reset. -/
theorem recovers_lowHalt {s : State} {x : PackSample} (hc : s.gauge.collapse = true) (hst : s.power.st = .lowHalt)
    (hp : s.power.pauseMark = none) (hv : s.cutoffMv + 300 ≤ x.v) (h39 : 39 ≤ s.gauge.recRun) :
    s.recovers x = true ∧ (s.sampledGauge x).collapse = false ∧ (s.sampledGauge x).collRun = 0 ∧
      (s.sampledGauge x).recRun = 0 := by
  obtain ⟨hjc, -, hjr⟩ := collapse_of_judgedGauge s x
  have hpower : (s.judgedSample x).power = s.power := (congrArg State.power (judgedSample_lowHalt x hst hp) :)
  have hlow : ((s.judgedSample x).power.st == .lowHalt) = true := by rw [hpower, hst]; rfl
  obtain ⟨hclear, h40⟩ := collapsed_recovers (cutoff := s.cutoffMv) (hjc.trans hc) hv (hjr.symm ▸ h39)
  have hrec : s.recovers x = true := by
    rw [State.recovers, collapseStep_recovered x (gaugeIs_judgedSample s x), hlow, hjc, hc, Bool.true_and]
    exact decide_eq_true h40
  obtain ⟨lc, lr, lrec⟩ := collapse_learnStep (if s.gauge.prevOk then s.gauge.last else none) x
    ((s.judgedGauge x).collapsed ((s.judgedSample x).power.st == .lowHalt) s.cutoffMv x)
  rw [hlow, hclear] at lc lr lrec
  refine ⟨hrec, ?_, ?_, ?_⟩
  · unfold State.sampledGauge
    dsimp only
    rw [hlow, hclear]
    exact lc
  · unfold State.sampledGauge
    dsimp only
    rw [hlow, hclear]
    exact lr
  · unfold State.sampledGauge
    dsimp only
    rw [hlow, hclear]
    exact lrec

end Sys2Proof.Machine

namespace Sys2Proof
open Machine

/-- Settles O47: reserve and collapse are steps of the sample's gauge, and the recovery is the one sample whose handling ends in
a reset. -/
theorem reserveAndCollapseAreRaisedAndCleared : Obligations.ReserveAndCollapseAreRaisedAndCleared := by
  intro r s hsampling g x drop headroom stands
  have hheadroom : headroomOf s.closeoutPeak s.cutoffMv (s.anchoredGauge x).res x = headroom := by
    rw [(sameMarks_anchoredGauge s x).res]
    exact headroomOf_eq _ _ _ _
  have hstands : stands (answeredSample r s) :=
    ⟨(gaugeIs_answeredSample r s).1, (gaugeIs_answeredSample r s).2.1, (answered_stream r s).2.1⟩
  have hmargin := margin_answeredSample r s
  have hraise (hr : g.reserve = false) (hdue : (headroom < s.marginMv ∧ 3 ≤ g.lowRun) ∨
      (s.anchoredGauge x).free < (s.anchoredGauge x).floorQ s.floorPermille) :
      ∃ t, exec (.reserveRaise (some r)) s = .next t ∧
        t.gauge.reserve = true ∧ t.gauge.headroom = headroom ∧ t.gauge.clearRun = 0 ∧ stands t := by
    have hm := sameMarks_anchoredGauge s x
    rw [← hheadroom, ← show (s.anchoredGauge x).lowRun = g.lowRun from hm.lowRun] at hdue
    obtain ⟨h1, h2, h3⟩ := reserveStep_raises (hm.reserve.trans hr) hdue
    have k1 : (answeredSample r s).gauge.reserve = true := (congrArg Prod.fst hmargin).trans h1
    have k2 : (answeredSample r s).gauge.headroom = headroom := (congrArg (fun p => p.2.1) hmargin).trans (h2.trans hheadroom)
    have k3 : (answeredSample r s).gauge.clearRun = 0 := (congrArg (fun p => p.2.2.2) hmargin).trans h3
    have hexec : exec (.reserveRaise (some r)) s = .next (reserveRaise (some r) s) := rfl
    refine ⟨_, by rw [hexec, reserveRaise, gaugeRow_answered hsampling (by rw [show s.gauge.reserve = false from hr, k1]; rfl)],
      k1, k2, k3, hstands⟩
  refine ⟨?_, ?_, ?_, ?_⟩
  · intro hr hm h3
    exact hraise hr (.inl ⟨hm, h3⟩)
  · intro he hd hlow free floor
    have hdue : s.gauge.emptyDue s.cutoffMv x = false := by
      rw [← Bool.not_eq_true, emptyDue_iff]
      rintro ⟨ha, hv, hi, h7⟩
      exact absurd (hlow ha hv hi) (Nat.not_lt.mpr h7)
    have hno : (x.done && !s.gauge.lastDone) = false := by
      rw [show x.done = false from hd]
      rfl
    obtain ⟨hfree, hfloor⟩ := free_anchoredGauge he hno hdue
    have hfree' : (s.anchoredGauge x).free = free := hfree
    have hfloor' : ((s.anchoredGauge x).floorQ s.floorPermille : Int) = floor := congrArg Int.ofNat hfloor
    refine ⟨?_, ?_⟩
    · intro hr hlt
      exact hraise hr (.inr (by rw [hfree', hfloor']; exact hlt))
    · intro hr hm hlt h39
      have hmarks := sameMarks_anchoredGauge s x
      rw [← hheadroom] at hm
      rw [← hfree', ← hfloor'] at hlt
      obtain ⟨h1, h2, h3⟩ := reserveStep_clears (hmarks.reserve.trans hr) hm hlt (hmarks.clearRun.symm ▸ h39)
      have k1 : (answeredSample r s).gauge.reserve = false := (congrArg Prod.fst hmargin).trans h1
      have k2 : (answeredSample r s).gauge.headroom = headroom := (congrArg (fun p => p.2.1) hmargin).trans (h2.trans hheadroom)
      have k3 : (answeredSample r s).gauge.lowRun = 0 := (congrArg (fun p => p.2.2.1) hmargin).trans h3
      have hexec : exec (.reserveClear (some r)) s = .next (reserveClear (some r) s) := rfl
      refine ⟨_, by rw [hexec, reserveClear, gaugeRow_answered hsampling (by rw [show s.gauge.reserve = true from hr, k1]; rfl)],
        k1, k2, k3, hstands⟩
  · intro hc hv h1
    obtain ⟨hjc, hjr, -⟩ := collapse_of_judgedGauge s x
    have hset : (answeredSample r s).gauge.collapse = true := by
      rw [(gaugeIs_answeredSample r s).2.2, not_recovers hc, if_neg Bool.false_ne_true, collapse_sampledGauge]
      exact collapsed_marks (hjc.trans hc) hv (hjr.symm ▸ h1)
    have hexec : exec (.collapse (some r)) s = .next (collapseRow (some r) s) := rfl
    exact ⟨_, by rw [hexec, collapseRow, gaugeRow_answered hsampling (by rw [show s.gauge.collapse = false from hc, hset]; rfl)],
      hset, hstands, answered_collapse hc hv h1⟩
  · intro hc hst hp hv h39
    obtain ⟨hrec, gc, gcr, grec⟩ := recovers_lowHalt hc hst hp hv h39
    have hsam := gaugeIs_sampled s x
    have hreset : answeredSample r s = sampledReset .lowRecovery (s.sampled x) := by
      rw [answeredSample_eq, if_pos hrec]
    have hgauge : (answeredSample r s).gauge = (s.sampledGauge x).afterReset := by
      rw [(gaugeIs_answeredSample r s).2.2]
      exact if_pos hrec
    have hclear : (answeredSample r s).gauge.collapse = false := by rw [hgauge]; exact gc
    have hexec : exec (.collapseRecovery (some r)) s = .next (collapseRecovery (some r) s) := rfl
    have hmark : (s.sampled x).gauge.collapse = false := (congrArg Gauge.collapse hsam.gauge :).trans gc
    have hstraps : (s.sampled x).straps = s.straps := hsam.straps
    have hclock : (s.sampled x).power.clock = s.power.clock := hsam.clock
    refine ⟨answeredSample r s, by
      rw [hexec, collapseRecovery, gaugeRow_answered hsampling (by rw [show s.gauge.collapse = true from hc, hclear]; rfl)],
      hclear, by rw [hgauge]; exact gcr, ?_, by rw [hgauge]; rfl, hstands, ?_⟩
    · rw [hgauge, Gauge.afterReset, gc]
      rfl
    · rw [hreset]
      refine ⟨?_, ?_, ?_, rfl, rfl, rfl, rfl, rfl, rfl⟩
      · show powerAfter _ _ _ = _
        rw [powerAfter, ← hclock]
        exact if_neg (by rw [hmark]; exact Bool.false_ne_true)
      · rw [← hstraps]
        rfl
      · rw [← hstraps]
        rfl

end Sys2Proof
end

section
/-!
PROOFS. Samples of the motion monitor in calm (O42) and the decay of the handling score (O45).
-/
namespace Sys2Proof.Machine

/-! ## One read of the accelerometer (R136, R145) -/

/-- The motion unit with an answered sample in its stream. -/
def Motion.streamed (raw : Triple) (m : Motion) : Motion :=
  { m with lastRaw := some raw, repeats := repeatNext m.lastRaw raw m.repeats, missed := 0 }

/-- The state with an answered sample in the stream of its motion unit. -/
def State.streamed (raw : Triple) (s : State) : State := { s with motion := s.motion.streamed raw }

/-- The state with its motion unit changed. -/
theorem modMotion_eq (f : Motion → Motion) (s : State) : s.modMotion f = { s with motion := f s.motion } := rfl

section Reads
variable {raw : Triple} {r : Option Triple} {s : State}

theorem exec_motionSample_deep (h : s.power.st = .deep) : exec (.motionSample r) s = .next s := by
  have hread : motionRead r s = s := if_pos h
  exact congrArg Host.Outcome.next hread

/-- What is done with a read. -/
def readJudged (r : Option Triple) (s : State) : State :=
  match r with
  | some raw => answered raw s
  | none => missedRead s

theorem motionRead_awake (h : s.power.st ≠ .deep) : motionRead r s = finish (readJudged r s) := by
  refine (if_neg h).trans ?_
  cases r <;> rfl

theorem still_motion {m : Motion} (h : Still s) : Still { s with motion := m } :=
  still_congr h rfl rfl rfl rfl (fun _ => rfl) rfl h.notPausing rfl

/-- A read that moves the motion unit alone, with no follow-up work standing. -/
theorem exec_motionSample_moves {m : Motion} (hd : s.power.st ≠ .deep) (hs : Still s)
    (h : readJudged r s = { s with motion := m }) :
    exec (.motionSample r) s = .next (updateWait { s with motion := m }) := by
  have hrow : exec (.motionSample r) s = .next (motionRead r s) := rfl
  rw [hrow, motionRead_awake hd, h, finish_still _ (still_motion hs)]

/-- The sample and its answer in every state but FAULT, where it does not complete the repeat count. -/
theorem answered_judges (hf : s.motion.st ≠ .fault) (hr : repeatNext s.motion.lastRaw raw s.motion.repeats < 400) :
    answered raw s = judgeSample raw.saturate (s.streamed raw) := by
  have hne : (s.streamed raw).motion.repeats ≠ 400 := Nat.ne_of_lt hr
  unfold answered
  exact (if_neg (by exact hf)).trans (if_neg hne)

theorem answered_faults (hf : s.motion.st ≠ .fault) (hr : repeatNext s.motion.lastRaw raw s.motion.repeats = 400) :
    answered raw s = enterFault (s.streamed raw) := by
  unfold answered
  exact (if_neg (by exact hf)).trans (if_pos hr)

theorem answered_inFault (hf : s.motion.st = .fault) :
    answered raw s = judgeFault (s.motion.lastRaw.isSome && s.motion.lastRaw != some raw)
      (s.streamed raw) := by
  unfold answered
  dsimp only
  exact if_pos hf

theorem missedRead_first (h0 : s.motion.missed = 0) (hf : s.motion.st ≠ .fault) (hg : s.motion.st ≠ .falling) :
    missedRead s = { s with motion := { s.motion with missed := 1 } } := by
  have hagain : decide (1 ≤ s.motion.missed) = false := by rw [h0]; rfl
  unfold missedRead
  dsimp only
  rw [hagain]
  simp only [Bool.false_eq_true, if_false]
  cases hst : s.motion.st
  case fault => exact absurd hst hf
  case falling => exact absurd hst hg
  all_goals
    simp only [State.modMotion, hst]

theorem missedRead_falling (h0 : s.motion.missed = 0) (hg : s.motion.st = .falling) :
    missedRead s = { s with motion := { s.motion with missed := 1, pending := s.motion.pending + 1 } } := by
  have hagain : decide (1 ≤ s.motion.missed) = false := by rw [h0]; rfl
  unfold missedRead
  dsimp only
  rw [hagain]
  simp only [Bool.false_eq_true, if_false, State.modMotion, hg]

theorem missedRead_again (h1 : 1 ≤ s.motion.missed) (hf : s.motion.st ≠ .fault) :
    missedRead s = enterFault { s with motion := { s.motion with missed := 2 } } := by
  have hagain : decide (1 ≤ s.motion.missed) = true := decide_eq_true h1
  unfold missedRead
  dsimp only
  rw [hagain]
  simp only [if_true]
  cases hst : s.motion.st
  case fault => exact absurd hst hf
  all_goals
    simp only [State.modMotion, hst]

theorem missedRead_inFault (hf : s.motion.st = .fault) :
    missedRead s = { s with motion := { s.motion with
      missed := if s.motion.missed = 0 then 1 else 2, recovery := 0 } } := by
  have hmissed : (if decide (1 ≤ s.motion.missed) = true then 2 else 1) = if s.motion.missed = 0 then 1 else 2 := by
    by_cases h0 : s.motion.missed = 0
    · rw [if_pos h0, if_neg (by simp [h0])]
    · rw [if_neg h0, if_pos (by simp; omega)]
  unfold missedRead
  dsimp only
  simp only [State.modMotion, hf, hmissed]

end Reads

/-! ## The judgement of a sample in CALM, SETTLING and FAULT (R138 to R140, R146) -/

theorem classOf_low {ff impact m : Nat} (h : m < ff) : classOf ff impact m = .low := if_pos h

theorem classOf_mid {ff impact m : Nat} (h : ff ≤ m) (k : m < impact) : classOf ff impact m = .mid := by
  rw [classOf, if_neg (Nat.not_lt.mpr h), if_pos k]

theorem classOf_high {ff impact m : Nat} (h : ff ≤ m) (k : impact ≤ m) : classOf ff impact m = .high := by
  rw [classOf, if_neg (Nat.not_lt.mpr h), if_neg (Nat.not_lt.mpr k)]

/-- A sample below the impact bound, or below the free-fall bound, is not high. -/
theorem classOf_not_high {ff impact m : Nat} (h : m < ff ∨ m < impact) :
    classOf ff impact m = if m < ff then .low else .mid := by
  by_cases hf : m < ff
  · rw [classOf_low hf, if_pos hf]
  · rw [classOf_mid (Nat.not_lt.mp hf) (h.resolve_left hf), if_neg hf]

section Judged
variable {s : State}

theorem readJudged_calm {raw : Triple} (h : s.motion.st = .calm)
    (hr : repeatNext s.motion.lastRaw raw s.motion.repeats < 400) :
    readJudged (some raw) s = judgeCalm (classOf s.ffMg s.impactMg raw.saturate.magnitude) raw.saturate.magnitude
      raw.saturate.peakAxis (s.streamed raw) := by
  have hst : (s.streamed raw).motion.st = .calm := h
  rw [readJudged, answered_judges (by rw [h]; decide) hr]
  simp only [judgeSample, hst]
  rfl

theorem readJudged_falling {raw : Triple} (h : s.motion.st = .falling)
    (hr : repeatNext s.motion.lastRaw raw s.motion.repeats < 400) :
    readJudged (some raw) s = judgeFalling (classOf s.ffMg s.impactMg raw.saturate.magnitude) raw.saturate.magnitude
      raw.saturate.peakAxis (s.streamed raw) := by
  have hst : (s.streamed raw).motion.st = .falling := h
  rw [readJudged, answered_judges (by rw [h]; decide) hr]
  simp only [judgeSample, hst]
  rfl

theorem readJudged_impact {raw : Triple} (h : s.motion.st = .impact)
    (hr : repeatNext s.motion.lastRaw raw s.motion.repeats < 400) :
    readJudged (some raw) s = judgeImpact (classOf s.ffMg s.impactMg raw.saturate.magnitude) raw.saturate.magnitude
      raw.saturate.peakAxis (s.streamed raw) := by
  have hst : (s.streamed raw).motion.st = .impact := h
  rw [readJudged, answered_judges (by rw [h]; decide) hr]
  simp only [judgeSample, hst]
  rfl

theorem readJudged_settling {raw : Triple} (h : s.motion.st = .settling)
    (hr : repeatNext s.motion.lastRaw raw s.motion.repeats < 400) :
    readJudged (some raw) s = judgeSettling (classOf s.ffMg s.impactMg raw.saturate.magnitude) raw.saturate.magnitude
      raw.saturate.peakAxis (s.streamed raw) := by
  have hst : (s.streamed raw).motion.st = .settling := h
  rw [readJudged, answered_judges (by rw [h]; decide) hr]
  simp only [judgeSample, hst]
  rfl

theorem judgeCalm_mid {mag : Nat} {axis : Axis} :
    judgeCalm .mid mag axis s = { s with motion := { s.motion with lowRun := 0 } } := by
  unfold judgeCalm
  rw [if_neg (by decide)]
  exact if_neg fun h => absurd h.1 (by decide)

theorem judgeCalm_low {mag : Nat} {axis : Axis} (h : s.motion.lowRun + 1 < s.ffCount) :
    judgeCalm .low mag axis s = { s with motion := { s.motion with lowRun := s.motion.lowRun + 1 } } := by
  unfold judgeCalm
  rw [if_neg (by decide)]
  exact if_neg fun k => absurd k.2 (Nat.not_le.mpr h)

/-- A sample in SETTLING that completes no run counts in each of them. -/
theorem judgeSettling_counts {c : SampleClass} {mag : Nat} {axis : Axis} (hc : c ≠ .high)
    (hlow : c = .low → s.motion.lowRun + 1 < s.ffCount)
    (hband : s.bandLo ≤ mag ∧ mag ≤ s.bandHi → s.motion.bandRun + 1 < s.settleCount)
    (hmid : c = .mid → s.motion.midRun + 1 < s.settleMax) :
    judgeSettling c mag axis s = { s with motion := { s.motion with
      lowRun := if c = .low then s.motion.lowRun + 1 else 0,
      bandRun := if s.bandLo ≤ mag ∧ mag ≤ s.bandHi then s.motion.bandRun + 1 else 0,
      midRun := if c = .mid then s.motion.midRun + 1 else 0 } } := by
  have hin : (decide (s.bandLo ≤ mag) && decide (mag ≤ s.bandHi)) = true ↔ s.bandLo ≤ mag ∧ mag ≤ s.bandHi := by simp
  have nlow : ¬(c = .low ∧ s.ffCount ≤ runNext (c == .low) s.motion.lowRun) := by
    rintro ⟨rfl, hle⟩
    exact absurd hle (Nat.not_le.mpr (hlow rfl))
  have nband : ¬((decide (s.bandLo ≤ mag) && decide (mag ≤ s.bandHi)) = true ∧
      s.settleCount ≤ runNext (decide (s.bandLo ≤ mag) && decide (mag ≤ s.bandHi)) s.motion.bandRun) := by
    rintro ⟨hb, hle⟩
    rw [hb] at hle
    exact absurd hle (Nat.not_le.mpr (hband (hin.mp hb)))
  have nmid : ¬(c = .mid ∧ s.settleMax ≤ runNext (c == .mid) s.motion.midRun) := by
    rintro ⟨rfl, hle⟩
    exact absurd hle (Nat.not_le.mpr (hmid rfl))
  unfold judgeSettling
  dsimp only
  rw [if_neg hc, if_neg nlow, if_neg nband, if_neg nmid, modMotion_eq]
  simp only [runNext, Bool.and_eq_true, decide_eq_true_eq, beq_iff_eq]

theorem judgeFault_counts {differs : Bool} (h : differs = true → s.motion.recovery + 1 < 400) :
    judgeFault differs s =
      { s with motion := { s.motion with recovery := if differs then s.motion.recovery + 1 else 0 } } := by
  have hno : ¬400 ≤ runNext differs s.motion.recovery := by
    cases differs with
    | true => exact Nat.not_le.mpr (h rfl)
    | false => exact Nat.not_le.mpr (by decide : 0 < 400)
  unfold judgeFault
  dsimp only
  rw [if_neg hno]
  rfl

end Judged

/-! ## The handling score (R150 to R153) -/

/-- The latch judged for the present score. -/
def State.latched (s : State) : State :=
  { s with motion := { s.motion with latch := latchOf s.carefulOn s.carefulOff s.motion.score s.motion.latch } }

theorem raiseCareful_frame (old : Bool) (s : State) :
    ∃ l, raiseCareful old s = { s with link := l } ∧ (s.careful = old → l = s.link) := by
  unfold raiseCareful
  split
  · exact ⟨s.link, rfl, fun _ => rfl⟩
  · rename_i hne
    exact ⟨_, rfl, fun h => absurd h hne⟩

theorem judgeLatch_frame (s : State) :
    ∃ l, judgeLatch s = { s.latched with link := l } ∧ (s.latched.motion.latch = s.motion.latch → l = s.link) := by
  obtain ⟨l, hl, hsame⟩ := raiseCareful_frame s.careful s.latched
  refine ⟨l, hl, fun h => hsame ?_⟩
  show (s.latched.motion.latch || _) = _
  rw [h]
  rfl

end Sys2Proof.Machine

namespace Sys2Proof
open Machine

/-- Settles O42: a sample that completes no run is one change of the motion unit, and with no follow-up work standing the wait
line is all that comes after it. -/
theorem samplesInCalmMoveTheSampleStream : Obligations.SamplesInCalmMoveTheSampleStream := by
  intro raw r s m mag repeats stream moves inBand
  refine ⟨exec_motionSample_deep, fun hd hs => ⟨?_, ?_, ?_, ?_, ?_, ?_, ?_⟩⟩
  · intro hst hr hff him
    refine exec_motionSample_moves hd hs ?_
    rw [readJudged_calm hst hr,
      show classOf _ _ _ = .mid from classOf_mid hff him, judgeCalm_mid]
    rfl
  · intro hst hr hff hrun
    refine exec_motionSample_moves hd hs ?_
    rw [readJudged_calm hst hr,
      show classOf _ _ _ = .low from classOf_low hff]
    exact judgeCalm_low hrun
  · intro hst hr hcls hlow hband hmid
    have hclass : classOf s.ffMg s.impactMg mag = if mag < s.ffMg then .low else .mid := classOf_not_high hcls
    have hnot : classOf s.ffMg s.impactMg mag ≠ .high := by
      rw [hclass]
      split <;> decide
    have hl : classOf s.ffMg s.impactMg mag = .low ↔ mag < s.ffMg := by
      rw [hclass]
      by_cases h : mag < s.ffMg <;> simp [h]
    have hm : classOf s.ffMg s.impactMg mag = .mid ↔ s.ffMg ≤ mag := by
      rw [hclass, ← Nat.not_lt]
      by_cases h : mag < s.ffMg <;> simp [h]
    refine exec_motionSample_moves hd hs ?_
    rw [readJudged_settling hst hr]
    refine (judgeSettling_counts (s := s.streamed raw) hnot (fun h => hlow (hl.mp h)) hband
      fun h => hmid (hm.mp h)).trans ?_
    have el : (if classOf s.ffMg s.impactMg mag = .low then s.motion.lowRun + 1 else 0) =
        if mag < s.ffMg then s.motion.lowRun + 1 else 0 := if_congr hl rfl rfl
    have em : (if classOf s.ffMg s.impactMg mag = .mid then s.motion.midRun + 1 else 0) =
        if s.ffMg ≤ mag then s.motion.midRun + 1 else 0 := if_congr hm rfl rfl
    show ({ s with motion := { s.motion.streamed raw with lowRun := _, bandRun := _, midRun := _ } } : State) = _
    exact congrArg₂ (fun a b => ({ s with motion := { s.motion.streamed raw with
      lowRun := a, bandRun := if inBand then s.motion.bandRun + 1 else 0, midRun := b } } : State)) el em
  · rintro hst ⟨x, hx, hne⟩ hrun
    have hdiff : (s.motion.lastRaw.isSome && s.motion.lastRaw != some raw) = true := by
      rw [show s.motion.lastRaw = some x from hx]
      simp [hne]
    refine exec_motionSample_moves hd hs ?_
    rw [readJudged, answered_inFault hst, hdiff]
    exact judgeFault_counts fun _ => hrun
  · intro hst hx
    have hdiff : (s.motion.lastRaw.isSome && s.motion.lastRaw != some raw) = false := by
      rcases hx with hx | hx
      · rw [show s.motion.lastRaw = some raw from hx]
        simp
      · rw [show s.motion.lastRaw = none from hx]
        rfl
    refine exec_motionSample_moves hd hs ?_
    rw [readJudged, answered_inFault hst, hdiff]
    exact judgeFault_counts (s := s.streamed raw) nofun
  · intro hst
    exact exec_motionSample_moves hd hs (missedRead_inFault hst)
  · intro hf hg h0
    exact exec_motionSample_moves hd hs (missedRead_first h0 hf hg)

/-- Settles O45: the decay is a change of the score, and the latch is judged by it. -/
theorem handlingDecayLowersTheScore : Obligations.HandlingDecayLowersTheScore := by
  intro s score latch runs
  have hiff : s.decayRuns = true ↔ runs := by simp [State.decayRuns, runs]
  have hrow : exec .handlingDecay s = .next (handlingDecay s) := rfl
  refine ⟨fun h => ?_, fun h => ?_⟩
  · obtain ⟨l, hl, hsame⟩ := judgeLatch_frame { s with motion := { s.motion with decay := 0, score := score } }
    refine ⟨handlingDecay s, hrow, ?_, ?_⟩
    · rw [handlingDecay, if_pos (hiff.mpr h)]
      exact hl.trans (by rw [show (decayScore s).link = l from congrArg State.link hl]; rfl)
    · intro hlatch
      rw [handlingDecay, if_pos (hiff.mpr h)]
      exact (congrArg State.link hl).trans (hsame hlatch)
  · rw [hrow, handlingDecay, if_neg fun k => h (hiff.mp k)]

end Sys2Proof
end

section
/-!
PROOFS. Falls and impacts: how they begin, what their samples count, and the record that ends them (O43).
-/
namespace Sys2Proof.Machine

/-! ## Rows that name a transition -/

/-- A read that causes the transition of its row is taken. -/
theorem motionRow_taken {p : MotionState → MotionState → Bool} {r : Option Triple} {s : State}
    (h : p s.motion.st (motionRead r s).motion.st = true) : motionRow p r s = motionRead r s := if_pos h

/-- The repeat count stays below 400. -/
theorem repeatNext_lt {raw : Triple} {m : Motion} (h : m.lastRaw ≠ some raw ∨ m.repeats < 399) :
    repeatNext m.lastRaw raw m.repeats < 400 := by
  unfold repeatNext
  split
  · rename_i he
    have := h.resolve_left fun hne => hne he
    omega
  · decide

/-! ## The marks on the buffers in programming (R63, R143) -/

/-- The buffers that an entry to FALLING or IMPACT marks, counted. -/
def State.exposing (s : State) : Nat := s.staging.bufs.countP fun x => (x.map Buf.newlyExposed).getD false

/-- The staging unit with every buffer in programming marked. -/
def Staging.exposedAll (t : Staging) : Staging :=
  { t with bufs := t.bufs.map fun x => x.map fun b => if b.newlyExposed then { b with exposed := true } else b }

theorem exposePrograms_eq (s : State) :
    exposePrograms s =
      { s with staging := s.staging.exposedAll, motion := { s.motion with exposed := s.motion.exposed + s.exposing } } := rfl

theorem still_exposed {m : Motion} {g : Staging} {s : State} (h : Still s) : Still { s with motion := m, staging := g } :=
  still_congr h rfl rfl rfl rfl (fun _ => rfl) rfl h.notPausing rfl

/-! ## The entry to FALLING (R140) -/

/-- The motion unit at the entry to FALLING. -/
def Motion.fallen (clock fall n : Nat) (m : Motion) : Motion :=
  { (m.newEvent clock fall).enter .falling with falls := satInc Config.max32 m.falls, exposed := 0 + n }

theorem enterFalling_eq (s : State) :
    enterFalling s = raiseNotice .fall (motionDetail .falling s.ffCount)
      { s with motion := s.motion.fallen s.power.clock s.ffCount s.exposing, staging := s.staging.exposedAll } := rfl

section Fall
variable {raw : Triple} {s : State}

/-- The low sample that completes the low run starts a fall. -/
theorem readJudged_fallStart {mag : Nat} (hmag : raw.saturate.magnitude = mag) (hst : s.motion.st = .calm ∨ s.motion.st = .settling)
    (hr : repeatNext s.motion.lastRaw raw s.motion.repeats < 400) (hff : mag < s.ffMg)
    (hrun : s.ffCount ≤ s.motion.lowRun + 1) : readJudged (some raw) s = enterFalling (s.streamed raw) := by
  subst hmag
  have hdue : (SampleClass.low = .low ∧ (s.streamed raw).ffCount ≤ runNext (SampleClass.low == .low) (s.streamed raw).motion.lowRun) :=
    ⟨rfl, hrun⟩
  rcases hst with hst | hst
  · rw [readJudged_calm hst hr, classOf_low hff]
    unfold judgeCalm
    exact (if_neg (by decide)).trans (if_pos hdue)
  · rw [readJudged_settling hst hr, classOf_low hff]
    unfold judgeSettling
    exact (if_neg (by decide)).trans (if_pos hdue)

end Fall

/-! ## The end of an event (R147 to R150) -/

/-- The motion unit once the record `r` has entered the log and the score has its points. -/
def Motion.logged (on off : Nat) (r : ImpactRec) (m : Motion) : Motion :=
  { m with
    log := logAppend m.log r,
    impacts := if r.cls = .none then m.impacts else satInc Config.max32 m.impacts,
    noImpact := if r.cls = .none then satInc Config.max32 m.noImpact else m.noImpact,
    score := min 1023 (m.score + r.cls.points),
    latch := latchOf on off (min 1023 (m.score + r.cls.points)) m.latch }

theorem kept_judgeLatch (s : State) : (judgeLatch s).kept = s.latched.kept := kept_raiseCareful _ s.latched

theorem kept_addPoints (n : Nat) (s : State) :
    (addPoints n s).kept = ({ s with motion := { s.motion with
      score := min 1023 (s.motion.score + n),
      latch := latchOf s.carefulOn s.carefulOff (min 1023 (s.motion.score + n)) s.motion.latch } } : State).kept := by
  unfold addPoints
  dsimp only
  rw [kept_judgeLatch]
  split
  · exact kept_raiseNotice .handlingAlarm _ (State.latched (s.modMotion fun m => { m with score := min 1023 (s.motion.score + n) }))
  · rfl

theorem uncounted_handleLine (r : ImpactRec) (s : State) (i : Nat) : (handleLine r s i).uncounted = s.uncounted := by
  unfold handleLine
  split
  · rfl
  · next t _ =>
    dsimp only
    have hplace := uncounted_of_kept ((kept_placeRecord i
      { kind := .handling, short := false, iflags := 0, station := t.station, time := t.time, supCount := 0,
        payload := r.bytes } (s.flagLine t.line fun f => { f with handled := true })).trans (kept_flagLine _ _ s))
    split <;> rename_i e <;> rw [e] at hplace
    · exact hplace
    · exact (uncounted_count _ _).trans ((uncounted_limitDrop _ _).trans hplace)
    · exact (uncounted_count _ _).trans hplace
    · exact (uncounted_count _ _).trans hplace

theorem uncounted_handlingRecords (r : ImpactRec) (s : State) : (handlingRecords r s).uncounted = s.uncounted :=
  (uncounted_of_kept (kept_resetFilters _)).trans (uncounted_foldl _ (uncounted_handleLine r) _ s)

theorem uncounted_completeEvent (r : ImpactRec) (s : State) :
    (completeEvent r s).uncounted =
      ({ s with motion := s.motion.logged s.carefulOn s.carefulOff r } : State).uncounted :=
  (uncounted_handlingRecords r _).trans (uncounted_of_kept (kept_addPoints _ _))

/-- What the end of an event and the work after it leave: the motion unit with the record, the settings, the gauge and the
clock. -/
theorem finish_completeEvent (r : ImpactRec) (s : State) :
    (finish (completeEvent r s)).motion = s.motion.logged s.carefulOn s.carefulOff r ∧
      (finish (completeEvent r s)).settings = s.settings ∧ (finish (completeEvent r s)).gauge = s.gauge ∧
      (finish (completeEvent r s)).power.clock = s.power.clock := by
  have h := (uncounted_of_kept (kept_finish (completeEvent r s))).trans (uncounted_completeEvent r s)
  exact ⟨(motion_of_uncounted h :), (settings_of_uncounted h :), (gauge_of_uncounted h :), (clock_of_uncounted h :)⟩

section Ends
variable {raw : Triple} {s : State}

/-- The motion unit in SETTLING after the event of `m`. -/
def Motion.settled (m : Motion) : Motion := { m.enter .settling with pending := 0 }

theorem settleEvent_eq (impact : Bool) (s : State) :
    settleEvent impact s = completeEvent (s.motion.record impact) { s with motion := s.motion.settled } := rfl

/-- The fourth middle sample ends a fall. -/
theorem readJudged_fallEnd {mag : Nat} (hmag : raw.saturate.magnitude = mag) (hst : s.motion.st = .falling)
    (hr : repeatNext s.motion.lastRaw raw s.motion.repeats < 400) (hff : s.ffMg ≤ mag)
    (him : mag < s.impactMg) (h3 : 3 ≤ s.motion.midRun) :
    readJudged (some raw) s = settleEvent false (s.streamed raw) := by
  subst hmag
  rw [readJudged_falling hst hr, classOf_mid hff him]
  unfold judgeFalling
  exact if_pos (Nat.succ_le_succ h3)

theorem classOfPeak_ne_none (peak : Nat) : classOfPeak peak ≠ .none := by
  unfold classOfPeak
  repeat' split
  all_goals decide

end Ends

/-! ## The judgement in an event, for any magnitude (R141, R142) -/

section Judged
variable {mag : Nat} {axis : Axis} {s : State}

theorem quietRun_takePeak (m : Motion) : (m.takePeak mag axis).quietRun = m.quietRun := by
  unfold Motion.takePeak
  split <;> rfl

theorem judgeImpact_high :
    judgeImpact .high mag axis s = { s with motion := { s.motion.takePeak mag axis with quietRun := 0 } } := by
  unfold judgeImpact
  exact if_pos rfl

theorem judgeImpact_counts {c : SampleClass} (hc : c ≠ .high) (h7 : s.motion.quietRun < 7) :
    judgeImpact c mag axis s =
      { s with motion := { s.motion.takePeak mag axis with quietRun := s.motion.quietRun + 1 } } := by
  have hquiet := quietRun_takePeak (mag := mag) (axis := axis) s.motion
  have h8 : ¬8 ≤ (s.motion.takePeak mag axis).quietRun + 1 := by omega
  unfold judgeImpact
  refine ((if_neg hc).trans (if_neg h8)).trans ?_
  rw [← hquiet]
  rfl

theorem judgeImpact_ends {c : SampleClass} (hc : c ≠ .high) (h7 : 7 ≤ s.motion.quietRun) :
    judgeImpact c mag axis s = settleEvent true { s with motion := s.motion.takePeak mag axis } := by
  have hquiet := quietRun_takePeak (mag := mag) (axis := axis) s.motion
  have h8 : 8 ≤ (s.motion.takePeak mag axis).quietRun + 1 := by omega
  unfold judgeImpact
  exact (if_neg hc).trans (if_pos h8)

theorem judgeFalling_high :
    judgeFalling .high mag axis s = enterImpact mag axis
      { s with motion := { s.motion with fall := min 2000 (s.motion.fall + s.motion.pending), pending := 0 } } := rfl

theorem judgeCalm_high :
    judgeCalm .high mag axis s = enterImpact mag axis { s with motion := s.motion.newEvent s.power.clock 0 } := if_pos rfl

theorem judgeSettling_high :
    judgeSettling .high mag axis s = enterImpact mag axis { s with motion := s.motion.newEvent s.power.clock 0 } := if_pos rfl

end Judged

/-! ## Samples of an event in progress, and the entry to IMPACT (R141 to R143) -/

section Events
variable {raw : Triple} {s : State}

theorem readJudged_falling_low {mag : Nat} (hmag : raw.saturate.magnitude = mag) (hst : s.motion.st = .falling)
    (hr : repeatNext s.motion.lastRaw raw s.motion.repeats < 400) (hff : mag < s.ffMg) :
    readJudged (some raw) s = { s with motion := { s.motion.streamed raw with
      fall := min 2000 (s.motion.fall + 1 + s.motion.pending), pending := 0, midRun := 0 } } := by
  subst hmag
  rw [readJudged_falling hst hr, classOf_low hff]
  unfold judgeFalling
  rfl

theorem readJudged_falling_mid {mag : Nat} (hmag : raw.saturate.magnitude = mag) (hst : s.motion.st = .falling)
    (hr : repeatNext s.motion.lastRaw raw s.motion.repeats < 400) (hff : s.ffMg ≤ mag)
    (him : mag < s.impactMg) (h3 : s.motion.midRun < 3) :
    readJudged (some raw) s = { s with motion := { s.motion.streamed raw with
      pending := s.motion.pending + 1, midRun := s.motion.midRun + 1 } } := by
  subst hmag
  rw [readJudged_falling hst hr, classOf_mid hff him]
  unfold judgeFalling
  exact if_neg (Nat.not_le.mpr (Nat.succ_lt_succ h3))

theorem readJudged_impact_high {mag : Nat} (hmag : raw.saturate.magnitude = mag) (hst : s.motion.st = .impact)
    (hr : repeatNext s.motion.lastRaw raw s.motion.repeats < 400) (hff : s.ffMg ≤ mag)
    (him : s.impactMg ≤ mag) :
    readJudged (some raw) s = { s with motion :=
      { (s.motion.streamed raw).takePeak mag raw.saturate.peakAxis with quietRun := 0 } } := by
  subst hmag
  rw [readJudged_impact hst hr, classOf_high hff him]
  exact judgeImpact_high

theorem readJudged_impact_quiet {mag : Nat} (hmag : raw.saturate.magnitude = mag) (hst : s.motion.st = .impact)
    (hr : repeatNext s.motion.lastRaw raw s.motion.repeats < 400)
    (hcls : mag < s.ffMg ∨ mag < s.impactMg) (h7 : s.motion.quietRun < 7) :
    readJudged (some raw) s = { s with motion :=
      { (s.motion.streamed raw).takePeak mag raw.saturate.peakAxis with
        quietRun := s.motion.quietRun + 1 } } := by
  subst hmag
  have hclass : classOf s.ffMg s.impactMg raw.saturate.magnitude ≠ .high := by
    rw [classOf_not_high hcls]
    split <;> decide
  rw [readJudged_impact hst hr]
  exact judgeImpact_counts (s := s.streamed raw) hclass h7

/-- The eighth sample that is not high ends an impact. -/
theorem readJudged_impactEnd {mag : Nat} (hmag : raw.saturate.magnitude = mag) (hst : s.motion.st = .impact)
    (hr : repeatNext s.motion.lastRaw raw s.motion.repeats < 400) (him : mag < s.impactMg)
    (h7 : 7 ≤ s.motion.quietRun) :
    readJudged (some raw) s = settleEvent true { s with
      motion := (s.motion.streamed raw).takePeak mag raw.saturate.peakAxis } := by
  subst hmag
  have hclass : classOf s.ffMg s.impactMg raw.saturate.magnitude ≠ .high := by
    rw [classOf_not_high (.inr him)]
    split <;> decide
  rw [readJudged_impact hst hr]
  exact judgeImpact_ends (s := s.streamed raw) hclass h7

/-- A high sample in CALM, SETTLING or FALLING enters IMPACT with its event begun or its fall folded. -/
theorem readJudged_struck {mag : Nat} (hmag : raw.saturate.magnitude = mag) (hr : repeatNext s.motion.lastRaw raw s.motion.repeats < 400) (hff : s.ffMg ≤ mag)
    (him : s.impactMg ≤ mag) :
    (s.motion.st = .calm ∨ s.motion.st = .settling → readJudged (some raw) s =
      enterImpact mag raw.saturate.peakAxis
        { s with motion := (s.motion.streamed raw).newEvent s.power.clock 0 }) ∧
    (s.motion.st = .falling → readJudged (some raw) s =
      enterImpact mag raw.saturate.peakAxis
        { s with motion := { s.motion.streamed raw with
          fall := min 2000 (s.motion.fall + s.motion.pending), pending := 0 } }) := by
  subst hmag
  refine ⟨?_, fun hst => ?_⟩
  · rintro (hst | hst)
    · rw [readJudged_calm hst hr, classOf_high hff him]
      exact judgeCalm_high
    · rw [readJudged_settling hst hr, classOf_high hff him]
      exact judgeSettling_high
  · rw [readJudged_falling hst hr, classOf_high hff him]
    exact judgeFalling_high

/-- The motion unit struck at this magnitude, with `n` buffers newly exposed. -/
def Motion.struck (mag : Nat) (axis : Axis) (n : Nat) (m : Motion) : Motion :=
  { m.takePeak mag axis with
    st := .impact, lowRun := 0, midRun := 0, quietRun := 0, bandRun := 0, recovery := 0, exposed := m.exposed + n }

theorem exposed_enter_impact (mag : Nat) (axis : Axis) (n : Nat) (m : Motion) :
    { (m.enter .impact).takePeak mag axis with exposed := ((m.enter .impact).takePeak mag axis).exposed + n } =
      m.struck mag axis n := by
  unfold Motion.struck Motion.takePeak
  by_cases h : m.peak < mag
  · rw [if_pos h, if_pos (by exact h)]
    rfl
  · rw [if_neg h, if_neg (by exact h)]
    rfl

/-- The state of an entry to IMPACT before the wake and the notice. -/
def State.struck (mag : Nat) (axis : Axis) (s : State) : State :=
  { s with motion := s.motion.struck mag axis s.exposing, staging := s.staging.exposedAll }

theorem enterImpact_eq (mag : Nat) (axis : Axis) (s : State) :
    enterImpact mag axis s = raiseNotice .impact
      (motionDetail .impact (impactWake (s.struck mag axis)).motion.fall) (impactWake (s.struck mag axis)) := by
  have hstate : exposePrograms (s.modMotion fun m => (m.enter .impact).takePeak mag axis) = s.struck mag axis :=
    congrArg (fun m : Motion => ({ s with motion := m, staging := s.staging.exposedAll } : State))
      (exposed_enter_impact mag axis s.exposing s.motion)
  unfold enterImpact
  dsimp only
  rw [hstate]

theorem wake_awake {cause : WakeCause} (h : s.power.st ≠ .deep) :
    wake cause s = updateWait (raiseNotice .resumed (le1 cause.code)
      { s with power := { s.power with st := .run, wake := cause, resume := true, pauseMark := none } }) := by
  unfold wake
  rw [if_neg h]
  rfl

theorem still_woken {cause : WakeCause} (h : Still s) :
    Still { s with power := { s.power with st := .run, wake := cause, resume := true, pauseMark := none } } :=
  still_congr h rfl rfl rfl rfl (fun _ => rfl) rfl h.notPausing rfl

/-- An entry to IMPACT wakes the part from LIGHT PAUSE or from the entry to it. -/
theorem impactWake_light (h : s.power.st = .light ∨ s.power.pauseMark = some .light) : impactWake s = wake .impact s := by
  have hp : s.pausing = true := by
    rcases h with h | h
    · rw [State.pausing, State.paused, h]
      rfl
    · rw [State.pausing, h, Option.isSome_some, Bool.or_true]
  rw [impactWake, if_pos h, wakeBy, if_pos hp]

theorem impactWake_awake (h : s.power.st ≠ .light) (hp : s.power.pauseMark ≠ some .light) : impactWake s = s :=
  if_neg fun k => k.elim h hp

/-- What a strike leaves at the end of its step (R143, R178). -/
theorem finish_enterImpact {mag : Nat} {axis : Axis} (hd : s.power.st ≠ .deep) (hs : Still s) :
    (finish (enterImpact mag axis s)).motion = s.motion.struck mag axis s.exposing ∧
      (finish (enterImpact mag axis s)).staging = s.staging.exposedAll ∧
      (s.power.st ≠ .light → s.power.pauseMark ≠ some .light → finish (enterImpact mag axis s) =
        updateWait (raiseNotice .impact (motionDetail .impact (s.motion.struck mag axis s.exposing).fall)
          (s.struck mag axis))) ∧
      (s.power.st = .light → (finish (enterImpact mag axis s)).power =
        { s.power with st := .run, wake := .impact, resume := true, pauseMark := none }) := by
  have hstruck : Still (s.struck mag axis) := still_exposed hs
  rw [enterImpact_eq]
  by_cases hw : s.power.st = .light ∨ s.power.pauseMark = some .light
  · rw [impactWake_light (s := s.struck mag axis) hw, wake_awake (s := s.struck mag axis) hd,
      finish_still _ (raiseNotice_still (still_updateWait (raiseNotice_still (still_woken hstruck))))]
    exact ⟨rfl, rfl, fun h1 h2 => absurd hw (fun k => k.elim h1 h2), fun _ => rfl⟩
  · have h1 : s.power.st ≠ .light := fun h => hw (.inl h)
    have h2 : s.power.pauseMark ≠ some .light := fun h => hw (.inr h)
    rw [impactWake_awake (s := s.struck mag axis) h1 h2, finish_still _ (raiseNotice_still hstruck)]
    exact ⟨rfl, rfl, fun _ _ => rfl, fun h => absurd h h1⟩

theorem fall_struck (mag : Nat) (axis : Axis) (n : Nat) (m : Motion) : (m.struck mag axis n).fall = m.fall := by
  unfold Motion.struck Motion.takePeak
  split <;> rfl

end Events

/-! ## The steps of an event, for any magnitude -/

section Steps
variable {mag : Nat} {axis : Axis} {r : Option Triple} {m : Motion} {s : State}

/-- A sample in IMPACT is compared with the peak, and clears the quiet run or adds to it. -/
theorem exec_motionSample_peaked {peaked : Motion → Motion} {q : Nat} (hp : ∀ m : Motion, m.takePeak mag axis = peaked m)
    (hd : s.power.st ≠ .deep) (hs : Still s)
    (h : readJudged r s = { s with motion := { m.takePeak mag axis with quietRun := q } }) :
    exec (.motionSample r) s = .next (updateWait { s with motion := { peaked m with quietRun := q } }) := by
  rw [hp] at h
  exact exec_motionSample_moves hd hs h

/-- A strike: the entry to IMPACT as its step leaves it. -/
theorem exec_motionSample_struck {peaked : Motion → Motion} (hp : ∀ m : Motion, m.takePeak mag axis = peaked m) (hd : s.power.st ≠ .deep) (hs : Still s)
    (h : readJudged r s = enterImpact mag axis { s with motion := m }) :
    ∃ t, exec (.motionSample r) s = .next t ∧
      t.motion = { peaked m with
        st := .impact, lowRun := 0, midRun := 0, quietRun := 0, bandRun := 0, recovery := 0,
        exposed := m.exposed + s.exposing } ∧
      t.staging = s.staging.exposedAll ∧
      (s.power.st ≠ .light → s.power.pauseMark ≠ some .light →
        t = { s with
          motion := t.motion, staging := t.staging, intake := { s.intake with wait := t.intake.wait },
          link := (raiseNotice .impact (le1 MotionState.impact.code ++ le2 m.fall) s).link }) ∧
      (s.power.st = .light → t.power = { s.power with st := .run, wake := .impact, resume := true, pauseMark := none }) := by
  obtain ⟨hmotion, hstaging, hawake, hlight⟩ := finish_enterImpact (mag := mag) (axis := axis) (s := { s with motion := m }) hd
    (still_motion hs)
  have hread : motionRead r s = finish (enterImpact mag axis { s with motion := m }) := by rw [motionRead_awake hd, h]
  rw [← hread] at hmotion hstaging hawake hlight
  rw [Motion.struck, hp] at hmotion
  refine ⟨motionRead r s, rfl, hmotion, hstaging, fun h1 h2 => ?_, hlight⟩
  have heq := hawake h1 h2
  rw [fall_struck] at heq
  rw [heq]
  rfl

/-- The record of an impact whose last sample was compared with the peak. -/
theorem record_takePeak (m : Motion) :
    (m.takePeak mag axis).record true =
      { clock := m.start, fall := m.fall, fallMs := m.fall * 5 / 2, height := m.fall * m.fall * 30644 / 1000000,
        peak := if m.peak < mag then mag else m.peak, axis := if m.peak < mag then axis else m.axis.getD .x,
        cls := classOfPeak (if m.peak < mag then mag else m.peak), exposed := m.exposed } := by
  unfold Motion.takePeak
  by_cases h : m.peak < mag
  · simp only [h, if_true]
    rfl
  · simp only [h, if_false]
    rfl

/-- What the completion of an event with record `rec` leaves, against the motion unit `m` before it. -/
structure EventLogged (m : Motion) (s t : State) (rec : ImpactRec) : Prop where
  st : t.motion.st = .settling
  log : t.motion.log = m.log.drop (m.log.length + 1 - 32) ++ [rec]
  score : t.motion.score = min 1023 (m.score + rec.cls.points)
  falls : t.motion.falls = m.falls
  faults : t.motion.faults = m.faults
  settings : t.settings = s.settings
  gauge : t.gauge = s.gauge
  clock : t.power.clock = s.power.clock

/-- The eighth quiet sample of an impact completes it with the peak it has reached. -/
theorem exec_impactEnd {raw : Triple} {peak : Nat} {ax : Axis} (hd : s.power.st ≠ .deep) (hst : s.motion.st = .impact)
    (hpeak : peak = if s.motion.peak < mag then mag else s.motion.peak)
    (hax : ax = if s.motion.peak < mag then axis else s.motion.axis.getD .x)
    (h : readJudged r s = settleEvent true { s with motion := (s.motion.streamed raw).takePeak mag axis }) :
    ∃ t, exec (.impactEnd r) s = .next t ∧
      EventLogged s.motion s t
        { clock := s.motion.start, fall := s.motion.fall, fallMs := s.motion.fall * 5 / 2,
          height := s.motion.fall * s.motion.fall * 30644 / 1000000, peak := peak, axis := ax, cls := classOfPeak peak,
          exposed := s.motion.exposed } ∧
      t.motion.impacts = min (s.motion.impacts + 1) 4294967295 ∧ t.motion.noImpact = s.motion.noImpact := by
  have ht : motionRead r s = finish (completeEvent (((s.motion.streamed raw).takePeak mag axis).record true)
      { s with motion := ((s.motion.streamed raw).takePeak mag axis).settled }) := by
    rw [motionRead_awake hd, h, settleEvent_eq]
  obtain ⟨hmotion, hset, hgauge, hclock⟩ := finish_completeEvent (((s.motion.streamed raw).takePeak mag axis).record true)
    { s with motion := ((s.motion.streamed raw).takePeak mag axis).settled }
  have hrec : ((s.motion.streamed raw).takePeak mag axis).record true =
      { clock := s.motion.start, fall := s.motion.fall, fallMs := s.motion.fall * 5 / 2,
        height := s.motion.fall * s.motion.fall * 30644 / 1000000, peak := peak, axis := ax, cls := classOfPeak peak,
        exposed := s.motion.exposed } := by
    rw [record_takePeak, hpeak, hax]
    rfl
  have hbase : ∃ pk ax, (s.motion.streamed raw).takePeak mag axis = { s.motion.streamed raw with peak := pk, axis := ax } := by
    unfold Motion.takePeak
    split
    · exact ⟨_, _, rfl⟩
    · exact ⟨s.motion.peak, s.motion.axis, rfl⟩
  obtain ⟨pk, ax', hbase⟩ := hbase
  rw [← ht] at hmotion hset hgauge hclock
  rw [hrec, hbase] at hmotion
  have hrow : impactEnd r s = motionRead r s := by
    refine motionRow_taken ?_
    rw [hmotion, hst]
    rfl
  have hcls := classOfPeak_ne_none peak
  refine ⟨_, congrArg Host.Outcome.next hrow, ⟨?_, ?_, ?_, ?_, ?_, hset, hgauge, hclock⟩, ?_, ?_⟩ <;> rw [hmotion]
  · rfl
  · rfl
  · rfl
  · rfl
  · rfl
  · exact if_neg hcls
  · exact if_neg hcls

end Steps

end Sys2Proof.Machine
end

section
/-!
PROOFS. Falls and impacts at the command boundary (O43).
-/
namespace Sys2Proof
open Machine

/-- Settles O43: a sample either moves the motion unit alone, or begins an event, which marks the buffers in programming, or ends
one, whose record the completion of the event carries through the intake unit's work. -/
theorem fallsAndImpactsStartAndEnd : Obligations.FallsAndImpactsStartAndEnd := by
  intro raw s hd hrep m mag newly record logged
  have hr := repeatNext_lt hrep
  -- The magnitude is a number here: left as its definition, every comparison with it would be computed.
  have hmag : raw.saturate.magnitude = mag := rfl
  clear_value mag
  have hread (r : Option Triple) : motionRead r s = finish (readJudged r s) := motionRead_awake hd
  refine ⟨?_, ?_, ?_, ?_⟩
  · intro hs hst hff _ hrun
    have ht : motionRead (some raw) s = updateWait (enterFalling (s.streamed raw)) := by
      rw [hread, readJudged_fallStart hmag hst hr hff hrun, enterFalling_eq, finish_still]
      exact raiseNotice_still (still_exposed hs)
    have hrow : fallStart (some raw) s = updateWait (enterFalling (s.streamed raw)) := by
      rw [← ht]
      refine motionRow_taken ?_
      rw [ht]
      rcases hst with hst | hst <;> rw [show s.motion.st = _ from hst] <;> rfl
    exact ⟨_, congrArg Host.Outcome.next hrow, rfl, rfl, rfl, rfl, rfl, rfl, rfl, Nat.zero_add _, rfl⟩
  · intro hst hff him h3
    have ht : motionRead (some raw) s = finish (completeEvent ((s.streamed raw).motion.record false)
        { s.streamed raw with motion := (s.streamed raw).motion.settled }) := by
      rw [hread, readJudged_fallEnd hmag hst hr hff him h3, settleEvent_eq]
    obtain ⟨hmotion, hset, hgauge, hclock⟩ := finish_completeEvent ((s.streamed raw).motion.record false)
      { s.streamed raw with motion := (s.streamed raw).motion.settled }
    rw [← ht] at hmotion hset hgauge hclock
    have hrow : fallEnd (some raw) s = motionRead (some raw) s := by
      refine motionRow_taken ?_
      rw [hmotion, show s.motion.st = .falling from hst]
      rfl
    refine ⟨_, congrArg Host.Outcome.next hrow, ⟨?_, ?_, ?_, ?_, ?_, hset, hgauge, hclock⟩, ?_, ?_⟩ <;> rw [hmotion] <;> rfl
  · intro hst him h7 peak axis
    obtain ⟨t, hexec, ⟨hset, hlog, hscore, hfalls, hfaults, hsettings, hgauge, hclock⟩, himpacts, hno⟩ :=
      exec_impactEnd (peak := peak) (ax := axis) hd hst rfl rfl (readJudged_impactEnd hmag hst hr him h7)
    exact ⟨t, hexec, ⟨hset, hlog, hscore, hfalls, hfaults, hsettings, hgauge, hclock⟩, himpacts, hno⟩
  · intro hs sample stream peaked moved exposes struck
    have hstream : s.motion.streamed raw = stream := rfl
    have hpeaked : ∀ m' : Motion, m'.takePeak mag raw.saturate.peakAxis = peaked m' := fun _ => rfl
    clear_value stream peaked
    refine ⟨?_, ?_, ?_, ?_, ?_⟩
    · intro hff him
      obtain ⟨hnew, hfold⟩ := readJudged_struck hmag hr hff him
      rw [hstream] at hnew hfold
      refine ⟨fun hst => ?_, fun hst => ?_, fun hst => ?_⟩
      · exact exec_motionSample_struck hpeaked hd hs (hnew hst)
      · exact exec_motionSample_struck hpeaked hd hs (hfold hst)
      · have h := readJudged_impact_high hmag hst hr hff him
        rw [hstream] at h
        exact exec_motionSample_peaked hpeaked hd hs h
    · intro hst hff
      have h := readJudged_falling_low hmag hst hr hff
      rw [hstream] at h
      exact exec_motionSample_moves hd hs h
    · intro hst hff him h3
      have h := readJudged_falling_mid hmag hst hr hff him h3
      rw [hstream] at h
      exact exec_motionSample_moves hd hs h
    · intro hst h0
      exact exec_motionSample_moves hd hs (missedRead_falling h0 hst)
    · intro hst hcls h7
      have h := readJudged_impact_quiet hmag hst hr hcls h7
      rw [hstream] at h
      exact exec_motionSample_peaked hpeaked hd hs h

end Sys2Proof
end

section
/-!
PROOFS. The monitor settles, faults and recovers (O44).
-/
namespace Sys2Proof.Machine

/-! ## A read that enters a state and raises SETTLED (R140, R144 to R146) -/

/-- A step that leaves the motion unit at `m` and moves else only messages and the wait line. -/
def Enters (s : State) (m : Motion) (t : State) : Prop :=
  t = { s with motion := m, link := t.link, intake := { s.intake with wait := t.intake.wait } }

section Enter
variable {m : Motion} {r : Option Triple} {s : State}

theorem raiseCareful_still {old : Bool} (h : Still s) : Still (raiseCareful old s) := by
  unfold raiseCareful
  split
  · exact h
  · exact raiseNotice_still h

/-- What is read as a change of the motion unit with notices is taken as one. -/
theorem motionRead_enters (hd : s.power.st ≠ .deep) (h : ∃ u, readJudged r s = u ∧ Still u ∧
    ∃ l, u = { s with motion := m, link := l }) : Enters s m (motionRead r s) := by
  obtain ⟨u, hu, hs, l, hl⟩ := h
  rw [motionRead_awake hd, hu, finish_still _ hs, hl]
  rfl

theorem enterCalm_enters {ty : SettleType} (hs : Still s) :
    Still (enterCalm ty { s with motion := m }) ∧
      ∃ l, enterCalm ty { s with motion := m } = { s with motion := m.enter .calm, link := l } :=
  ⟨raiseNotice_still (still_motion hs), _, rfl⟩

/-- The motion unit at an entry to FAULT. -/
def Motion.faulted (m : Motion) : Motion := { m.enter .fault with faults := satInc Config.max32 m.faults }

theorem raiseSettled_then_careful {old : Bool} {st : MotionState} {ty : Option SettleType} (hs : Still s) :
    Still (raiseCareful old (raiseSettled st ty { s with motion := m })) ∧
      ∃ l, raiseCareful old (raiseSettled st ty { s with motion := m }) = { s with motion := m, link := l } := by
  refine ⟨raiseCareful_still (raiseNotice_still (still_motion hs)), ?_⟩
  obtain ⟨l, hl, -⟩ := raiseCareful_frame old (raiseSettled st ty { s with motion := m })
  exact ⟨l, hl⟩

/-- With no event in progress the entry to FAULT is a change of the motion unit with its notices. -/
theorem enterFault_enters (hs : Still s) (hst : m.st = .calm ∨ m.st = .settling) :
    Still (enterFault { s with motion := m }) ∧
      ∃ l, enterFault { s with motion := m } = { s with motion := m.faulted, link := l } := by
  have hend : endEvent { s with motion := m } = { s with motion := m } := by
    unfold endEvent
    rcases hst with hst | hst <;> simp only [hst]
  unfold enterFault
  dsimp only
  rw [hend]
  exact raiseSettled_then_careful hs

end Enter

/-! ## The settles (R140) -/

section Settles
variable {mag : Nat} {axis : Axis} {c : SampleClass} {s : State}

theorem judgeSettling_settled (hc : c ≠ .high) (hlow : c = .low → s.motion.lowRun + 1 < s.ffCount)
    (hband : s.bandLo ≤ mag ∧ mag ≤ s.bandHi ∧ s.settleCount ≤ s.motion.bandRun + 1) :
    judgeSettling c mag axis s = enterCalm .settled s := by
  obtain ⟨hlo, hhi, hrun⟩ := hband
  have hin : (decide (s.bandLo ≤ mag) && decide (mag ≤ s.bandHi)) = true := by simp [hlo, hhi]
  have nlow : ¬(c = .low ∧ s.ffCount ≤ runNext (c == .low) s.motion.lowRun) := by
    rintro ⟨rfl, hle⟩
    exact absurd hle (Nat.not_le.mpr (hlow rfl))
  unfold judgeSettling
  dsimp only
  rw [if_neg hc, if_neg nlow, hin]
  exact if_pos ⟨rfl, hrun⟩

theorem judgeSettling_rough
    (hband : ¬(s.bandLo ≤ mag ∧ mag ≤ s.bandHi ∧ s.settleCount ≤ s.motion.bandRun + 1))
    (hmid : s.settleMax ≤ s.motion.midRun + 1) : judgeSettling .mid mag axis s = enterCalm .rough s := by
  have nband : ¬((decide (s.bandLo ≤ mag) && decide (mag ≤ s.bandHi)) = true ∧
      s.settleCount ≤ runNext (decide (s.bandLo ≤ mag) && decide (mag ≤ s.bandHi)) s.motion.bandRun) := by
    rintro ⟨hb, hle⟩
    rw [hb] at hle
    rw [Bool.and_eq_true, decide_eq_true_eq, decide_eq_true_eq] at hb
    exact hband ⟨hb.1, hb.2, hle⟩
  unfold judgeSettling
  dsimp only
  rw [if_neg (by decide), if_neg (by rintro ⟨h, -⟩; cases h), if_neg nband]
  exact if_pos ⟨rfl, hmid⟩

end Settles

theorem bandDone_iff {raw : Triple} {mag : Nat} {s : State} (hmag : raw.saturate.magnitude = mag) :
    s.bandDone (some raw) = true ↔
      s.bandLo ≤ mag ∧ mag ≤ s.bandHi ∧ s.settleCount ≤ s.motion.bandRun + 1 := by
  subst hmag
  simp only [State.bandDone, Bool.and_eq_true, decide_eq_true_eq, and_assoc]

/-! ## A fault with an event in progress (R145) -/

section Faults
variable {m : Motion} {r : Option Triple} {s : State}

/-- A fault during an event: what the end of the event leaves of the motion unit, faulted. -/
theorem finish_enterFault (s : State) {m : Motion} (h : (endEvent s).uncounted = ({ s with motion := m } : State).uncounted) :
    (finish (enterFault s)).motion = m.faulted ∧ (finish (enterFault s)).settings = s.settings ∧
      (finish (enterFault s)).gauge = s.gauge ∧ (finish (enterFault s)).power.clock = s.power.clock := by
  have hmotion : (endEvent s).motion = m := (motion_of_uncounted h :)
  have hset : (endEvent s).settings = s.settings := (settings_of_uncounted h :)
  have hgauge : (endEvent s).gauge = s.gauge := (gauge_of_uncounted h :)
  have hclock : (endEvent s).power.clock = s.power.clock := (clock_of_uncounted h :)
  obtain ⟨l, hl, -⟩ := raiseCareful_frame (endEvent s).careful
    (raiseSettled .fault none { endEvent s with motion := (endEvent s).motion.faulted })
  have heq : enterFault s = { endEvent s with motion := (endEvent s).motion.faulted, link := l } := hl
  have hf := uncounted_of_kept (kept_finish (enterFault s))
  rw [heq, hmotion] at hf
  rw [heq, hmotion]
  exact ⟨(motion_of_uncounted hf :), (settings_of_uncounted hf :).trans hset, (gauge_of_uncounted hf :).trans hgauge,
    (clock_of_uncounted hf :).trans hclock⟩

theorem endEvent_falling (h : s.motion.st = .falling) :
    endEvent s = { s with motion := { s.motion with abandoned := satInc Config.max32 s.motion.abandoned } } := by
  unfold endEvent
  simp only [h, State.modMotion]

theorem endEvent_impact (h : s.motion.st = .impact) : endEvent s = completeEvent (s.motion.record true) s := by
  unfold endEvent
  simp only [h]

/-- What a fault that ends an event leaves of the motion unit `m` before it. -/
structure FaultEnds (m : Motion) (s t : State) : Prop where
  st : t.motion.st = .fault
  faults : t.motion.faults = min (m.faults + 1) 4294967295
  falling : m.st = .falling → t.motion.abandoned = min (m.abandoned + 1) 4294967295 ∧ t.motion.log = m.log ∧
    t.motion.impacts = m.impacts
  impact : m.st = .impact → t.motion.impacts = min (m.impacts + 1) 4294967295 ∧ t.motion.abandoned = m.abandoned ∧
    (t.motion.log.getLast?.map ImpactRec.peak) = some m.peak
  settings : t.settings = s.settings
  gauge : t.gauge = s.gauge
  clock : t.power.clock = s.power.clock

theorem faultEnds_of_event {m : Motion} (hst : m.st = .falling ∨ m.st = .impact) :
    FaultEnds m s (finish (enterFault { s with motion := m })) := by
  rcases hst with hst | hst
  · obtain ⟨hmotion, hset, hgauge, hclock⟩ := finish_enterFault { s with motion := m }
      (congrArg State.uncounted (endEvent_falling (s := { s with motion := m }) hst))
    refine ⟨by rw [hmotion]; rfl, by rw [hmotion]; rfl, fun _ => ?_, fun h => ?_, hset, hgauge, hclock⟩
    · rw [hmotion]
      exact ⟨rfl, rfl, rfl⟩
    · rw [hst] at h
      cases h
  · obtain ⟨hmotion, hset, hgauge, hclock⟩ := finish_enterFault { s with motion := m }
      ((congrArg State.uncounted (endEvent_impact (s := { s with motion := m }) hst)).trans (uncounted_completeEvent _ _))
    have hcls : (m.record true).cls ≠ .none := classOfPeak_ne_none m.peak
    refine ⟨by rw [hmotion]; rfl, by rw [hmotion]; rfl, fun h => ?_, fun _ => ?_, hset, hgauge, hclock⟩
    · rw [hst] at h
      cases h
    · rw [hmotion]
      refine ⟨if_neg hcls, rfl, ?_⟩
      show (List.getLast? (m.log.drop _ ++ [m.record true])).map _ = _
      rw [List.getLast?_concat]
      rfl

end Faults

theorem repeatNext_completes {raw : Triple} {m : Motion} (h : m.lastRaw = some raw) (h399 : 399 ≤ m.repeats) :
    repeatNext m.lastRaw raw m.repeats = 400 := by
  rw [repeatNext, if_pos h]
  omega

end Sys2Proof.Machine

namespace Sys2Proof
open Machine

/-- Settles O44: each sample named here enters a state, and raises SETTLED; where an event is in progress, the fault ends it
first. -/
theorem theMonitorSettlesFaultsAndRecovers : Obligations.TheMonitorSettlesFaultsAndRecovers := by
  intro raw s hd m mag inBand repeats entered becomes sampled
  -- The magnitude is a number here: left as its definition, every comparison with it would be computed.
  have hmag : raw.saturate.magnitude = mag := rfl
  clear_value mag
  have hbecomes {c : Instr} {p : MotionState → MotionState → Bool} {r : Option Triple} {m' : Motion}
      (hexec : exec c s = .next (motionRow p r s)) (hent : Enters s m' (motionRead r s)) (hp : p s.motion.st m'.st = true) :
      becomes c m' := by
    have hmotion : (motionRead r s).motion = m' := congrArg State.motion hent
    have hrow : motionRow p r s = motionRead r s := motionRow_taken (by rw [hmotion]; exact hp)
    exact ⟨motionRead r s, by rw [hexec, hrow], hent⟩
  have hfault {r : Option Triple} {m' : Motion} (hent : Enters s m'.faulted (motionRead r s)) (hst : s.motion.st ≠ .fault) :
      becomes (.sensorFault r) m'.faulted := by
    refine hbecomes (p := fun a b => a != .fault && b == .fault) rfl hent ?_
    cases hs : s.motion.st
    case fault => exact absurd hs hst
    all_goals rfl
  refine ⟨?_, ?_, ?_, ?_⟩
  · intro hs hst hr him hlow
    have hclass : classOf s.ffMg s.impactMg mag = if mag < s.ffMg then .low else .mid := classOf_not_high (.inr him)
    have hread := readJudged_settling hst hr
    rw [hmag] at hread
    refine ⟨fun hband => ?_, fun hband hff hmid => ?_⟩
    · have hnot : classOf s.ffMg s.impactMg mag ≠ .high := by
        rw [hclass]
        split <;> decide
      have hl : classOf s.ffMg s.impactMg mag = .low → mag < s.ffMg := by
        rw [hclass]
        by_cases h : mag < s.ffMg <;> simp [h]
      rw [judgeSettling_settled (s := s.streamed raw) hnot (fun h => hlow (hl h)) hband] at hread
      obtain ⟨hstill, l, heq⟩ := enterCalm_enters (m := s.motion.streamed raw) (ty := .settled) hs
      refine hbecomes (p := fun a b => a == .settling && b == .calm && s.bandDone (some raw)) rfl
        (motionRead_enters hd ⟨_, hread, hstill, l, heq⟩) ?_
      rw [show s.motion.st = .settling from hst, (bandDone_iff hmag).mpr hband]
      rfl
    · rw [classOf_mid hff him, judgeSettling_rough (s := s.streamed raw) hband hmid] at hread
      obtain ⟨hstill, l, heq⟩ := enterCalm_enters (m := s.motion.streamed raw) (ty := .rough) hs
      have hno : s.bandDone (some raw) = false := by
        rw [← Bool.not_eq_true, bandDone_iff hmag]
        exact hband
      refine hbecomes (p := fun a b => a == .settling && b == .calm && !s.bandDone (some raw)) rfl
        (motionRead_enters hd ⟨_, hread, hstill, l, heq⟩) ?_
      rw [show s.motion.st = .settling from hst, hno]
      rfl
  · intro hs hst
    have hne : s.motion.st ≠ .fault := by rcases hst with h | h <;> rw [show s.motion.st = _ from h] <;> decide
    refine ⟨fun hlast h399 => ?_, fun h1 => ?_⟩
    · obtain ⟨hstill, l, heq⟩ := enterFault_enters (m := s.motion.streamed raw) hs hst
      exact hfault (m' := s.motion.streamed raw) (motionRead_enters hd ⟨_, answered_faults hne (repeatNext_completes hlast h399), hstill, l, heq⟩) hne
    · obtain ⟨hstill, l, heq⟩ := enterFault_enters (m := { s.motion with missed := 2 }) hs hst
      exact hfault (m' := { s.motion with missed := 2 }) (motionRead_enters hd ⟨_, missedRead_again h1 hne, hstill, l, heq⟩) hne
  · intro hst faulted
    have hne : s.motion.st ≠ .fault := by rcases hst with h | h <;> rw [show s.motion.st = _ from h] <;> decide
    have hend {r : Option Triple} {m' : Motion} (hread : readJudged r s = enterFault { s with motion := m' })
        (h' : FaultEnds m' s (finish (enterFault { s with motion := m' })) → FaultEnds m s (finish (enterFault { s with motion := m' })))
        (hst' : m'.st = .falling ∨ m'.st = .impact) : faulted r := by
      obtain ⟨hf, hfaults, hfall, himp, hset, hgauge, hclock⟩ := h' (faultEnds_of_event hst')
      have ht : motionRead r s = finish (enterFault { s with motion := m' }) := by rw [motionRead_awake hd, hread]
      rw [← ht] at hf hfaults hfall himp hset hgauge hclock
      have hrow : sensorFault r s = motionRead r s := by
        refine motionRow_taken ?_
        rw [hf]
        cases hs : s.motion.st
        case fault => exact absurd hs hne
        all_goals rfl
      exact ⟨_, congrArg Host.Outcome.next hrow, hf, hfaults, hfall, himp, hset, hgauge, hclock⟩
    refine ⟨fun hlast h399 => ?_, fun h1 => ?_⟩
    · refine hend (r := some raw) (m' := s.motion.streamed raw) (answered_faults hne (repeatNext_completes hlast h399)) ?_ hst
      rintro ⟨h1, h2, h3, h4, h5, h6, h7⟩
      exact ⟨h1, h2, h3, h4, h5, h6, h7⟩
    · refine hend (r := none) (m' := { s.motion with missed := 2 }) (missedRead_again h1 hne) ?_ hst
      rintro ⟨h1, h2, h3, h4, h5, h6, h7⟩
      exact ⟨h1, h2, h3, h4, h5, h6, h7⟩
  · rintro hs hst ⟨x, hx, hxr⟩ h399
    have hdiff : (s.motion.lastRaw.isSome && s.motion.lastRaw != some raw) = true := by
      rw [show s.motion.lastRaw = some x from hx]
      simp [hxr]
    have hread : readJudged (some raw) s = raiseCareful s.careful (raiseSettled .calm (some .sensor)
        { s with motion := { (s.motion.streamed raw).enter .calm with repeats := 1, missed := 0 } }) := by
      rw [readJudged, answered_inFault hst, hdiff]
      exact if_pos (Nat.succ_le_succ h399)
    obtain ⟨hstill, l, heq⟩ := raiseSettled_then_careful (old := s.careful) (st := .calm) (ty := some .sensor)
      (m := { (s.motion.streamed raw).enter .calm with repeats := 1, missed := 0 }) hs
    refine hbecomes (p := fun a b => a == .fault && b == .calm) rfl (motionRead_enters hd ⟨_, hread, hstill, l, heq⟩) ?_
    rw [show s.motion.st = .fault from hst]
    rfl

end Sys2Proof
end

section
/-!
PROOFS. Checkpoints (O53), the pause of a quiet store (O55), and the release of a closeout (O56).
-/
namespace Sys2Proof.Machine

/-! ## The pages of a checkpoint are asked for (R117, R118) -/

/-- A checkpoint page that takes a buffer changes the staging unit and the wait line alone. -/
theorem putImage_checkpoint {b : Nat} {im : Image} (h : im.hdr.kind ≠ .settings) (s : State) :
    ∃ g w, putImage b im s = { s with staging := g, intake := { s.intake with wait := w } } := by
  unfold putImage
  dsimp only
  rw [if_neg h]
  exact ⟨_, _, rfl⟩

theorem buildCheckpoint_store {i : Nat} {im : Image} {t : LineStore} {s : State} (h : buildCheckpoint i s = some (im, t)) :
    t = s.store ∧ im.hdr.kind ≠ .settings := by
  unfold buildCheckpoint at h
  split at h
  · split at h
    · cases h
      exact ⟨rfl, nofun⟩
    · cases h
  all_goals cases h

/-- A checkpoint asks for its pages in order. -/
theorem nextRequest_checkpoint {i : Nat} {q : ImageReq} {s : State} (h : nextRequest (.checkpoint i) s = some q) :
    q = .checkpoint (i + 1) := by
  unfold nextRequest at h
  split at h
  · rename_i j snap hj _
    cases hj
    split at h
    · exact (Option.some.inj h).symm
    · cases h
  · cases h

/-- Whatever buffers the pages of a checkpoint take, only the staging unit and the wait line move. -/
theorem addRequest_checkpoint (n i : Nat) (s : State) :
    ∃ g w, addRequest n (.checkpoint i) s = { s with staging := g, intake := { s.intake with wait := w } } := by
  induction n generalizing i s with
  | zero => exact ⟨_, s.intake.wait, rfl⟩
  | succ n ih =>
    unfold addRequest
    split
    · rw [if_neg (by exact Bool.false_ne_true)]
      cases hb : buildRequest (.checkpoint i) s with
      | none => exact ⟨s.staging, s.intake.wait, rfl⟩
      | some x =>
        obtain ⟨im, t⟩ := x
        obtain ⟨rfl, hkind⟩ := buildCheckpoint_store hb
        rename_i b _ _
        have hgive : ∃ g w, giveBuffer b im s.store s = { s with staging := g, intake := { s.intake with wait := w } } :=
          putImage_checkpoint hkind s
        obtain ⟨g, w, hgive⟩ := hgive
        dsimp only
        rw [hgive]
        cases hn : nextRequest (.checkpoint i) { s with staging := g, intake := { s.intake with wait := w } } with
        | none => exact ⟨g, w, rfl⟩
        | some q =>
          obtain ⟨g', w', h'⟩ := ih (i + 1) { s with staging := g, intake := { s.intake with wait := w } }
          exact ⟨g', w', (congrArg (addRequest n · _) (nextRequest_checkpoint hn)).trans h'⟩
    · exact ⟨_, s.intake.wait, rfl⟩

/-! ## The snapshot (R117) -/

/-- The state at the snapshot, before its pages are asked for. -/
def State.captured (s : State) : State :=
  { s with
    store := { s.store with ckptSeq := s.store.ckptSeq + 1, progCount := 0, ckpt := some (.writing (takeSnapshot s)) }
    flash := { s.flash with ringFails := 0 } }

/-- The snapshot of a checkpoint that the current ring block can hold moves the staging unit and the wait line besides. -/
theorem snapshot_captured {s : State} (hdie : s.dieReady 0 = true) (hroom : 26 + (s.rootUsed + 1019) / 1020 ≤ s.ringLeft) :
    ∃ g w, snapshot s = { s.captured with staging := g, intake := { s.intake with wait := w } } := by
  have hring : ringRoom s.captured = s.captured := by
    have hleft : ¬s.captured.ringLeft < (takeSnapshot s).pages - (takeSnapshot s).handed := Nat.not_lt.mpr hroom
    unfold ringRoom
    show (if (!s.captured.flash.ringDue && decide (s.captured.ringLeft < _)) = true then _ else _) = _
    rw [decide_eq_false hleft, Bool.and_false, if_neg Bool.false_ne_true]
  have hready : (!s.captured.dieReady 0) = false := by
    rw [show s.captured.dieReady 0 = true from hdie]
    rfl
  have hsnap : snapshot s = requestImage (.checkpoint 0) s.captured := by
    unfold snapshot
    show (if (!s.captured.dieReady 0) = true then _ else match (ringRoom s.captured).store.ckpt with
      | some (.writing _) => requestImage (.checkpoint 0) (ringRoom s.captured)
      | some (.flushing _ _) => ringRoom s.captured
      | none => ringRoom s.captured) = _
    rw [hready, if_neg Bool.false_ne_true, hring]
    rfl
  obtain ⟨g, w, h⟩ := addRequest_checkpoint 32 0 s.captured
  exact ⟨g, w, hsnap.trans h⟩

/-! ## A checkpoint requested by the program count (R116) -/

theorem requestCheckpoint_writing {snap : Snapshot} {s : State} (h : s.store.ckpt = some (.writing snap)) :
    requestCheckpoint none s = s.modStore fun t => { t with ckptPend := true } := by
  unfold requestCheckpoint addWaiter
  dsimp only
  rw [h]

/-- Changes of the store that leave the walk, and of the staging unit, leave no follow-up work. -/
theorem still_ckpt {t : LineStore} {g : Staging} {fl : Flash} {w : Bool} {s : State} (h : Still s)
    (hw : t.walk = s.store.walk) (hfl : fl.refresh = s.flash.refresh ∧ fl.reads = s.flash.reads ∧ fl.dies = s.flash.dies) :
    Still { s with store := t, staging := g, flash := fl, intake := { s.intake with wait := w } } := by
  obtain ⟨hrefresh, hreads, hdies⟩ := hfl
  refine still_congr h hw hrefresh rfl hreads (fun d => ?_) rfl h.notPausing rfl
  show ((fl.dies[d]?).map Die.ready).getD false = ((s.flash.dies[d]?).map Die.ready).getD false
  rw [hdies]

/-! ## The pause of a quiet store (R177) -/

section Pause
variable {r : Running} {s : State}

theorem isRunning_handed {k : CmdKind} (h : s.isRunning k = true) (hr : s.link.running = some r) :
    r.handed = true ∧ r.cmd.kind = k := by
  rw [State.isRunning, hr, Bool.and_eq_true, beq_iff_eq] at h
  exact h

/-- The OK reply of PAUSE, with room for it, sets the pause-entry mark. -/
theorem endIf_pause_ok {st : PowerState} (hrun : s.isRunning .pause = true) (hr : s.link.running = some r)
    (hfinal : r.final = none) (hroom : s.link.fifo.length < 32) (hst : st = .light ∨ st = .deep) :
    endIf .pause .ok (le1 st.code) s = { s with
      power := { s.power with pause := .none, fmt := .none, pauseMark := some st },
      link := LinkUnit.choose s.paused { s.link with
        running := none, fifo := s.link.fifo ++ [finalMessage r.cmd ⟨.ok, le1 st.code⟩] } } := by
  obtain ⟨hhanded, hkind⟩ := isRunning_handed hrun hr
  have hmark : (if le1 st.code = le1 PowerState.light.code then PowerState.light else .deep) = st := by
    rcases hst with rfl | rfl
    · rfl
    · exact if_neg (by decide)
  let u : State := (s.modPower fun p => { p with pause := .none, fmt := .none }).modLink fun l =>
    l.enter s.paused (finalMessage r.cmd ⟨.ok, le1 st.code⟩)
  have hend : endIf .pause .ok (le1 st.code) s = finalPlaced r.cmd ⟨.ok, le1 st.code⟩ u := by
    simp only [endIf, hr, hhanded, hkind, beq_self_eq_true, hfinal, Option.isNone_none, Bool.and_self, if_true, endCommand,
      modPower_link, Config.replyFifo, hroom]
    rfl
  have hplaced : finalPlaced r.cmd ⟨.ok, le1 st.code⟩ u =
      (u.modLink fun l => { l with running := none }).modPower fun p => { p with pauseMark := some st } := by
    unfold finalPlaced
    rw [hkind]
    dsimp only
    rw [if_pos rfl, hmark]
  have hlink : { u.link with running := none } = LinkUnit.choose s.paused { s.link with
      running := none, fifo := s.link.fifo ++ [finalMessage r.cmd ⟨.ok, le1 st.code⟩] } := choose_run ..
  rw [hend, hplaced]
  exact congrArg (fun l : LinkUnit => ({ s with
    power := { s.power with pause := .none, fmt := .none, pauseMark := some st }, link := l } : State)) hlink

theorem pauseTarget_cases (s : State) : s.pauseTarget = .light ∨ s.pauseTarget = .deep := by
  unfold State.pauseTarget
  split
  · exact .inl rfl
  · exact .inr rfl

/-- The reply that set the pause-entry mark is being sent. -/
theorem pauseEntry_enters {m : Message} {st : PowerState} (hmark : s.power.pauseMark = some st)
    (hsend : s.link.sending = some m) (hm : m.isPauseReply = true) (hno : ∀ x ∈ s.link.fifo, x.isPauseReply = false) :
    pauseEntry s = enterPause st (s.modLink fun l => { l with sending := none }) := by
  have hnone : s.link.fifo.any Message.isPauseReply = false := by
    rw [List.any_eq_false]
    intro x hx
    rw [hno x hx]
    exact Bool.false_ne_true
  have hsending : s.sendingPause = true := by
    rw [State.sendingPause, hmark, hsend, Option.map_some, hm, hnone]
    rfl
  unfold pauseEntry
  rw [hmark]
  exact if_pos hsending

/-- The entry to DEEP PAUSE with no event in progress leaves the monitor in CALM. -/
theorem deepStop_calm (h : s.motion.st = .calm ∨ s.motion.st = .settling) :
    deepStop s = updateWait { s with motion := s.motion.enter .calm } := by
  have hend : endEvent s = s := by
    unfold endEvent
    rcases h with h | h <;> simp only [h]
  have hst : (if s.motion.st = .fault then MotionState.fault else .calm) = .calm := by
    rcases h with h | h <;> rw [h] <;> rfl
  unfold deepStop
  rw [hend]
  dsimp only [State.modMotion]
  rw [hst]

end Pause

/-! ## A closeout whose relocation walk stands in the block that becomes FULL (R70, R87, R182) -/

/-- The block of the walk: block 5 of die 0. -/
def walkedBlk : Blk := { die := 0, block := 5 }

/-- A closeout that waits for its lines, of which none is left, while a walk reads a page of the active block: the block is
referenced by nothing and its last page is a lower one. -/
def releaseCounterexample : State :=
  { State.reset with
    store := { LineStore.reset with
      walk := some { blk := walkedBlk, page := 0, phase := .reading, heldRoot := none, heldSeg := none } },
    flash := { Flash.reset with
      dies := [{ ready := true, op := none, active := some { block := 5, erased := true, next := 1 }, due := [] }],
      blocks := [{ id := walkedBlk, st := .active, erases := 0, live := 0, seq := 0 }] },
    power := { Power.reset .powerOn 7 with
      store := .closingOut, mount := none, closeout := some { kind := .orderly false false, cause := .command } } }

theorem releaseCounterexample_still : Still releaseCounterexample :=
  ⟨.inl (by decide), nofun, nofun, rfl, rfl, rfl⟩

/-- The block becomes FULL, is reclaimed, and so leaves the refresh queue, at which the walk is stopped. -/
theorem release_stops_walk :
    (closeoutRelease releaseCounterexample).store.walk.map Walk.stopped = some true := by decide +kernel

end Sys2Proof.Machine

namespace Sys2Proof
open Machine

/-- Settles O53: the snapshot's pages take buffers of the staging unit alone. -/
theorem checkpointsAreRequestedAndTaken : Obligations.CheckpointsAreRequestedAndTaken := by
  intro s hs
  have hcount : exec .programCountCheckpoint s =
      .next (if 1024 ≤ s.store.progCount then finish (requestCheckpoint none s) else s) := rfl
  have htake : exec .checkpointSnapshot s = .next (if s.snapshotReady then finish (snapshot s) else s) := rfl
  refine ⟨fun h => ?_, fun h => ⟨fun hc hl => ?_, fun snap hw => ?_⟩, fun h => ?_, fun hc hroot hdie hdue hroom => ?_⟩
  · rw [hcount, if_neg (Nat.not_le.mpr h)]
  · rw [hcount, if_pos h, requestCheckpoint_unflushed hc hl, finish_still]
    · rfl
    · exact still_ckpt (g := s.staging) (fl := s.flash) (w := s.intake.wait) hs rfl ⟨rfl, rfl, rfl⟩
  · rw [hcount, if_pos h, requestCheckpoint_writing hw, finish_still]
    · rfl
    · exact still_ckpt (g := s.staging) (fl := s.flash) (w := s.intake.wait) hs rfl ⟨rfl, rfl, rfl⟩
  · rw [htake, h, if_neg Bool.false_ne_true]
  · have hready : s.snapshotReady = true := by
      unfold State.snapshotReady
      rw [hc]
      exact decide_eq_true hroot
    obtain ⟨g, w, hsnap⟩ := snapshot_captured hdie hroom
    have hstill : Still { s.captured with staging := g, intake := { s.intake with wait := w } } :=
      still_ckpt (t := s.captured.store) (fl := s.captured.flash) hs rfl ⟨rfl, rfl, rfl⟩
    refine ⟨updateWait { s.captured with staging := g, intake := { s.intake with wait := w } }, takeSnapshot s, ?_, rfl, rfl, rfl,
      rfl, rfl, rfl, rfl, rfl, rfl, rfl, rfl, rfl, rfl, rfl, rfl, rfl, rfl⟩
    rw [htake, hready, if_pos rfl, hsnap, finish_still _ hstill]

/-- Settles O55: with the store quiet the command either asks for its checkpoint or ends; the entry itself is one change of the
power state. -/
theorem pauseGoesFromQuietToThePauseState : Obligations.PauseGoesFromQuietToThePauseState := by
  intro s
  have hquiet : exec .pauseQuiet s = .next (pauseQuiet s) := rfl
  have hentry : exec .pauseEntry s = .next (pauseEntry s) := rfl
  refine ⟨fun hrun hq => ⟨fun hp hc hl => ?_, ?_⟩, fun hrun => ?_, fun m st hmark hsend hm hno => ⟨fun hst => ?_, fun hst hmo => ?_⟩,
    fun hmark => ?_⟩
  · have hp' : pauseQuiet s = requestCheckpoint (some .command) (s.modPower fun p => { p with pause := .checkpoint }) := by
      simp only [pauseQuiet, hrun, hq, Bool.and_self, Bool.not_true, Bool.false_eq_true, if_false, hp]
    rw [hquiet, hp', requestCheckpoint_unflushed (s := s.modPower fun p => { p with pause := .checkpoint }) hc hl]
    rfl
  · intro r hp hr hfinal hroom st
    have hp' : pauseQuiet s = updateWait (endIf .pause .ok (le1 s.pauseTarget.code) s) := by
      simp only [pauseQuiet, hrun, hq, Bool.and_self, Bool.not_true, Bool.false_eq_true, if_false, hp]
    obtain ⟨-, hkind⟩ := isRunning_handed hrun hr
    rw [hquiet, hp', endIf_pause_ok hrun hr hfinal hroom (pauseTarget_cases s), finalMessage, hkind]
    rfl
  · have hp' : pauseQuiet s = s := by
      simp only [pauseQuiet, hrun, Bool.false_and, Bool.not_false, if_true]
    rw [hquiet, hp']
  · rw [hentry, pauseEntry_enters hmark hsend hm hno, hst]
    rfl
  · rw [hentry, pauseEntry_enters hmark hsend hm hno, hst]
    have hclosed : ∀ u : State, u.power.st = .deep → waitLevel u = true := fun u hu =>
      waitLevel_of_closed (intakeState_of_held (by rw [State.held, hu]; rfl))
    refine congrArg Host.Outcome.next ((deepStop_calm (s := updateWait ((s.modLink fun l => { l with sending := none }).modPower fun q =>
      { q with st := .deep, pauseMark := none })) hmo).trans ?_)
    unfold updateWait
    rw [hclosed _ rfl, hclosed _ rfl, hclosed _ rfl]
    rfl
  · have hnone : pauseEntry s = s := by
      unfold pauseEntry
      rw [hmark]
    rw [hentry, hnone]

/-- Refutes O56: an active block with no live page becomes FULL as the closeout releases its die, and is reclaimed. It leaves the
refresh queue, and the walk that stands in it is stopped, which changes the line store beyond the request of the checkpoint. -/
theorem not_closeoutsReachTheirCheckpointOrLowHalt : ¬ Obligations.CloseoutsReachTheirCheckpointOrLowHalt := by
  intro holds
  obtain ⟨_, hrelease, _, _⟩ := holds releaseCounterexample
  obtain ⟨t, ht, _, hstore, _⟩ := hrelease _ false rfl rfl (fun l hl => absurd hl List.not_mem_nil) rfl
    releaseCounterexample_still
  have hexec : ∀ s, exec .closeoutRelease s = .next (closeoutRelease s) := fun _ => rfl
  rw [hexec] at ht
  injection ht with ht
  rw [← ht] at hstore
  have hwalk : (closeoutRelease releaseCounterexample).store.walk.map Walk.stopped = some false :=
    congrArg (fun u : LineStore => u.walk.map Walk.stopped) hstore
  rw [release_stops_walk] at hwalk
  cases hwalk

end Sys2Proof
end

section
/-!
PROOFS. The format event (O54), and the mount's die detection and settings step with the notice queue (O57).
-/
namespace Sys2Proof.Machine

/-! ## The space conditions judged (R75) -/

/-- The judgement moves the notices, its two marks and the wait line. -/
theorem judgeSpace_moves (s : State) :
    ∃ l a b w, judgeSpace s = { s with
      link := l, flash := { s.flash with fullSeen := a, lowSeen := b }, intake := { s.intake with wait := w } } ∧
      l.running = s.link.running := by
  have hnoticed := judgeSpace_noticed s
  have hraise : ∀ (c low : Bool) (u : State), ∃ l, (if c = true then raiseSpace low u else u) = { u with link := l } := by
    intro c low u
    cases c
    · exact ⟨u.link, rfl⟩
    · exact ⟨_, rfl⟩
  by_cases hm : s.power.store = .mounting
  · exact ⟨s.link, s.flash.fullSeen, s.flash.lowSeen, s.intake.wait, by rw [judgeSpace, if_pos hm], rfl⟩
  · obtain ⟨l1, h1⟩ := hraise (s.storeFull && !s.flash.fullSeen) false s
    obtain ⟨l2, h2⟩ := hraise (s.spaceLow && !({ s with link := l1 } : State).flash.lowSeen) true { s with link := l1 }
    have heq : judgeSpace s = updateWait (({ s with link := l2 } : State).modFlash fun fl =>
        { fl with fullSeen := s.storeFull, lowSeen := s.spaceLow }) := by
      rw [judgeSpace, if_neg hm]
      dsimp only
      rw [h1, h2]
    refine ⟨l2, _, _, _, heq, ?_⟩
    rw [heq] at hnoticed
    exact hnoticed.running

/-! ## The format event (R92, R112) -/

section Format
variable {s : State}

/-- The state of the format event before the flash controller acts: the staged pages, the slots, the lines and the cached segments
are gone. -/
def State.emptied (g : Staging) (w : Bool) (s : State) : State :=
  { s with
    power := { s.power with fmt := .checkpoint }
    store := { s.store with
      ckpt := none, ckptPend := false, lines := [], pendings := [], segRw := [], segDone := [], rootRw := [], walk := none,
      erase := none }
    intake := { s.intake with slots := s.intake.slots.map fun _ => none, wait := w }
    staging := g
    retr := { s.retr with cache := s.retr.cache.map (CacheSet.drop fun _ => true) } }

/-- With no page QUEUED an abandoned checkpoint and the dropped images are the work lists alone. -/
theorem discardImages_unqueued (h : s.staging.queue = []) :
    discardImages (dropCheckpoint s) =
      { s with store := { s.store with ckpt := none, ckptPend := false }, staging := { s.staging with requests := [] } } := by
  have hdrop : dropCheckpoint s = { s with
      store := { s.store with ckpt := none, ckptPend := false },
      staging := { s.staging with requests := s.staging.requests.filter fun q => !q.isCheckpoint } } := by
    unfold dropCheckpoint dropCheckpointImages
    simp only [State.modStaging, State.modStore, h, List.filter_nil, List.foldl_nil]
  rw [hdrop]
  unfold discardImages
  simp only [State.modStaging, h, List.foldl_nil]

theorem dropHeldBuffers_unrequested (h : s.staging.requests = []) :
    ∃ g w, dropHeldBuffers s = { s with staging := g, intake := { s.intake with wait := w } } := by
  have honly := (foldl_freeBuf_only ((List.range s.staging.bufs.length).filter fun n => match s.buf n with
    | some x => x.st == .filling || x.st == .retained
    | none => false) (s := s) h).1
  exact ⟨_, _, honly⟩

/-- The state of the format event before the FILLING and RETAINED buffers are returned. -/
def State.unlisted (s : State) : State :=
  { s with
    power := { s.power with fmt := .checkpoint }
    store := { s.store with
      ckpt := none, ckptPend := false, lines := [], pendings := [], segRw := [], segDone := [], rootRw := [], walk := none,
      erase := none }
    intake := { s.intake with slots := s.intake.slots.map fun _ => none }
    staging := { s.staging with requests := [] } }

theorem formatEvent_eq (hready : s.formatReady = true) (hq : s.staging.queue = []) :
    ∃ g w, formatEvent s = finish (requestCheckpoint (some .command) (judgeSpace (formatFlash (s.emptied g w)))) := by
  obtain ⟨g, w, hheld⟩ := dropHeldBuffers_unrequested (s := s.unlisted) rfl
  have hretr : (dropHeldBuffers s.unlisted).modRetr (fun r => { r with cache := r.cache.map (CacheSet.drop fun _ => true) }) =
      s.emptied g w := by
    rw [hheld]
    rfl
  refine ⟨g, w, ?_⟩
  rw [← hretr]
  unfold formatEvent
  rw [hready, Bool.not_true, if_neg Bool.false_ne_true]
  dsimp only
  rw [discardImages_unqueued (s := s.modPower fun p => { p with fmt := .checkpoint }) hq]
  rfl

/-- Renumbering the FREE blocks leaves each block but its sequence number. -/
theorem mem_numberFree {r : BlockRec} : ∀ {rs : List BlockRec} {ctr : Nat}, r ∈ (numberFree ctr rs).1 →
    ∃ r' ∈ rs, r.id = r'.id ∧ r.st = r'.st ∧ r.live = r'.live
  | [], _, h => absurd h List.not_mem_nil
  | x :: rs, ctr, h => by
    unfold numberFree at h
    split at h
    · rcases List.mem_cons.mp h with rfl | h
      · exact ⟨x, List.mem_cons_self, rfl, rfl, rfl⟩
      · obtain ⟨r', hm, heq⟩ := mem_numberFree h
        exact ⟨r', List.mem_cons_of_mem _ hm, heq⟩
    · rcases List.mem_cons.mp h with rfl | h
      · exact ⟨r, List.mem_cons_self, rfl, rfl, rfl⟩
      · obtain ⟨r', hm, heq⟩ := mem_numberFree h
        exact ⟨r', List.mem_cons_of_mem _ hm, heq⟩

theorem formatBlock_states (ready : Nat → Bool) (r : BlockRec) :
    (formatBlock ready r).live = 0 ∧ (ready (formatBlock ready r).id.die = true →
      (formatBlock ready r).st = .anchor ∨ (formatBlock ready r).st = .free ∨ (formatBlock ready r).st = .retired) := by
  refine ⟨rfl, fun h => ?_⟩
  have hid : ready r.id.die = true := h
  unfold formatBlock
  cases hst : r.st <;> simp [hid]

/-- What the format event leaves of the flash controller's blocks. -/
theorem formatFlash_blocks {r : BlockRec} (h : r ∈ (formatFlash s).flash.blocks) :
    r.live = 0 ∧ (s.dieReady r.id.die = true → r.st = .anchor ∨ r.st = .free ∨ r.st = .retired) := by
  obtain ⟨r', hm, hid, hst, hlive⟩ := mem_numberFree h
  obtain ⟨r0, -, rfl⟩ := List.mem_map.mp hm
  obtain ⟨hl, hs⟩ := formatBlock_states s.dieReady r0
  rw [hid, hst, hlive]
  exact ⟨hl, hs⟩

theorem formatFlash_dies {x : Die} (h : x ∈ (formatFlash s).flash.dies) : x.active = none := by
  obtain ⟨d, hd, rfl⟩ := List.mem_mapIdx.mp h
  rfl

theorem formatFlash_dieReady (d : Nat) : (formatFlash s).dieReady d = s.dieReady d := by
  show (((s.flash.dies.mapIdx _)[d]?).map Die.ready).getD false = ((s.flash.dies[d]?).map Die.ready).getD false
  rw [List.getElem?_mapIdx]
  cases s.flash.dies[d]? <;> rfl

theorem drop_all_ways {c : CacheSet} {w : Option Way} (h : w ∈ (c.drop fun _ => true).ways) : w = none := by
  obtain ⟨x, -, rfl⟩ := List.mem_map.mp h
  cases x <;> rfl

end Format

/-! ## Reads of the mount (R187, R190) -/

section Mounting
variable {m : Mount} {s : State}

/-- A mount that reads settings pages or the ring has nothing to apply or to close. -/
theorem mountPump_reading (hm : s.power.mount = some m)
    (hp : (∃ pos best, m.phase = .settings pos best) ∨ ∃ b pos ps bl, m.phase = .ring b pos ps bl) : mountPump s = s := by
  have happly : mountApply m s = s := by
    unfold mountApply
    rcases hp with ⟨_, _, hp⟩ | ⟨_, _, _, _, hp⟩ <;> simp only [hp]
  unfold mountPump
  rw [hm]
  dsimp only
  rw [happly, mountClose, hm, Option.map_some]
  rcases hp with ⟨_, _, hp⟩ | ⟨_, _, _, _, hp⟩ <;> simp only [hp]

/-- A settings page that cannot be read is passed over. -/
theorem mountPage_unreadable (pos : Nat) (best : Option ReadPage) :
    mountPage (.settings pos best) .uncorrectable s =
      if pos + 2 ≤ 254 then s.setPhase (.settings (pos + 2) best) else settingsRead 256 best s := by
  unfold mountPage
  dsimp only
  rw [if_neg (by decide)]
  rfl

/-- No other follow-up work stands while the mount reads. -/
structure MountStill (s : State) : Prop where
  walk : WalkStill s
  reads : s.flash.reads = []
  ctx : s.retr.ctx = none
  notPausing : s.isRunning .pause = false
  calm : s.emergency = false

theorem finish_mounting (hs : MountStill s) (hm : s.power.mount = some m)
    (hp : (∃ pos best, m.phase = .settings pos best) ∨ ∃ b pos ps bl, m.phase = .ring b pos ps bl) :
    finish s = updateWait s := by
  unfold finish
  have hdead : drainDead drainFuel s = s := drainDead_ready drainFuel s
    (by rw [hs.ctx]; nofun) (by rw [hs.reads]; nofun)
  rw [startWalk_idle s hs.walk, hdead, mountPump_reading hm hp, judgePause_none s hs.notPausing, lowHaltCheck_calm s hs.calm]

/-- From `s` to `t` settings are adopted: the blocks that act on none of them stand. -/
structure Adopts (s t : State) : Prop where
  power : t.power = s.power
  store : t.store = s.store
  staging : t.staging = s.staging
  retr : t.retr = s.retr
  refresh : t.flash.refresh = s.flash.refresh
  reads : t.flash.reads = s.flash.reads
  setPos : t.flash.setPos = s.flash.setPos
  erase0 : t.flash.erase0 = s.flash.erase0
  running : t.link.running = s.link.running
  settings : t.settings = s.settings
  sampling : t.gauge.sampling = s.gauge.sampling

theorem Adopts.refl (s : State) : Adopts s s := ⟨rfl, rfl, rfl, rfl, rfl, rfl, rfl, rfl, rfl, rfl, rfl⟩

theorem Adopts.trans {s t u : State} (h : Adopts s t) (k : Adopts t u) : Adopts s u where
  power := k.power.trans h.power
  store := k.store.trans h.store
  staging := k.staging.trans h.staging
  retr := k.retr.trans h.retr
  refresh := k.refresh.trans h.refresh
  reads := k.reads.trans h.reads
  setPos := k.setPos.trans h.setPos
  erase0 := k.erase0.trans h.erase0
  running := k.running.trans h.running
  settings := k.settings.trans h.settings
  sampling := k.sampling.trans h.sampling

theorem raiseNotice_adopts (k : NoticeKind) (d : List Byte) (s : State) : Adopts s (raiseNotice k d s) :=
  ⟨rfl, rfl, rfl, rfl, rfl, rfl, rfl, rfl, (raiseNotice_noticed k d s).running, rfl, rfl⟩

theorem updateWait_adopts (s : State) : Adopts s (updateWait s) := ⟨rfl, rfl, rfl, rfl, rfl, rfl, rfl, rfl, rfl, rfl, rfl⟩

theorem judgeSpace_adopts (s : State) : Adopts s (judgeSpace s) := by
  obtain ⟨l, a, b, w, h, hrun⟩ := judgeSpace_moves s
  rw [h]
  exact ⟨rfl, rfl, rfl, rfl, rfl, rfl, rfl, rfl, hrun, rfl, rfl⟩

theorem judgeLatch_adopts (s : State) : Adopts s (judgeLatch s) := by
  have hlatch : Adopts s s.latched := ⟨rfl, rfl, rfl, rfl, rfl, rfl, rfl, rfl, rfl, rfl, rfl⟩
  refine hlatch.trans ?_
  show Adopts s.latched (raiseCareful s.careful s.latched)
  unfold raiseCareful
  split
  · exact .refl _
  · exact raiseNotice_adopts _ _ _

theorem sampling_redesign (old new : Nat) (g : Gauge) : (g.redesign old new).sampling = g.sampling := rfl

theorem designChange_adopts (old : Nat) (s : State) : Adopts s (designChange old s) := by
  have hgauge (g : Gauge) (h : g.sampling = s.gauge.sampling) : Adopts s { s with gauge := g } :=
    ⟨rfl, rfl, rfl, rfl, rfl, rfl, rfl, rfl, rfl, rfl, h⟩
  unfold designChange
  split
  · exact .refl s
  · dsimp only
    split
    · exact hgauge _ (sampling_redesign _ _ _)
    · refine Adopts.trans (hgauge _ ?_) (raiseNotice_adopts .battery _ _)
      rfl

theorem Adopts.ite {s t u : State} {c : Prop} [Decidable c] (ht : Adopts s t) (hu : Adopts s u) :
    Adopts s (if c then t else u) := by
  split
  · exact ht
  · exact hu

/-- The state with another working copy. -/
def State.withItems (items : List Nat) (s : State) : State := { s with settings := { s.settings with items := items } }

theorem adoptItems_adopts (items : List Nat) (s : State) : Adopts (s.withItems items) (adoptItems items s) := by
  have hkeep : Adopts (s.withItems items) ((keepInterval s).withItems items) := by
    unfold keepInterval
    split <;> exact ⟨rfl, rfl, rfl, rfl, rfl, rfl, rfl, rfl, rfl, rfl, rfl⟩
  have hdesign := hkeep.trans (designChange_adopts (keepInterval s).design _)
  exact (Adopts.ite hdesign (hdesign.trans (judgeLatch_adopts _))).trans
    ((judgeSpace_adopts _).trans (updateWait_adopts _))

/-- With no valid settings page the defaults stand, and the gauge takes samples (R173, R187). -/
theorem loadSettings_defaults (s : State) :
    Adopts { s with
      settings := { items := Settings.defaults, permit := .default, saved := none },
      gauge := { s.gauge with sampling := true } } (loadSettings none s) := by
  unfold loadSettings
  dsimp only
  split
  · have hstart : Adopts { s with
        settings := { items := Settings.defaults, permit := .default, saved := none },
        gauge := { s.gauge with sampling := true } }
        (gaugeStart { s with settings := { items := Settings.defaults, permit := .default, saved := none } }) :=
      ⟨rfl, rfl, rfl, rfl, rfl, rfl, rfl, rfl, rfl, rfl, rfl⟩
    exact (Adopts.ite hstart (hstart.trans (judgeLatch_adopts _))).trans (updateWait_adopts _)
  · exact adoptItems_adopts Settings.defaults { s with
      settings := { s.settings with permit := .default, saved := none }, gauge := { s.gauge with sampling := true } }

/-- What the settings step leaves where no valid page has been read (R187). -/
theorem finish_settingsRead {pos : Nat} (hs : MountStill s) (hm : s.power.mount = some m) :
    (finish (settingsRead pos none s)).power =
        { s.power with mount := some { m with phase := .ring 1 0 [] [], setFound := false } } ∧
      (finish (settingsRead pos none s)).flash.setPos = pos ∧ (finish (settingsRead pos none s)).flash.erase0 = false ∧
      (finish (settingsRead pos none s)).gauge.sampling = true ∧
      (finish (settingsRead pos none s)).settings = { items := Settings.defaults, permit := .default, saved := none } ∧
      (finish (settingsRead pos none s)).staging = s.staging ∧ (finish (settingsRead pos none s)).store = s.store := by
  have hload := loadSettings_defaults ({ s with
    flash := { s.flash with setPos := pos, erase0 := false },
    power := { s.power with mount := some { m with setFound := false } } } : State)
  have hstate : settingsRead pos none s = (loadSettings none { s with
      flash := { s.flash with setPos := pos, erase0 := false },
      power := { s.power with mount := some { m with setFound := false } } }).setPhase (.ring 1 0 [] []) := by
    unfold settingsRead
    simp only [State.modMount, State.modFlash, State.modPower, hm, Option.map_some, Option.isSome_none]
  generalize hu : loadSettings none _ = u at hload hstate
  have hmount : u.power = { s.power with mount := some { m with setFound := false } } := hload.power
  have hpower : (u.setPhase (.ring 1 0 [] [])).power =
      { s.power with mount := some { m with phase := .ring 1 0 [] [], setFound := false } } := by
    show ({ u.power with mount := u.power.mount.map _ } : Power) = _
    rw [hmount]
    rfl
  have hstill : MountStill (u.setPhase (.ring 1 0 [] [])) := by
    refine ⟨?_, hload.reads.trans hs.reads, (congrArg Retrieval.ctx hload.retr).trans hs.ctx, ?_, ?_⟩
    · have hw : u.store.walk = s.store.walk := congrArg LineStore.walk hload.store
      have hwalk := hs.walk
      unfold WalkStill at hwalk ⊢
      show match u.store.walk with
        | some w => w.phase ≠ .retry ∨ (w.stopped = false ∧ u.flash.refresh.head? = some w.blk)
        | none => u.flash.refresh = []
      rw [hw, hload.refresh]
      exact hwalk
    · exact (isRunning_congr .pause hload.running).trans hs.notPausing
    · have hcalm := hs.calm
      rw [State.emergency, hpower]
      exact hcalm
  rw [hstate, finish_mounting hstill (congrArg Power.mount hpower) (.inr ⟨1, 0, [], [], rfl⟩)]
  exact ⟨hpower, hload.setPos, hload.erase0, hload.sampling, hload.settings, hload.staging, hload.store⟩

end Mounting

/-! ## The notice queue (R19) -/

theorem raiseIn_new {clock : Nat} {k : NoticeKind} {d : List Byte} {q : List NoticeEntry} (h : ∀ e ∈ q, e.kind ≠ k) :
    raiseIn clock k d q = q ++ [{ kind := k, detail := d, count := 1, first := clock }] := by
  refine if_neg ?_
  rw [Bool.not_eq_true, List.any_eq_false]
  intro e he
  rw [beq_iff_eq]
  exact h e he

theorem raiseIn_pending {clock : Nat} {k : NoticeKind} {d : List Byte} {xs ys : List NoticeEntry} {e : NoticeEntry}
    (he : e.kind = k) (h : ∀ x ∈ xs ++ ys, x.kind ≠ k) :
    raiseIn clock k d (xs ++ e :: ys) = xs ++ { e with detail := d, count := satInc Config.max8 e.count } :: ys := by
  have hany : ((xs ++ e :: ys).any fun e => e.kind == k) = true :=
    List.any_eq_true.mpr ⟨e, List.mem_append_right _ List.mem_cons_self, beq_iff_eq.mpr he⟩
  have hkeep : ∀ zs : List NoticeEntry, (∀ z ∈ zs, z.kind ≠ k) →
      mapIf (fun e => e.kind == k) (fun e => { e with detail := d, count := satInc Config.max8 e.count }) zs = zs := by
    intro zs hz
    refine List.map_congr_left (g := id) (fun z hm => ?_) |>.trans (List.map_id zs)
    show (if (z.kind == k) = true then _ else z) = z
    rw [beq_false_of_ne (hz z hm)]
    rfl
  have hx := hkeep xs fun x hm => h x (List.mem_append_left _ hm)
  have hy := hkeep ys fun y hm => h y (List.mem_append_right _ hm)
  refine (if_pos hany).trans ?_
  unfold mapIf at hx hy ⊢
  rw [List.map_append, List.map_cons, hx, hy]
  exact congrArg (fun z => xs ++ z :: ys) (if_pos (beq_iff_eq.mpr he))

end Sys2Proof.Machine

namespace Sys2Proof
open Machine

/-- Settles O54: with nothing QUEUED the event empties the lists, the freed buffers go nowhere, and no follow-up work stands. -/
theorem formatEventEmptiesTheStore : Obligations.FormatEventEmptiesTheStore := by
  intro s
  have hexec : exec .formatEvent s = .next (formatEvent s) := rfl
  refine ⟨fun h => ?_, fun hrun hfmt hbufs hq hs => ?_⟩
  · have hno : formatEvent s = s := by
      unfold formatEvent
      rw [h, Bool.not_false, if_pos rfl]
    rw [hexec, hno]
  · have hready : s.formatReady = true := by
      unfold State.formatReady
      refine Bool.and_eq_true_iff.mpr ⟨by rw [hrun, hfmt, hq]; rfl, ?_⟩
      rw [Bool.not_eq_true', List.any_eq_false]
      intro x hx
      cases x with
      | none => exact Bool.false_ne_true
      | some b =>
        obtain ⟨hp, hv⟩ := hbufs _ hx b rfl
        simp [hp, hv]
    obtain ⟨g, w, heq⟩ := formatEvent_eq hready hq
    obtain ⟨l, a, b, w', hspace, hlink⟩ := judgeSpace_moves (formatFlash (s.emptied g w))
    have hckpt : requestCheckpoint (some .command) (judgeSpace (formatFlash (s.emptied g w))) =
        (addWaiter (some .command) (judgeSpace (formatFlash (s.emptied g w)))).modStore fun t =>
          { t with ckpt := some (.flushing [] []), ckptPend := false } :=
      requestCheckpoint_unflushed (by rw [hspace]; rfl) (by rw [hspace]; exact fun l hl => absurd hl List.not_mem_nil)
    have hstill : Still (requestCheckpoint (some .command) (judgeSpace (formatFlash (s.emptied g w)))) := by
      obtain ⟨-, hctx, -, hmount, hpause, hcalm⟩ := hs
      rw [hckpt, hspace]
      have hdie : ∀ d, (formatFlash (s.emptied g w)).dieReady d = s.dieReady d := formatFlash_dieReady
      refine ⟨rfl, fun q hq => (hdie _).trans (hctx q hq), fun q hq => absurd hq List.not_mem_nil, hmount, ?_, hcalm⟩
      exact (isRunning_congr (s := s) .pause hlink).trans hpause
    rw [finish_still _ hstill, hckpt, hspace] at heq
    refine ⟨_, hexec, ?_⟩
    rw [heq]
    refine ⟨rfl, rfl, rfl, rfl, rfl, rfl, ?_, ?_, rfl, rfl, rfl, ?_, ?_, rfl, rfl, rfl, rfl, rfl⟩
    · intro x hx
      obtain ⟨y, -, rfl⟩ := List.mem_map.mp hx
      rfl
    · intro c hc w hw
      obtain ⟨c', -, rfl⟩ := List.mem_map.mp hc
      exact drop_all_ways hw
    · exact fun x hx => formatFlash_dies (s := s.emptied g w) hx
    · exact fun r hr => formatFlash_blocks (s := s.emptied g w) hr

/-- Settles O57: each read of the mount is one phase change, and with no other work standing nothing follows it. -/
theorem mountDetectsTheDiesAndNoticesCoalesce : Obligations.MountDetectsTheDiesAndNoticesCoalesce := by
  intro m s
  have hexec : ∀ a, exec (.mountReadComplete a) s = .next (mountRead a s) := fun _ => rfl
  refine ⟨fun a hm => ?_, fun hm hp => ⟨?_, fun n h1 h8 => ?_⟩, fun pos best hm hp hw hreads hctx hpause hcalm => ?_,
    fun k detail => ?_⟩
  · have hno : mountRead a s = s := by
      unfold mountRead
      rw [hm]
    rw [hexec, hno]
  · intro u
    have hread : mountRead (.detected 0) s = endMount .mediaFault s := by
      simp only [mountRead, hm, hp, if_true]
    obtain ⟨l, a, b, w, hspace, -⟩ := judgeSpace_moves { s with
      power := { s.power with store := .mediaFault, mount := none }, motion := { s.motion with decayOn := true },
      gauge := { s.gauge with sampling := true } }
    have hu : u = _ := hspace
    rw [hexec, hread]
    refine ⟨?_, by rw [hu], by rw [hu], by rw [hu], by rw [hu], by rw [hu], by rw [hu], by rw [hu]⟩
    show Host.Outcome.next (raiseNotice .mounted (le1 u.power.store.code ++ le1 u.power.resetCause.code) u) = _
    have hpower : u.power = { s.power with store := .mediaFault, mount := none } := by rw [hu]
    rw [hpower]
  · have hread : mountRead (.detected n) s = (s.modFlash fun fl => { fl with
        dies := List.replicate (min n 8) { ready := true, op := none, active := none, due := [] } }).setPhase (.settings 0 none) := by
      simp only [mountRead, hm, hp, if_neg (Nat.pos_iff_ne_zero.mp h1)]
    rw [hexec, hread, Nat.min_eq_left h8]
    simp only [State.setPhase, State.modMount, State.modFlash, State.modPower, hm, Option.map_some]
  · have hs : MountStill s := ⟨hw, hreads, hctx, hpause, hcalm⟩
    have hread (r : ReadResult) : mountRead (.page r) s = finish (mountPage (.settings pos best) r s) := by
      simp only [mountRead, hm, hp]
    refine ⟨fun hpos => ?_, fun hbest => ?_⟩
    · have hpage : mountPage (.settings pos best) .uncorrectable s =
          { s with power := { s.power with mount := some { m with phase := .settings (pos + 2) best } } } := by
        have h254 : pos + 2 ≤ 254 := by omega
        simp only [mountPage_unreadable, if_pos h254, State.setPhase, State.modMount, State.modPower, hm, Option.map_some]
      have hstill : MountStill { s with
          power := { s.power with mount := some { m with phase := .settings (pos + 2) best } } } :=
        ⟨hw, hreads, hctx, hpause, hcalm⟩
      rw [hexec, hread, hpage, finish_mounting hstill rfl (.inl ⟨_, _, rfl⟩)]
    · intro loaded
      have hload (r : ReadResult) (next : Nat) (h : mountPage (.settings pos best) r s = settingsRead next none s) :
          loaded r next := by
        obtain ⟨h1, h2, h3, h4, h5, h6, h7⟩ := finish_settingsRead (pos := next) hs hm
        exact ⟨_, by rw [hexec, hread, h], h1, h2, h3, h4, h5, h6, h7⟩
      refine ⟨fun hpos => hload _ _ ?_, hload _ _ ?_⟩
      · have h254 : ¬pos + 2 ≤ 254 := by omega
        rw [mountPage_unreadable, if_neg h254, hbest]
      · simp only [mountPage, if_true, hbest]
  · refine ⟨fun h => ?_, fun xs e ys hq he h => ?_⟩
    · exact congrArg (fun q => ({ s with link := LinkUnit.choose s.paused { s.link with notices := q } } : State))
        (raiseIn_new (clock := s.power.clock) (d := detail) h)
    · refine congrArg (fun q => ({ s with link := LinkUnit.choose s.paused { s.link with notices := q } } : State)) ?_
      rw [hq]
      exact raiseIn_pending he h

end Sys2Proof
end

section
/-!
PROOFS. Erases that end and operations that exceed their timeout (R72, R74, R83).
-/
namespace Sys2Proof.Machine

/-! ## What the frame of the follow-up work says of a die -/

/-- A die is READY, and has the operation that it has, whatever follow-up work was done. -/
theorem die_kept_of_kept {s t : State} (h : t.kept = s.kept) (d : Nat) :
    (t.die d).map Die.kept = (s.die d).map Die.kept := by
  have hdies : t.flash.dies.map Die.kept = s.flash.dies.map Die.kept := (congrArg (fun u : State => u.flash.dies) h :)
  have hat := congrArg (fun ds : List Die => ds[d]?) hdies
  simpa only [State.die, List.getElem?_map] using hat

theorem dieReady_of_kept {s t : State} (h : t.kept = s.kept) (d : Nat) : t.dieReady d = s.dieReady d := by
  have hready := congrArg (fun o : Option Die => (o.map Die.ready).getD false) (die_kept_of_kept h d)
  rw [Option.map_map, Option.map_map] at hready
  exact hready

theorem op_of_kept {s t : State} (h : t.kept = s.kept) (d : Nat) : (t.die d).bind Die.op = (s.die d).bind Die.op := by
  have hop := congrArg (fun o : Option Die => o.bind Die.op) (die_kept_of_kept h d)
  rw [Option.bind_map, Option.bind_map] at hop
  exact hop

/-- The values that no follow-up work moves. -/
theorem values_of_kept {s t : State} (h : t.kept = s.kept) :
    t.settings = s.settings ∧ t.gauge = s.gauge ∧ t.motion = s.motion ∧ t.power.clock = s.power.clock :=
  ⟨(congrArg State.settings h :), (congrArg State.gauge h :), (congrArg State.motion h :),
    (congrArg (fun u : State => u.power.clock) h :)⟩

theorem die_modDie (d c : Nat) (f : Die → Die) (s : State) :
    (s.modDie d f).die c = (s.die c).map fun x => if d = c then f x else x := by
  simp only [State.die, State.modDie, State.modFlash, List.getElem?_modify]
  cases s.flash.dies[c]? <;> rfl

/-! ## Timeouts (R83) -/

/-- A FAULTED die keeps nothing but what it was. -/
def Die.faulted (x : Die) : Die := { x with ready := false, op := none, due := [] }

theorem kept_faultDie (d : Nat) (s : State) : (faultDie d s).kept = (s.modDie d Die.faulted).kept := by
  have hwalk : ∀ u : State, (dropWalkRead d u).kept = u.kept := by
    intro u
    unfold dropWalkRead
    dsimp only
    split <;> simp
  unfold faultDie
  rw [kept_requeueMany, hwalk, kept_setRefresh]
  rfl

/-- With a READY die left not every die is FAULTED. -/
theorem allFaulted_of_ready {e : Nat} {s : State} (h : s.dieReady e = true) : allFaulted s = false := by
  unfold allFaulted
  rw [Bool.and_eq_false_iff]
  right
  rw [List.all_eq_false]
  cases hx : s.flash.dies[e]? with
  | none => simp [State.dieReady, State.die, hx] at h
  | some x => exact ⟨x, List.mem_of_getElem? hx, by simpa [State.dieReady, State.die, hx] using h⟩

/-- A timeout that leaves die 0 READY moves the FAULTED die alone, but for the follow-up work. -/
theorem kept_timeoutOp {d : Nat} {o : Op} {s : State} (hd : d ≠ 0) (h0 : s.dieReady 0 = true) :
    (timeoutOp d o s).kept = (s.modDie d Die.faulted).kept := by
  let called : State → State := fun u => match o.kind with
    | .retrieval a => retrReadDone a .uncorrectable u
    | .relocation q => indexReadDone q .uncorrectable u
    | .program _ _ => u
    | .readback _ _ => u
    | .erase _ => u
  have hcalled : (called (faultDie d s)).kept = (s.modDie d Die.faulted).kept := by
    have : (called (faultDie d s)).kept = (faultDie d s).kept := by
      simp only [called]
      split <;> simp
    rw [this, kept_faultDie]
  let u := raiseMedia (o.kind.blk d) .timeout (called (faultDie d s))
  have hu : u.kept = (s.modDie d Die.faulted).kept := (kept_raiseNotice _ _ _).trans hcalled
  have hready : u.dieReady 0 = true := by
    rw [dieReady_of_kept hu, State.dieReady, die_modDie]
    simpa [hd, State.dieReady] using h0
  have hstep : timeoutOp d o s = finish (judgeSpace (anchorLost (judgeDies u))) := rfl
  rw [hstep, judgeDies, allFaulted_of_ready hready, if_neg Bool.false_ne_true, anchorLost, if_pos hready, kept_finish,
    kept_judgeSpace, hu]

/-! ## Erases (R72, R74) -/

/-- From `s` to `t` notices, the wait line and the space marks alone move. -/
def NoticesMove (s t : State) : Prop :=
  (∃ l a b w, t = { s with
    link := l, flash := { s.flash with fullSeen := a, lowSeen := b }, intake := { s.intake with wait := w } }) ∧
    t.link.running = s.link.running

theorem NoticesMove.refl (s : State) : NoticesMove s s := ⟨⟨_, _, _, _, rfl⟩, rfl⟩

theorem noticesMove_raiseMedia (b : Blk) (e : MediaEvent) (s : State) : NoticesMove s (raiseMedia b e s) :=
  ⟨⟨_, _, _, _, rfl⟩, choose_running _ _⟩

theorem noticesMove_judgeSpace (s : State) : NoticesMove s (judgeSpace s) := by
  obtain ⟨l, a, b, w, heq, hrun⟩ := judgeSpace_moves s
  rw [heq]
  exact ⟨⟨l, a, b, w, rfl⟩, hrun⟩

theorem NoticesMove.blocks {s t : State} (h : NoticesMove s t) : t.flash.blocks = s.flash.blocks := by
  obtain ⟨⟨_, _, _, _, rfl⟩, _⟩ := h; rfl

theorem NoticesMove.freeList {s t : State} (h : NoticesMove s t) : t.flash.freeList = s.flash.freeList := by
  obtain ⟨⟨_, _, _, _, rfl⟩, _⟩ := h; rfl

theorem NoticesMove.dies {s t : State} (h : NoticesMove s t) : t.flash.dies = s.flash.dies := by
  obtain ⟨⟨_, _, _, _, rfl⟩, _⟩ := h; rfl

theorem NoticesMove.still {s t : State} (h : NoticesMove s t) (hs : Still s) : Still t := by
  obtain ⟨⟨l, a, b, w, rfl⟩, hrun⟩ := h
  exact still_congr hs rfl rfl rfl rfl (fun _ => rfl) rfl ((isRunning_congr (s := s) _ hrun).trans hs.notPausing) rfl

/-- A change of blocks, free list, pending order and dies' blocks leaves no follow-up work where none stood. -/
theorem still_of_table {s t : State} (hs : Still s) (hkept : t.kept = s.kept) (hstore : t.store = s.store)
    (hrefresh : t.flash.refresh = s.flash.refresh) (hreads : t.flash.reads = s.flash.reads) (hretr : t.retr = s.retr)
    (hpower : t.power = s.power) (hlink : t.link = s.link) : Still t :=
  still_congr hs (by rw [hstore]) hrefresh (by rw [hretr]) hreads (dieReady_of_kept hkept) (by rw [hpower])
    ((isRunning_congr (s := s) _ (by rw [hlink])).trans hs.notPausing) (by simp only [State.emergency, hpower])

theorem still_clearOp {d : Nat} {s : State} (hs : Still s) : Still (clearOp d s) :=
  still_congr hs rfl rfl rfl rfl (fun c => ready_clearOp d c s) rfl hs.notPausing rfl

/-- An erase counted below 100,000 raises nothing (R72). -/
theorem countErase_plain {b : Blk} {r : BlockRec} {s : State} (hr : s.block b = some r) (hlt : r.erases < 99999) :
    countErase b s = s.modBlock b fun r => { r with erases := satInc Config.max32 r.erases } := by
  have hb : (s.modBlock b fun r => { r with erases := satInc Config.max32 r.erases }).block b =
      some { r with erases := satInc Config.max32 r.erases } := by
    rw [block_modBlock b b _ (by intro r; rfl), hr]
    simp
  unfold countErase
  dsimp only
  rw [hb, if_neg]
  simp only [Option.map_some, Option.getD_some, satInc]
  omega

/-- A counted erase moves the block's record and perhaps a notice. -/
theorem countErase_moves (b : Blk) (s : State) :
    NoticesMove (s.modBlock b fun r => { r with erases := satInc Config.max32 r.erases }) (countErase b s) := by
  unfold countErase
  dsimp only
  split
  · exact noticesMove_raiseMedia _ _ _
  · exact .refl _

theorem block_takeOut (b c : Blk) (st : BlockState) (s : State) :
    (takeOut b st s).block c = (s.block c).map fun r => if c = b then { r with st := st } else r :=
  block_modBlock b c _ (by intro r; rfl) s

/-- A block that is retired and one that is taken: the taken one is another (R73). -/
theorem takeBlockIf_cases (d : Nat) (s : State) :
    takeBlockIf d s = s ∨ ∃ c ∈ s.flash.freeList, takeBlockIf d s = judgeSpace ((takeOut c .active s).modDie d fun x => { x with
      active := some { block := c.block, erased := false, next := 0 }, due := x.due ++ [c.block] }) := by
  unfold takeBlockIf
  dsimp only
  split
  · unfold takeBlock
    cases hf : s.flash.freeList.find? fun b => b.die == d with
    | none => exact Or.inl rfl
    | some c => exact Or.inr ⟨c, List.mem_of_find?_eq_some hf, rfl⟩
  · exact Or.inl rfl

/-- A die takes a block of its own: no other block's record is touched, and no follow-up work is due. -/
theorem takeBlockIf_keeps {d : Nat} {b : Blk} {s : State} (hs : Still s) (hb : b ∉ s.flash.freeList) :
    (takeBlockIf d s).block b = s.block b ∧ Still (takeBlockIf d s) ∧ (takeBlockIf d s).kept = s.kept := by
  rcases takeBlockIf_cases d s with h | ⟨c, hc, h⟩
  · rw [h]; exact ⟨rfl, hs, rfl⟩
  · have hne : b ≠ c := fun e => hb (e ▸ hc)
    have hkept : ((takeOut c .active s).modDie d fun x => { x with
        active := some { block := c.block, erased := false, next := 0 }, due := x.due ++ [c.block] }).kept = s.kept := by
      refine (kept_modDie _ _ (takeOut _ _ s) ?_).trans (kept_takeOut _ _ s)
      exact fun _ => rfl
    rw [h]
    refine ⟨?_, (noticesMove_judgeSpace _).still (still_of_table hs hkept rfl rfl rfl rfl rfl rfl), ?_⟩
    · refine (block_congr (noticesMove_judgeSpace _).blocks b).trans ((block_takeOut c b .active s).trans ?_)
      cases s.block b with
      | none => rfl
      | some r => simp [hne]
    · rw [kept_judgeSpace, hkept]

/-- A block that is retired is in no list, and no follow-up work is due. -/
theorem retire_spec (b : Blk) {s : State} (hs : Still s) :
    (retire b s).block b = (s.block b).map (fun r => { r with st := .retired }) ∧ b ∉ (retire b s).flash.freeList ∧
      Still (retire b s) ∧ (retire b s).kept = s.kept := by
  have hkept : (retire b s).kept = s.kept := by
    refine (kept_modDie _ _ (takeOut _ _ s) ?_).trans (kept_takeOut _ _ s)
    exact fun _ => rfl
  refine ⟨?_, ?_, still_of_table hs hkept rfl rfl rfl rfl rfl rfl, hkept⟩
  · refine (block_takeOut b b .retired s).trans ?_
    simp
  · show b ∉ s.flash.freeList.filter (· != b)
    simp

/-- The failed erase of a data block leaves it RETIRED (R74). -/
theorem dataErased_fail {b : Blk} {s : State} (hs : Still s) :
    (dataErased b false s).block b = (s.block b).map (fun r => { r with st := .retired }) ∧ Still (dataErased b false s) ∧
      (dataErased b false s).kept = s.kept := by
  obtain ⟨hblock, hfree, hstill, hkept⟩ := retire_spec b hs
  have h1 := noticesMove_raiseMedia b .eraseFail (retire b s)
  have h2 := noticesMove_judgeSpace (raiseMedia b .eraseFail (retire b s))
  have hfree2 : b ∉ (judgeSpace (raiseMedia b .eraseFail (retire b s))).flash.freeList := by
    rw [h2.freeList, h1.freeList]; exact hfree
  obtain ⟨k1, k2, k3⟩ := takeBlockIf_keeps (d := b.die) (h2.still (h1.still hstill)) hfree2
  have heq : dataErased b false s = takeBlockIf b.die (judgeSpace (raiseMedia b .eraseFail (retire b s))) := rfl
  rw [heq]
  refine ⟨?_, k2, ?_⟩
  · rw [k1, block_congr h2.blocks, block_congr h1.blocks, hblock]
  · rw [k3, kept_judgeSpace]
    exact (kept_raiseNotice _ _ _).trans hkept

end Sys2Proof.Machine

namespace Sys2Proof
open Machine

/-- An erase that passes marks its die's active block (R74). -/
theorem eraseComplete_passes {d n : Nat} {o : Op} {r : BlockRec} {s : State} (hop : (s.die d).bind Die.op = some o)
    (hk : o.kind = .erase n) (ha : isAnchor { die := d, block := n } = false)
    (hr : s.block { die := d, block := n } = some r) (hs : Still s) (hlt : r.erases < 99999) :
    exec (.eraseComplete d true) s = .next (updateWait { s with
      flash := { s.flash with
        blocks := mapIf (fun r => r.id == { die := d, block := n }) (fun r =>
          { r with erases := min (r.erases + 1) 4294967295 })
          s.flash.blocks,
        dies := s.flash.dies.modify d fun y => { y with
          op := none,
          active := y.active.map fun t => if t.block = n then { t with erased := true } else t } } }) := by
  have hexec : exec (.eraseComplete d true) s = .next (eraseDone d true s) := rfl
  let u : State := (((clearOp d s).modBlock { die := d, block := n } fun r => { r with erases := satInc Config.max32 r.erases }).modDie
    d fun y => { y with active := y.active.map fun t => if t.block = n then { t with erased := true } else t })
  have hdone : eraseDone d true s = finish u := by
    unfold eraseDone
    rw [hop]
    dsimp only
    rw [hk]
    dsimp only
    rw [countErase_plain (s := clearOp d s) hr hlt, if_neg (by simp [ha])]
    rfl
  have hkept : u.kept = (clearOp d s).kept := by
    refine (kept_modDie _ _ (State.modBlock _ _ _) ?_).trans (kept_modBlock _ _ _)
    exact fun _ => rfl
  have hstill : Still u := still_of_table (still_clearOp hs) hkept rfl rfl rfl rfl rfl rfl
  rw [hexec, hdone, finish_still u hstill]
  refine congrArg (fun v => Host.Outcome.next (updateWait v)) ?_
  have hdies : u.flash.dies = s.flash.dies.modify d fun y => { y with
      op := none, active := y.active.map fun t => if t.block = n then { t with erased := true } else t } :=
    List.modify_modify_eq _ _ _ _
  calc u = { s with flash := { s.flash with
        blocks := mapIf (fun r => r.id == { die := d, block := n }) (fun r =>
          { r with erases := min (r.erases + 1) 4294967295 }) s.flash.blocks,
        dies := u.flash.dies } } := rfl
    _ = _ := by rw [hdies]

/-- An erase that fails leaves its block RETIRED (R74). -/
theorem eraseComplete_fails {d n : Nat} {o : Op} {r : BlockRec} {s : State} (hop : (s.die d).bind Die.op = some o)
    (hk : o.kind = .erase n) (ha : isAnchor { die := d, block := n } = false)
    (hr : s.block { die := d, block := n } = some r) (hs : Still s) :
    ∃ t, exec (.eraseComplete d false) s = .next t ∧ ((t.die d).bind Die.op) = none ∧
      ((t.block { die := d, block := n }).map fun r => (r.st, r.erases)) =
        some (.retired, min (r.erases + 1) 4294967295) ∧
      t.settings = s.settings ∧ t.gauge = s.gauge ∧ t.power.clock = s.power.clock := by
  let b : Blk := { die := d, block := n }
  let v := countErase b (clearOp d s)
  have hmoves := countErase_moves b (clearOp d s)
  have hcounted : Still ((clearOp d s).modBlock b fun r => { r with erases := satInc Config.max32 r.erases }) :=
    still_of_table (still_clearOp hs) (kept_modBlock _ _ _) rfl rfl rfl rfl rfl rfl
  obtain ⟨hblock, hstill, hkept⟩ := dataErased_fail (b := b) (hmoves.still hcounted)
  have hdone : eraseDone d false s = finish (dataErased b false v) := by
    unfold eraseDone
    rw [hop]
    dsimp only
    rw [hk]
    dsimp only
    rw [if_neg (by simp [ha])]
  have hkeptv : v.kept = (clearOp d s).kept := by
    simp only [v, countErase]
    split
    · exact (kept_raiseNotice _ _ _).trans (kept_modBlock _ _ _)
    · exact kept_modBlock _ _ _
  have hall : (finish (dataErased b false v)).kept = (clearOp d s).kept := by rw [kept_finish, hkept, hkeptv]
  obtain ⟨hset, hgauge, _, hclock⟩ := values_of_kept hall
  refine ⟨finish (dataErased b false v), congrArg Host.Outcome.next hdone, ?_, ?_, hset, hgauge, hclock⟩
  · rw [op_of_kept hall, op_clearOp]
  · have hv : v.block b = some { r with erases := satInc Config.max32 r.erases } := by
      rw [block_congr hmoves.blocks, block_modBlock b b _ (by intro r; rfl), show (clearOp d s).block b = some r from hr]
      simp
    have hfin : (finish (dataErased b false v)).block b = (dataErased b false v).block b := by
      rw [finish_still _ hstill]; rfl
    rw [hfin, hblock, hv]
    rfl

/-- Settles O52: the end of an erase writes one block record and its die; a timeout moves its die alone, but for the follow-up work,
which keeps every die's readiness and operation. -/
theorem erasesAndTimeoutsEnd : Obligations.ErasesAndTimeoutsEnd := by
  unfold Obligations.ErasesAndTimeoutsEnd
  intro d o s hop
  refine ⟨fun n r hk ha hr => ⟨fun hs hlt => eraseComplete_passes hop hk ha hr hs hlt,
    fun hs => eraseComplete_fails hop hk ha hr hs⟩, fun e hne hready hd h0 => ?_⟩
  have hkept : (timeoutOp d o s).kept = (s.modDie d Die.faulted).kept := kept_timeoutOp hd h0
  have hexec : exec (.operationTimeout d) s = .next (operationTimeout d s) := rfl
  have hstep : operationTimeout d s = timeoutOp d o s := by unfold operationTimeout; rw [hop]
  obtain ⟨hset, hgauge, hmotion, hclock⟩ := values_of_kept hkept
  refine ⟨timeoutOp d o s, by rw [hexec, hstep], ?_, ?_, fun c hc => ?_, hset, hgauge, hmotion, hclock⟩
  · rw [dieReady_of_kept hkept, State.dieReady, die_modDie]
    cases s.die d <;> simp [Die.faulted]
  · rw [op_of_kept hkept, die_modDie]
    cases s.die d <;> simp [Die.faulted]
  · rw [dieReady_of_kept hkept, State.dieReady, die_modDie, State.dieReady]
    cases s.die c <;> simp [Ne.symm hc]

end Sys2Proof
end

section
/-!
PROOFS. The dispatch of a die (R76, R77).
-/
namespace Sys2Proof.Machine

/-- A dispatch that reaches the queue: the walk has nothing to begin, and what the offers leave decides (R76). -/
theorem dispatchDie_offers {d : Nat} {s : State} (hstopped : s.arrayStopped = false) (hidle : s.dieIdle d = true)
    (hback : s.readyReadback d = none) (hhalt : s.power.st ≠ .lowHalt) (hs : Still s) :
    dispatchDie d s = finish (if tookWork d s ((s.offerOrder d).foldl (fun s e => offerQueue e s) s)
      then (s.offerOrder d).foldl (fun s e => offerQueue e s) s
      else dispatchReads d ((s.offerOrder d).foldl (fun s e => offerQueue e s) s)) := by
  unfold dispatchDie
  rw [if_neg (by simp [hstopped, hidle]), hback]
  dsimp only
  rw [if_neg hhalt, startWalk_idle s hs.walk]

/-- An empty queue offers nothing (R77). -/
theorem offerQueue_empty {s : State} (h : s.staging.queue = []) (e : Nat) : offerQueue e s = s := by
  have htakes : s.takes e = none := by simp [State.takes, h]
  have hblock : takeBlockIf e s = s := by simp [takeBlockIf, h]
  unfold offerQueue
  rw [htakes]
  split
  · rfl
  · exact hblock

theorem offers_empty {s : State} (h : s.staging.queue = []) (ds : List Nat) :
    ds.foldl (fun s e => offerQueue e s) s = s := by
  induction ds with
  | nil => rfl
  | cons e ds ih => rw [List.foldl_cons, offerQueue_empty h e, ih]

/-- With an empty queue the die's reads and erases are next (R76). -/
theorem dispatchDie_reads {d : Nat} {s : State} (hstopped : s.arrayStopped = false) (hidle : s.dieIdle d = true)
    (hback : s.readyReadback d = none) (hhalt : s.power.st ≠ .lowHalt) (hs : Still s) (hqueue : s.staging.queue = []) :
    dispatchDie d s = finish (dispatchReads d s) := by
  have htook : tookWork d s s = false := by simp [tookWork, hidle]
  rw [dispatchDie_offers hstopped hidle hback hhalt hs, offers_empty hqueue, htook, if_neg Bool.false_ne_true]

theorem dieReady_startOp (d c : Nat) (k : OpKind) (s : State) : (startOp d k s).dieReady c = s.dieReady c := by
  unfold startOp
  rw [State.dieReady, die_modDie, State.dieReady]
  cases s.die c with
  | none => rfl
  | some x => simp only [Option.map_some]; split <;> rfl

/-- An operation that starts leaves no follow-up work where none stood. -/
theorem Still.startOp {s : State} (hs : Still s) (d : Nat) (k : OpKind) : Still (startOp d k s) :=
  still_congr hs rfl rfl rfl rfl (fun c => dieReady_startOp d c k s) rfl hs.notPausing rfl

/-- A retrieval read that is marked started keeps its address. -/
theorem Still.startRead {s : State} (hs : Still s) :
    Still (s.modCtx fun c => { c with read := c.read.map fun q => { q with started := true } }) := by
  refine ⟨hs.walk, fun q hq => ?_, hs.reads, hs.mount, hs.notPausing, hs.calm⟩
  cases hc : s.retr.ctx with
  | none => simp [State.modCtx, State.modRetr, hc] at hq
  | some c =>
    cases hr : c.read with
    | none => simp [State.modCtx, State.modRetr, hc, hr] at hq
    | some r =>
      simp [State.modCtx, State.modRetr, hc, hr] at hq
      subst hq
      exact hs.retrRead r (by rw [hc]; exact hr)

theorem Still.eraseRead {s : State} (hs : Still s) (q : ReadReq) :
    Still (s.modFlash fun fl => { fl with reads := fl.reads.erase q }) :=
  ⟨hs.walk, hs.retrRead, fun p hp => hs.reads p (List.mem_of_mem_erase hp), hs.mount, hs.notPausing, hs.calm⟩

theorem Still.dropDue {s : State} (hs : Still s) (d : Nat) (bs : List Nat) : Still (s.modDie d fun x => { x with due := bs }) :=
  still_of_table hs (kept_modDie _ _ _ fun _ => rfl) rfl rfl rfl rfl rfl rfl

/-- A retrieval read that is requested is started first (R76). -/
theorem dispatchReads_retrieval {d : Nat} {a : Addr} {s : State} (h : s.retrievalFor d = some a) :
    dispatchReads d s = startOp d (.retrieval a)
      (s.modCtx fun c => { c with read := c.read.map fun q => { q with started := true } }) := by
  unfold dispatchReads
  rw [h]

/-- The requested reads of the die while no PAUSE runs. -/
theorem find_reads_calm {d : Nat} {s : State} (hpause : s.isRunning .pause = false) :
    (s.flash.reads.find? fun q => q.addr.die == d && !(q.purpose.isWalk && s.isRunning .pause)) =
      s.flash.reads.find? fun q => q.addr.die == d := by
  simp only [hpause, Bool.and_false, Bool.not_false, Bool.and_true]

theorem dispatchReads_relocation {d : Nat} {q : ReadReq} {s : State} (hs : Still s) (hretr : s.retrievalFor d = none)
    (h : s.flash.reads.find? (fun q => q.addr.die == d) = some q) :
    dispatchReads d s = startOp d (.relocation q) (s.modFlash fun fl => { fl with reads := fl.reads.erase q }) := by
  unfold dispatchReads
  rw [hretr]
  dsimp only
  rw [find_reads_calm hs.notPausing, h]

theorem dispatchReads_erase {d b : Nat} {bs : List Nat} {x : Die} {s : State} (hs : Still s) (hretr : s.retrievalFor d = none)
    (h : s.flash.reads.find? (fun q => q.addr.die == d) = none) (hx : s.die d = some x) (hdue : x.due = b :: bs)
    (hgate : s.eraseGate = true) :
    dispatchReads d s = startOp d (.erase b) (s.modDie d fun x => { x with due := bs }) := by
  unfold dispatchReads
  rw [hretr]
  dsimp only
  rw [find_reads_calm hs.notPausing, h, hx]
  dsimp only [Option.map_some, Option.getD_some]
  rw [hdue]
  dsimp only
  rw [if_pos hgate]

/-! ## A program that starts (R59, R77) -/

/-- Where a data program starts, and what it writes: the write sequence, the count of programs, its buffer and its die. -/
def programmed (d b : Nat) (x : Buf) (a : Addr) (s : State) : State :=
  { s with
    staging := { s.staging with
      bufs := s.staging.bufs.set b (some { x with
        st := .programming, target := some a, exposed := false, handed := false,
        hdr := { x.hdr with wseq := s.store.wseq, verified := s.careful || s.verifyAlways, relocated := x.origin == .relocation } })
      queue := s.staging.queue.filter (· != b) }
    flash := { s.flash with
      dies := (s.flash.dies.modify d fun y => { y with op := some { kind := .program b a, start := s.power.clock } }).modify d
        fun y => { y with active := y.active.map fun t => { t with next := t.next + 1 } }
      lastDie := some d }
    store := { s.store with wseq := s.store.wseq + 1, progCount := s.store.progCount + 1 } }

theorem startProgram_data {d b : Nat} {x : Buf} {y : Active} {s : State} (hkind : isAnchorKind x.hdr.kind = false)
    (hactive : (s.die d).bind Die.active = some y) (hseq : s.store.wseq < 4294967295) :
    startProgram d b x s = programmed d b x { die := d, block := y.block, page := y.next } s := by
  have htarget : s.targetOf d x = { die := d, block := y.block, page := y.next } := by
    unfold State.targetOf
    rw [hactive]
    cases hk : x.hdr.kind with
    | data | segment | root => rfl
    | checkpoint | settings => rw [hk] at hkind; cases hkind
  have hadvance : ∀ u : State, advancePosition d x.hdr.kind u =
      ((u.modDie d fun x => { x with active := x.active.map fun t => { t with next := t.next + 1 } }).modFlash fun fl =>
        { fl with lastDie := some d }).modStore fun t => { t with progCount := t.progCount + 1 } := by
    intro u
    cases hk : x.hdr.kind with
    | data | segment | root => rfl
    | checkpoint | settings => rw [hk] at hkind; cases hkind
  have htake : ∀ (a : Addr) (u : State), u.store.wseq < 4294967295 →
      takeSequence a u = u.modStore fun t => { t with wseq := u.store.wseq + 1 } := by
    intro a u hu
    unfold takeSequence
    exact if_neg (by simp only [Config.max32]; omega)
  unfold startProgram
  rw [htarget]
  dsimp only
  rw [hadvance, htake _ _ (by exact hseq), hkind, Bool.or_false]
  rfl

/-- The die that takes the queue's only buffer is offered it, and takes it. -/
theorem offerQueue_takes {d b : Nat} {x : Buf} {s : State} (hidle : s.dieIdle d = true) (hback : s.readyReadback d = none)
    (hgate : s.programGate = true) (hqueue : s.staging.queue = [b]) (hbuf : s.buf b = some x) (htake : s.canTake d x = true) :
    offerQueue d s = startProgram d b x s := by
  have hoffered : s.offered d = true := by simp [State.offered, hgate, hidle, hback]
  have htakes : s.takes d = some b := by simp [State.takes, hqueue, hbuf, htake]
  unfold offerQueue
  rw [if_neg (by simp [hoffered]), htakes]
  dsimp only
  rw [hbuf]

section
variable {d b : Nat} {x : Buf} {a : Addr} {y : Active} {s : State}

theorem die_programmed (c : Nat) : (programmed d b x a s).die c = (s.die c).map fun z => if d = c then { z with
    op := some { kind := .program b a, start := s.power.clock },
    active := z.active.map fun t => { t with next := t.next + 1 } } else z := by
  simp only [State.die, programmed, List.getElem?_modify]
  cases s.flash.dies[c]? with
  | none => rfl
  | some z => simp only [Option.map_some]; split <;> rfl

theorem still_programmed (hs : Still s) : Still (programmed d b x a s) := by
  refine still_congr hs rfl rfl rfl rfl (fun c => ?_) rfl hs.notPausing rfl
  rw [State.dieReady, die_programmed, State.dieReady]
  cases s.die c with
  | none => rfl
  | some z => simp only [Option.map_some]; split <;> rfl

theorem buf_programmed (hbuf : s.buf b = some x) : (programmed d b x a s).buf b = some { x with
    st := .programming, target := some a, exposed := false, handed := false,
    hdr := { x.hdr with wseq := s.store.wseq, verified := s.careful || s.verifyAlways,
                        relocated := x.origin == .relocation } } := by
  have hlt := buf_lt hbuf
  simp only [State.buf, programmed, List.getD_eq_getElem?_getD, List.getElem?_set_self hlt, Option.getD_some]

end

end Sys2Proof.Machine

namespace Sys2Proof
open Machine

/-- Settles O48: each rank of the arbiter by the branch of `dispatchDie` that it takes, `finish` moving the wait line alone. -/
theorem dieDispatchStartsTheFirstReadyWork : Obligations.DieDispatchStartsTheFirstReadyWork := by
  unfold Obligations.DieDispatchStartsTheFirstReadyWork
  intro d s starts
  have hexec : ∀ s, exec (.dieDispatch d) s = .next (dispatchDie d s) := fun _ => rfl
  refine ⟨fun h => ?_, fun hstopped hidle => ⟨fun b x a hback hbuf htarget => ?_, fun hback hhalt hs hqueue => ?_,
    fun b x y hback hs hgate hqueue hbuf hkind htake horder hactive hseq => ?_⟩⟩
  · rw [hexec, dispatchDie, if_pos]
    rcases h with h | h <;> simp [h]
  · have hstep : dispatchDie d s = startOp d (.readback b a) s := by
      unfold dispatchDie
      rw [if_neg (by simp [hstopped, hidle]), hback]
      dsimp only
      rw [hbuf, Option.bind_some, htarget]
    rw [hexec, hstep]
    rfl
  · have hstep := dispatchDie_reads hstopped hidle hback hhalt hs hqueue
    refine ⟨fun a hretr => ?_, fun hretr => ⟨fun q hq => ?_, fun x b bs hq hx hdue hgate => ?_⟩⟩
    · rw [hexec, hstep, dispatchReads_retrieval hretr, finish_still _ (hs.startRead.startOp d _)]
      rfl
    · rw [hexec, hstep, dispatchReads_relocation hs hretr hq, finish_still _ ((hs.eraseRead q).startOp d _)]
      rfl
    · rw [hexec, hstep, dispatchReads_erase hs hretr hq hx hdue hgate, finish_still _ ((hs.dropDue d bs).startOp d _)]
      rfl
  · have hhalt : s.power.st ≠ .lowHalt := by
      simp only [State.programGate, State.eraseGate, Bool.and_eq_true] at hgate
      simpa using hgate.1.1.1.2
    obtain ⟨z, hz, hzy⟩ := Option.bind_eq_some_iff.mp hactive
    let a : Addr := { die := d, block := y.block, page := y.next }
    let t := programmed d b x a s
    have hdie : t.die d = some { z with
        op := some { kind := .program b a, start := s.power.clock },
        active := z.active.map fun t => { t with next := t.next + 1 } } := by
      rw [die_programmed, hz]
      simp
    have hoffers : (s.offerOrder d).foldl (fun s e => offerQueue e s) s = t := by
      rw [horder, List.foldl_cons, List.foldl_nil, offerQueue_takes hidle hback hgate hqueue hbuf htake,
        startProgram_data hkind hactive hseq]
    have htook : tookWork d s t = true := by simp [tookWork, State.dieIdle, hdie]
    refine ⟨updateWait t, ?_, ?_, ?_, ?_, buf_programmed (d := d) hbuf, rfl, rfl, rfl, rfl, rfl, rfl⟩
    · rw [hexec, dispatchDie_offers hstopped hidle hback hhalt hs, hoffers, if_pos htook, finish_still _ (still_programmed hs)]
    · show (t.die d).bind Die.op = _
      rw [hdie]
      rfl
    · show (t.die d).bind Die.active = _
      rw [hdie]
      simp [hzy]
    · show s.staging.queue.filter (· != b) = []
      simp [hqueue]

end Sys2Proof
end

section
/-!
PROOFS. Reads that end, with no follow-up work standing: the retrieval's root, the pages of the relocation walk, and the last
segment of a reopened line (R99, R109, R113, R122).
-/
namespace Sys2Proof.Machine

/-! ## Reads that change nothing of themselves -/

theorem noteRead_clean (a : Addr) (data : List Byte) (s : State) : noteRead a (.clean data) s = s := by
  simp [noteRead, judgeRefresh]

theorem noteRead_blank (a : Addr) (s : State) : noteRead a .blank s = s := by
  simp [noteRead, judgeRefresh]

theorem noteRead_uncorrectable (a : Addr) (s : State) :
    noteRead a .uncorrectable s = raiseMedia a.blk .uncorrectable s := by
  simp [noteRead, judgeRefresh]

theorem readPage_clean {data : List Byte} {h : PageHdr} (hp : parseHdr data = some h) :
    readPage (.clean data) = some (h, data) := by
  simp [readPage, readData, hp]

/-- The judgements after an event read the state as the walk's start leaves it. -/
theorem finish_of_startWalk {s u : State} (h : startWalk s = u) (hu : Still u) : finish s = updateWait u := by
  have hfix : startWalk u = u := startWalk_idle u hu.walk
  have heq : finish s = finish u := by unfold finish; rw [h, hfix]
  rw [heq, finish_still u hu]

/-! ## The root of a HELD view (R122, R123) -/

/-- A HELD walk whose first segment the cursor and the bound let through asks for it. -/
theorem runWalk_firstSegment {c : RetrCtx} {a : Addr} {ref : SegRef} {refs : List SegRef} {s : State}
    (hc : s.retr.ctx = some c) (hheld : c.held = true) (hmsg : c.msg = none) (hended : c.ended = false) (hstop : c.stop = .none)
    (htodo : c.todo = []) (hread : c.read = none) (hroot : c.root = some (ref :: refs)) (hsent : c.sent < c.max)
    (hbound : c.cursor < c.bound) (hlast : c.cursor ≤ ref.last) (hfirst : ref.first < c.bound) (hloc : ref.loc = some a)
    (hcache : (s.retr.set c.line 0).find c.line 0 = none) :
    runWalk s = { s with retr := { s.retr with ctx := some { c with
      read := some { addr := a, purpose := .segment 0 ref, started := false, stale := false } } } } := by
  have hheld' : ∀ l, c.holds l = true := fun l => by simp [RetrCtx.holds, hheld]
  have hsame : { c with held := true } = c := by rw [← hheld]
  have hstep : walkStep c s = { s with retr := { s.retr with ctx := some { c with
      read := some { addr := a, purpose := .segment 0 ref, started := false, stale := false } } } } := by
    unfold walkStep
    rw [if_neg (by omega)]
    simp only [hheld', hsame]
    rw [if_neg (by simp [hroot])]
    have hsegs : c.segments (State.line (s.modCtx fun x => { x with held := true }) c.line) = ref :: refs := by
      simp [RetrCtx.segments, hroot]
    rw [hsegs]
    unfold searchSegs
    rw [if_pos (by simp [hlast, hfirst]), hloc]
    dsimp only
    have hlookup : (s.modCtx fun x => { x with held := true }).retr.lookup (!c.held) c.line 0 ref =
        ((s.modCtx fun x => { x with held := true }).retr, none) := by
      unfold Retrieval.lookup
      rw [show ((s.modCtx fun x => { x with held := true }).retr.set c.line 0).find c.line 0 = none from hcache]
    rw [hlookup]
    simp only [requestRetr, State.modCtx, State.modRetr, hc, Option.map_some]
    rw [← hheld]
  have hwalk : ∀ fuel, walk (fuel + 2) s = walk (fuel + 1) (walkStep c s) := by
    intro fuel
    conv => lhs; unfold walk
    simp only [hc, hended, hmsg, hstop, hread, htodo, StopReq.code, Option.isSome_none, Bool.or_self, Bool.false_eq_true,
      if_false]
    rw [if_neg (by omega)]
  have hrest : ∀ fuel, walk (fuel + 1) (walkStep c s) = walkStep c s := by
    intro fuel
    rw [hstep]
    unfold walk
    simp [hended, hmsg, hstop, StopReq.code]
  unfold runWalk
  rw [hc]
  dsimp only
  rw [show c.bound - c.cursor + c.todo.length + 4 = (c.bound - c.cursor + c.todo.length + 2) + 2 from rfl, hwalk, hrest, hstep]

/-- The root of a HELD view has been read (R122). -/
theorem retrReadDone_root {c : RetrCtx} {a : Addr} {data : List Byte} {refs : List SegRef} {s : State}
    (hc : s.retr.ctx = some c) (hread : c.read = some { addr := a, purpose := .root, started := true, stale := false })
    (hstop : c.stop = .none) (hroot : rootOf c.line (.clean data) = some refs) :
    retrReadDone a (.clean data) s =
      runWalk { s with retr := { s.retr with ctx := some { c with read := none, root := some refs } } } := by
  unfold retrReadDone
  rw [noteRead_clean]
  dsimp only
  rw [hc]
  dsimp only
  rw [hread]
  dsimp only
  rw [if_pos (by simp), if_neg (by simp [hstop])]
  unfold rootDone
  rw [show rootOf ({ c with read := none } : RetrCtx).line (.clean data) = some refs from hroot]
  simp only [State.modCtx, State.modRetr, hc, Option.map_some]

/-- The operation that ends is a retrieval read (R124). -/
theorem retrievalDone_eq {d : Nat} {a : Addr} {o : Op} {r : ReadResult} {s : State} (hop : (s.die d).bind Die.op = some o)
    (hk : o.kind = .retrieval a) : retrievalDone d r s = finish (retrReadDone a r (clearOp d s)) := by
  unfold retrievalDone
  rw [hop]
  dsimp only
  rw [hk]

/-- The operation that ends is a relocation or an index read (R99). -/
theorem relocationDone_eq {d : Nat} {walk : Bool} {q : ReadReq} {o : Op} {r : ReadResult} {s : State}
    (hop : (s.die d).bind Die.op = some o) (hk : o.kind = .relocation q) (hw : q.purpose.isWalk = walk) :
    relocationDone walk d r s = finish (indexReadDone q r (clearOp d s)) := by
  unfold relocationDone
  rw [hop]
  dsimp only
  rw [hk]
  dsimp only
  rw [if_pos (by simp [hw])]

/-! ## Pages of the relocation walk (R113) -/

section Walk
variable {w : Walk} {q : ReadReq} {s : State}

theorem indexReadDone_walk {r : ReadResult} (hp : q.purpose = .walk) (hr : r ≠ .uncorrectable) (hc : ∀ n d, r ≠ .corrected n d) :
    indexReadDone q r s = walkRead q.addr r s := by
  have hnote : noteRead q.addr r s = s := by
    cases r with
    | blank => exact noteRead_blank _ _
    | clean d => exact noteRead_clean _ _ _
    | corrected n d => exact absurd rfl (hc n d)
    | uncorrectable => exact absurd rfl hr
  unfold indexReadDone
  rw [hnote, hp]

/-- A BLANK page ends the walk; its block leaves the queue where it has been the head all along (R113). -/
theorem walkRead_blank (hw : s.store.walk = some w) (hphase : w.phase = .reading) (hpause : s.isRunning .pause = false) :
    walkRead w.addr .blank s = (if s.walkStopped w.blk then id else leaveRefresh w.blk) (endWalk s) := by
  unfold walkRead
  rw [hw]
  dsimp only
  rw [hphase]
  dsimp only
  rw [if_neg (by simp), if_neg (by simp [hpause]), if_pos rfl]

/-- A page of the walk that reads well is judged (R114). -/
theorem walkRead_clean {h : PageHdr} {data : List Byte} (hw : s.store.walk = some w) (hphase : w.phase = .reading)
    (hpause : s.isRunning .pause = false) (hpage : parseHdr data = some h) :
    walkRead w.addr (.clean data) s = continueJudging w h data s := by
  unfold walkRead
  rw [hw]
  dsimp only
  rw [hphase]
  dsimp only
  rw [if_neg (by simp), if_neg (by simp [hpause]), if_neg (by simp), readPage_clean hpage]

/-- A walk begins with the head of the refresh queue, where that holds live pages (R87, R113). -/
theorem startWalk_begins {b : Blk} {k : BlockRec} (hw : s.store.walk = none) (hhead : s.flash.refresh.head? = some b)
    (hmay : s.mayWalk = true) (hk : s.block b = some k) (hlive : 0 < k.live) :
    startWalk s = requestRead { die := b.die, block := b.block, page := 0 } .walk (s.modStore fun t => { t with
      walk := some { blk := b, page := 0, phase := .reading, heldRoot := none, heldSeg := none } }) := by
  have hstale : s.walkStale = false := by simp [State.walkStale, hw]
  unfold startWalk
  rw [hstale]
  simp only [Bool.false_eq_true, if_false]
  rw [hw, hhead]
  dsimp only
  rw [if_neg (by simp [hmay]), if_neg (by rw [hk]; simp only [Option.map_some, Option.getD_some]; omega)]

/-- A read requested of a READY die by a walk that is reading leaves no follow-up work. -/
theorem Still.walkReading {a : Addr} (hs : Still s) (hready : s.dieReady a.die = true) (hphase : w.phase = .reading) :
    Still (requestRead a .walk (s.modStore fun t => { t with walk := some w })) := by
  refine ⟨?_, hs.retrRead, fun q hq => ?_, hs.mount, hs.notPausing, hs.calm⟩
  · exact Or.inl (by rw [hphase]; simp)
  · rcases List.mem_append.mp hq with hq | hq
    · exact hs.reads q hq
    · rw [List.mem_singleton.mp hq]; exact hready

end Walk

end Sys2Proof.Machine

namespace Sys2Proof
open Machine

section Ends
variable {d : Nat} {o : Op} {s : State} (hs : Still s) (hop : (s.die d).bind Die.op = some o)
include hs hop

/-- The root of a HELD view names its segments, and the first that is let through is requested (R122, R123). -/
theorem heldRootRead_requestsSegment {c : RetrCtx} {a a' : Addr} {ref : SegRef} {refs : List SegRef} {data : List Byte}
    (hk : o.kind = .retrieval a) (hc : s.retr.ctx = some c)
    (hread : c.read = some { addr := a, purpose := .root, started := true, stale := false })
    (hheld : c.held = true) (hmsg : c.msg = none) (hended : c.ended = false) (hstop : c.stop = .none) (htodo : c.todo = [])
    (hsent : c.sent < c.max) (hbound : c.cursor < c.bound) (hroot : rootOf c.line (.clean data) = some (ref :: refs))
    (hlast : c.cursor ≤ ref.last) (hfirst : ref.first < c.bound) (hloc : ref.loc = some a')
    (hcache : (s.retr.set c.line 0).find c.line 0 = none) (hready : s.dieReady a'.die = true) :
    ∃ t, exec (.retrievalReadComplete d (.clean data)) s = .next t ∧ t.retr = { s.retr with ctx := some { c with
        root := some (ref :: refs),
        read := some { addr := a', purpose := .segment 0 ref, started := false, stale := false } } } ∧
      ((t.die d).bind Die.op) = none ∧ t.store = s.store ∧ t.staging = s.staging ∧ t.link = s.link ∧
      t.settings = s.settings ∧ t.gauge = s.gauge ∧ t.motion = s.motion ∧ t.power = s.power := by
  have hexec : exec (.retrievalReadComplete d (.clean data)) s = .next (retrievalDone d (.clean data) s) := rfl
  let u : State := { clearOp d s with retr := { s.retr with ctx := some { c with
      root := some (ref :: refs),
      read := some { addr := a', purpose := .segment 0 ref, started := false, stale := false } } } }
  have hdone : retrReadDone a (.clean data) (clearOp d s) = u := by
    refine (retrReadDone_root (s := clearOp d s) hc hread hstop hroot).trans ?_
    exact runWalk_firstSegment (c := { c with read := none, root := some (ref :: refs) })
      (s := { clearOp d s with retr := { s.retr with ctx := some { c with read := none, root := some (ref :: refs) } } })
      rfl hheld hmsg hended hstop htodo rfl rfl hsent hbound hlast hfirst hloc hcache
  have hstill : Still u := by
    have hcleared := still_clearOp (d := d) hs
    refine ⟨hcleared.walk, fun q hq => ?_, hcleared.reads, hcleared.mount, hcleared.notPausing, hcleared.calm⟩
    have hqa : q.addr = a' := by
      have : some ({ addr := a', purpose := .segment 0 ref, started := false, stale := false } : RetrRead) = some q := hq
      injection this with this
      rw [← this]
    rw [hqa]
    exact (ready_clearOp d a'.die s).trans hready
  refine ⟨updateWait u, ?_, rfl, op_clearOp d s, rfl, rfl, rfl, rfl, rfl, rfl, rfl⟩
  rw [hexec, retrievalDone_eq hop hk, hdone, finish_still u hstill]

/-- A BLANK page ends the walk and its block leaves the queue (R113). -/
theorem blankPage_endsWalk {w : Walk} {q : ReadReq} (hk : o.kind = .relocation q) (hp : q.purpose = .walk) (ha : q.addr = w.addr)
    (hw : s.store.walk = some w) (hphase : w.phase = .reading) (hstopped : w.stopped = false)
    (hrefresh : s.flash.refresh.erase w.blk = []) :
    exec (.relocationReadComplete d .blank) s = .next (updateWait { s with
      store := { s.store with walk := none },
      flash := { s.flash with dies := s.flash.dies.modify d fun y => { y with op := none }, refresh := [] } }) := by
  have hexec : exec (.relocationReadComplete d .blank) s = .next (relocationDone true d .blank s) := rfl
  let u : State := { s with
    store := { s.store with walk := none },
    flash := { s.flash with dies := s.flash.dies.modify d fun y => { y with op := none }, refresh := [] } }
  have hread : walkRead w.addr .blank (clearOp d s) = u := by
    rw [walkRead_blank (s := clearOp d s) hw hphase hs.notPausing]
    by_cases hhead : s.flash.refresh.head? = some w.blk
    · have hon : (clearOp d s).walkStopped w.blk = false := by
        unfold State.walkStopped
        rw [show (clearOp d s).store.walk = some w from hw, show (clearOp d s).flash.refresh.head? = some w.blk from hhead]
        simp [hstopped]
      rw [hon, if_neg Bool.false_ne_true]
      unfold leaveRefresh
      rw [show (endWalk (clearOp d s)).flash.refresh.erase w.blk = [] from hrefresh]
      rfl
    · have hempty : s.flash.refresh = [] := by
        cases hr : s.flash.refresh with
        | nil => rfl
        | cons b bs =>
          rw [hr] at hrefresh hhead
          rw [List.erase_cons_tail (by simpa using hhead)] at hrefresh
          cases hrefresh
      have hoff : (clearOp d s).walkStopped w.blk = true := by
        unfold State.walkStopped
        rw [show (clearOp d s).flash.refresh = [] from hempty]
        simp
      rw [hoff, if_pos rfl]
      show endWalk (clearOp d s) = u
      simp only [u]
      rw [← hempty]
      rfl
  have hstill : Still u := by
    have hcleared := still_clearOp (d := d) hs
    exact ⟨rfl, hcleared.retrRead, hcleared.reads, hcleared.mount, hcleared.notPausing, hcleared.calm⟩
  rw [hexec, relocationDone_eq hop hk (by rw [hp]; rfl), indexReadDone_walk hp (by simp) (by simp), ha, hread, finish_still u hstill]

/-- A block that is the head again is walked again from its page 0 (R113). -/
theorem blankPage_walksAgain {w : Walk} {q : ReadReq} {k : BlockRec} (hk : o.kind = .relocation q) (hp : q.purpose = .walk)
    (ha : q.addr = w.addr) (hw : s.store.walk = some w) (hphase : w.phase = .reading) (hstopped : w.stopped = true)
    (hhead : s.flash.refresh.head? = some w.blk) (hmay : s.mayWalk = true) (hready : s.dieReady w.blk.die = true)
    (hblock : s.block w.blk = some k) (hlive : 0 < k.live) :
    exec (.relocationReadComplete d .blank) s = .next (updateWait { s with
      store := { s.store with
        walk := some { blk := w.blk, page := 0, phase := .reading, heldRoot := none, heldSeg := none } },
      flash := { s.flash with
        dies := s.flash.dies.modify d fun y => { y with op := none },
        reads := s.flash.reads ++ [{ addr := { w.addr with page := 0 }, purpose := .walk }] } }) := by
  have hexec : exec (.relocationReadComplete d .blank) s = .next (relocationDone true d .blank s) := rfl
  have hread : walkRead w.addr .blank (clearOp d s) = endWalk (clearOp d s) := by
    rw [walkRead_blank (s := clearOp d s) hw hphase hs.notPausing]
    have hoff : (clearOp d s).walkStopped w.blk = true := by
      unfold State.walkStopped
      rw [show (clearOp d s).store.walk = some w from hw]
      simp [hstopped]
    rw [hoff, if_pos rfl, id]
  have hstart := startWalk_begins (s := endWalk (clearOp d s)) rfl hhead hmay hblock hlive
  have hcleared := still_clearOp (d := d) hs
  have hstill : Still (requestRead { die := w.blk.die, block := w.blk.block, page := 0 } .walk ((clearOp d s).modStore fun t => { t with
      walk := some { blk := w.blk, page := 0, phase := .reading, heldRoot := none, heldSeg := none } })) :=
    hcleared.walkReading ((ready_clearOp d _ s).trans hready) rfl
  rw [hexec, relocationDone_eq hop hk (by rw [hp]; rfl), indexReadDone_walk hp (by simp) (by simp), ha, hread,
    finish_of_startWalk hstart hstill]
  rfl

end Ends

end Sys2Proof
end

section
/-!
PROOFS. The copy of a live page of the walk, the load of a reopened line's last segment, and the settling of what reads that end do.
-/
namespace Sys2Proof.Machine

/-! ## The copy of a live page (R113 to R115) -/

/-- The walk goes on to the next page while its block is the head and no PAUSE runs (R113). -/
theorem settlePage_next {w : Walk} {s : State} (hon : s.walkStopped w.blk = false) (hpage : w.page < 255)
    (hpause : s.isRunning .pause = false) :
    settlePage w s = requestRead { w.addr with page := w.page + 1 } .walk
      (s.modStore fun t => { t with walk := some { w with page := w.page + 1, phase := .reading } }) := by
  have hpause' : State.isRunning (s.modStore fun t => { t with walk := some { w with page := w.page + 1, phase := .reading } })
      .pause = false := hpause
  unfold settlePage
  simp only [hon, hpause, Bool.false_eq_true, if_false]
  rw [if_neg (by omega)]
  simp only [hpause', Bool.false_eq_true, if_false]
  rfl

/-- A DATA or ROOT page that is judged live is copied into the FREE buffer, where R56 gives one. -/
theorem continueJudging_live {w : Walk} {h : PageHdr} {data : List Byte} {b : Nat} {s : State} (hkind : h.kind ≠ .segment)
    (hlive : judgePage w h (s.modStore fun t => { t with walk := some { w with phase := .judging h data } }) = .live)
    (hfree : s.freeBuffer = some b) (hroom : s.relocRoom = true) :
    continueJudging w h data s = settlePage w (putImage b (relocImage h (pageBody h data))
      (s.modStore fun t => { t with walk := some { w with phase := .judging h data } })) := by
  have hnone : ∀ u : State, u.rewriteOf h = none := fun u => if_neg hkind
  unfold continueJudging
  dsimp only
  rw [hlive]
  dsimp only
  unfold relocLive
  rw [hnone]
  dsimp only
  rw [show (s.modStore fun t => { t with walk := some { w with phase := .judging h data } }).freeBuffer = some b from hfree]
  dsimp only
  rw [show (s.modStore fun t => { t with walk := some { w with phase := .judging h data } }).relocRoom = true from hroom,
    if_neg (by simp), if_neg hkind]

/-- The pool's entry, or the root location, judges the page live (R114). -/
theorem judgePage_live {w : Walk} {h : PageHdr} {l : Line} {s : State} (hl : s.line h.line = some l)
    (hnames : (h.kind = .data ∧ ∃ p, l.pool.find? (fun p => decide (p.e.first ≤ h.first) && decide (h.first ≤ p.e.last)) = some p ∧
        p.e.loc = some w.addr ∧ p.e.wseq = h.wseq) ∨
      (h.kind = .root ∧ l.root = some { addr := w.addr, wseq := h.wseq })) : judgePage w h s = .live := by
  unfold judgePage
  rw [hl]
  dsimp only
  rcases hnames with ⟨hkind, p, hp, hloc, hseq⟩ | ⟨hkind, hroot⟩
  · rw [hkind]
    dsimp only
    rw [hp]
    simp [PageEntry.isAt, hloc, hseq]
  · rw [hkind, hroot]
    simp

/-- The image is QUEUED at the tail (R56). -/
theorem putImage_reloc {b : Nat} {im : Image} {s : State} (h : im.hdr.kind ≠ .settings) :
    putImage b im s = updateWait { s with staging := { s.staging with
      bufs := s.staging.bufs.set b (some {
        st := .queued, origin := im.origin, slot := none, fill := 0, hdr := im.hdr, body := im.body, target := none,
        exposed := false, reported := false, handed := false, job := im.job }),
      queue := s.staging.queue ++ [b] } } := by
  unfold putImage
  dsimp only
  rw [if_neg (show ¬ im.hdr.kind = .settings from h)]
  rfl

/-! ## The load of a line's last segment (R109) -/

/-- From `s` to `t` the line table alone moves. -/
def OnlyLines (s t : State) : Prop := t = { s with store := { s.store with lines := t.store.lines } }

theorem OnlyLines.trans {s t u : State} (h : OnlyLines s t) (k : OnlyLines t u) : OnlyLines s u := by
  unfold OnlyLines at *; rw [k, h]

theorem onlyLines_modLine (n : Nat) (f : Line → Line) (s : State) : OnlyLines s (s.modLine n f) := rfl

theorem OnlyLines.still {s t : State} (h : OnlyLines s t) (hs : Still s) : Still t := by
  rw [h]
  exact still_congr hs rfl rfl rfl rfl (fun _ => rfl) rfl hs.notPausing rfl

theorem LineBecomes.trans {n : Nat} {l k : Line} {s t u : State} (h : LineBecomes n l s t) (h' : LineBecomes n k t u) :
    LineBecomes n k s u := ⟨h'.1, fun m hm => (h'.2 m hm).trans (h.2 m hm)⟩

theorem lineBecomes_refl {n : Nat} {l : Line} {s : State} (h : s.line n = some l) : LineBecomes n l s s := ⟨h, fun _ _ => rfl⟩

/-- The load of an OPEN line with no replacement pending ends with the line alone (R109). -/
theorem loadEnd_open {n : Nat} {l : Line} {s : State} (hl : s.line n = some l) (hst : l.st = .opened)
    (hpend : s.store.pendings = []) :
    OnlyLines s (loadEnd n s) ∧ LineBecomes n { l with load := .none } s (loadEnd n s) := by
  have hline := line_becomes (f := fun l : Line => { l with load := .none }) (fun _ => rfl) hl
  have heq : loadEnd n s = setLoad n .none s := by
    unfold loadEnd
    rw [servePendings_none (by rw [show (setLoad n .none s).store.pendings = [] from hpend]; simp)]
    refine closeAdvance_stays fun m hm hc => ?_
    rw [show (setLoad n .none s).line n = some _ from hline.1] at hm
    injection hm with hm
    subst hm
    rw [show ({ l with load := .none } : Line).st = .opened from hst] at hc
    cases hc
  rw [heq]
  exact ⟨rfl, hline⟩

/-- The entries of a short segment become the open segment, or wait for room in the pool (R109). -/
theorem placeSegment_open {n : Nat} {l : Line} {es : List PageEntry} {s : State} (hl : s.line n = some l) (hst : l.st = .opened)
    (hpend : s.store.pendings = []) :
    OnlyLines s (placeSegment n es s) ∧
      (es.length ≤ s.poolFree → LineBecomes n { l with
        load := .none,
        pool := es.foldr (fun e p => insertPool { e := e, inSeg := true, out := false } p) l.pool } s (placeSegment n es s)) ∧
      (s.poolFree < es.length → LineBecomes n { l with load := .waitPool es } s (placeSegment n es s)) := by
  by_cases hroom : es.length ≤ s.poolFree
  · let f : Line → Line := fun l => { l with
      pool := es.foldr (fun e p => insertPool { e := e, inSeg := true, out := false } p) l.pool }
    have hline := line_becomes (f := f) (fun _ => rfl) hl
    obtain ⟨honly, hend⟩ := loadEnd_open (s := s.modLine n f) hline.1 hst hpend
    have heq : placeSegment n es s = loadEnd n (s.modLine n f) := if_pos hroom
    rw [heq]
    exact ⟨(onlyLines_modLine n f s).trans honly, fun _ => hline.trans hend, fun h => absurd hroom (by omega)⟩
  · have heq : placeSegment n es s = setLoad n (.waitPool es) s := if_neg hroom
    rw [heq]
    exact ⟨rfl, fun h => absurd h hroom, fun _ => line_becomes (f := fun l : Line => { l with load := .waitPool es }) (fun _ => rfl) hl⟩

/-- The read of the last segment of a line that waits for it (R99, R109). -/
theorem indexReadDone_loadSegment {n : Nat} {l : Line} {q : ReadReq} {r : ReadResult} {s : State}
    (hp : q.purpose = .loadSegment n) (hl : (noteRead q.addr r s).line n = some l) (hload : l.load = .readSegment)
    (hlast : (l.refs.getLast?).bind SegRef.loc = some q.addr) :
    indexReadDone q r s = segmentLoaded n (segmentOf n (l.refs.length - 1) r) (noteRead q.addr r s) := by
  unfold indexReadDone
  dsimp only
  rw [hp]
  dsimp only
  unfold loadSegmentRead
  rw [hl]
  dsimp only
  rw [if_neg (by simp [hload]), hlast]
  dsimp only
  rw [if_neg (by simp)]

/-- What an event that moves the line table alone leaves. -/
structure LineMoved (n d : Nat) (k : Line) (s t : State) : Prop where
  line : LineBecomes n k s t
  op : ((t.die d).bind Die.op) = none
  staging : t.staging = s.staging
  values : t.settings = s.settings ∧ t.gauge = s.gauge ∧ t.motion = s.motion ∧ t.power = s.power

/-- The end of a read moves its die's operation and perhaps a notice before the line table. -/
theorem lineMoved_of {n d : Nat} {k : Line} {s u v : State} (hu : NoticesMove (clearOp d s) u) (honly : OnlyLines u v)
    (hline : LineBecomes n k u v) : LineMoved n d k s (updateWait v) := by
  obtain ⟨⟨l, a, b, w, hu⟩, -⟩ := hu
  subst hu
  refine ⟨hline, ?_, ?_, ?_⟩
  · rw [honly]; exact op_clearOp d s
  · rw [honly]; rfl
  · rw [honly]; exact ⟨rfl, rfl, rfl, rfl⟩

end Sys2Proof.Machine

namespace Sys2Proof
open Machine

section Ends
variable {d : Nat} {o : Op} {s : State} (hs : Still s) (hop : (s.die d).bind Die.op = some o)
include hs hop

/-- A live DATA or ROOT page of the walk is copied, and the walk goes on (R113, R115). -/
theorem livePage_isCopied {w : Walk} {q : ReadReq} {b : Nat} {h : PageHdr} {l : Line} {data : List Byte}
    (hk : o.kind = .relocation q) (hp : q.purpose = .walk) (ha : q.addr = w.addr) (hw : s.store.walk = some w)
    (hphase : w.phase = .reading) (hstopped : w.stopped = false) (hhead : s.flash.refresh.head? = some w.blk)
    (hpage : w.page < 255) (hready : s.dieReady w.blk.die = true) (hroom : s.relocRoom = true) (hfree : s.freeBuffer = some b)
    (hparse : parseHdr data = some h) (hl : s.line h.line = some l)
    (hnames : (h.kind = .data ∧ ∃ p, l.pool.find? (fun p => decide (p.e.first ≤ h.first) && decide (h.first ≤ p.e.last)) = some p ∧
        p.e.loc = some w.addr ∧ p.e.wseq = h.wseq) ∨
      (h.kind = .root ∧ l.root = some { addr := w.addr, wseq := h.wseq })) :
    ∃ t, exec (.relocationReadComplete d (.clean data)) s = .next t ∧ t.staging.queue = s.staging.queue ++ [b] ∧
      (∃ x, t.buf b = some x ∧ x.st = .queued ∧ x.origin = .relocation ∧ x.reported = false ∧ x.handed = false ∧
        x.hdr = { h with wseq := 0, sup := h.wseq, orig := h.wseq, verified := false, relocated := false, cpSeq := 0 } ∧
        x.body = pageBody h data) ∧
      (∀ c, c ≠ b → t.buf c = s.buf c) ∧ t.store = { s.store with walk := some { w with page := w.page + 1 } } ∧
      t.flash.reads = s.flash.reads ++ [{ addr := { w.addr with page := w.page + 1 }, purpose := .walk }] ∧
      t.flash.blocks = s.flash.blocks ∧ ((t.die d).bind Die.op) = none ∧ t.link = s.link ∧ t.retr = s.retr ∧
      t.settings = s.settings ∧ t.gauge = s.gauge ∧ t.motion = s.motion ∧ t.power = s.power := by
  have hexec : exec (.relocationReadComplete d (.clean data)) s = .next (relocationDone true d (.clean data) s) := rfl
  have hkind : h.kind ≠ .segment ∧ h.kind ≠ .settings := by
    rcases hnames with ⟨hkind, -⟩ | ⟨hkind, -⟩ <;> simp [hkind]
  let u : State := (clearOp d s).modStore fun t => { t with walk := some { w with phase := .judging h data } }
  let x : Buf := {
    st := .queued, origin := .relocation, slot := none, fill := 0, target := none, exposed := false, reported := false, handed := false, job := .reloc, body := pageBody h data,
    hdr := { h with wseq := 0, sup := h.wseq, orig := h.wseq, verified := false, relocated := false, cpSeq := 0 } }
  let v : State := updateWait { u with staging := { u.staging with
    bufs := u.staging.bufs.set b (some x), queue := u.staging.queue ++ [b] } }
  have hv : putImage b (relocImage h (pageBody h data)) u = v := putImage_reloc (s := u) hkind.2
  have hstill : Still v := by
    have hcleared := still_clearOp (d := d) hs
    exact ⟨Or.inl (by simp), hcleared.retrRead, hcleared.reads, hcleared.mount, hcleared.notPausing, hcleared.calm⟩
  have hon : v.walkStopped w.blk = false := by
    show (((some ({ w with phase := .judging h data } : Walk)).map Walk.stopped).getD false ||
      s.flash.refresh.head? != some w.blk) = false
    rw [hhead]
    simp [hstopped]
  let z : State := requestRead { w.addr with page := w.page + 1 } .walk
    (v.modStore fun t => { t with walk := some { w with page := w.page + 1, phase := .reading } })
  have hread : walkRead w.addr (.clean data) (clearOp d s) = z := by
    rw [walkRead_clean (s := clearOp d s) hw hphase hs.notPausing hparse,
      continueJudging_live (s := clearOp d s) hkind.1 (judgePage_live (s := u) hl hnames) hfree hroom]
    exact (congrArg (settlePage w) hv).trans (settlePage_next hon hpage hstill.notPausing)
  have hfinal : Still z := hstill.walkReading (a := { w.addr with page := w.page + 1 })
    (w := { w with page := w.page + 1, phase := .reading }) ((ready_clearOp d _ s).trans hready) rfl
  have hlt := freeBuffer_lt hfree
  have hbuf : ∀ c, v.buf c = if c = b then some x else s.buf c :=
    fun c => (buf_setBuf (s := u) (c := c) (v := some x) hlt :)
  refine ⟨updateWait z, by rw [hexec, relocationDone_eq hop hk (by rw [hp]; rfl), indexReadDone_walk hp (by simp) (by simp), ha,
    hread, finish_still _ hfinal], rfl, ⟨x, (hbuf b).trans (if_pos rfl), rfl, rfl, rfl, rfl, rfl, rfl⟩,
    fun c hc => (hbuf c).trans (if_neg hc), ?_, rfl, rfl, op_clearOp d s, rfl, rfl, rfl, rfl, rfl, rfl⟩
  show ({ s.store with walk := some { w with page := w.page + 1, phase := .reading } } : LineStore) = _
  rw [hphase]

section Load
variable {n : Nat} {l : Line} {q : ReadReq} (hk : o.kind = .relocation q) (hp : q.purpose = .loadSegment n)
  (hl : s.line n = some l) (hst : l.st = .opened) (hload : l.load = .readSegment) (hpend : s.store.pendings = [])
  (hlast : (l.refs.getLast?).bind SegRef.loc = some q.addr)
include hk hp hl hst hload hpend hlast

/-- An unreadable last segment leaves the line DAMAGED (R109). -/
theorem lastSegment_unreadable : ∃ t, exec (.indexReadComplete d .uncorrectable) s = .next t ∧ LineMoved n d { l with
    load := .none, flags := { l.flags with damaged := true }, unread := l.unread ++ [l.refs.length - 1] } s t := by
  have hexec : exec (.indexReadComplete d .uncorrectable) s = .next (relocationDone false d .uncorrectable s) := rfl
  let u := raiseMedia q.addr.blk .uncorrectable (clearOp d s)
  have hmoves : NoticesMove (clearOp d s) u := noticesMove_raiseMedia _ _ _
  let f : Line → Line := fun l => { l with unread := l.unread ++ [l.refs.length - 1] }
  let g : Line → Line := fun l => { l with flags := { l.flags with damaged := true } }
  have hf := line_becomes (s := u) (f := f) (fun _ => rfl) (show u.line n = some l from hl)
  have hg := line_becomes (f := g) (fun _ => rfl) hf.1
  obtain ⟨honly, hend⟩ := loadEnd_open (s := (u.modLine n f).modLine n g) hg.1 hst hpend
  have hall : OnlyLines u (loadEnd n ((u.modLine n f).modLine n g)) :=
    ((onlyLines_modLine n f u).trans (onlyLines_modLine n g _)).trans honly
  have hdone : indexReadDone q .uncorrectable (clearOp d s) = loadEnd n ((u.modLine n f).modLine n g) := by
    rw [indexReadDone_loadSegment (s := clearOp d s) (l := l) hp (by rw [noteRead_uncorrectable]; exact hl) hload hlast,
      noteRead_uncorrectable]
    rfl
  refine ⟨_, ?_, lineMoved_of hmoves hall ((hf.trans hg).trans hend)⟩
  rw [hexec, relocationDone_eq hop hk (by rw [hp]; rfl), hdone,
    finish_still _ (hall.still (hmoves.still (still_clearOp hs)))]

/-- A last segment that reads well ends the load, or its entries come into the pool or wait for room there (R109). -/
theorem lastSegment_read {data : List Byte} {es : List PageEntry} (hseg : segmentOf n (l.refs.length - 1) (.clean data) = some es) :
    ∃ t, exec (.indexReadComplete d (.clean data)) s = .next t ∧
      (510 ≤ es.length → LineMoved n d { l with load := .none } s t) ∧
      (es.length < 510 → es.length ≤ s.poolFree → LineMoved n d { l with
        load := .none,
        pool := es.foldr (fun e p => insertPool { e := e, inSeg := true, out := false } p) l.pool } s t) ∧
      (es.length < 510 → s.poolFree < es.length → LineMoved n d { l with load := .waitPool es } s t) := by
  have hexec : exec (.indexReadComplete d (.clean data)) s = .next (relocationDone false d (.clean data) s) := rfl
  let u := clearOp d s
  have hdone : indexReadDone q (.clean data) u = segmentLoaded n (some es) u := by
    rw [indexReadDone_loadSegment (s := u) (l := l) hp (by rw [noteRead_clean]; exact hl) hload hlast, noteRead_clean, hseg]
  have hends : exec (.indexReadComplete d (.clean data)) s = .next (finish (segmentLoaded n (some es) u)) := by
    rw [hexec, relocationDone_eq hop hk (by rw [hp]; rfl), hdone]
  by_cases hfull : 510 ≤ es.length
  · obtain ⟨honly, hend⟩ := loadEnd_open (s := u) hl hst hpend
    have heq : segmentLoaded n (some es) u = loadEnd n u := if_pos hfull
    refine ⟨_, by rw [hends, heq, finish_still _ (honly.still (still_clearOp hs))], fun _ => lineMoved_of (.refl _) honly hend,
      fun h => absurd hfull (by omega), fun h => absurd hfull (by omega)⟩
  · obtain ⟨honly, hroom, hwait⟩ := placeSegment_open (es := es) (s := u) hl hst hpend
    have heq : segmentLoaded n (some es) u = placeSegment n es u := if_neg hfull
    exact ⟨_, by rw [hends, heq, finish_still _ (honly.still (still_clearOp hs))], fun h => absurd h hfull,
      fun _ h => lineMoved_of (.refl _) honly (hroom h), fun _ h => lineMoved_of (.refl _) honly (hwait h)⟩

end Load
end Ends

section Waits
variable {s : State} (hs : Still s)
include hs

/-- A page that waits to be read again is requested once a relocation buffer is to be had (R113). -/
theorem relocationRetry_requests {w : Walk} (hw : s.store.walk = some w) (hphase : w.phase = .retry) (hroom : s.relocRoom = true)
    (hmay : s.mayWalk = true) (hready : s.dieReady w.blk.die = true) :
    exec .relocationRetry s = .next (updateWait { s with
      store := { s.store with walk := some { w with phase := .reading } },
      flash := { s.flash with reads := s.flash.reads ++ [{ addr := w.addr, purpose := .walk }] } }) := by
  have hexec : exec .relocationRetry s = .next (finish (retryWalk s)) := rfl
  have hwalk := hs.walk
  unfold WalkStill at hwalk
  rw [hw] at hwalk
  obtain ⟨hstopped, hhead⟩ : w.stopped = false ∧ s.flash.refresh.head? = some w.blk := by
    rcases hwalk with h | h
    · exact absurd hphase h
    · exact h
  have hstale : s.walkStale = false := by
    unfold State.walkStale State.walkStopped
    rw [hw]
    simp [hphase, hstopped, hhead]
  have hretry : retryWalk s = requestRead w.addr .walk (s.modStore fun t => { t with walk := some { w with phase := .reading } }) := by
    unfold retryWalk
    rw [hw]
    dsimp only
    rw [hphase]
    dsimp only
    rw [if_pos (by simp [hroom, hmay, hstale])]
    unfold State.modWalk
    exact congrArg (fun k => requestRead w.addr .walk (s.modStore fun t => { t with walk := k.map fun w => { w with phase := .reading } })) hw
  rw [hexec, hretry, finish_still _ (hs.walkReading hready rfl)]
  rfl

theorem relocationRetry_waits {w : Walk} (hw : s.store.walk = some w) (hphase : w.phase = .retry) (hroom : s.relocRoom = false) :
    exec .relocationRetry s = .next (updateWait s) := by
  have hexec : exec .relocationRetry s = .next (finish (retryWalk s)) := rfl
  have hretry : retryWalk s = s := by
    unfold retryWalk
    rw [hw]
    dsimp only
    rw [hphase]
    dsimp only
    rw [if_neg (by simp [hroom])]
  rw [hexec, hretry, finish_still s hs]

/-- A load that waits for the pool ends once the pool has room (R109). -/
theorem reopenPoolLoad_places {n : Nat} {l : Line} {es : List PageEntry} (hl : s.line n = some l) (hst : l.st = .opened)
    (hload : l.load = .waitPool es) (hpend : s.store.pendings = []) : ∃ t, exec (.reopenPoolLoad n) s = .next t ∧
      t.line n = some (if es.length ≤ s.poolFree then { l with
          load := .none,
          pool := es.foldr (fun e p => insertPool { e := e, inSeg := true, out := false } p) l.pool } else l) ∧
      (∀ m, m ≠ n → t.line m = s.line m) ∧ t.flash = s.flash ∧ t.staging = s.staging ∧ t.link = s.link ∧
      t.settings = s.settings ∧ t.gauge = s.gauge ∧ t.motion = s.motion ∧ t.power = s.power := by
  have hexec : exec (.reopenPoolLoad n) s = .next (finish (poolLoad n s)) := rfl
  have hpool : poolLoad n s = placeSegment n es s := by
    unfold poolLoad
    rw [hl, Option.map_some, hload]
  obtain ⟨honly, hroom, hwait⟩ := placeSegment_open (es := es) (s := s) hl hst hpend
  have hline : LineBecomes n (if es.length ≤ s.poolFree then { l with
      load := .none,
      pool := es.foldr (fun e p => insertPool { e := e, inSeg := true, out := false } p) l.pool } else l) s (placeSegment n es s) := by
    split
    · next h => exact hroom h
    · next h =>
      have := hwait (by omega)
      rw [← hload] at this
      exact this
  obtain ⟨ls, hls⟩ : ∃ ls, placeSegment n es s = { s with store := { s.store with lines := ls } } := ⟨_, honly⟩
  have hends : exec (.reopenPoolLoad n) s = .next (updateWait (placeSegment n es s)) := by
    rw [hexec, hpool, finish_still _ (honly.still hs)]
  rw [hls] at hends hline
  exact ⟨_, hends, hline.1, hline.2, rfl, rfl, rfl, rfl, rfl, rfl, rfl⟩

end Waits

/-- Settles O51: each read that ends by the handler of its purpose, with `finish` moving the wait line, or beginning the walk of
the same block again. -/
theorem readsThatEndMoveTheirOwners : Obligations.ReadsThatEndMoveTheirOwners := by
  unfold Obligations.ReadsThatEndMoveTheirOwners
  intro d o s hs op
  refine ⟨fun c a a' ref refs data hop hk hc hread hheld hmsg hended hstop htodo hsent hbound hroot hlast hfirst hloc hcache hready =>
      heldRootRead_requestsSegment hs hop hk hc hread hheld hmsg hended hstop htodo hsent hbound hroot hlast hfirst hloc hcache hready,
    fun w q hop hk hp ha hw hphase => ⟨fun hstopped hrefresh =>
        blankPage_endsWalk hs hop hk hp ha hw hphase hstopped hrefresh,
      fun hstopped hhead hmay hready ⟨k, hblock, hlive⟩ =>
        blankPage_walksAgain hs hop hk hp ha hw hphase hstopped hhead hmay hready hblock hlive⟩,
    fun w q b h l data hop hk hp ha hw hphase hstopped hhead hpage hready hroom hfree hparse hl hnames =>
      livePage_isCopied hs hop hk hp ha hw hphase hstopped hhead hpage hready hroom hfree hparse hl hnames,
    fun n l q hop hk hp hl hst hload hpend hlast => ?_,
    fun w hw hphase => ⟨fun hroom hmay hready => relocationRetry_requests hs hw hphase hroom hmay hready,
      fun hroom => relocationRetry_waits hs hw hphase hroom⟩,
    fun n l es hl hst hload hpend => reopenPoolLoad_places hs hl hst hload hpend⟩
  have hmoved : ∀ {k : Line} {t : State}, LineMoved n d k s t → t.line n = some k ∧ (∀ m, m ≠ n → t.line m = s.line m) ∧
      ((t.die d).bind Die.op) = none ∧ t.staging = s.staging ∧
      t.settings = s.settings ∧ t.gauge = s.gauge ∧ t.motion = s.motion ∧ t.power = s.power :=
    fun ⟨⟨hline, hother⟩, hnone, hstaging, hvalues⟩ => ⟨hline, hother, hnone, hstaging, hvalues⟩
  obtain ⟨t, hexec, hlost⟩ := lastSegment_unreadable hs hop hk hp hl hst hload hpend hlast
  refine ⟨⟨t, hexec, hmoved hlost⟩, fun data es hseg => ?_⟩
  obtain ⟨t, hexec, hfull, hroom, hwait⟩ := lastSegment_read hs hop hk hp hl hst hload hpend hlast hseg
  exact ⟨fun h => ⟨t, hexec, hmoved (hfull h)⟩, fun h h' => ⟨t, hexec, hmoved (hroom h h')⟩,
    fun h h' => ⟨t, hexec, hmoved (hwait h h')⟩⟩

end Sys2Proof
end

section
/-!
PROOFS. The read-back of a checkpoint's last page (O50).
-/
namespace Sys2Proof.Machine

/-! ## A PAUSE that its owner has not been handed -/

/-- The one page of a checkpoint, which is read back. -/
def lastPage : Buf :=
  { st := .verifying, origin := .checkpoint, slot := none, fill := 0, hdr := blankHdr .checkpoint, body := .records [],
    target := some { die := 0, block := 1, page := 0 }, exposed := false, reported := false, handed := false,
    job := .checkpoint 0 }

/-- The checkpoint of one page. -/
def lastSnapshot : Snapshot :=
  { seq := 0, nextW := 0, clock := 0, pages := 1, roots := 0, lines := [], blocks := [], refs := [], refresh := [], freeCtr := 0,
    score := 0, log := [], fcc := 0, res := 0, permit := { base := 1, len := 0, bits := [] }, handed := 0, used := [] }

/-- The running PAUSE, whose handed mark is clear. -/
def unhandedPause : Running :=
  { cmd := { kind := .pause, tag := 0, body := [], cancelled := false }, handed := false, final := none }

/-- A checkpoint's last page is read back while a PAUSE that waits for the checkpoint stands in the running position, its handed
mark clear. -/
def readbackCounterexample : State :=
  { State.reset with
    link := { LinkUnit.reset false with running := some unhandedPause },
    staging := { Staging.reset with bufs := some lastPage :: List.replicate 23 none },
    flash := { Flash.reset with
      dies := [{ ready := true, op := some { kind := .readback 0 { die := 0, block := 1, page := 0 }, start := 0 },
                 active := none, due := [] }] },
    store := { LineStore.reset with ckpt := some (.writing lastSnapshot), waiters := [(.command, 0)] },
    power := { Power.reset .powerOn 7 with store := .ready, mount := none } }

theorem lastPage_readsEqual : agreesWith lastPage.hdr lastPage.body (imageBytes lastPage.hdr lastPage.body) = true := by
  decide +kernel

/-- The PAUSE is not judged, and what it was judged by stays unset. -/
theorem unhandedPause_unjudged :
    (readbackDone 0 (.clean (imageBytes lastPage.hdr lastPage.body)) readbackCounterexample).power.pauseSeen = none := by
  decide +kernel

end Sys2Proof.Machine

namespace Sys2Proof
open Machine

/-- Refutes O50: a PAUSE whose handed mark is clear does not count as running, so that the completion of its checkpoint moves it on
without its being judged, and `pauseSeen` stays unset. -/
theorem not_readBacksHandOrVoidThePage : ¬ Obligations.ReadBacksHandOrVoidThePage := by
  intro holds
  let image := imageBytes lastPage.hdr lastPage.body
  obtain ⟨-, hckpt, -⟩ := holds 0 0 { die := 0, block := 1, page := 0 } _ lastPage (.clean image) readbackCounterexample rfl rfl rfl
    rfl
  obtain ⟨-, -, hcommand⟩ := hckpt rfl rfl rfl ⟨image, rfl, lastPage_readsEqual⟩ rfl rfl nofun nofun rfl rfl lastSnapshot rfl rfl
    rfl
  obtain ⟨-, -, -, hpause⟩ := hcommand 0 unhandedPause rfl rfl rfl rfl (by decide) rfl
  obtain ⟨t, ht, ⟨-, -, hpower⟩, -⟩ := hpause rfl rfl
  have hexec : ∀ r s, exec (.readbackComplete 0 r) s = .next (readbackDone 0 r s) := fun _ _ => rfl
  have hseen : t.power.pauseSeen = some readbackCounterexample.pauseView := congrArg Power.pauseSeen hpower
  have hunseen : t.power.pauseSeen = none := by
    rw [← unhandedPause_unjudged]
    exact congrArg (fun u : State => u.power.pauseSeen) (Host.Outcome.next.inj (ht.symm.trans (hexec _ _)))
  rw [hunseen] at hseen
  cases hseen

end Sys2Proof
end

section
/-!
PROOFS. A RETIRED block stays RETIRED through the follow-up work of an event: no operation of it takes a block of that state, which is
in no list of blocks to be taken (R73, R82, R89). One lemma per operation, as the operations are built on each other.
-/
namespace Sys2Proof.Machine

/-- Block `z` is RETIRED and in neither list of blocks, and no mount is in progress. -/
def Spent (z : Blk) (s : State) : Prop :=
  s.flash.stateOf z = some .retired ∧ z ∉ s.flash.freeList ∧ z ∉ s.flash.pendingRec ∧ s.power.mount = none

variable {z : Blk}

/-! ## One block's state at a time -/

@[simp] theorem spent_modLink (f : LinkUnit → LinkUnit) (s : State) (h : Spent z s) : Spent z (s.modLink f) := h
@[simp] theorem spent_modIntake (f : Intake → Intake) (s : State) (h : Spent z s) : Spent z (s.modIntake f) := h
@[simp] theorem spent_modStaging (f : Staging → Staging) (s : State) (h : Spent z s) : Spent z (s.modStaging f) := h
@[simp] theorem spent_modStore (f : LineStore → LineStore) (s : State) (h : Spent z s) : Spent z (s.modStore f) := h
@[simp] theorem spent_modRetr (f : Retrieval → Retrieval) (s : State) (h : Spent z s) : Spent z (s.modRetr f) := h
@[simp] theorem spent_modLine (n : Nat) (f : Line → Line) (s : State) (h : Spent z s) : Spent z (s.modLine n f) := h
@[simp] theorem spent_updateWait (s : State) (h : Spent z s) : Spent z (updateWait s) := h
@[simp] theorem spent_raiseNotice (k : NoticeKind) (d : List Byte) (s : State) (h : Spent z s) : Spent z (raiseNotice k d s) := h
@[simp] theorem spent_raiseMedia (b : Blk) (e : MediaEvent) (s : State) (h : Spent z s) : Spent z (raiseMedia b e s) := h
@[simp] theorem spent_setRefresh (bs : List Blk) (s : State) (h : Spent z s) : Spent z (s.setRefresh bs) := h
@[simp] theorem spent_leaveRefresh (b : Blk) (s : State) (h : Spent z s) : Spent z (leaveRefresh b s) := h
@[simp] theorem spent_raiseLineClosed (n : Nat) (r : CloseReason) (s : State) (h : Spent z s) :
    Spent z (raiseLineClosed n r s) := h

@[simp] theorem spent_modPower (f : Power → Power) (s : State) (hf : ∀ p, (f p).mount = p.mount) (h : Spent z s) :
    Spent z (s.modPower f) := ⟨h.1, h.2.1, h.2.2.1, (hf _).trans h.2.2.2⟩

@[simp] theorem spent_modFlash (f : Flash → Flash) (s : State)
    (hf : ∀ fl, (f fl).blocks = fl.blocks ∧ (f fl).freeList = fl.freeList ∧ (f fl).pendingRec = fl.pendingRec)
    (h : Spent z s) : Spent z (s.modFlash f) := by
  obtain ⟨hblocks, hfree, hpending⟩ := hf s.flash
  obtain ⟨h1, h2, h3, h4⟩ := h
  refine ⟨?_, ?_, ?_, h4⟩
  · rw [← h1]; exact congrArg (fun bl : List BlockRec => (bl.find? fun r => r.id == z).map BlockRec.st) hblocks
  · show z ∉ (f s.flash).freeList
    rw [hfree]; exact h2
  · show z ∉ (f s.flash).pendingRec
    rw [hpending]; exact h3

/-- A block's counts move. -/
@[simp] theorem spent_modBlock (b : Blk) (f : BlockRec → BlockRec) (s : State) (hf : ∀ r, (f r).id = r.id ∧ (f r).st = r.st)
    (h : Spent z s) : Spent z (s.modBlock b f) :=
  ⟨(stateOf_congr (f := (s.modBlock b f).flash) (g := s.flash)
      (map_mapIf_same _ f BlockRec.key (fun r => by simp [BlockRec.key, hf]) _) z).trans h.1, h.2⟩

theorem spent_foldl {α : Type} (f : State → α → State) (hf : ∀ s a, Spent z s → Spent z (f s a)) (l : List α) (s : State)
    (h : Spent z s) : Spent z (l.foldl f s) := by
  induction l generalizing s with
  | nil => exact h
  | cons a l ih => exact ih _ (hf s a h)

@[simp] theorem spent_ite (c : Prop) [Decidable c] (s t : State) :
    Spent z (if c then s else t) ↔ (c → Spent z s) ∧ (¬c → Spent z t) := by split <;> simp_all

/-! ## The block table -/

@[simp] theorem spent_judgeSpace (s : State) (h : Spent z s) : Spent z (judgeSpace s) := by
  obtain ⟨⟨l, a, b, w, hs⟩, -⟩ := noticesMove_judgeSpace s
  rw [hs]
  exact h

/-- Another block goes to another state. -/
theorem spent_setState {b : Blk} {s : State} (f : BlockRec → BlockRec) (hf : ∀ r, (f r).id = r.id) (hb : b ≠ z) (h : Spent z s) :
    Spent z (s.modBlock b f) := by
  refine ⟨?_, h.2⟩
  have hblock := block_modBlock b z f hf s
  rw [show (s.modBlock b f).flash.stateOf z = ((s.modBlock b f).block z).map BlockRec.st from rfl, hblock, ← h.1,
    show s.flash.stateOf z = (s.block z).map BlockRec.st from rfl]
  cases s.block z <;> simp [Ne.symm hb]

theorem spent_joinFree (b : Blk) (s : State) (hb : b ≠ z) (h : Spent z s) : Spent z (joinFree b s) := by
  obtain ⟨h1, h2, h3, h4⟩ := spent_setState (fun r => { r with st := .free, seq := (s.flash.freeCtr + 1) % Config.clockModulus })
    (fun _ => rfl) hb h
  refine spent_judgeSpace _ ⟨h1, ?_, h3, h4⟩
  exact fun hm => (List.mem_append.mp hm).elim h2 fun hm => hb (List.mem_singleton.mp hm).symm

theorem spent_reclaim (b : Blk) (s : State) (hb : b ≠ z) (h : Spent z s) : Spent z (reclaim b s) := by
  unfold reclaim
  dsimp only
  split
  · obtain ⟨h1, h2, h3, h4⟩ := spent_setState (fun r => { r with st := .reclaimPending }) (fun _ => rfl) hb (spent_leaveRefresh b s h)
    exact ⟨h1, h2, fun hm => (List.mem_append.mp hm).elim h3 fun hm => hb (List.mem_singleton.mp hm).symm, h4⟩
  · exact spent_joinFree b _ hb (spent_leaveRefresh b s h)

@[simp] theorem spent_releasePending (s : State) (h : Spent z s) : Spent z (releasePending s) := by
  have hjoin : ∀ (bs : List Blk) (s : State), z ∉ bs → Spent z s → Spent z (bs.foldl (fun s b => joinFree b s) s) := by
    intro bs
    induction bs with
    | nil => exact fun _ _ h => h
    | cons b bs ih =>
      intro s hn h
      simp only [List.mem_cons, not_or] at hn
      exact ih _ hn.2 (spent_joinFree b s (Ne.symm hn.1) h)
  exact hjoin _ _ h.2.2.1 ⟨h.1, h.2.1, List.not_mem_nil, h.2.2.2⟩

/-- A block of another state is another block. -/
theorem Spent.ne {b : Blk} {r : BlockRec} {s : State} (h : Spent z s) (hr : s.block b = some r) (hst : r.st ≠ .retired) : b ≠ z := by
  rintro rfl
  have h1 : (s.block b).map BlockRec.st = some .retired := h.1
  rw [hr] at h1
  exact hst (Option.some.inj h1)

@[simp] theorem spent_refUp (a : Addr) (s : State) (h : Spent z s) : Spent z (refUp a s) := by
  simp [refUp, h]

@[simp] theorem spent_refDown (a : Addr) (s : State) (h : Spent z s) : Spent z (refDown a s) := by
  unfold refDown
  split
  · exact h
  · rename_i r hr
    have hless : Spent z (s.modBlock a.blk fun r => { r with live := r.live - 1 }) := by simp [h]
    dsimp only
    split
    · exact h
    · split
      · split
        · rename_i hfull
          simp only [Bool.and_eq_true, decide_eq_true_eq] at hfull
          exact spent_reclaim _ _ (h.ne hr (by rw [hfull.1]; simp)) hless
        · exact hless
      · exact hless

@[simp] theorem spent_refDownAll (as : List Addr) (s : State) (h : Spent z s) : Spent z (refDownAll as s) :=
  spent_foldl _ (fun s a h => spent_refDown a s h) as s h

/-! ## Commands that end, and buffers -/

@[simp] theorem spent_endCommand (code : Code) (content : List Byte) (s : State) (h : Spent z s) :
    Spent z (endCommand code content s) := by
  have hplaced : ∀ (c : StoreCmd) (f : Final) (s : State), Spent z s → Spent z (finalPlaced c f s) := by
    intro c f s h
    have hempty : Spent z (s.modLink fun l => { l with running := none }) := h
    unfold finalPlaced
    dsimp only
    repeat' (first | simp [hempty] | split)
  unfold endCommand
  split
  · exact h
  · dsimp only
    split
    · exact hplaced _ _ _ (spent_modLink _ _ (spent_modPower _ _ (fun _ => rfl) h))
    · simp [h]

/-- What a freed buffer moves is not what is asked here. -/
theorem spent_of_unfreed {s t : State} (hu : t.unfreed = s.unfreed) (h : Spent z s) : Spent z t := by
  have hblocks : t.flash.blocks = s.flash.blocks := (congrArg (fun u : State => u.flash.blocks) hu :)
  have hfree : t.flash.freeList = s.flash.freeList := (congrArg (fun u : State => u.flash.freeList) hu :)
  have hpending : t.flash.pendingRec = s.flash.pendingRec := (congrArg (fun u : State => u.flash.pendingRec) hu :)
  have hmount : t.power.mount = s.power.mount := (congrArg (fun u : State => u.power.mount) hu :)
  obtain ⟨h1, h2, h3, h4⟩ := h
  refine ⟨?_, by rw [hfree]; exact h2, by rw [hpending]; exact h3, by rw [hmount]; exact h4⟩
  rw [← h1]
  exact congrArg (fun bl : List BlockRec => (bl.find? fun r => r.id == z).map BlockRec.st) hblocks

@[simp] theorem spent_putImage (b : Nat) (im : Image) (s : State) (h : Spent z s) : Spent z (putImage b im s) :=
  spent_of_unfreed (unfreed_of_unstaged (unstaged_putImage b im s)) h

@[simp] theorem spent_queueSlot (i : Nat) (s : State) (h : Spent z s) : Spent z (queueSlot i s) :=
  spent_of_unfreed (unfreed_of_unstaged (unstaged_queueSlot i s)) h

@[simp] theorem spent_requestImage (q : ImageReq) (s : State) (h : Spent z s) : Spent z (requestImage q s) := by
  have hadd : ∀ (n : Nat) (q : ImageReq) (s : State), Spent z s → Spent z (addRequest n q s) := by
    intro n
    induction n with
    | zero => exact fun _ _ h => h
    | succ n ih =>
      intro q s h
      unfold addRequest
      split
      · split
        · exact spent_of_unfreed (unfreed_settingsUnwritten s) h
        · split
          · exact h
          · dsimp only
            split
            · exact ih _ _ (spent_putImage _ _ _ h)
            · exact spent_putImage _ _ _ h
      · exact h
  exact hadd 32 q s h

@[simp] theorem spent_freeBufs (bs : List Nat) (s : State) (h : Spent z s) : Spent z (bs.foldl (fun s b => freeBuf b s) s) :=
  spent_foldl _ (fun s b h => spent_of_unfreed (unfreed_freeBuf b s) h) bs s h

@[simp] theorem spent_blockFull (b : Blk) (s : State) (h : Spent z s) : Spent z (blockFull b s) := by
  unfold blockFull
  split
  · exact h
  · rename_i r hr
    dsimp only
    split
    · exact h
    · rename_i hactive
      have hb : b ≠ z := h.ne hr (by rw [not_not.mp hactive]; simp)
      have hfull := spent_freeBufs (State.retainedIn ((s.modBlock b fun r => { r with st := .full }).modDie b.die fun d => { d with
          active := d.active.filter fun t => t.block != b.block, due := d.due.filter (· != b.block) }) b) _
        (spent_modFlash (fun fl => { fl with dies := fl.dies.modify b.die fun d => { d with
          active := d.active.filter fun t => t.block != b.block, due := d.due.filter (· != b.block) } }) _ (fun _ => ⟨rfl, rfl, rfl⟩)
          (spent_setState (fun r => { r with st := .full }) (fun _ => rfl) hb h))
      split
      · exact spent_reclaim b _ hb hfull
      · exact hfull

@[simp] theorem spent_refreshAdd (b : Blk) (s : State) (h : Spent z s) : Spent z (refreshAdd b s) := by
  unfold refreshAdd
  split
  · exact h
  · split
    · exact spent_blockFull _ _ (spent_modFlash _ _ (fun _ => ⟨rfl, rfl, rfl⟩) h)
    · exact h

/-! ## The operations -/

@[simp] theorem spent_flagLine (n : Nat) (f : LineFlags → LineFlags) (s : State) (h : Spent z s) :
    Spent z (State.flagLine n f s) := by
  simp (maxDischargeDepth := 30) [State.flagLine, h]

@[simp] theorem spent_modCtx (f : RetrCtx → RetrCtx) (s : State) (h : Spent z s) : Spent z (State.modCtx f s) := by
  simp (maxDischargeDepth := 30) [State.modCtx, h]

@[simp] theorem spent_setSlot (i : Nat) (x : Option Slot) (s : State) (h : Spent z s) : Spent z (State.setSlot i x s) := by
  simp (maxDischargeDepth := 30) [State.setSlot, h]

@[simp] theorem spent_requestRead (a : Addr) (p : Purpose) (s : State) (h : Spent z s) : Spent z (requestRead a p s) := by
  simp (maxDischargeDepth := 30) [requestRead, h]

@[simp] theorem spent_startRootRewrite (n : Nat) (s : State) (h : Spent z s) : Spent z (startRootRewrite n s) := by
  unfold startRootRewrite
  (repeat' split) <;> simp (maxDischargeDepth := 30) [h]

@[simp] theorem spent_addDone (d : SegDone) (s : State) (h : Spent z s) : Spent z (addDone d s) := by
  simp (maxDischargeDepth := 30) [addDone, h]

@[simp] theorem spent_addWaiter (w : Option Waiter) (s : State) (h : Spent z s) : Spent z (addWaiter w s) := by
  unfold addWaiter
  split <;> simp (maxDischargeDepth := 30) [h]

@[simp] theorem spent_countNew (p : Repl) (s : State) (h : Spent z s) : Spent z (countNew p s) := by
  unfold countNew
  split <;> simp (maxDischargeDepth := 30) [h]

@[simp] theorem spent_dropLoc (a : Option Addr) (s : State) (h : Spent z s) : Spent z (dropLoc a s) := by
  unfold dropLoc
  split <;> simp (maxDischargeDepth := 30) [h]

@[simp] theorem spent_enterPool (p : Repl) (x : PoolEnt) (s : State) (h : Spent z s) : Spent z (enterPool p x s) := by
  simp (maxDischargeDepth := 30) [enterPool, h]

@[simp] theorem spent_replacePool (p : Repl) (x : PoolEnt) (s : State) (h : Spent z s) : Spent z (replacePool p x s) := by
  simp (maxDischargeDepth := 30) [replacePool, h]

@[simp] theorem spent_uncountNew (p : Repl) (s : State) (h : Spent z s) : Spent z (uncountNew p s) := by
  unfold uncountNew
  split <;> simp (maxDischargeDepth := 30) [h]

@[simp] theorem spent_removePending (p : Repl) (s : State) (h : Spent z s) : Spent z (removePending p s) := by
  simp (maxDischargeDepth := 30) [removePending, h]

@[simp] theorem spent_startSegRewrite (n : Nat) (k : Nat) (r : SegRef) (s : State) (h : Spent z s) :
    Spent z (startSegRewrite n k r s) := by
  unfold startSegRewrite
  split <;> simp (maxDischargeDepth := 30) [h]

@[simp] theorem spent_assignPending (refs : List SegRef) (p : Repl) (s : State) (h : Spent z s) :
    Spent z (assignPending refs p s) := by
  unfold assignPending
  split <;> simp (maxDischargeDepth := 30) [h]

@[simp] theorem spent_servePending (p : Repl) (s : State) (h : Spent z s) : Spent z (servePending p s) := by
  unfold servePending
  (repeat' split) <;> simp (maxDischargeDepth := 30) [h]

@[simp] theorem spent_replaceCopy (p : Repl) (s : State) (h : Spent z s) : Spent z (replaceCopy p s) := by
  unfold replaceCopy
  (repeat' split) <;> simp (maxDischargeDepth := 30) [h]

@[simp] theorem spent_setLoad (n : Nat) (ld : Load) (s : State) (h : Spent z s) : Spent z (setLoad n ld s) := by
  simp (maxDischargeDepth := 30) [setLoad, h]

@[simp] theorem spent_requestFlush (n : Nat) (pressure : Bool) (s : State) (h : Spent z s) :
    Spent z (requestFlush n pressure s) := by
  unfold requestFlush
  split <;> simp (maxDischargeDepth := 30) [h]

@[simp] theorem spent_closeAdvance (n : Nat) (s : State) (h : Spent z s) : Spent z (closeAdvance n s) := by
  unfold closeAdvance
  split <;> simp (maxDischargeDepth := 30) [h]

@[simp] theorem spent_servePendings (n : Nat) (s : State) (h : Spent z s) : Spent z (servePendings n s) :=
  spent_foldl _ (fun s p h => spent_servePending p s h) _ s h

@[simp] theorem spent_loadEnd (n : Nat) (s : State) (h : Spent z s) : Spent z (loadEnd n s) := by
  simp (maxDischargeDepth := 30) [loadEnd, h]

@[simp] theorem spent_loadRootLost (n : Nat) (s : State) (h : Spent z s) : Spent z (loadRootLost n s) := by
  simp (maxDischargeDepth := 30) [loadRootLost, h]

@[simp] theorem spent_startRootLoad (n : Nat) (s : State) (h : Spent z s) : Spent z (startRootLoad n s) := by
  unfold startRootLoad
  split <;> simp (maxDischargeDepth := 30) [h]

@[simp] theorem spent_requestClose (n : Nat) (r : CloseReason) (cut : Bool) (s : State) (h : Spent z s) :
    Spent z (requestClose n r cut s) := by
  unfold requestClose
  (repeat' split) <;> simp (maxDischargeDepth := 30) [h]

@[simp] theorem spent_rootCut (s : State) (h : Spent z s) : Spent z (rootCut s) := by
  unfold rootCut
  split <;> simp (maxDischargeDepth := 30) [h]

@[simp] theorem spent_flushLine (n : Nat) (pressure : Bool) (s : State) (h : Spent z s) :
    Spent z (flushLine n pressure s) := by
  unfold flushLine
  split <;> simp (maxDischargeDepth := 30) [h]

@[simp] theorem spent_requestRetr (a : Addr) (p : RetrPurpose) (s : State) (h : Spent z s) :
    Spent z (requestRetr a p s) := by
  simp (maxDischargeDepth := 30) [requestRetr, h]

@[simp] theorem spent_endRetr (c : RetrCtx) (code : Code) (s : State) (h : Spent z s) : Spent z (endRetr c code s) := by
  simp (maxDischargeDepth := 30) [endRetr, h]

@[simp] theorem spent_placeMsg (c : RetrCtx) (m : HeldMsg) (s : State) (h : Spent z s) : Spent z (placeMsg c m s) := by
  unfold placeMsg
  split
  · simp [h]
  · simp (maxDischargeDepth := 30) [h]

@[simp] theorem spent_markDamaged (n : Nat) (s : State) (h : Spent z s) : Spent z (markDamaged n s) := by
  simp (maxDischargeDepth := 30) [markDamaged, h]

@[simp] theorem spent_placeDamaged (c : RetrCtx) (a : Nat) (b : Nat) (s : State) (h : Spent z s) :
    Spent z (placeDamaged c a b s) := by
  simp (maxDischargeDepth := 30) [placeDamaged, h]

@[simp] theorem spent_dealEntry (c : RetrCtx) (e : PageEntry) (s : State) (h : Spent z s) : Spent z (dealEntry c e s) := by
  unfold dealEntry
  (repeat' split) <;> simp (maxDischargeDepth := 30) [h]

@[simp] theorem spent_dealPool (c : RetrCtx) (s : State) (h : Spent z s) : Spent z (dealPool c s) := by
  unfold dealPool
  split <;> simp (maxDischargeDepth := 30) [h]

theorem spent_dealSegment (c : RetrCtx) (es : List PageEntry) (s t : State) (ht : dealSegment c es s = some t)
    (h : Spent z s) : Spent z t := by
  unfold dealSegment at ht
  split at ht
  · cases ht
  · split at ht
    · split at ht <;> (cases ht; simp (maxDischargeDepth := 30) [h])
    · cases ht; simp (maxDischargeDepth := 30) [h]

@[simp] theorem spent_searchSegs (c : RetrCtx) (k : Nat) (rs : List SegRef) (s : State) (h : Spent z s) :
    Spent z (searchSegs c k rs s) := by
  induction rs generalizing k s with
  | nil => simp [searchSegs, h]
  | cons r rs ih =>
    unfold searchSegs
    repeat' (first | (simp (maxDischargeDepth := 30) [ih, h]; done) | split | (rename_i h2; refine spent_dealSegment _ _ _ _ h2 ?_) | dsimp only)

@[simp] theorem spent_readHeldRoot (c : RetrCtx) (s : State) (h : Spent z s) : Spent z (readHeldRoot c s) := by
  unfold readHeldRoot
  split <;> simp (maxDischargeDepth := 30) [h]

@[simp] theorem spent_walkStep (c : RetrCtx) (s : State) (h : Spent z s) : Spent z (walkStep c s) := by
  simp (maxDischargeDepth := 30) [walkStep, h]

@[simp] theorem spent_walk (n : Nat) (s : State) (h : Spent z s) : Spent z (walk n s) := by
  induction n generalizing s with
  | zero => exact h
  | succ n ih =>
    unfold walk
    repeat' (first | (simp (maxDischargeDepth := 30) [ih, h]; done) | split)

@[simp] theorem spent_endWalk (s : State) (h : Spent z s) : Spent z (endWalk s) := by
  simp (maxDischargeDepth := 30) [endWalk, h]

@[simp] theorem spent_settlePage (w : Walk) (s : State) (h : Spent z s) : Spent z (settlePage w s) := by
  simp (maxDischargeDepth := 30) [settlePage, h]

@[simp] theorem spent_retryPage (w : Walk) (s : State) (h : Spent z s) : Spent z (retryPage w s) := by
  simp (maxDischargeDepth := 30) [retryPage, h]

theorem spent_uncountAll (ps : List Repl) (s : State) (h : Spent z s) : Spent z (ps.foldl (fun s p => uncountNew p s) s) :=
  spent_foldl _ (fun s p h => spent_uncountNew p s h) ps s h

@[simp] theorem spent_relocSegment (b : Nat) (a : Addr) (hd : PageHdr) (d : List Byte) (s : State) (h : Spent z s) :
    Spent z (relocSegment b a hd d s) := by
  unfold relocSegment
  dsimp only
  split
  · exact spent_putImage _ _ _ h
  · exact spent_putImage _ _ _ (spent_uncountAll _ _ (spent_modStore _ _ h))

@[simp] theorem spent_relocLive (w : Walk) (hd : PageHdr) (d : List Byte) (s : State) (h : Spent z s) :
    Spent z (relocLive w hd d s) := by
  unfold relocLive
  repeat' (first | (simp [h]; done) | split)

@[simp] theorem spent_continueJudging (w : Walk) (hd : PageHdr) (d : List Byte) (s : State) (h : Spent z s) :
    Spent z (continueJudging w hd d s) := by
  unfold continueJudging
  dsimp only
  split <;> simp (maxDischargeDepth := 30) [h]

@[simp] theorem spent_loadLast (n : Nat) (s : State) (h : Spent z s) : Spent z (loadLast n s) := by
  unfold loadLast
  (repeat' split) <;> simp (maxDischargeDepth := 30) [h]

@[simp] theorem spent_dataDone (c : RetrCtx) (e : PageEntry) (r : ReadResult) (s : State) (h : Spent z s) :
    Spent z (dataDone c e r s) := by
  unfold dataDone
  split <;> simp (maxDischargeDepth := 30) [h]

@[simp] theorem spent_judgeRefresh (a : Addr) (r : ReadResult) (s : State) (h : Spent z s) :
    Spent z (judgeRefresh a r s) := by
  unfold judgeRefresh
  split <;> simp (maxDischargeDepth := 30) [h]

@[simp] theorem spent_noteRead (a : Addr) (r : ReadResult) (s : State) (h : Spent z s) : Spent z (noteRead a r s) := by
  simp (maxDischargeDepth := 30) [noteRead, h]

@[simp] theorem spent_runWalk (s : State) (h : Spent z s) : Spent z (runWalk s) := by
  unfold runWalk
  split <;> simp (maxDischargeDepth := 30) [h]

@[simp] theorem spent_rootDone (c : RetrCtx) (r : ReadResult) (s : State) (h : Spent z s) : Spent z (rootDone c r s) := by
  unfold rootDone
  split <;> simp (maxDischargeDepth := 30) [h]

@[simp] theorem spent_segmentDone (c : RetrCtx) (k : Nat) (ref : SegRef) (stale : Bool) (a : Addr) (r : ReadResult)
    (s : State) (h : Spent z s) : Spent z (segmentDone c k ref stale a r s) := by
  unfold segmentDone
  split
  · simp (maxDischargeDepth := 30) [h]
  · dsimp only
    split
    · rename_i h2
      refine spent_dealSegment _ _ _ _ h2 ?_
      split <;> simp (maxDischargeDepth := 30) [h]
    · simp (maxDischargeDepth := 30) [h]

@[simp] theorem spent_retrReadDone (a : Addr) (r : ReadResult) (s : State) (h : Spent z s) :
    Spent z (retrReadDone a r s) := by
  unfold retrReadDone
  repeat' (first | (simp (maxDischargeDepth := 30) [h]; done) | split | dsimp only)

@[simp] theorem spent_loseEntry (n : Nat) (e : PageEntry) (s : State) (h : Spent z s) : Spent z (loseEntry n e s) := by
  simp (maxDischargeDepth := 30) [loseEntry, h]

@[simp] theorem spent_loseSegment (n : Nat) (k : Nat) (wseq : Nat) (s : State) (h : Spent z s) :
    Spent z (loseSegment n k wseq s) := by
  unfold loseSegment
  (repeat' split) <;> simp (maxDischargeDepth := 30) [h]

@[simp] theorem spent_loadCheck (n : Nat) (s : State) (h : Spent z s) : Spent z (loadCheck n s) := by
  unfold loadCheck
  split <;> simp (maxDischargeDepth := 30) [h]

@[simp] theorem spent_loseRoot (n : Nat) (s : State) (h : Spent z s) : Spent z (loseRoot n s) := by
  unfold loseRoot
  split <;> simp (maxDischargeDepth := 30) [h]

@[simp] theorem spent_searchLines (w : Walk) (ns : List Nat) (s : State) (h : Spent z s) : Spent z (searchLines w ns s) := by
  induction ns with
  | nil => simp [searchLines, h]
  | cons n ns ih =>
    unfold searchLines
    repeat' (first | (simp (maxDischargeDepth := 30) [ih, h]) | split)

@[simp] theorem spent_lostPage (w : Walk) (s : State) (h : Spent z s) : Spent z (lostPage w s) := by
  unfold lostPage
  repeat' (first | (simp (maxDischargeDepth := 30) [h]; done) | split | dsimp only)

@[simp] theorem spent_walkRead (a : Addr) (r : ReadResult) (s : State) (h : Spent z s) : Spent z (walkRead a r s) := by
  unfold walkRead
  repeat' (first | (simp (maxDischargeDepth := 30) [h]; done) | split)

@[simp] theorem spent_judgeRootRead (a : Addr) (r : ReadResult) (s : State) (h : Spent z s) :
    Spent z (judgeRootRead a r s) := by
  unfold judgeRootRead
  (repeat' split) <;> simp (maxDischargeDepth := 30) [h]

@[simp] theorem spent_judgeSegmentRead (a : Addr) (r : ReadResult) (s : State) (h : Spent z s) :
    Spent z (judgeSegmentRead a r s) := by
  unfold judgeSegmentRead
  (repeat' split) <;> simp (maxDischargeDepth := 30) [h]

@[simp] theorem spent_searchSegments (w : Walk) (ns : List Nat) (n k : Nat) (rs : List SegRef) (s : State) (h : Spent z s) :
    Spent z (searchSegments w ns n k rs s) := by
  induction rs generalizing k with
  | nil => simp [searchSegments, h]
  | cons r rs ih =>
    unfold searchSegments
    repeat' (first | (simp (maxDischargeDepth := 30) [ih, h]) | split)

@[simp] theorem spent_searchRootRead (a : Addr) (r : ReadResult) (s : State) (h : Spent z s) :
    Spent z (searchRootRead a r s) := by
  unfold searchRootRead
  (repeat' split) <;> simp (maxDischargeDepth := 30) [h]

@[simp] theorem spent_searchSegmentRead (r : ReadResult) (s : State) (h : Spent z s) : Spent z (searchSegmentRead r s) := by
  unfold searchSegmentRead
  (repeat' split) <;> simp (maxDischargeDepth := 30) [h]

@[simp] theorem spent_locateRead (n : Nat) (a : Addr) (r : ReadResult) (s : State) (h : Spent z s) :
    Spent z (locateRead n a r s) := by
  unfold locateRead
  repeat' (first | (simp (maxDischargeDepth := 30) [h]; done) | split)
  exact spent_loadCheck _ _ (spent_foldl _ (fun s p h => spent_assignPending _ p s h) _ s h)

@[simp] theorem spent_rewriteLost (w : SegRewrite) (s : State) (h : Spent z s) : Spent z (rewriteLost w s) := by
  simp (maxDischargeDepth := 30) [rewriteLost, h]

@[simp] theorem spent_segmentRead (w : SegRewrite) (es : List PageEntry) (s : State) (h : Spent z s) :
    Spent z (segmentRead w es s) := by
  unfold segmentRead
  dsimp only
  split
  · exact spent_loadCheck _ _ (spent_closeAdvance _ _ (spent_modStore _ _
      (spent_uncountAll _ _ (spent_modStore _ _ h))))
  · simp (maxDischargeDepth := 30) [h]

@[simp] theorem spent_rewriteSegmentRead (n : Nat) (k : Nat) (a : Addr) (r : ReadResult) (s : State) (h : Spent z s) :
    Spent z (rewriteSegmentRead n k a r s) := by
  unfold rewriteSegmentRead
  repeat' (first | (simp (maxDischargeDepth := 30) [h]; done) | split | dsimp only)

@[simp] theorem spent_returnRepls (ps : List Repl) (s : State) (h : Spent z s) : Spent z (returnRepls ps s) := by
  simp (maxDischargeDepth := 30) [returnRepls, h]

@[simp] theorem spent_rewriteRootRead (n : Nat) (a : Addr) (r : ReadResult) (s : State) (h : Spent z s) :
    Spent z (rewriteRootRead n a r s) := by
  have hv : ∀ (c : Carried) (t : State), Spent z t → Spent z (c.void.foldl (fun s d => dropLoc d.loc s) t) := fun c t ht =>
    spent_foldl _ (fun s d h => spent_dropLoc d.loc s h) _ t ht
  unfold rewriteRootRead
  repeat' (first | (simp (maxDischargeDepth := 30) [h, hv]; done) | split)

@[simp] theorem spent_settleDone (n : Nat) (s : State) (h : Spent z s) : Spent z (settleDone n s) := by
  refine spent_foldl _ (fun s d h => ?_) _ _ (spent_modStore _ _ h)
  dsimp only
  split <;> simp (maxDischargeDepth := 30) [h]

@[simp] theorem spent_rootLoaded (n : Nat) (refs : List SegRef) (s : State) (h : Spent z s) :
    Spent z (rootLoaded n refs s) := by
  simp (maxDischargeDepth := 30) [rootLoaded, h]

@[simp] theorem spent_loadRootRead (n : Nat) (a : Addr) (r : ReadResult) (s : State) (h : Spent z s) :
    Spent z (loadRootRead n a r s) := by
  unfold loadRootRead
  (repeat' split) <;> simp (maxDischargeDepth := 30) [h]

@[simp] theorem spent_placeSegment (n : Nat) (es : List PageEntry) (s : State) (h : Spent z s) :
    Spent z (placeSegment n es s) := by
  simp (maxDischargeDepth := 30) [placeSegment, h]

@[simp] theorem spent_segmentLoaded (n : Nat) (es : Option (List PageEntry)) (s : State) (h : Spent z s) :
    Spent z (segmentLoaded n es s) := by
  unfold segmentLoaded
  split <;> simp (maxDischargeDepth := 30) [h]

@[simp] theorem spent_loadSegmentRead (n : Nat) (a : Addr) (r : ReadResult) (s : State) (h : Spent z s) :
    Spent z (loadSegmentRead n a r s) := by
  unfold loadSegmentRead
  (repeat' split) <;> simp (maxDischargeDepth := 30) [h]

theorem spent_flushStep (acc : List Nat × List Nat × State) (n : Nat) (h : Spent z acc.2.2) : Spent z (flushStep acc n).2.2 := by
  unfold flushStep
  repeat' (first | (simp (maxDischargeDepth := 30) [h]; done) | split | dsimp only)

theorem spent_flushSteps (ns : List Nat) (acc : List Nat × List Nat × State) (h : Spent z acc.2.2) :
    Spent z (ns.foldl flushStep acc).2.2 := by
  induction ns generalizing acc with
  | nil => exact h
  | cons n ns ih => exact ih _ (spent_flushStep acc n h)

@[simp] theorem spent_runFlushes (ns wait : List Nat) (s : State) (h : Spent z s) : Spent z (runFlushes ns wait s) :=
  spent_modStore _ _ (spent_flushSteps ns ([], wait, s) h)

@[simp] theorem spent_startCheckpoint (s : State) (h : Spent z s) : Spent z (startCheckpoint s) := by
  simp (maxDischargeDepth := 30) [startCheckpoint, h]

@[simp] theorem spent_requestCheckpoint (w : Option Waiter) (s : State) (h : Spent z s) :
    Spent z (requestCheckpoint w s) := by
  unfold requestCheckpoint
  repeat' (first | (simp (maxDischargeDepth := 30) [h]; done) | split | dsimp only)

@[simp] theorem spent_eraseAdvance (n : Nat) (s : State) (h : Spent z s) : Spent z (eraseAdvance n s) := by
  induction n generalizing s with
  | zero => exact h
  | succ n ih =>
    unfold eraseAdvance
    repeat' (first | (simp (maxDischargeDepth := 30) [ih, h]; done) | split)

@[simp] theorem spent_runErase (s : State) (h : Spent z s) : Spent z (runErase s) := by
  unfold runErase
  split <;> simp (maxDischargeDepth := 30) [h]

@[simp] theorem spent_eraseRootRead (r : ReadResult) (s : State) (h : Spent z s) : Spent z (eraseRootRead r s) := by
  unfold eraseRootRead
  repeat' (first | (simp (maxDischargeDepth := 30) [h]; done) | split)

@[simp] theorem spent_eraseSegmentRead (a : Addr) (r : ReadResult) (s : State) (h : Spent z s) :
    Spent z (eraseSegmentRead a r s) := by
  unfold eraseSegmentRead
  repeat' (first | (simp (maxDischargeDepth := 30) [h]; done) | split)

@[simp] theorem spent_mountRootRead (n : Nat) (news : List (SegRef × List PageEntry)) (a : Addr) (r : ReadResult)
    (s : State) (h : Spent z s) : Spent z (mountRootRead n news a r s) := by
  unfold mountRootRead
  refine spent_refDown _ _ ?_
  split
  · exact h
  · refine spent_foldl _ (fun s k h => ?_) _ _ h
    repeat' (first | (simp (maxDischargeDepth := 30) [h]; done) | split)

@[simp] theorem spent_mountSegmentRead (n : Nat) (k : Nat) (es : List PageEntry) (pool : Bool) (a : Addr) (r : ReadResult) (s : State) (h : Spent z s) :
    Spent z (mountSegmentRead n k es pool a r s) := by
  simp (maxDischargeDepth := 30) [mountSegmentRead, h]

@[simp] theorem spent_indexReadDone (q : ReadReq) (r : ReadResult) (s : State) (h : Spent z s) :
    Spent z (indexReadDone q r s) := by
  unfold indexReadDone
  split <;> simp (maxDischargeDepth := 30) [h]

@[simp] theorem spent_drainDead (n : Nat) (s : State) (h : Spent z s) : Spent z (drainDead n s) := by
  induction n generalizing s with
  | zero => exact h
  | succ n ih =>
    unfold drainDead
    repeat' (first | (simp (maxDischargeDepth := 30) [ih, h]) | split)

@[simp] theorem spent_removeWaiting (c : StoreCmd) (s : State) (h : Spent z s) : Spent z (removeWaiting c s) := by
  simp [removeWaiting, h]

@[simp] theorem spent_stopRetr (q : StopReq) (s : State) (h : Spent z s) : Spent z (stopRetr q s) := by
  unfold stopRetr
  split <;> simp (maxDischargeDepth := 30) [h]

@[simp] theorem spent_forgetCommand (s : State) (h : Spent z s) : Spent z (forgetCommand s) := by
  simp (maxDischargeDepth := 30) [forgetCommand, h]

@[simp] theorem spent_stopRunning (code : Code) (q : StopReq) (s : State) (h : Spent z s) :
    Spent z (stopRunning code q s) := by
  unfold stopRunning
  split <;> simp (maxDischargeDepth := 30) [h]

@[simp] theorem spent_enterLowHalt (s : State) (h : Spent z s) : Spent z (enterLowHalt s) := by
  unfold enterLowHalt
  refine spent_updateWait _ (spent_stopRunning _ _ _ (spent_foldl _ (fun s c h => spent_removeWaiting c s h) _ _ ?_))
  exact spent_modLink _ _ (spent_modPower _ _ (fun _ => rfl) h)

@[simp] theorem spent_lowHaltCheck (s : State) (h : Spent z s) : Spent z (lowHaltCheck s) := by
  simp (maxDischargeDepth := 30) [lowHaltCheck, h]

@[simp] theorem spent_endStuckPause (s : State) (h : Spent z s) : Spent z (endStuckPause s) := by
  unfold endStuckPause
  (repeat' split) <;> simp (maxDischargeDepth := 30) [h]

@[simp] theorem spent_judgePause (s : State) (h : Spent z s) : Spent z (judgePause s) := by
  unfold judgePause
  (repeat' split) <;> simp (maxDischargeDepth := 30) [h]

@[simp] theorem spent_startWalk (s : State) (h : Spent z s) : Spent z (startWalk s) := by
  unfold startWalk
  repeat' (first | (simp (maxDischargeDepth := 30) [h]; done) | split | dsimp only)

theorem spent_requeueMany (bs : List Nat) (s : State) (h : Spent z s) : Spent z (requeueMany bs s) :=
  spent_of_unfreed (unfreed_requeueMany bs s) h

/-- No mount goes on, so that the follow-up work of an event is none of the mount's. -/
theorem spent_finish (s : State) (h : Spent z s) : Spent z (finish s) := by
  have hdrained := spent_drainDead drainFuel _ (spent_startWalk s h)
  obtain ⟨-, -, -, hmount⟩ := id hdrained
  unfold finish
  rw [mountPump_none _ hmount]
  exact spent_updateWait _ (spent_lowHaltCheck _ (spent_judgePause _ hdrained))

theorem spent_retire {b : Blk} {r : BlockRec} {s : State} (hs : Still s) (hr : s.block b = some r) : Spent b (retire b s) := by
  obtain ⟨hblock, hfree, -, -⟩ := retire_spec b hs
  refine ⟨?_, hfree, ?_, hs.mount⟩
  · rw [show (retire b s).flash.stateOf b = ((retire b s).block b).map BlockRec.st from rfl, hblock, hr]
    rfl
  · show b ∉ s.flash.pendingRec.filter (· != b)
    simp

end Sys2Proof.Machine
end

section
/-!
PROOFS. A page at its written point as a program ends on it, with no follow-up work standing (R61, R62, R103, R105, R107).
-/
namespace Sys2Proof.Machine

/-- The state in which a page that needs no read-back is handed: its program has ended, and its buffer has the reported and the
handed mark. -/
def State.handing (s : State) (d b : Nat) (x : Buf) : State :=
  (clearOp d s).setBuf b (some { x with reported := true, handed := true })

/-- What leaves the written point of a page, whatever the line store made of it. -/
def WrittenAt (d b : Nat) (x : Buf) (a : Addr) (s t : State) : Prop :=
  Released b x a s t ∧ ((t.die d).bind Die.op) = none ∧
    (∀ c, c ≠ b → (a.page % 2 = 1 → s.bufAt .retained { a with page := a.page - 1 } ≠ some c) → t.buf c = s.buf c) ∧
    t.settings = s.settings ∧ t.gauge = s.gauge ∧ t.motion = s.motion ∧ t.power = s.power ∧ t.link = s.link

theorem handStill_handing {n d b : Nat} {x : Buf} {s : State} (hs : HandStill n s) : HandStill n (s.handing d b x) :=
  hs.of hs.2.1 rfl rfl rfl rfl (fun c => ready_clearOp d c s) rfl rfl

theorem OnlyStaging.still {s t : State} (h : OnlyStaging s t) (hs : Still s) : Still t := by
  rw [h]
  exact still_congr hs rfl rfl rfl rfl (fun _ => rfl) rfl hs.notPausing rfl

section
variable {d b : Nat} {x : Buf} {a : Addr} {s v : State} (hx : s.buf b = some x) (hexp : x.exposed = false)
  (hhanded : x.handed = false) (hreported : x.reported = false) (ht : x.target = some a) (ha : isAnchor a.blk = false)
  (hq : s.staging.requests = []) (hv : handPage x a true (s.handing d b x) = v) (hframe : IndexFrame (s.handing d b x) v)
include hx hexp hhanded hreported ht ha hq hv hframe

/-- A page whose handing moves the line store, the references and the reads alone leaves its written point (R61, R62). -/
theorem writtenPoint_first : OnlyStaging v (writtenPoint b (clearOp d s)) ∧
    (writtenPoint b (clearOp d s)).staging.requests = [] ∧ WrittenAt d b x a s (writtenPoint b (clearOp d s)) := by
  have hstaging : v.staging = (s.handing d b x).staging := by
    obtain ⟨st, bl, rd, rt, rfl⟩ := hframe; rfl
  have hdies : v.flash.dies = (clearOp d s).flash.dies := by
    obtain ⟨st, bl, rd, rt, rfl⟩ := hframe; rfl
  have hfirst : v = if x.handed then s.handing d b x else handPage x a (!x.reported) (s.handing d b x) := by
    rw [hhanded, hreported]
    exact hv.symm
  obtain ⟨honly, ⟨r1, r2, r3, r4, r5⟩, hreq, hothers⟩ :=
    writtenPoint_quiet (u := clearOp d s) hx ht hfirst hstaging hq ha hdies hexp
  refine ⟨honly, hreq, ⟨fun hp hh => r1 hp ?_, fun hp hh => r2 hp ?_, r3, r4, r5⟩, ?_, hothers, ?_⟩
  · rw [active_clearOp]; exact hh
  · rw [active_clearOp]; exact hh
  · have hdie : (writtenPoint b (clearOp d s)).flash.dies = (clearOp d s).flash.dies := by rw [honly, ← hdies]
    simp only [State.die, hdie]
    exact op_clearOp d s
  · rw [honly]
    obtain ⟨st, bl, rd, rt, rfl⟩ := hframe
    exact ⟨rfl, rfl, rfl, rfl, rfl⟩

/-- The next state of a program whose handing leaves `v`: `v` with its staging and wait line moved. -/
theorem firstHanding_next {done : Host.Outcome State Fault Refusal} {P : State → Prop}
    (hdone : done = .next (finish (writtenPoint b (clearOp d s)))) (hstill : Still v)
    (hP : ∀ g w, P { v with staging := g, intake := { v.intake with wait := w } }) :
    ∃ t, done = .next t ∧ P t ∧ WrittenAt d b x a s t := by
  obtain ⟨honly, -, hwritten⟩ := writtenPoint_first hx hexp hhanded hreported ht ha hq hv hframe
  have hfin : finish (writtenPoint b (clearOp d s)) = updateWait (writtenPoint b (clearOp d s)) :=
    finish_still _ (honly.still hstill)
  have hPt : P (updateWait (writtenPoint b (clearOp d s))) := by
    rw [honly.wait]
    exact hP _ _
  exact ⟨_, by rw [hdone, hfin], hPt, hwritten⟩

end

section
variable {d b : Nat} {x : Buf} {a : Addr} {s : State} {done : Host.Outcome State Fault Refusal} (hx : s.buf b = some x)
  (hexp : x.exposed = false) (hhanded : x.handed = false) (hreported : x.reported = false) (ht : x.target = some a)
  (ha : isAnchor a.blk = false) (hs : HandStill x.hdr.line s)
  (hdone : done = .next (finish (writtenPoint b (clearOp d s))))
include hx hexp hhanded hreported ht ha hs hdone

/-- An index page at its written point (R103, R105, R107). -/
theorem indexWritten_first : IndexWritten (fun P => ∃ t, done = .next t ∧ P t ∧ WrittenAt d b x a s t) x a s := by
  have hsw : HandStill x.hdr.line (s.handing d b x) := handStill_handing hs
  have hready : ∀ c, (s.handing d b x).dieReady c = s.dieReady c := fun c => ready_clearOp d c s
  have hnext := fun (v : State) (P : State → Prop) (hv : handPage x a true (s.handing d b x) = v)
      (hframe : IndexFrame (s.handing d b x) v) =>
    firstHanding_next (P := P) hx hexp hhanded hreported ht ha hs.2.1 hv hframe hdone
  unfold IndexWritten
  intro n copy root l hl hload hpend
  refine ⟨fun hk => ⟨fun k f es hjob hbody hst hf hckpt hroom => ?_, fun k old w hjob hrw => ⟨fun hst hroom => ?_,
    fun c hst hc hcr hpool hroots hroom => ?_⟩⟩, fun hk hdones => ⟨fun hjob hbody hst hout hrewrite hroom => ?_,
    fun old w c hjob hst hc hrw hroom => ?_⟩⟩
  · obtain ⟨h, hframe, hstill⟩ := handPage_flush hsw hk hjob hbody ha hl hload hst hf hpend hckpt hroom
    exact hnext _ _ rfl hframe hstill fun _ _ => h
  · obtain ⟨h, hframe, hstill⟩ := handPage_rewriteOpen hsw hk hjob hrw ha hl hload hst hpend hroom
    exact hnext _ _ rfl hframe hstill fun _ _ => h
  · obtain ⟨h, hframe, hstill⟩ := handPage_rewriteClosed hsw hk hjob hrw ha hl hload hst hpend hc
      ((hready _).trans hcr) hpool hroots hroom
    exact hnext _ _ rfl hframe hstill fun _ _ => h
  · obtain ⟨hplain, hbuilt⟩ := handPage_closeRoot hsw hk hjob hbody ha hl hload hst hout hrewrite hdones hroom
    refine ⟨fun hf => ?_, fun f r hf hfb href hopen hnone => ?_⟩
    · obtain ⟨h, hframe, hstill⟩ := hplain hf
      exact hnext _ _ rfl hframe hstill fun _ _ => h
    · obtain ⟨h, hframe, hstill⟩ := hbuilt f r hf hfb href hopen hnone
      exact hnext _ _ rfl hframe hstill fun _ _ => h
  · obtain ⟨h, hframe, hstill⟩ := handPage_rootRewrite hsw hk hjob ha hl hload hst hc hrw hdones hroom
    exact hnext _ _ rfl hframe hstill fun _ _ => h

end

end Sys2Proof.Machine
end

section
/-!
PROOFS. Programs that end: a page to be read back, a page at its written point, and a program that fails (R61, R62, R79, R82).
-/
namespace Sys2Proof.Machine

/-! ## A block written to its end (R62) -/

/-- Block `k` is FULL and its die programs it no more. -/
def State.filled (s : State) (k : Blk) : State :=
  (s.modBlock k fun r => { r with st := .full }).modDie k.die fun d => { d with
    active := d.active.filter fun t => t.block != k.block, due := d.due.filter (· != k.block) }

theorem block_filled (s : State) (k c : Blk) :
    (s.filled k).block c = (s.block c).map fun r => if c = k then { r with st := .full } else r :=
  block_modBlock k c _ (by intro r; rfl) s

theorem kept_filled (s : State) (k : Blk) : (s.filled k).kept = s.kept := by
  refine (kept_modDie _ _ _ ?_).trans (kept_modBlock _ _ _)
  exact fun _ => rfl

theorem active_filled {s : State} {k : Blk} {y : Active} (hy : ((s.filled k).die k.die).bind Die.active = some y) :
    y.block ≠ k.block := by
  unfold State.filled at hy
  rw [die_modDie] at hy
  cases hx : (s.modBlock k fun r => { r with st := .full }).die k.die with
  | none => simp [hx] at hy
  | some x =>
    rw [hx] at hy
    have hkept : x.active = some y ∧ ¬y.block = k.block := by simpa using hy
    exact hkept.2

/-- An ACTIVE block with a page in use that is FULL: its RETAINED buffers are freed, and it is not reclaimed (R71). -/
theorem blockFull_active {k : Blk} {r : BlockRec} {s : State} (hr : s.block k = some r) (hst : r.st = .active)
    (hlive : r.live ≠ 0) : ∃ bs : List Nat, blockFull k s = bs.foldl (fun u c => freeBuf c u) (s.filled k) := by
  unfold blockFull
  rw [hr]
  dsimp only
  rw [if_neg (not_not.mpr hst), if_neg (by simp [hlive])]
  exact ⟨_, rfl⟩

theorem blockFull_inactive {k : Blk} {r : BlockRec} {s : State} (hr : s.block k = some r) (hst : r.st ≠ .active) :
    blockFull k s = s := by
  unfold blockFull
  rw [hr]
  exact if_pos hst

/-! ## A new entry (R96) -/

theorem indexFrame_newEntry (h : PageHdr) (a : Addr) (s : State) : IndexFrame s (newEntry h a s) := by
  unfold newEntry
  split
  · exact ⟨_, _, _, _, rfl⟩
  · unfold refUp
    split <;> exact ⟨_, _, _, _, rfl⟩

theorem newEntry_still {h : PageHdr} {a : Addr} {s : State} (hs : Still s) : Still (newEntry h a s) := by
  unfold newEntry
  split
  · exact still_congr hs rfl rfl rfl rfl (fun _ => rfl) rfl hs.notPausing rfl
  · unfold refUp
    split <;> exact still_congr hs rfl rfl rfl rfl (fun _ => rfl) rfl hs.notPausing rfl

theorem st_newEntry (h : PageHdr) (a : Addr) (s : State) (c : Blk) :
    ((newEntry h a s).block c).map BlockRec.st = (s.block c).map BlockRec.st := by
  unfold newEntry refUp
  split
  · rfl
  · split
    · rfl
    · rw [block_modBlock _ _ _ (by intro r; rfl)]
      show ((s.block c).map _).map BlockRec.st = _
      cases s.block c with
      | none => rfl
      | some r => simp only [Option.map_some]; split <;> rfl

/-! ## How a program ends -/

section
variable {d b : Nat} {a : Addr} {o : Op} {x : Buf} {s : State} (hop : (s.die d).bind Die.op = some o)
  (hkind : o.kind = .program b a) (hx : s.buf b = some x)

include hop hkind hx in
theorem programComplete_eq (pass : Bool) : exec (.programComplete d pass) s =
    .next (finish (if pass then programPass b x a (clearOp d s) else programFail b a (clearOp d s))) := by
  have hexec : exec (.programComplete d pass) s = .next (programDone d pass s) := rfl
  have hbuf : (clearOp d s).buf b = some x := hx
  rw [hexec, programDone, hop]
  dsimp only
  rw [hkind]
  dsimp only
  rw [hbuf]

theorem needsReadback_iff : needsReadback x s = true ↔
    (s.careful = true ∨ s.verifyAlways = true ∨ isAnchorKind x.hdr.kind = true) ∨ x.exposed = true := by
  simp only [needsReadback, Bool.or_eq_true]
  tauto

/-- A page short of its block's last that is to be read back (R79). -/
theorem programPass_readback (hneeds : needsReadback x s = true) (hpage : a.page ≠ 255) :
    programPass b x a s = (if x.exposed then drawLower a s else s).setVerifying b := by
  simp [programPass, hneeds, hpage]

/-- A page that is at its written point as its program ends (R61). -/
theorem programPass_written (hneeds : needsReadback x s = false) (ha : isAnchor a.blk = false) : programPass b x a s =
    if a.page = 255 then blockFull a.blk (writtenPoint b s) else writtenPoint b s := by
  simp [programPass, hneeds, ha]

theorem drawLower_even (hpage : a.page % 2 = 0) : drawLower a s = s := by
  simp [drawLower, hpage]

/-- An exposed upper page draws its RETAINED lower page with it (R79). -/
theorem drawLower_odd {l : Nat} (hpage : a.page % 2 = 1) (hl : s.bufAt .retained { a with page := a.page - 1 } = some l) :
    drawLower a s = s.modStaging fun t => { t with
      bufs := t.bufs.modify l (Option.map fun y => { y with st := .verifying, exposed := true })
      queue := t.queue.filter (· != l), verifying := t.verifying ++ [l] } := by
  unfold drawLower
  rw [if_pos (by simp [hpage]), hl]
  simp only [State.setVerifying, State.modBuf, State.modStaging, List.modify_modify_eq, Option.map_comp_map]
  rfl

theorem still_modStaging {f : Staging → Staging} (hs : Still s) : Still (s.modStaging f) :=
  still_congr hs rfl rfl rfl rfl (fun _ => rfl) rfl hs.notPausing rfl

theorem still_setVerifying (hs : Still s) : Still (s.setVerifying b) :=
  still_modStaging (still_modStaging hs)

/-! ## A DATA page that needs no read-back -/

section
variable {l : Line} {r : BlockRec} (hexp : x.exposed = false) (hhanded : x.handed = false) (hreported : x.reported = false)
  (ht : x.target = some a) (ha : isAnchor a.blk = false) (hs : HandStill x.hdr.line s) (hk : x.hdr.kind = .data)
  (hj : x.job = .intake) (horigin : x.origin ≠ .relocation) (hl : s.line x.hdr.line = some l) (hi : l.indexing = true)
include hx hexp hhanded hreported ht ha hs hk hj horigin hl hi

/-- At its written point a DATA page is a new entry, of a block whose state stands (R96). -/
theorem dataWritten : Entered x.hdr a l s (writtenPoint b (clearOp d s)) ∧ WrittenAt d b x a s (writtenPoint b (clearOp d s)) ∧
    (writtenPoint b (clearOp d s)).staging.requests = [] ∧ Still (writtenPoint b (clearOp d s)) ∧
    ∀ c, ((writtenPoint b (clearOp d s)).block c).map BlockRec.st = (s.block c).map BlockRec.st := by
  obtain ⟨heq, hentered⟩ := handPage_entered (handStill_handing hs) hk (.inl hj) horigin ha hl hi
  obtain ⟨honly, hreq, hwritten⟩ :=
    writtenPoint_first (d := d) hx hexp hhanded hreported ht ha hs.2.1 heq (indexFrame_newEntry _ _ _)
  rw [heq] at hentered
  refine ⟨?_, hwritten, hreq, honly.still (newEntry_still (handStill_handing hs).1), fun c => ?_⟩
  · rw [honly]; exact hentered
  · rw [honly]; exact st_newEntry _ _ _ c

include hop hkind in
/-- Short of its block's last page, nothing but the entry follows. -/
theorem dataPassed (hneeds : needsReadback x s = false) (hpage : a.page ≠ 255) :
    ∃ t, exec (.programComplete d true) s = .next t ∧ Entered x.hdr a l s t ∧ WrittenAt d b x a s t ∧
      ∀ c, (t.block c).map BlockRec.st = (s.block c).map BlockRec.st := by
  obtain ⟨hentered, hwritten, -, hstill, hst⟩ :=
    dataWritten (d := d) hx hexp hhanded hreported ht ha hs hk hj horigin hl hi
  refine ⟨updateWait (writtenPoint b (clearOp d s)), ?_, hentered, hwritten, hst⟩
  rw [programComplete_eq hop hkind hx, if_pos rfl, programPass_written (s := clearOp d s) hneeds ha, if_neg hpage,
    finish_still _ hstill]

/-- With its block's last page, an ACTIVE block is FULL, and its die programs another (R62, R71). -/
theorem blockFilled (hr : s.block a.blk = some r) (hst : r.st = .active) (hd : a.die = d) (hpage : a.page = 255) :
    let t := blockFull a.blk (writtenPoint b (clearOp d s))
    Still t ∧ Entered x.hdr a l s t ∧ Released b x a s t ∧ ((t.die d).bind Die.op) = none ∧
      (t.block a.blk).map BlockRec.st = some .full ∧
      (∀ y, (t.die d).bind Die.active = some y → y.block ≠ a.block) ∧
      t.settings = s.settings ∧ t.gauge = s.gauge ∧ t.motion = s.motion ∧ t.power = s.power ∧ t.link = s.link := by
  obtain ⟨hentered, ⟨⟨-, -, hupper, hqueue, hverifying⟩, hopNone, -, hvalues⟩, hreq, hstill, hstates⟩ :=
    dataWritten (d := d) hx hexp hhanded hreported ht ha hs hk hj horigin hl hi
  let w := writtenPoint b (clearOp d s)
  obtain ⟨q, hq, hqst, hqlive⟩ : ∃ q, w.block a.blk = some q ∧ q.st = .active ∧ q.live ≠ 0 := by
    have hstate := hstates a.blk
    have hlive := hentered.2.2 a.blk
    rw [hr] at hstate hlive
    obtain ⟨q, hq, hqst⟩ := Option.map_eq_some_iff.mp hstate
    rw [hq, Option.map_some, Option.map_some, if_pos rfl] at hlive
    refine ⟨q, hq, hqst.trans hst, ?_⟩
    have := Option.some.inj hlive
    omega
  obtain ⟨bs, hfull⟩ := blockFull_active hq hqst hqlive
  obtain ⟨honly, -, hnone, -, -, hqueue', hverifying'⟩ := foldl_freeBuf_only bs (s := w.filled a.blk) hreq
  rw [← hfull] at honly hnone hqueue' hverifying'
  have hblock : ∀ c, (blockFull a.blk w).block c = (w.block c).map fun r => if c = a.blk then { r with st := .full } else r := by
    intro c
    rw [honly]
    exact block_filled w a.blk c
  have hdie : (blockFull a.blk w).die d = (w.filled a.blk).die d := by rw [honly]; rfl
  have hfilled : Still (w.filled a.blk) := still_of_table hstill (kept_filled w a.blk) rfl rfl rfl rfl rfl rfl
  refine ⟨honly.still hfilled, ?_, ⟨fun hp => by omega, fun hp => by omega, fun hp => ?_, hqueue' b hqueue, hverifying' b hverifying⟩,
    ?_, ?_, fun y hy => ?_, ?_⟩
  · refine hentered.congr rfl rfl (by rw [honly]; rfl) fun c => ?_
    rw [hblock c, Option.map_map]
    congr 1
    funext r
    simp only [Function.comp_apply]
    split <;> rfl
  · obtain ⟨hb, hlower⟩ := hupper hp
    exact ⟨hnone b hb, fun c hc => hnone c (hlower c hc)⟩
  · rw [hdie]
    exact (op_of_kept (kept_filled w a.blk) d).trans hopNone
  · rw [hblock, hq]
    simp
  · rw [hdie, ← hd] at hy
    exact active_filled hy
  · rw [honly]
    exact hvalues

include hop hkind in
/-- The last page of a block is entered as any other, and an ACTIVE block is FULL by it (R62). -/
theorem lastPassed (hneeds : needsReadback x s = false) (hr : s.block a.blk = some r) (hd : a.die = d) (hpage : a.page = 255) :
    ∃ t, exec (.programComplete d true) s = .next t ∧ Entered x.hdr a l s t ∧ Released b x a s t ∧
      ((t.die d).bind Die.op) = none ∧
      (r.st = .active → (t.block a.blk).map BlockRec.st = some .full ∧
        ∀ y, (t.die d).bind Die.active = some y → y.block ≠ a.block) ∧
      t.settings = s.settings ∧ t.gauge = s.gauge ∧ t.motion = s.motion ∧ t.power = s.power ∧ t.link = s.link := by
  have hnext : exec (.programComplete d true) s = .next (finish (blockFull a.blk (writtenPoint b (clearOp d s)))) := by
    rw [programComplete_eq hop hkind hx, if_pos rfl, programPass_written (s := clearOp d s) hneeds ha, if_pos hpage]
  by_cases hst : r.st = .active
  · obtain ⟨hstill, hentered, hreleased, hopNone, hfull, hactive, hvalues⟩ :=
      blockFilled hx hexp hhanded hreported ht ha hs hk hj horigin hl hi hr hst hd hpage
    exact ⟨_, hnext.trans (congrArg _ (finish_still _ hstill)), hentered, hreleased, hopNone, fun _ => ⟨hfull, hactive⟩, hvalues⟩
  · obtain ⟨hentered, ⟨hreleased, hopNone, -, hvalues⟩, -, hstill, hstates⟩ :=
      dataWritten (d := d) hx hexp hhanded hreported ht ha hs hk hj horigin hl hi
    obtain ⟨q, hq, hqst⟩ := Option.map_eq_some_iff.mp ((hstates a.blk).trans (congrArg _ hr))
    rw [blockFull_inactive hq (hqst ▸ hst)] at hnext
    exact ⟨_, hnext.trans (congrArg _ (finish_still _ hstill)), hentered, hreleased, hopNone, fun h => absurd h hst, hvalues⟩

end

/-! ## A program that fails (R82) -/

/-- What follows the block's retirement moves neither it nor the dies' operations. -/
theorem programFail_spent {r : BlockRec} (hs : Still s) (ha : isAnchor a.blk = false) (hr : s.block a.blk = some r) :
    Spent a.blk (programFail b a s) ∧ (programFail b a s).kept = s.kept := by
  obtain ⟨bs, hfail⟩ : ∃ bs, programFail b a s =
      judgeSpace (raiseMedia a.blk .programFail (refreshHead a.blk (requeueMany bs (retire a.blk s)))) := by
    unfold programFail
    rw [if_neg (by simp [ha])]
    exact ⟨_, rfl⟩
  rw [hfail]
  refine ⟨spent_judgeSpace _ (spent_raiseMedia _ _ _ (spent_setRefresh _ _ (spent_requeueMany _ _ (spent_retire hs hr)))), ?_⟩
  rw [kept_judgeSpace]
  refine (kept_raiseNotice _ _ _).trans ?_
  obtain ⟨-, -, -, hkept⟩ := retire_spec a.blk hs
  exact (kept_requeueMany _ _).trans hkept

end

end Sys2Proof.Machine

namespace Sys2Proof
open Machine

/-- Settles O49: a page to be read back and a program that fails are each one state; a page at its written point is handed, and
no follow-up work stands where it ends. -/
theorem programsEndInAReadBackOrARetiredBlock : Obligations.ProgramsEndInAReadBackOrARetiredBlock := by
  unfold Obligations.ProgramsEndInAReadBackOrARetiredBlock
  intro d b a o x s hop hkind hx passed verified lower verifies toVerify
  have hpassed : passed = .next (finish (programPass b x a (clearOp d s))) := programComplete_eq hop hkind hx true
  have hwritten : x.exposed = false → ¬verified → needsReadback x s = false := by
    intro hexp hv
    rw [← Bool.not_eq_true, needsReadback_iff]
    rintro (h | h)
    · exact hv h
    · rw [hexp] at h; cases h
  refine ⟨fun hs hcase hpage => ?_, fun hs hexp hodd hpage l hl => ?_,
    fun hs hexp hv ht hd ha hk hreported hhanded horigin hj l r hl hi hr => ?_,
    fun hs hexp hv ht ha hpage hreported hhanded => ?_, fun hs ha r hr => ?_⟩
  · have hneeds : needsReadback x (clearOp d s) = true :=
      needsReadback_iff.mpr (hcase.imp (fun h => h.2) (fun h => h.1))
    have hdraw : (if x.exposed then drawLower a (clearOp d s) else clearOp d s) = clearOp d s := by
      rcases hcase with ⟨hexp, -⟩ | ⟨-, heven⟩
      · rw [hexp]; rfl
      · rw [drawLower_even heven, ite_self]
    show passed = _
    rw [hpassed, programPass_readback hneeds hpage, hdraw, finish_still _ (still_setVerifying (still_clearOp hs))]
    rfl
  · have hneeds : needsReadback x (clearOp d s) = true := needsReadback_iff.mpr (.inr hexp)
    show passed = _
    rw [hpassed, programPass_readback hneeds hpage, if_pos hexp, drawLower_odd (s := clearOp d s) hodd hl,
      finish_still _ (still_setVerifying (still_modStaging (still_clearOp hs)))]
    simp [State.setVerifying, State.modBuf, State.modStaging, clearOp, State.modDie, State.modFlash, toVerify]
  · have hneeds := hwritten hexp hv
    by_cases hpage : a.page = 255
    · obtain ⟨t, hnext, hentered, hreleased, hopNone, hfull, hvalues⟩ :=
        lastPassed hop hkind hx hexp hhanded hreported ht ha hs hk hj horigin hl hi hneeds hr hd hpage
      exact ⟨t, hnext, hentered, hreleased, hopNone, fun h => absurd hpage h, fun _ => hfull, hvalues⟩
    · obtain ⟨t, hnext, hentered, ⟨hreleased, hopNone, hothers, hvalues⟩, hstates⟩ :=
        dataPassed hop hkind hx hexp hhanded hreported ht ha hs hk hj horigin hl hi hneeds hpage
      exact ⟨t, hnext, hentered, hreleased, hopNone, fun _ => ⟨hothers, (hstates a.blk).trans (congrArg _ hr)⟩,
        fun h => absurd h hpage, hvalues⟩
  · refine indexWritten_first (done := passed) hx hexp hhanded hreported ht ha hs ?_
    rw [hpassed, programPass_written (s := clearOp d s) (hwritten hexp hv) ha, if_neg hpage]
  · obtain ⟨hspent, hkept⟩ := programFail_spent (b := b) (s := clearOp d s) (still_clearOp hs) ha hr
    have hfinal := (kept_finish (programFail b a (clearOp d s))).trans hkept
    obtain ⟨hretired, -⟩ := spent_finish _ hspent
    obtain ⟨hsettings, -, -, hclock⟩ := values_of_kept hfinal
    exact ⟨_, programComplete_eq hop hkind hx false, hretired, (op_of_kept hfinal d).trans (op_clearOp d s), hsettings, hclock⟩

end Sys2Proof
end
